-- ==== Sys2Proof/Word.lean ====
section
/-! DEFINITION. The machine's bit vectors: byte, word and physical address (spec/00_scope.md R6, spec/10_state.md R21, spec/20_memory.md R60, R61). -/

namespace Sys2Proof

/-- A byte: 8 bits (spec/20_memory.md R61). -/
abbrev Byte := BitVec 8

/-- A word: 16 bits, two consecutive bytes (spec/00_scope.md R6, spec/20_memory.md R61). Also every 16-bit register and offset. -/
abbrev Word := BitVec 16

/-- A physical memory address: 20 bits, `ADDR_WIDTH` of spec/00_scope.md R5 (spec/20_memory.md R60). -/
abbrev PAddr := BitVec 20

end Sys2Proof
end

