-- ==== Sys2Proof/Machine/Bits.lean ====
section
/-! DEFINITION. Halves and extensions of words (spec/00_scope.md R8, spec/20_memory.md R65). -/

namespace Sys2Proof

/-- `v[7:0]`. -/
def lowByte (v : Word) : Byte := v.setWidth 8

/-- `v[15:8]`. -/
def highByte (v : Word) : Byte := (v >>> 8).setWidth 8

/-- `hi ++ lo`, the word with these halves: stored low byte first (spec/20_memory.md R64, R65). -/
def wordOf (hi lo : Byte) : Word := hi ++ lo

/-- `sext_16` of a byte. -/
def sext16 (b : Byte) : Word := b.signExtend 16

/-- `zext_16` of a byte. -/
def zext16 (b : Byte) : Word := b.setWidth 16

end Sys2Proof
end

