-- ==== Sys2Proof/Syntax/Operand.lean ====
section
/-! DEFINITION. The operand fields of an instruction (spec/30_encoding.md R93 to R106, R125), each as names instead of bits. -/

namespace Sys2Proof

/-- The W bit (spec/30_encoding.md R94): `byte` is W = 0, `word` is W = 1. -/
inductive Width where
  | byte
  | word
deriving DecidableEq, Repr

/-- The D bit (spec/30_encoding.md R93): `toRm` is D = 0 (REG is the source), `toReg` is D = 1 (REG is the destination). -/
inductive Dir where
  | toRm
  | toReg
deriving DecidableEq, Repr

/-- The v bit of the shift group (spec/30_encoding.md R125): `one` is v = 0, `cl` is v = 1. -/
inductive Count where
  | one
  | cl
deriving DecidableEq, Repr

/-- The eight codes 000 to 111 of a REG field, or of R/M under MOD = 11, under the word names of spec/10_state.md R21.
In a byte operation the same codes name AL CL DL BL AH CH DH BH, in this order (spec/10_state.md R22). -/
inductive RegCode where
  | ax | cx | dx | bx | sp | bp | si | di
deriving DecidableEq, Repr

/-- The four SR codes 00 to 11 (spec/10_state.md R26, spec/30_encoding.md R105). -/
inductive SegReg where
  | es | cs | ss | ds
deriving DecidableEq, Repr

/-- The base and index sum that R/M codes 000 to 111 name in a memory operand (spec/30_encoding.md R99, R108). -/
inductive AddrBase where
  | bxSi | bxDi | bpSi | bpDi | si | di | bp | bx
deriving DecidableEq, Repr

/-- The operand that MOD and R/M name, with its displacement (spec/30_encoding.md R96, R99 to R102). -/
inductive RM where
  /-- MOD = 11: a register. -/
  | reg (c : RegCode)
  /-- MOD = 00, R/M = 110: the address is in the instruction (R100). -/
  | direct (addr : Word)
  /-- MOD = 00, R/M other than 110: no displacement. -/
  | base (b : AddrBase)
  /-- MOD = 01: a one-byte displacement, sign-extended when it is added (R102). -/
  | disp8 (b : AddrBase) (d : Byte)
  /-- MOD = 10: a two-byte displacement. -/
  | disp16 (b : AddrBase) (d : Word)
deriving DecidableEq, Repr

/-- The six status flags an instruction may leave undefined (spec/93_implementation_defined.md U1). -/
inductive StatusFlag where
  | CF | PF | AF | ZF | SF | OF
deriving DecidableEq, Repr

end Sys2Proof
end

