-- ==== Sys2Proof/Config.lean ====
section
/-! DEFINITION. The implementation parameters of spec/00_scope.md R5 at the 8086's values (log 18), and the free values: constants without a body, so that nothing can be proved of what they are (logs 4, 5, 11). -/

namespace Sys2Proof

/-- `PREFETCH_DEPTH`: bytes of instruction queue that may hold stale code; 6 on the 8086 (spec/92_eei_decisions.md D13, D31; log 9). -/
def Config.prefetchDepth : Nat := 6

/-- `DATA_BUS`: width of the data bus; 16 on the 8086, where a word at an even address is one bus cycle
(spec/00_scope.md R5, spec/20_memory.md R68, spec/92_eei_decisions.md D31; log 17). -/
def Config.dataBus : Nat := 16

/-- `FLAGS_FIXED_ONES`: FLAGS bits that always read 1 (spec/10_state.md R32). -/
def Config.flagsFixedOnes : Word := 0xF002#16

/-- `FLAGS_FIXED_ZEROS`: FLAGS bits that always read 0 (spec/10_state.md R32). -/
def Config.flagsFixedZeros : Word := 0x0028#16

/-- `SHIFT_COUNT_MASK`: applied to CL in shifts and rotates; all eight bits count (spec/92_eei_decisions.md D21). -/
def Config.shiftCountMask : Byte := 0xFF#8

/-- `PUSH_SP_NEW`: PUSH SP stores the decremented SP (spec/92_eei_decisions.md D22). -/
def Config.pushSpNew : Bool := true

/-- `IDIV_MIN_QUOTIENT_FAULTS`: a quotient of -128 or -32768 raises interrupt 0 (spec/92_eei_decisions.md D20). -/
def Config.idivMinQuotientFaults : Bool := true

/-- `DIV_FAULT_IP_NEXT`: interrupt 0 saves the address of the instruction after the divide (spec/92_eei_decisions.md D19). -/
def Config.divFaultIpNext : Bool := true

/-- `REP_RESUME_LAST_PREFIX`: an interrupted repeat resumes at its last prefix byte (spec/92_eei_decisions.md D14). -/
def Config.repResumeLastPrefix : Bool := true

/-- `MAX_PREFIXES`: how many prefix bytes the decoder accepts (spec/92_eei_decisions.md D14). -/
def Config.maxPrefixes : Nat := 2

/-- The CS part of `RESET_VECTOR` (spec/92_eei_decisions.md D18). -/
def Config.resetCs : Word := 0xFFFF#16

/-- The IP part of `RESET_VECTOR` (spec/92_eei_decisions.md D18). -/
def Config.resetIp : Word := 0x0000#16

/-- Free value: what an instruction that leaves `flag` undefined writes there, at the draw numbered `n`
(spec/93_implementation_defined.md U1; log 4). -/
opaque Config.freeFlag : Nat → StatusFlag → Bool

/-- Free value: the byte a port supplies when the platform's queue holds none for it, at the draw numbered `n`
(spec/93_implementation_defined.md U4; log 5). -/
opaque Config.portByte : Nat → Word → Byte

/-- Free value: what a general register holds after the RESET line is used in the middle of a run, at the draw
numbered `n` (spec/70_reset_and_hazards.md R540, "keep no defined value"; log 11). -/
opaque Config.resetWord : Nat → RegCode → Word

end Sys2Proof
end

