-- ==== Sys2Proof/Syntax.lean ====
section
/-! DEFINITION. The instructions: one constructor for each of the 135 rows of spec/opcode_table.json, in the table's order
(spec/30_encoding.md R136). A field is what the encoding carries: `d`, `w`, `s`, `v` bits, the r/m operand with its
displacement, register codes, the immediate VALUE the instruction uses (already sign-extended under R118), branch fields.
The four prefix rows are instructions too: their meaning latches the prefix for the instruction that follows (log 8). -/

namespace Sys2Proof

/-- An instruction of the 8086/8, as spec/opcode_table.json lists them. -/
inductive Instr where
  -- Data transfer (spec/40_data_transfer.md)
  /-- MOV r/m,reg | reg,r/m: `100010dw mmrrrnnn` (R201). -/
  | movRmReg (d : Dir) (w : Width) (rm : RM) (r : RegCode)
  /-- MOV r/m,imm: `1100011w mm000nnn` (R202). -/
  | movRmImm (w : Width) (rm : RM) (imm : Word)
  /-- MOV reg,imm: `1011Wggg` (R203). -/
  | movRegImm (w : Width) (r : RegCode) (imm : Word)
  /-- MOV acc,[addr]: `1010000w` (R204). -/
  | movAccMem (w : Width) (addr : Word)
  /-- MOV [addr],acc: `1010001w` (R205). -/
  | movMemAcc (w : Width) (addr : Word)
  /-- MOV sreg,r/m16: `10001110 mm0SSnnn` (R206). -/
  | movSregRm (sr : SegReg) (rm : RM)
  /-- MOV r/m16,sreg: `10001100 mm0SSnnn` (R207). -/
  | movRmSreg (rm : RM) (sr : SegReg)
  /-- PUSH r/m16: `11111111 mm110nnn` (R208). -/
  | pushRm (rm : RM)
  /-- PUSH reg16: `01010ggg` (R209). -/
  | pushReg (r : RegCode)
  /-- PUSH sreg: `000SS110` (R210). -/
  | pushSreg (sr : SegReg)
  /-- POP r/m16: `10001111 mm000nnn` (R211). -/
  | popRm (rm : RM)
  /-- POP reg16: `01011ggg` (R212). -/
  | popReg (r : RegCode)
  /-- POP sreg: `000SS111` (R213). -/
  | popSreg (sr : SegReg)
  /-- XCHG r/m,reg: `1000011w mmrrrnnn` (R214). -/
  | xchgRmReg (w : Width) (rm : RM) (r : RegCode)
  /-- XCHG AX,reg16: `10010ggg` (R215). -/
  | xchgAxReg (r : RegCode)
  /-- IN acc,port8: `1110010w` (R216). -/
  | inPort (w : Width) (port : Byte)
  /-- IN acc,DX: `1110110w` (R217). -/
  | inDx (w : Width)
  /-- OUT port8,acc: `1110011w` (R218). -/
  | outPort (w : Width) (port : Byte)
  /-- OUT DX,acc: `1110111w` (R219). -/
  | outDx (w : Width)
  /-- XLAT: `11010111` (R220). -/
  | xlat
  /-- LEA reg16,mem: `10001101 mmrrrnnn` (R221). -/
  | lea (r : RegCode) (rm : RM)
  /-- LDS reg16,mem32: `11000101 mmrrrnnn` (R222). -/
  | lds (r : RegCode) (rm : RM)
  /-- LES reg16,mem32: `11000100 mmrrrnnn` (R223). -/
  | les (r : RegCode) (rm : RM)
  /-- LAHF: `10011111` (R224). -/
  | lahf
  /-- SAHF: `10011110` (R225). -/
  | sahf
  /-- PUSHF: `10011100` (R226). -/
  | pushf
  /-- POPF: `10011101` (R227). -/
  | popf
  -- Arithmetic (spec/41_arithmetic.md)
  /-- ADD r/m,reg | reg,r/m: `000000dw mmrrrnnn` (R241). -/
  | addRmReg (d : Dir) (w : Width) (rm : RM) (r : RegCode)
  /-- ADD r/m,imm: `100000sw mm000nnn` (R242). -/
  | addRmImm (s : Bool) (w : Width) (rm : RM) (imm : Word)
  /-- ADD acc,imm: `0000010w` (R243). -/
  | addAccImm (w : Width) (imm : Word)
  /-- ADC r/m,reg | reg,r/m: `000100dw mmrrrnnn` (R244). -/
  | adcRmReg (d : Dir) (w : Width) (rm : RM) (r : RegCode)
  /-- ADC r/m,imm: `100000sw mm010nnn` (R245). -/
  | adcRmImm (s : Bool) (w : Width) (rm : RM) (imm : Word)
  /-- ADC acc,imm: `0001010w` (R246). -/
  | adcAccImm (w : Width) (imm : Word)
  /-- INC r/m: `1111111w mm000nnn` (R247). -/
  | incRm (w : Width) (rm : RM)
  /-- INC reg16: `01000ggg` (R248). -/
  | incReg (r : RegCode)
  /-- AAA: `00110111` (R249). -/
  | aaa
  /-- DAA: `00100111` (R250). -/
  | daa
  /-- SUB r/m,reg | reg,r/m: `001010dw mmrrrnnn` (R251). -/
  | subRmReg (d : Dir) (w : Width) (rm : RM) (r : RegCode)
  /-- SUB r/m,imm: `100000sw mm101nnn` (R252). -/
  | subRmImm (s : Bool) (w : Width) (rm : RM) (imm : Word)
  /-- SUB acc,imm: `0010110w` (R253). -/
  | subAccImm (w : Width) (imm : Word)
  /-- SBB r/m,reg | reg,r/m: `000110dw mmrrrnnn` (R254). -/
  | sbbRmReg (d : Dir) (w : Width) (rm : RM) (r : RegCode)
  /-- SBB r/m,imm: `100000sw mm011nnn` (R255). -/
  | sbbRmImm (s : Bool) (w : Width) (rm : RM) (imm : Word)
  /-- SBB acc,imm: `0001110w` (R256). -/
  | sbbAccImm (w : Width) (imm : Word)
  /-- DEC r/m: `1111111w mm001nnn` (R257). -/
  | decRm (w : Width) (rm : RM)
  /-- DEC reg16: `01001ggg` (R258). -/
  | decReg (r : RegCode)
  /-- NEG r/m: `1111011w mm011nnn` (R259). -/
  | negRm (w : Width) (rm : RM)
  /-- CMP r/m,reg | reg,r/m: `001110dw mmrrrnnn` (R260). -/
  | cmpRmReg (d : Dir) (w : Width) (rm : RM) (r : RegCode)
  /-- CMP r/m,imm: `100000sw mm111nnn` (R261). -/
  | cmpRmImm (s : Bool) (w : Width) (rm : RM) (imm : Word)
  /-- CMP acc,imm: `0011110w` (R262). -/
  | cmpAccImm (w : Width) (imm : Word)
  /-- AAS: `00111111` (R263). -/
  | aas
  /-- DAS: `00101111` (R264). -/
  | das
  /-- MUL r/m: `1111011w mm100nnn` (R265). -/
  | mulRm (w : Width) (rm : RM)
  /-- IMUL r/m: `1111011w mm101nnn` (R266). -/
  | imulRm (w : Width) (rm : RM)
  /-- AAM: `11010100 00001010` (R267). -/
  | aam
  /-- DIV r/m: `1111011w mm110nnn` (R268). -/
  | divRm (w : Width) (rm : RM)
  /-- IDIV r/m: `1111011w mm111nnn` (R269). -/
  | idivRm (w : Width) (rm : RM)
  /-- AAD: `11010101 00001010` (R270). -/
  | aad
  /-- CBW: `10011000` (R271). -/
  | cbw
  /-- CWD: `10011001` (R272). -/
  | cwd
  -- Logic, shift and rotate (spec/42_logic.md)
  /-- NOT r/m: `1111011w mm010nnn` (R291). -/
  | notRm (w : Width) (rm : RM)
  /-- SHL_SAL r/m,1 | r/m,CL: `110100vw mm100nnn` (R292). -/
  | shl (v : Count) (w : Width) (rm : RM)
  /-- SHR r/m,1 | r/m,CL: `110100vw mm101nnn` (R293). -/
  | shr (v : Count) (w : Width) (rm : RM)
  /-- SAR r/m,1 | r/m,CL: `110100vw mm111nnn` (R294). -/
  | sar (v : Count) (w : Width) (rm : RM)
  /-- ROL r/m,1 | r/m,CL: `110100vw mm000nnn` (R295). -/
  | rol (v : Count) (w : Width) (rm : RM)
  /-- ROR r/m,1 | r/m,CL: `110100vw mm001nnn` (R296). -/
  | ror (v : Count) (w : Width) (rm : RM)
  /-- RCL r/m,1 | r/m,CL: `110100vw mm010nnn` (R297). -/
  | rcl (v : Count) (w : Width) (rm : RM)
  /-- RCR r/m,1 | r/m,CL: `110100vw mm011nnn` (R298). -/
  | rcr (v : Count) (w : Width) (rm : RM)
  /-- AND r/m,reg | reg,r/m: `001000dw mmrrrnnn` (R300). -/
  | andRmReg (d : Dir) (w : Width) (rm : RM) (r : RegCode)
  /-- AND r/m,imm: `1000000w mm100nnn` (R301). -/
  | andRmImm (w : Width) (rm : RM) (imm : Word)
  /-- AND acc,imm: `0010010w` (R302). -/
  | andAccImm (w : Width) (imm : Word)
  /-- TEST r/m,reg: `1000010w mmrrrnnn` (R303). -/
  | testRmReg (w : Width) (rm : RM) (r : RegCode)
  /-- TEST r/m,imm: `1111011w mm000nnn` (R304). -/
  | testRmImm (w : Width) (rm : RM) (imm : Word)
  /-- TEST acc,imm: `1010100w` (R305). -/
  | testAccImm (w : Width) (imm : Word)
  /-- OR r/m,reg | reg,r/m: `000010dw mmrrrnnn` (R306). -/
  | orRmReg (d : Dir) (w : Width) (rm : RM) (r : RegCode)
  /-- OR r/m,imm: `1000000w mm001nnn` (R307). -/
  | orRmImm (w : Width) (rm : RM) (imm : Word)
  /-- OR acc,imm: `0000110w` (R308). -/
  | orAccImm (w : Width) (imm : Word)
  /-- XOR r/m,reg | reg,r/m: `001100dw mmrrrnnn` (R309). -/
  | xorRmReg (d : Dir) (w : Width) (rm : RM) (r : RegCode)
  /-- XOR r/m,imm: `1000000w mm110nnn` (R310). -/
  | xorRmImm (w : Width) (rm : RM) (imm : Word)
  /-- XOR acc,imm: `0011010w` (R311). -/
  | xorAccImm (w : Width) (imm : Word)
  -- String manipulation and the repeat prefixes (spec/43_string.md)
  /-- REP_REPE_REPZ (prefix): `11110011` (R321). -/
  | rep
  /-- REPNE_REPNZ (prefix): `11110010` (R322). -/
  | repne
  /-- MOVS: `1010010w` (R323). -/
  | movs (w : Width)
  /-- CMPS: `1010011w` (R324). -/
  | cmps (w : Width)
  /-- SCAS: `1010111w` (R325). -/
  | scas (w : Width)
  /-- LODS: `1010110w` (R326). -/
  | lods (w : Width)
  /-- STOS: `1010101w` (R327). -/
  | stos (w : Width)
  -- Control transfer (spec/44_control_transfer.md)
  /-- CALL near rel16: `11101000` (R341). -/
  | callNear (inc : Word)
  /-- CALL r/m16 (indirect within segment): `11111111 mm010nnn` (R342). -/
  | callRm (rm : RM)
  /-- CALL far seg:off: `10011010` (R343). -/
  | callFar (newIp : Word) (newCs : Word)
  /-- CALL mem32 (indirect intersegment): `11111111 mm011nnn` (R344). -/
  | callMem (rm : RM)
  /-- RET (within segment): `11000011` (R345). -/
  | retNear
  /-- RET imm16 (within segment): `11000010` (R346). -/
  | retNearImm (n : Word)
  /-- RET (intersegment): `11001011` (R347). -/
  | retFar
  /-- RET imm16 (intersegment): `11001010` (R348). -/
  | retFarImm (n : Word)
  /-- JE_JZ rel8: `01110100` (R350). -/
  | je (inc : Byte)
  /-- JL_JNGE rel8: `01111100` (R351). -/
  | jl (inc : Byte)
  /-- JLE_JNG rel8: `01111110` (R352). -/
  | jle (inc : Byte)
  /-- JB_JNAE rel8: `01110010` (R353). -/
  | jb (inc : Byte)
  /-- JBE_JNA rel8: `01110110` (R354). -/
  | jbe (inc : Byte)
  /-- JP_JPE rel8: `01111010` (R355). -/
  | jp (inc : Byte)
  /-- JO rel8: `01110000` (R356). -/
  | jo (inc : Byte)
  /-- JS rel8: `01111000` (R357). -/
  | js (inc : Byte)
  /-- JNE_JNZ rel8: `01110101` (R358). -/
  | jne (inc : Byte)
  /-- JNL_JGE rel8: `01111101` (R359). -/
  | jnl (inc : Byte)
  /-- JNLE_JG rel8: `01111111` (R360). -/
  | jnle (inc : Byte)
  /-- JNB_JAE rel8: `01110011` (R361). -/
  | jnb (inc : Byte)
  /-- JNBE_JA rel8: `01110111` (R362). -/
  | jnbe (inc : Byte)
  /-- JNP_JPO rel8: `01111011` (R363). -/
  | jnp (inc : Byte)
  /-- JNO rel8: `01110001` (R364). -/
  | jno (inc : Byte)
  /-- JNS rel8: `01111001` (R365). -/
  | jns (inc : Byte)
  /-- JCXZ rel8: `11100011` (R366). -/
  | jcxz (inc : Byte)
  /-- JMP near rel16: `11101001` (R367). -/
  | jmpNear (inc : Word)
  /-- JMP short rel8: `11101011` (R368). -/
  | jmpShort (inc : Byte)
  /-- JMP r/m16 (indirect within segment): `11111111 mm100nnn` (R369). -/
  | jmpRm (rm : RM)
  /-- JMP far seg:off: `11101010` (R370). -/
  | jmpFar (newIp : Word) (newCs : Word)
  /-- JMP mem32 (indirect intersegment): `11111111 mm101nnn` (R371). -/
  | jmpMem (rm : RM)
  /-- LOOP rel8: `11100010` (R372). -/
  | loop (inc : Byte)
  /-- LOOPZ_LOOPE rel8: `11100001` (R373). -/
  | loopz (inc : Byte)
  /-- LOOPNZ_LOOPNE rel8: `11100000` (R374). -/
  | loopnz (inc : Byte)
  /-- INT type8: `11001101` (R375). -/
  | int (n : Byte)
  /-- INT3 (type 3): `11001100` (R376). -/
  | int3
  /-- INTO: `11001110` (R377). -/
  | into
  /-- IRET: `11001111` (R378). -/
  | iret
  -- Processor control and the LOCK and SEGMENT prefixes (spec/45_processor_control.md)
  /-- CLC: `11111000` (R401). -/
  | clc
  /-- CMC: `11110101` (R402). -/
  | cmc
  /-- STC: `11111001` (R403). -/
  | stc
  /-- CLD: `11111100` (R404). -/
  | cld
  /-- STD: `11111101` (R405). -/
  | std
  /-- CLI: `11111010` (R406). -/
  | cli
  /-- STI: `11111011` (R407). -/
  | sti
  /-- HLT: `11110100` (R408). -/
  | hlt
  /-- WAIT: `10011011` (R409). -/
  | wait
  /-- ESC ext-opcode,r/m: `11011xxx mmyyynnn` (R410). -/
  | esc (x : BitVec 3) (y : BitVec 3) (rm : RM)
  /-- LOCK (prefix): `11110000` (R411). -/
  | lock
  /-- SEGMENT (prefix) ES: CS: SS: DS:: `001SS110` (R412). -/
  | segment (sr : SegReg)
deriving DecidableEq, Repr

end Sys2Proof
end

