-- ==== Sys2Proof/Machine/State.lean ====
section
/-! DEFINITION. Everything the spec gives the machine (spec/10_state.md, spec/20_memory.md), the model's own fields beside
it (INVENTORY.md, "State"), the reasons a step can stop, and the state after reset. -/

namespace Sys2Proof.Machine

/-- The eight general registers, 16 bits each (spec/10_state.md R20, R21). The byte registers are their halves (R22). -/
structure Regs where
  ax : Word
  cx : Word
  dx : Word
  bx : Word
  sp : Word
  bp : Word
  si : Word
  di : Word
deriving DecidableEq, Repr

/-- The four segment registers (spec/10_state.md R26). -/
structure Segs where
  es : Word
  cs : Word
  ss : Word
  ds : Word
deriving DecidableEq, Repr

/-- The nine flags. The other bits of FLAGS hold no state (spec/10_state.md R30, R32). -/
structure Flags where
  CF : Bool
  PF : Bool
  AF : Bool
  ZF : Bool
  SF : Bool
  TF : Bool
  IF : Bool
  DF : Bool
  OF : Bool
deriving DecidableEq, Repr

/-- Memory: the bytes that differ from 00h, by rising physical address. Every other byte reads 00h (log 2). -/
abbrev Memory := List Host.Cell

/-- A range of addresses or ports, both ends included. -/
structure Span where
  lo : Nat
  hi : Nat
deriving DecidableEq, Repr

/-- The instruction in progress: what its prefixes latched and where it began (spec/10_state.md R28,
spec/30_encoding.md R115, spec/43_string.md R328, R329, spec/45_processor_control.md R412; log 8). -/
structure Current where
  /-- IP at the first byte, prefixes included. -/
  ip0 : Word
  /-- How many prefix bytes it has. -/
  nPrefix : Nat
  /-- The segment override, if it has one. -/
  seg : Option SegReg
  /-- The z bit of its repeat prefix, if it has one (spec/30_encoding.md R126). -/
  rep : Option Bool
deriving DecidableEq, Repr

/-- No instruction in progress: what `cur` holds between steps. -/
def Current.idle : Current := ⟨0, 0, none, none⟩

/-- Bytes that other bus masters write to memory together, each with its address, in order (spec/20_memory.md R76). -/
abbrev Burst := List (PAddr × Byte)

/-- The environment during one step (spec/92_eei_decisions.md D25; logs 6, 17): RESET, an edge on NMI, the INTR line
with the type the interrupt controller would supply, the TEST pin (`true` is active), and the memory writes of other bus
masters: those that land before the step, then one burst before each bus cycle of the CPU in it. -/
structure Lines where
  reset : Bool
  nmi : Bool
  intr : Option Byte
  test : Bool
  writes : Burst
  bursts : List Burst
deriving DecidableEq, Repr

/-- A byte the bus unit may already have fetched: its address, what it was when it could first be fetched, and whether
its address was stored to since (spec/20_memory.md R78; log 9). -/
structure Queued where
  addr : PAddr
  byte : Byte
  stored : Bool
deriving DecidableEq, Repr

/-- The machine's state. -/
structure State where
  /-- General registers (spec/10_state.md R20). -/
  regs : Regs
  /-- Segment registers (spec/10_state.md R26). -/
  segs : Segs
  /-- The instruction pointer. While an instruction executes it is `next_ip` (spec/10_state.md R28). -/
  ip : Word
  /-- The flags (spec/10_state.md R30). -/
  flags : Flags
  /-- The one-instruction interrupt shadow (spec/10_state.md R40, spec/60_exceptions.md R509). -/
  inhibit : Bool
  /-- Set by HLT (spec/10_state.md R40, spec/45_processor_control.md R408). -/
  halted : Bool
  /-- The NMI latch (spec/10_state.md R40, spec/60_exceptions.md R504). -/
  nmiPending : Bool
  /-- Set between two iterations of a repeated string instruction (spec/10_state.md R40, spec/43_string.md R328). -/
  inRepeat : Bool
  /-- The bus LOCK signal (spec/10_state.md R40, spec/45_processor_control.md R411). -/
  lock : Bool
  /-- The bytes the bus unit may already have fetched (spec/10_state.md R40, spec/20_memory.md R78; log 9). -/
  queue : List Queued
  /-- Memory (spec/20_memory.md R60). -/
  mem : Memory
  /-- The model's own: the instruction in progress (log 8). -/
  cur : Current
  /-- The model's own: the INTR line with its type (spec/60_exceptions.md R503; log 6). -/
  intr : Option Byte
  /-- The model's own: the TEST pin, `true` when active (spec/45_processor_control.md R409; log 6). -/
  test : Bool
  /-- The model's own: the lines of the steps to come (log 6). -/
  inputs : List Lines
  /-- The model's own: the writes of other bus masters that have yet to land in this step, the next burst first
(spec/20_memory.md R68, R76; log 17). -/
  due : List Burst
  /-- The model's own: the platform's unmapped addresses (spec/20_memory.md R71, R80; log 3). -/
  unmapped : List Span
  /-- The model's own: the platform's read-only addresses (spec/20_memory.md R71, R80; log 3). -/
  rom : List Span
  /-- The model's own: the ports nothing drives (spec/93_implementation_defined.md U4; log 5). -/
  undriven : List Span
  /-- The model's own: bytes the ports will supply, each with its port, the next one first (spec/20_memory.md R70; log 5). -/
  ioIn : List (Word × Byte)
  /-- The model's own: bytes written to ports, each with its port, the latest last (spec/20_memory.md R70; log 5). -/
  ioOut : List (Word × Byte)
  /-- The model's own: how many free values have been drawn (spec/93_implementation_defined.md U1; log 4). -/
  draws : Nat
deriving DecidableEq, Repr

/-- Why the machine has no next state: it is stuck. -/
inductive Fault where
  /-- A fetch or a read of an address the memory map does not hold. The spec has no step for it (spec/20_memory.md R80).
  Raised by every memory read. Safe: it stops where the chip goes on. -/
  | unmappedRead (addr : Nat)
  /-- A write to an address the memory map does not hold (spec/20_memory.md R80). Raised by every memory write. Safe. -/
  | unmappedWrite (addr : Nat)
  /-- A write to ROM (spec/20_memory.md R80). Raised by every memory write. Safe. -/
  | romWrite (addr : Nat)
  /-- Halted with IF = 0, no NMI pending and no event to come: no further step (spec/45_processor_control.md R408,
  spec/93_implementation_defined.md U16). Raised by the step of a halted CPU. Safe (log 10). -/
  | haltedForEver
deriving DecidableEq, Repr

/-- What the model refuses to run. -/
inductive Refusal where
  /-- An instruction that has no meaning yet. Raised by exec's arms only. Safe. -/
  | notModelled (mnemonic : String)
  /-- The table assigns these bytes to no instruction (spec/30_encoding.md R150, R151). Raised by fetch. Safe. -/
  | unassigned
  /-- Too many prefixes, two of a kind, or LOCK with a repeat (spec/30_encoding.md R115, U13). Raised by fetch. Safe. -/
  | badPrefixes
  /-- A repeat prefix before an instruction that is not a string primitive (spec/30_encoding.md R115, U10). Raised by fetch. Safe. -/
  | repNonString
  /-- A byte to be fetched was stored to after the bus unit may have fetched it (spec/20_memory.md R78,
  spec/70_reset_and_hazards.md R545, U14). Raised by fetch. Safe. -/
  | prefetchRace
  /-- A register where the instruction needs a memory operand: LEA, LDS, LES, indirect intersegment CALL and JMP with
  MOD = 11 (spec/93_implementation_defined.md U5, U6, U7). Raised by those meanings. Safe. -/
  | registerOperand
  /-- CS as the destination of POP or MOV (spec/93_implementation_defined.md U8, U9). Raised by those meanings. Safe. -/
  | csDestination
  /-- A port nothing drives (spec/93_implementation_defined.md U4). Raised by IN and OUT. Safe. -/
  | undrivenPort (port : Nat)
deriving DecidableEq, Repr

/-- All nine flags clear. -/
def Flags.clear : Flags := ⟨false, false, false, false, false, false, false, false, false⟩

/-- The machine right after reset (spec/10_state.md R45, spec/70_reset_and_hazards.md R540). The general registers are
0 (DESIGN CHOICE, log 1); memory lists no byte (log 2); the environment is silent (D25). -/
def State.reset : State where
  regs := ⟨0, 0, 0, 0, 0, 0, 0, 0⟩
  segs := ⟨0, Config.resetCs, 0, 0⟩
  ip := Config.resetIp
  flags := Flags.clear
  inhibit := false
  halted := false
  nmiPending := false
  inRepeat := false
  lock := false
  queue := []
  mem := []
  cur := Current.idle
  intr := none
  test := true
  inputs := []
  due := []
  unmapped := []
  rom := []
  undriven := []
  ioIn := []
  ioOut := []
  draws := 0

end Sys2Proof.Machine
end

