-- ==== Sys2Proof/Machine/Flags.lean ====
section
/-! DEFINITION. FLAGS as a word, and the flag computations of spec/00_scope.md R9. Values are words; a byte value has a
zero high byte. -/

namespace Sys2Proof.Machine

/-! ## FLAGS as a word (spec/10_state.md R30, R32) -/

/-- `FLAGS_state`: the nine flags at their places. -/
def Flags.bits (f : Flags) : Word :=
  (BitVec.ofBool f.CF).setWidth 16 ||| (BitVec.ofBool f.PF).setWidth 16 <<< 2 ||| (BitVec.ofBool f.AF).setWidth 16 <<< 4 |||
  (BitVec.ofBool f.ZF).setWidth 16 <<< 6 ||| (BitVec.ofBool f.SF).setWidth 16 <<< 7 ||| (BitVec.ofBool f.TF).setWidth 16 <<< 8 |||
  (BitVec.ofBool f.IF).setWidth 16 <<< 9 ||| (BitVec.ofBool f.DF).setWidth 16 <<< 10 ||| (BitVec.ofBool f.OF).setWidth 16 <<< 11

/-- `FLAGS_read` (spec/10_state.md R32). -/
def Flags.toWord (f : Flags) : Word := (f.bits &&& ~~~Config.flagsFixedZeros) ||| Config.flagsFixedOnes

/-- `FLAGS_write` (spec/10_state.md R32): the reserved bits of the word are ignored. -/
def Flags.ofWord (v : Word) : Flags where
  CF := v.getLsbD 0
  PF := v.getLsbD 2
  AF := v.getLsbD 4
  ZF := v.getLsbD 6
  SF := v.getLsbD 7
  TF := v.getLsbD 8
  IF := v.getLsbD 9
  DF := v.getLsbD 10
  OF := v.getLsbD 11

/-- Sets one status flag. -/
def Flags.put (f : Flags) (n : StatusFlag) (b : Bool) : Flags :=
  match n with
  | .CF => { f with CF := b }
  | .PF => { f with PF := b }
  | .AF => { f with AF := b }
  | .ZF => { f with ZF := b }
  | .SF => { f with SF := b }
  | .OF => { f with OF := b }

/-! ## Widths and values (spec/00_scope.md R8) -/

/-- `size(w)`. -/
def bitsOf (w : Width) : Nat :=
  match w with
  | .byte => 8
  | .word => 16

/-- An exact result narrowed to the operation's width: `r mod 2^size(w)`. -/
def clip (w : Width) (n : Int) : Word := BitVec.ofInt 16 (n % 2 ^ bitsOf w)

/-- `msb(w, v)`. -/
def msb (w : Width) (v : Word) : Bool := v.getLsbD (bitsOf w - 1)

/-- `signed(v)` (spec/41_arithmetic.md R266): the two's-complement value at the operation's width. -/
def signedOf (w : Width) (v : Word) : Int :=
  match w with
  | .byte => (lowByte v).toInt
  | .word => v.toInt

/-! ## The flag helpers (spec/00_scope.md R9) -/

/-- `parity8(v)`: the low byte has an even number of 1 bits. -/
def parity8 (v : Word) : Bool :=
  !(v.getLsbD 0 ^^ v.getLsbD 1 ^^ v.getLsbD 2 ^^ v.getLsbD 3 ^^ v.getLsbD 4 ^^ v.getLsbD 5 ^^ v.getLsbD 6 ^^ v.getLsbD 7)

/-- `SetSZP(w, r)`. -/
def setSZP (w : Width) (r : Word) (f : Flags) : Flags :=
  { f with SF := msb w r, ZF := r.toNat % 2 ^ bitsOf w == 0, PF := parity8 r }

/-- The exact sum of `AddFlags(w, a, b, c)`. -/
def addSum (a b : Word) (c : Bool) : Nat := a.toNat + b.toNat + c.toNat

/-- The result of `AddFlags(w, a, b, c)`. -/
def addResult (w : Width) (a b : Word) (c : Bool) : Word := clip w (addSum a b c)

/-- The flags of `AddFlags(w, a, b, c)`. -/
def addFlags (w : Width) (a b : Word) (c : Bool) (f : Flags) : Flags :=
  let r := addResult w a b c
  setSZP w r { f with
    CF := decide (2 ^ bitsOf w ≤ addSum a b c)
    AF := decide (16 ≤ a.toNat % 16 + b.toNat % 16 + c.toNat)
    OF := (msb w a == msb w b) && (msb w r != msb w a) }

/-- The result of `SubFlags(w, a, b, c)`. -/
def subResult (w : Width) (a b : Word) (c : Bool) : Word := clip w ((a.toNat : Int) - b.toNat - c.toNat)

/-- The flags of `SubFlags(w, a, b, c)`. -/
def subFlags (w : Width) (a b : Word) (c : Bool) (f : Flags) : Flags :=
  let r := subResult w a b c
  setSZP w r { f with
    CF := decide (a.toNat < b.toNat + c.toNat)
    AF := decide (a.toNat % 16 < b.toNat % 16 + c.toNat)
    OF := (msb w a != msb w b) && (msb w r != msb w a) }

/-- The defined flags of `LogicFlags(w, r)`; AF, which it leaves undefined, is drawn by `State.undef`. -/
def logicFlags (w : Width) (r : Word) (f : Flags) : Flags := setSZP w r { f with CF := false, OF := false }

/-! ## Undefined flags (spec/93_implementation_defined.md U1; log 4) -/

/-- Leaves the named flags undefined: each takes a free value of its own draw. -/
def State.undef : List StatusFlag → State → State
  | [], s => s
  | n :: ns, s => State.undef ns { s with flags := s.flags.put n (Config.freeFlag s.draws n), draws := s.draws + 1 }

end Sys2Proof.Machine
end

