-- ==== Sys2Proof/Machine/Ops.lean ====
section
/-! DEFINITION. The named operations: registers, memory through a segment, the stack, ports, control transfer, the
interrupt sequence with the return from it, the recognition point, reset. -/

namespace Sys2Proof.Machine

/-- What an operation answers: a value, a fault or a refusal. -/
abbrev Out (α : Type) : Type := Host.Outcome α Fault Refusal

/-- First `o`, then `f` on what it answers; a fault or a refusal of `o` ends both. -/
def andThen {α β : Type} (o : Out α) (f : α → Out β) : Out β :=
  match o with
  | .next a => f a
  | .fault r => .fault r
  | .refused r => .refused r

/-! ## Registers (spec/10_state.md R21, R22, R26) -/

/-- `r16[c]`, read. -/
def Regs.get (g : Regs) (c : RegCode) : Word :=
  match c with
  | .ax => g.ax
  | .cx => g.cx
  | .dx => g.dx
  | .bx => g.bx
  | .sp => g.sp
  | .bp => g.bp
  | .si => g.si
  | .di => g.di

/-- `r16[c] <- v`. -/
def Regs.set (g : Regs) (c : RegCode) (v : Word) : Regs :=
  match c with
  | .ax => { g with ax := v }
  | .cx => { g with cx := v }
  | .dx => { g with dx := v }
  | .bx => { g with bx := v }
  | .sp => { g with sp := v }
  | .bp => { g with bp := v }
  | .si => { g with si := v }
  | .di => { g with di := v }

/-- The word register that holds byte register `c`: codes 100 to 111 name the high halves of AX, CX, DX, BX. -/
def RegCode.host (c : RegCode) : RegCode :=
  match c with
  | .ax | .sp => .ax
  | .cx | .bp => .cx
  | .dx | .si => .dx
  | .bx | .di => .bx

/-- Whether byte register `c` is a high half. -/
def RegCode.isHigh (c : RegCode) : Bool :=
  match c with
  | .ax | .cx | .dx | .bx => false
  | .sp | .bp | .si | .di => true

/-- `r8[c]`, read. -/
def Regs.getByte (g : Regs) (c : RegCode) : Byte :=
  if RegCode.isHigh c then highByte (g.get (RegCode.host c)) else lowByte (g.get (RegCode.host c))

/-- `r8[c] <- v`: only those eight bits change. -/
def Regs.setByte (g : Regs) (c : RegCode) (v : Byte) : Regs :=
  let old := g.get (RegCode.host c)
  g.set (RegCode.host c) (if RegCode.isHigh c then wordOf v (lowByte old) else wordOf (highByte old) v)

/-- `sr[c]`, read. -/
def Segs.get (g : Segs) (c : SegReg) : Word :=
  match c with
  | .es => g.es
  | .cs => g.cs
  | .ss => g.ss
  | .ds => g.ds

/-- `sr[c] <- v`. -/
def Segs.set (g : Segs) (c : SegReg) (v : Word) : Segs :=
  match c with
  | .es => { g with es := v }
  | .cs => { g with cs := v }
  | .ss => { g with ss := v }
  | .ds => { g with ds := v }

/-- `reg(w, c)`, read (spec/00_scope.md R8). A byte comes with a zero high byte. -/
def State.reg (s : State) (w : Width) (c : RegCode) : Word :=
  match w with
  | .byte => zext16 (s.regs.getByte c)
  | .word => s.regs.get c

/-- `reg(w, c) <- v`. A byte register takes the low byte of `v`. -/
def State.setReg (s : State) (w : Width) (c : RegCode) (v : Word) : State :=
  match w with
  | .byte => { s with regs := s.regs.setByte c (lowByte v) }
  | .word => { s with regs := s.regs.set c v }

/-- `sr[c] <- v`. -/
def State.setSeg (s : State) (c : SegReg) (v : Word) : State := { s with segs := s.segs.set c v }

/-! ## Memory (spec/20_memory.md R62, R65, R66, R80) -/

/-- `phys(seg, off)`. -/
def phys (seg off : Word) : PAddr := BitVec.ofNat 20 (seg.toNat * 16 + off.toNat)

/-- Whether an address or port lies in one of the ranges. -/
def inSpans (l : List Span) (a : Nat) : Bool := l.any fun p => decide (p.lo ≤ a ∧ a ≤ p.hi)

/-- The byte at a physical address, whatever the memory map says of it. -/
def State.byteAt (s : State) (a : PAddr) : Byte := s.mem.read a.toNat

/-- The queue after stores at these addresses: a queued copy of a byte stored to is marked (R78, U14; log 9). -/
def markStored (as : List PAddr) (q : List Queued) : List Queued :=
  q.map fun c => { c with stored := c.stored || as.contains c.addr }

/-- The byte at an address becomes `v`, whoever stores it. -/
def State.put (s : State) (a : PAddr) (v : Byte) : State :=
  { s with mem := s.mem.write a.toNat v, queue := markStored [a] s.queue }

/-- `MemRead(a, 1)`; outside the memory map there is no step (R80). -/
def memRead (a : PAddr) (s : State) : Out Byte :=
  if inSpans s.unmapped a.toNat then .fault (.unmappedRead a.toNat) else .next (s.byteAt a)

/-- `MemWrite(a, 1, v)`; outside the memory map, or to ROM, there is no step (R80). -/
def memWrite (a : PAddr) (v : Byte) (s : State) : Out State :=
  if inSpans s.unmapped a.toNat then .fault (.unmappedWrite a.toNat)
  else if inSpans s.rom a.toNat then .fault (.romWrite a.toNat)
  else .next (s.put a v)

/-! ### Bus cycles and other bus masters (spec/20_memory.md R68, R76, R77; log 17) -/

/-- Other masters' writes, in order. One to an address that the map does not hold, or to ROM, changes nothing. -/
def State.putOthers : Burst → State → State
  | [], s => s
  | c :: l, s =>
    State.putOthers l (if inSpans s.unmapped c.1.toNat || inSpans s.rom c.1.toNat then s else s.put c.1 c.2)

/-- A bus cycle of the CPU begins: the next burst of other masters lands first, unless LOCK keeps them off the bus. -/
def State.busCycle (s : State) : State :=
  match s.lock, s.due with
  | false, b :: bs => State.putOthers b { s with due := bs }
  | _, _ => s

/-- The high byte of a word whose low byte is at `a`: the same bus cycle on a 16-bit bus when `a` is even, else one of
its own (R68). -/
def State.highCycle (s : State) (a : PAddr) : State :=
  if Config.dataBus = 16 ∧ a.getLsbD 0 = false then s else s.busCycle

/-- The writes of other masters that are still due land. -/
def State.settle (s : State) : State := State.putOthers s.due.flatten { s with due := [] }

/-! ### Accesses of the CPU: what is read, with the state after it -/

/-- Two bytes as a word, the low byte first (R65). -/
def readPair (lo hi : PAddr) (s : State) : Out (Word × State) :=
  let t := s.busCycle
  andThen (memRead lo t) fun l =>
  let u := t.highCycle lo
  andThen (memRead hi u) fun h =>
  .next (wordOf h l, u)

/-- `MemRead(a, 2)`: a physical word (R65). -/
def memReadWord (a : PAddr) (s : State) : Out (Word × State) := readPair a (a + 1) s

/-- `Read(w, seg, off)`: the second byte's offset wraps inside the segment (R66). -/
def readMem (w : Width) (seg off : Word) (s : State) : Out (Word × State) :=
  match w with
  | .byte =>
    let t := s.busCycle
    andThen (memRead (phys seg off) t) fun b => .next (zext16 b, t)
  | .word => readPair (phys seg off) (phys seg (off + 1)) s

/-- `Write(w, seg, off, v)`: the low byte, then the high byte (R66). -/
def writeMem (w : Width) (seg off v : Word) (s : State) : Out State :=
  match w with
  | .byte => memWrite (phys seg off) (lowByte v) s.busCycle
  | .word =>
    andThen (memWrite (phys seg off) (lowByte v) s.busCycle) fun t =>
    memWrite (phys seg (off + 1)) (highByte v) (t.highCycle (phys seg off))

/-! ## The stack (spec/20_memory.md R72) -/

/-- `Push16(v)`. -/
def push16 (v : Word) (s : State) : Out State :=
  let t := s.setReg .word .sp (s.regs.sp - 2)
  writeMem .word t.segs.ss t.regs.sp v t

/-- PUSH of SP itself: the decremented SP is stored when PUSH_SP_NEW (spec/40_data_transfer.md R209). -/
def pushSp (s : State) : Out State := push16 (if Config.pushSpNew then s.regs.sp - 2 else s.regs.sp) s

/-- `Pop16()`: the word with the state after it. -/
def pop16 (s : State) : Out (Word × State) :=
  andThen (readMem .word s.segs.ss s.regs.sp s) fun p =>
  .next (p.1, p.2.setReg .word .sp (s.regs.sp + 2))

/-! ## I/O ports (spec/20_memory.md R70; log 5) -/

/-- Takes the first byte queued for port `p` out of the platform's bytes. -/
def takePort (p : Word) : List (Word × Byte) → Option (Byte × List (Word × Byte))
  | [] => none
  | (q, b) :: l => if q = p then some (b, l) else (takePort p l).map fun r => (r.1, (q, b) :: r.2)

/-- `IoRead(0, p)`: the platform's next byte for the port, else a free value. -/
def ioReadByte (p : Word) (s : State) : Out (Byte × State) :=
  if inSpans s.undriven p.toNat then .refused (.undrivenPort p.toNat)
  else match takePort p s.ioIn with
    | some (b, l) => .next (b, { s with ioIn := l })
    | none => .next (Config.portByte s.draws p, { s with draws := s.draws + 1 })

/-- `IoWrite(0, p, v)`. -/
def ioWriteByte (p : Word) (v : Byte) (s : State) : Out State :=
  if inSpans s.undriven p.toNat then .refused (.undrivenPort p.toNat)
  else .next { s with ioOut := s.ioOut ++ [(p, v)] }

/-- `IoRead(w, p)`: a word takes its low byte at `p`, then its high byte at `p + 1` (spec/92_eei_decisions.md D40). -/
def ioRead (w : Width) (p : Word) (s : State) : Out (Word × State) :=
  match w with
  | .byte => andThen (ioReadByte p s) fun r => .next (zext16 r.1, r.2)
  | .word =>
    andThen (ioReadByte p s) fun lo =>
    andThen (ioReadByte (p + 1) lo.2) fun hi =>
    .next (wordOf hi.1 lo.1, hi.2)

/-- `IoWrite(w, p, v)`. -/
def ioWrite (w : Width) (p v : Word) (s : State) : Out State :=
  match w with
  | .byte => ioWriteByte p (lowByte v) s
  | .word =>
    andThen (ioWriteByte p (lowByte v) s) fun t =>
    ioWriteByte (p + 1) (highByte v) t

/-! ## Control transfer (spec/20_memory.md R78) -/

/-- `pc <- target`, as a taken control transfer: it empties the prefetch queue. -/
def State.jump (s : State) (target : Word) : State := { s with ip := target, queue := [] }

/-- A taken transfer to another segment. -/
def State.jumpFar (s : State) (newCs target : Word) : State := (s.setSeg .cs newCs).jump target

/-! ## Interrupts (spec/60_exceptions.md) -/

/-- Entry `n` of the vector table: the new IP and the new CS, with the state after reading them (R502). -/
def readVector (n : Byte) (s : State) : Out (Word × Word × State) :=
  andThen (memReadWord (BitVec.ofNat 20 (4 * n.toNat)) s) fun p =>
  andThen (memReadWord (BitVec.ofNat 20 (4 * n.toNat + 2)) p.2) fun q =>
  .next (p.1, q)

/-- `InterruptSequence(n, saved)` (R506): the one way every exception is taken. -/
def interruptSequence (n : Byte) (saved : Word) (s : State) : Out State :=
  andThen (readVector n s) fun v =>
  andThen (push16 s.flags.toWord v.2.2) fun s1 =>
  andThen (push16 s1.segs.cs { s1 with flags := { s1.flags with IF := false, TF := false } }) fun s2 =>
  andThen (push16 saved s2) fun s3 =>
  .next { s3.jumpFar v.2.1 v.1 with halted := false, inRepeat := false }

/-- The return from an interrupt (spec/44_control_transfer.md R378): pops IP, CS, FLAGS. -/
def interruptReturn (s : State) : Out State :=
  andThen (pop16 s) fun p1 =>
  andThen (pop16 p1.2) fun p2 =>
  andThen (pop16 p2.2) fun p3 =>
  .next { p3.2.jumpFar p2.1 p1.1 with flags := Flags.ofWord p3.1 }

/-- The IP a divide error saves (R507). -/
def State.divideErrorIp (s : State) : Word := if Config.divFaultIpNext then s.ip else s.cur.ip0

/-- The divide error: interrupt 0, registers and flags as before the instruction (R507). -/
def divideError (s : State) : Out State := interruptSequence 0 s.divideErrorIp s

/-- The external part of a recognition point: NMI before INTR (R508). The flag answered says that one was taken. -/
def takeExternal (saved : Word) (s : State) : Out (State × Bool) :=
  if s.nmiPending then
    andThen (interruptSequence 2 saved { s with nmiPending := false }) fun t => .next (t, true)
  else match s.flags.IF, s.intr with
    | true, some n => andThen (interruptSequence n saved s) fun t => .next (t, true)
    | _, _ => .next (s, false)

/-- `RecognitionPoint(tf0)` (R508): `saved` is the IP that R507 saves when nothing was taken before. -/
def recognise (tf0 : Bool) (saved : Word) (s : State) : Out State :=
  if s.inhibit then .next { s with inhibit := false }
  else
    andThen (takeExternal saved s) fun r =>
    if tf0 then interruptSequence 1 (if r.2 then r.1.ip else saved) r.1 else .next r.1

/-- The IP that the recognition point after an instruction saves (R507; spec/43_string.md R329 between iterations). -/
def State.savedIp (s : State) : Word :=
  if s.inRepeat then
    (if Config.repResumeLastPrefix then s.cur.ip0 + BitVec.ofNat 16 (s.cur.nPrefix - 1) else s.cur.ip0)
  else s.ip

/-! ## The environment and reset -/

/-- What the environment brings to this step (logs 6, 17): a schedule entry sets the levels, may bring an NMI edge
(R504), and writes memory as another bus master (R76); with no entry nothing changes. -/
def State.sample (s : State) : State :=
  match s.inputs with
  | [] => s
  | l :: ls => State.putOthers l.writes
      { s with inputs := ls, intr := l.intr, test := l.test, nmiPending := s.nmiPending || l.nmi, due := l.bursts }

/-- Whether RESET is used in this step. -/
def State.resetNow (s : State) : Bool :=
  match s.inputs with
  | [] => false
  | l :: _ => l.reset

/-- General registers that keep no defined value (spec/70_reset_and_hazards.md R540; log 11). -/
def freeRegs (n : Nat) : Regs :=
  ⟨Config.resetWord n .ax, Config.resetWord n .cx, Config.resetWord n .dx, Config.resetWord n .bx,
   Config.resetWord n .sp, Config.resetWord n .bp, Config.resetWord n .si, Config.resetWord n .di⟩

/-- `Reset` (spec/70_reset_and_hazards.md R540), used in the middle of a run. Memory is not touched. -/
def State.resetSequence (s : State) : State :=
  { s with
    regs := freeRegs s.draws
    draws := s.draws + 1
    segs := ⟨0, Config.resetCs, 0, 0⟩
    ip := Config.resetIp
    flags := Flags.clear
    inhibit := false
    halted := false
    nmiPending := false
    inRepeat := false
    lock := false
    queue := []
    cur := Current.idle }

end Sys2Proof.Machine
end

