-- ==== Sys2Proof/Machine/Operands.lean ====
section
/-! DEFINITION. The operand forms: effective addresses (spec/30_encoding.md R108, R112), the r/m operand, the string
operands (spec/43_string.md R320) and the accumulator. -/

namespace Sys2Proof.Machine

/-- `base(rm)` (spec/30_encoding.md R108). -/
def Regs.base (g : Regs) (b : AddrBase) : Word :=
  match b with
  | .bxSi => g.bx + g.si
  | .bxDi => g.bx + g.di
  | .bpSi => g.bp + g.si
  | .bpDi => g.bp + g.di
  | .si => g.si
  | .di => g.di
  | .bp => g.bp
  | .bx => g.bx

/-- The segment that a base selects by default: SS when BP takes part (spec/30_encoding.md R112). -/
def AddrBase.segment (b : AddrBase) : SegReg :=
  match b with
  | .bpSi | .bpDi | .bp => .ss
  | .bxSi | .bxDi | .si | .di | .bx => .ds

/-- `sr[prefix SR]` if the instruction has a segment prefix, else the segment register `dflt`
(spec/20_memory.md R63, spec/45_processor_control.md R412). -/
def State.segOr (s : State) (dflt : SegReg) : Word := s.segs.get (s.cur.seg.getD dflt)

/-- Where an r/m operand is: a register, or memory at a segment value and an offset (`ea`). -/
inductive Place where
  | reg (c : RegCode)
  | mem (seg off : Word)
deriving DecidableEq, Repr

/-- The place that MOD, R/M and the displacement name (spec/30_encoding.md R99 to R102, R108, R112). -/
def State.place (s : State) (rm : RM) : Place :=
  match rm with
  | .reg c => .reg c
  | .direct a => .mem (s.segOr .ds) a
  | .base b => .mem (s.segOr (AddrBase.segment b)) (s.regs.base b)
  | .disp8 b d => .mem (s.segOr (AddrBase.segment b)) (s.regs.base b + sext16 d)
  | .disp16 b d => .mem (s.segOr (AddrBase.segment b)) (s.regs.base b + d)

/-- `ReadRM(w)` (spec/00_scope.md R8): the operand, with the state after reading it. -/
def readRM (w : Width) (rm : RM) (s : State) : Out (Word × State) :=
  match s.place rm with
  | .reg c => .next (s.reg w c, s)
  | .mem seg off => readMem w seg off s

/-- `WriteRM(w, v)` (spec/00_scope.md R8). -/
def writeRM (w : Width) (rm : RM) (v : Word) (s : State) : Out State :=
  match s.place rm with
  | .reg c => .next (s.setReg w c v)
  | .mem seg off => writeMem w seg off v s

/-- `ea` where the instruction needs memory: a register operand is refused (spec/93_implementation_defined.md U5 to U7; log 14). -/
def eaOrRefuse (rm : RM) (s : State) : Out (Word × Word) :=
  match s.place rm with
  | .reg _ => .refused .registerOperand
  | .mem seg off => .next (seg, off)

/-- A doubleword pointer in memory: the offset word at `ea.off`, the segment word at `ea.off + 2`, with the state after 
(spec/20_memory.md R65, spec/40_data_transfer.md R222, spec/44_control_transfer.md R344). -/
def readPointer (rm : RM) (s : State) : Out (Word × Word × State) :=
  andThen (eaOrRefuse rm s) fun a =>
  andThen (readMem .word a.1 a.2 s) fun p =>
  andThen (readMem .word a.1 (a.2 + 2) p.2) fun q =>
  .next (p.1, q)

/-- AL or AX. -/
def State.acc (s : State) (w : Width) : Word := s.reg w .ax

/-- `delta` of the string instructions (spec/43_string.md R320). -/
def State.delta (s : State) (w : Width) : Word :=
  match w, s.flags.DF with
  | .byte, false => 1
  | .byte, true => -1
  | .word, false => 2
  | .word, true => -2

/-- `advance(SI)`. -/
def State.advanceSi (s : State) (w : Width) : State := s.setReg .word .si (s.regs.si + s.delta w)

/-- `advance(DI)`. -/
def State.advanceDi (s : State) (w : Width) : State := s.setReg .word .di (s.regs.di + s.delta w)

/-- The element at `src_seg:SI` (spec/43_string.md R320). -/
def readSi (w : Width) (s : State) : Out (Word × State) := readMem w (s.segOr .ds) s.regs.si s

/-- The element at `ES:DI`; a prefix does not change its segment (spec/43_string.md R320). -/
def readDi (w : Width) (s : State) : Out (Word × State) := readMem w s.segs.es s.regs.di s

/-- Writes the element at `ES:DI`. -/
def writeDi (w : Width) (v : Word) (s : State) : Out State := writeMem w s.segs.es s.regs.di v s

end Sys2Proof.Machine
end

