-- ==== Sys2Proof/Machine/Alu.lean ====
section
/-! DEFINITION. The operand forms of spec/41_arithmetic.md R240 over any two-operand operation, the operations
themselves, the shifts and rotates (spec/42_logic.md R299) and the repeat loop (spec/43_string.md R328). -/

namespace Sys2Proof.Machine

/-- A two-operand operation: the result, and the state with the flags it sets. -/
abbrev BinOp : Type := Width → Word → Word → State → Word × State

/-- A one-operand operation. -/
abbrev UnOp : Type := Width → Word → State → Word × State

/-! ## Operations (spec/00_scope.md R9) -/

/-- `AddFlags(w, a, b, 0)`. -/
def aluAdd : BinOp := fun w a b s => (addResult w a b false, { s with flags := addFlags w a b false s.flags })

/-- `AddFlags(w, a, b, CF)`. -/
def aluAdc : BinOp := fun w a b s =>
  (addResult w a b s.flags.CF, { s with flags := addFlags w a b s.flags.CF s.flags })

/-- `SubFlags(w, a, b, 0)`. -/
def aluSub : BinOp := fun w a b s => (subResult w a b false, { s with flags := subFlags w a b false s.flags })

/-- `SubFlags(w, a, b, CF)`. -/
def aluSbb : BinOp := fun w a b s =>
  (subResult w a b s.flags.CF, { s with flags := subFlags w a b s.flags.CF s.flags })

/-- `LogicFlags(w, r)` with the result `r`; AF is undefined. -/
def aluLogic (w : Width) (r : Word) (s : State) : Word × State :=
  (r, State.undef [.AF] { s with flags := logicFlags w r s.flags })

/-- `a and b`. -/
def aluAnd : BinOp := fun w a b s => aluLogic w (a &&& b) s

/-- `a or b`. -/
def aluOr : BinOp := fun w a b s => aluLogic w (a ||| b) s

/-- `a xor b`. -/
def aluXor : BinOp := fun w a b s => aluLogic w (a ^^^ b) s

/-- `AddFlags(w, a, 1, 0)` with CF kept (spec/41_arithmetic.md R247). -/
def aluInc : UnOp := fun w a s =>
  (addResult w a 1 false, { s with flags := { addFlags w a 1 false s.flags with CF := s.flags.CF } })

/-- `SubFlags(w, a, 1, 0)` with CF kept (spec/41_arithmetic.md R257). -/
def aluDec : UnOp := fun w a s =>
  (subResult w a 1 false, { s with flags := { subFlags w a 1 false s.flags with CF := s.flags.CF } })

/-- `SubFlags(w, 0, a, 0)` (spec/41_arithmetic.md R259). -/
def aluNeg : UnOp := fun w a s => aluSub w 0 a s

/-- `a xor (2^size(w) - 1)`, no flag changed (spec/42_logic.md R291). -/
def aluNot : UnOp := fun w a s => (clip w (~~~a).toNat, s)

/-! ## Operand forms (spec/41_arithmetic.md R240) -/

/-- Form 1, register/memory with register, for an operation that writes its result. -/
def binRmReg (op : BinOp) (d : Dir) (w : Width) (rm : RM) (r : RegCode) (s : State) : Out State :=
  andThen (readRM w rm s) fun m =>
  match d with
  | .toReg => let p := op w (s.reg w r) m.1 m.2; .next (p.2.setReg w r p.1)
  | .toRm => let p := op w m.1 (s.reg w r) m.2; writeRM w rm p.1 p.2

/-- Form 1 for an operation whose result is discarded. -/
def flagsRmReg (op : BinOp) (d : Dir) (w : Width) (rm : RM) (r : RegCode) (s : State) : Out State :=
  andThen (readRM w rm s) fun m =>
  match d with
  | .toReg => .next (op w (s.reg w r) m.1 m.2).2
  | .toRm => .next (op w m.1 (s.reg w r) m.2).2

/-- Form 2, immediate with register/memory. -/
def binRmImm (op : BinOp) (w : Width) (rm : RM) (imm : Word) (s : State) : Out State :=
  andThen (readRM w rm s) fun m =>
  let p := op w m.1 imm m.2
  writeRM w rm p.1 p.2

/-- Form 2 for an operation whose result is discarded. -/
def flagsRmImm (op : BinOp) (w : Width) (rm : RM) (imm : Word) (s : State) : Out State :=
  andThen (readRM w rm s) fun m => .next (op w m.1 imm m.2).2

/-- Form 3, immediate with accumulator. -/
def binAccImm (op : BinOp) (w : Width) (imm : Word) (s : State) : Out State :=
  let p := op w (s.acc w) imm s
  .next (p.2.setReg w .ax p.1)

/-- Form 3 for an operation whose result is discarded. -/
def flagsAccImm (op : BinOp) (w : Width) (imm : Word) (s : State) : Out State := .next (op w (s.acc w) imm s).2

/-- One r/m operand, read once and written once. -/
def unRm (op : UnOp) (w : Width) (rm : RM) (s : State) : Out State :=
  andThen (readRM w rm s) fun m =>
  let p := op w m.1 m.2
  writeRM w rm p.1 p.2

/-- One word register. -/
def unReg (op : UnOp) (r : RegCode) (s : State) : Out State :=
  let p := op .word (s.reg .word r) s
  .next (p.2.setReg .word r p.1)

/-! ## Shifts and rotates (spec/42_logic.md R299) -/

/-- What distinguishes the seven instructions: one step on operand and CF, OF after a count of 1 (from the operand
before, the result and the CF after), and whether it is a shift. -/
structure Shifter where
  step : Width → Word × Bool → Word × Bool
  overflow : Width → (before after : Word) → (carry : Bool) → Bool
  isShift : Bool

/-- Twice the operand plus the bit that comes in. -/
def leftIn (w : Width) (x : Word) (c : Bool) : Word := clip w (2 * x.toNat + c.toNat)

/-- Half the operand plus the bit that comes in at the top. -/
def rightIn (w : Width) (x : Word) (c : Bool) : Word := clip w (x.toNat / 2 + c.toNat * 2 ^ (bitsOf w - 1))

/-- OF after a left shift or rotate by 1: `msb(result) xor CF`. -/
def overflowLeft (w : Width) (_before after : Word) (carry : Bool) : Bool := msb w after != carry

/-- OF after a right rotate by 1: the result's two top bits differ. -/
def overflowRight (w : Width) (_before after : Word) (_carry : Bool) : Bool :=
  after.getLsbD (bitsOf w - 1) != after.getLsbD (bitsOf w - 2)

/-- R292. -/
def shiftLeft : Shifter := ⟨fun w p => (leftIn w p.1 false, msb w p.1), overflowLeft, true⟩

/-- R293. -/
def shiftRight : Shifter := ⟨fun w p => (rightIn w p.1 false, p.1.getLsbD 0), fun w before _ _ => msb w before, true⟩

/-- R294: the sign bit is kept. -/
def shiftArithRight : Shifter := ⟨fun w p => (rightIn w p.1 (msb w p.1), p.1.getLsbD 0), fun _ _ _ _ => false, true⟩

/-- R295. -/
def rotateLeft : Shifter := ⟨fun w p => (leftIn w p.1 (msb w p.1), msb w p.1), overflowLeft, false⟩

/-- R296. -/
def rotateRight : Shifter := ⟨fun w p => (rightIn w p.1 (p.1.getLsbD 0), p.1.getLsbD 0), overflowRight, false⟩

/-- R297. -/
def rotateCarryLeft : Shifter := ⟨fun w p => (leftIn w p.1 p.2, msb w p.1), overflowLeft, false⟩

/-- R298. -/
def rotateCarryRight : Shifter := ⟨fun w p => (rightIn w p.1 p.2, p.1.getLsbD 0), overflowRight, false⟩

/-- `f` applied `n` times. -/
def times {α : Type} (f : α → α) : Nat → α → α
  | 0, x => x
  | n + 1, x => times f n (f x)

/-- The count: 1, or CL under SHIFT_COUNT_MASK. -/
def State.shiftCount (s : State) (v : Count) : Nat :=
  match v with
  | .one => 1
  | .cl => (lowByte s.regs.cx &&& Config.shiftCountMask).toNat

/-- The result and the CF of `count` steps. -/
def Shifter.run (op : Shifter) (w : Width) (count : Nat) (x : Word) (c : Bool) : Word × Bool := times (op.step w) count (x, c)

/-- OF: as the instruction says for a count of 1, undefined for more. -/
def Shifter.setOverflow (op : Shifter) (w : Width) (count : Nat) (x r : Word) (c : Bool) (s : State) : State :=
  if count = 1 then { s with flags := { s.flags with OF := op.overflow w x r c } } else State.undef [.OF] s

/-- SF, ZF, PF from the result and AF undefined, for the shifts; nothing for the rotates. -/
def Shifter.setResult (op : Shifter) (w : Width) (r : Word) (s : State) : State :=
  if op.isShift then State.undef [.AF] { s with flags := setSZP w r s.flags } else s

/-- The flags after `count` steps from operand `x` to result `r` with CF `c`. A count of 0 changes none. -/
def Shifter.setFlags (op : Shifter) (w : Width) (count : Nat) (x r : Word) (c : Bool) (s : State) : State :=
  if count = 0 then s
  else op.setResult w r (op.setOverflow w count x r c { s with flags := { s.flags with CF := c } })

/-- The whole instruction. With a count of 0 the operand is read and written back. -/
def shiftRm (op : Shifter) (v : Count) (w : Width) (rm : RM) (s : State) : Out State :=
  andThen (readRM w rm s) fun x =>
  let p := op.run w (s.shiftCount v) x.1 s.flags.CF
  writeRM w rm p.1 (op.setFlags w (s.shiftCount v) x.1 p.1 p.2 x.2)

/-! ## The repeat loop (spec/43_string.md R328) -/

/-- The end of an iteration: CX counts down; the loop goes on at `ip0` or falls through. `stop` is the ZF test. -/
def endIteration (stop : Bool) (t : State) : State :=
  let u := t.setReg .word .cx (t.regs.cx - 1)
  if stop || u.regs.cx == 0 then { u with inRepeat := false } else { u with inRepeat := true, ip := u.cur.ip0 }

/-- One step of a string instruction: the primitive alone without a repeat prefix, one iteration with one. `tests`
says that the primitive is CMPS or SCAS, whose ZF the prefix's z bit is compared with. -/
def repeatStep (tests : Bool) (prim : State → Out State) (s : State) : Out State :=
  match s.cur.rep with
  | none => prim s
  | some z =>
    if s.regs.cx = 0 then .next { s with inRepeat := false }
    else andThen (prim s) fun t => .next (endIteration (tests && t.flags.ZF != z) t)

end Sys2Proof.Machine
end

