-- ==== Sys2Proof/Machine/Arithmetic.lean ====
section
/-! DEFINITION. Arithmetic (spec/41_arithmetic.md). -/

namespace Sys2Proof.Machine

/-- The first test of AAA, DAA, AAS, DAS: AL's low digit is above 9, or AF (R249, R250). -/
def asciiAdjusts (s : State) : Bool := decide (9 < s.regs.ax.toNat % 16) || s.flags.AF

/-- The second test of DAA and DAS: AL is above 99h, or CF (R250). -/
def decimalAdjusts (s : State) : Bool := decide (0x99 < (lowByte s.regs.ax).toNat) || s.flags.CF

/-- The end of AAA and AAS: AL's low digit, AF and CF; OF SF ZF PF undefined (R249, R263). -/
def asciiDone (adj : Bool) (ah al : Byte) (s : State) : State :=
  State.undef [.OF, .SF, .ZF, .PF]
    { s.setReg .word .ax (wordOf ah (al &&& 0x0F)) with flags := { s.flags with AF := adj, CF := adj } }

/-- The end of DAA and DAS: AL, AF, CF, SF, ZF, PF; OF undefined (R250, R264). -/
def decimalDone (lo hi : Bool) (al : Byte) (s : State) : State :=
  State.undef [.OF]
    { s.setReg .byte .ax (zext16 al) with flags := setSZP .byte (zext16 al) { s.flags with AF := lo, CF := hi } }

/-- The flags of AAM and AAD: SF ZF PF from AL; OF AF CF undefined (R267, R270). -/
def adjustFlags (al : Byte) (s : State) : State :=
  State.undef [.OF, .AF, .CF] { s with flags := setSZP .byte (zext16 al) s.flags }

/-- A product in AX, or in DX:AX (R265, R266). -/
def State.setProduct (s : State) (w : Width) (p : Int) : State :=
  match w with
  | .byte => s.setReg .word .ax (BitVec.ofInt 16 p)
  | .word => (s.setReg .word .ax (BitVec.ofInt 16 p)).setReg .word .dx (BitVec.ofInt 16 (p / 2 ^ 16))

/-- The flags of MUL and IMUL: CF and OF; SF ZF AF PF undefined (R265, R266). -/
def productFlags (wide : Bool) (s : State) : State :=
  State.undef [.SF, .ZF, .AF, .PF] { s with flags := { s.flags with CF := wide, OF := wide } }

/-- The six status flags, which DIV and IDIV leave undefined (R268, R269). -/
def allStatus : List StatusFlag := [.OF, .SF, .ZF, .AF, .PF, .CF]

/-- The dividend of DIV: AX, or DX:AX (R268). -/
def State.dividend (s : State) (w : Width) : Nat :=
  match w with
  | .byte => s.regs.ax.toNat
  | .word => s.regs.dx.toNat * 2 ^ 16 + s.regs.ax.toNat

/-- The dividend of IDIV (R269). -/
def State.signedDividend (s : State) (w : Width) : Int :=
  match w with
  | .byte => s.regs.ax.toInt
  | .word => s.regs.dx.toInt * 2 ^ 16 + s.regs.ax.toNat

/-- The largest quotient of IDIV (R269). -/
def quotientMax (w : Width) : Int := 2 ^ (bitsOf w - 1) - 1

/-- The smallest quotient of IDIV (R269; IDIV_MIN_QUOTIENT_FAULTS, spec/92_eei_decisions.md D20). -/
def quotientMin (w : Width) : Int :=
  if Config.idivMinQuotientFaults then -(2 ^ (bitsOf w - 1) - 1) else -2 ^ (bitsOf w - 1)

/-- Quotient and remainder into AL and AH, or into AX and DX (R268, R269). -/
def State.setQuotient (s : State) (w : Width) (q r : Int) : State :=
  match w with
  | .byte => s.setReg .word .ax (wordOf (BitVec.ofInt 8 r) (BitVec.ofInt 8 q))
  | .word => (s.setReg .word .ax (BitVec.ofInt 16 q)).setReg .word .dx (BitVec.ofInt 16 r)

/-- ADD register/memory with register (spec/41_arithmetic.md R241). -/
def execAddRmReg (d : Dir) (w : Width) (rm : RM) (r : RegCode) (s : State) : Out State := binRmReg aluAdd d w rm r s

/-- ADD immediate with register/memory. The s bit is in the immediate already (R118) (spec/41_arithmetic.md R242). -/
def execAddRmImm (_sx : Bool) (w : Width) (rm : RM) (imm : Word) (s : State) : Out State := binRmImm aluAdd w rm imm s

/-- ADD immediate with accumulator (spec/41_arithmetic.md R243). -/
def execAddAccImm (w : Width) (imm : Word) (s : State) : Out State := binAccImm aluAdd w imm s

/-- ADC register/memory with register (spec/41_arithmetic.md R244). -/
def execAdcRmReg (d : Dir) (w : Width) (rm : RM) (r : RegCode) (s : State) : Out State := binRmReg aluAdc d w rm r s

/-- ADC immediate with register/memory. The s bit is in the immediate already (R118) (spec/41_arithmetic.md R245). -/
def execAdcRmImm (_sx : Bool) (w : Width) (rm : RM) (imm : Word) (s : State) : Out State := binRmImm aluAdc w rm imm s

/-- ADC immediate with accumulator (spec/41_arithmetic.md R246). -/
def execAdcAccImm (w : Width) (imm : Word) (s : State) : Out State := binAccImm aluAdc w imm s

/-- INC register/memory (spec/41_arithmetic.md R247). -/
def execIncRm (w : Width) (rm : RM) (s : State) : Out State := unRm aluInc w rm s

/-- INC register (spec/41_arithmetic.md R248). -/
def execIncReg (r : RegCode) (s : State) : Out State := unReg aluInc r s

/-- AAA (spec/41_arithmetic.md R249). -/
def execAaa (s : State) : Out State :=
  let adj := asciiAdjusts s
  let ah := if adj then highByte s.regs.ax + 1 else highByte s.regs.ax
  let al := if adj then lowByte s.regs.ax + 6 else lowByte s.regs.ax
  .next (asciiDone adj ah al s)

/-- DAA; both tests use the AL and CF from before (spec/41_arithmetic.md R250). -/
def execDaa (s : State) : Out State :=
  let lo := asciiAdjusts s
  let hi := decimalAdjusts s
  let al1 := if lo then lowByte s.regs.ax + 6 else lowByte s.regs.ax
  .next (decimalDone lo hi (if hi then al1 + 0x60 else al1) s)

/-- SUB register/memory with register (spec/41_arithmetic.md R251). -/
def execSubRmReg (d : Dir) (w : Width) (rm : RM) (r : RegCode) (s : State) : Out State := binRmReg aluSub d w rm r s

/-- SUB immediate with register/memory. The s bit is in the immediate already (R118) (spec/41_arithmetic.md R252). -/
def execSubRmImm (_sx : Bool) (w : Width) (rm : RM) (imm : Word) (s : State) : Out State := binRmImm aluSub w rm imm s

/-- SUB immediate with accumulator (spec/41_arithmetic.md R253). -/
def execSubAccImm (w : Width) (imm : Word) (s : State) : Out State := binAccImm aluSub w imm s

/-- SBB register/memory with register (spec/41_arithmetic.md R254). -/
def execSbbRmReg (d : Dir) (w : Width) (rm : RM) (r : RegCode) (s : State) : Out State := binRmReg aluSbb d w rm r s

/-- SBB immediate with register/memory. The s bit is in the immediate already (R118) (spec/41_arithmetic.md R255). -/
def execSbbRmImm (_sx : Bool) (w : Width) (rm : RM) (imm : Word) (s : State) : Out State := binRmImm aluSbb w rm imm s

/-- SBB immediate with accumulator (spec/41_arithmetic.md R256). -/
def execSbbAccImm (w : Width) (imm : Word) (s : State) : Out State := binAccImm aluSbb w imm s

/-- DEC register/memory (spec/41_arithmetic.md R257). -/
def execDecRm (w : Width) (rm : RM) (s : State) : Out State := unRm aluDec w rm s

/-- DEC register (spec/41_arithmetic.md R258). -/
def execDecReg (r : RegCode) (s : State) : Out State := unReg aluDec r s

/-- NEG register/memory (spec/41_arithmetic.md R259). -/
def execNegRm (w : Width) (rm : RM) (s : State) : Out State := unRm aluNeg w rm s

/-- CMP register/memory with register (spec/41_arithmetic.md R260). -/
def execCmpRmReg (d : Dir) (w : Width) (rm : RM) (r : RegCode) (s : State) : Out State := flagsRmReg aluSub d w rm r s

/-- CMP immediate with register/memory. The s bit is in the immediate already (R118) (spec/41_arithmetic.md R261). -/
def execCmpRmImm (_sx : Bool) (w : Width) (rm : RM) (imm : Word) (s : State) : Out State := flagsRmImm aluSub w rm imm s

/-- CMP immediate with accumulator (spec/41_arithmetic.md R262). -/
def execCmpAccImm (w : Width) (imm : Word) (s : State) : Out State := flagsAccImm aluSub w imm s

/-- AAS (spec/41_arithmetic.md R263). -/
def execAas (s : State) : Out State :=
  let adj := asciiAdjusts s
  let ah := if adj then highByte s.regs.ax - 1 else highByte s.regs.ax
  let al := if adj then lowByte s.regs.ax - 6 else lowByte s.regs.ax
  .next (asciiDone adj ah al s)

/-- DAS; both tests use the AL and CF from before (spec/41_arithmetic.md R264). -/
def execDas (s : State) : Out State :=
  let lo := asciiAdjusts s
  let hi := decimalAdjusts s
  let al1 := if lo then lowByte s.regs.ax - 6 else lowByte s.regs.ax
  .next (decimalDone lo hi (if hi then al1 - 0x60 else al1) s)

/-- MUL: unsigned product into AX or DX:AX. CF and OF say that the high half is not 0 (spec/41_arithmetic.md R265). -/
def execMulRm (w : Width) (rm : RM) (s : State) : Out State :=
  andThen (readRM w rm s) fun m =>
  let p : Nat := (s.acc w).toNat * m.1.toNat
  .next (productFlags (decide (2 ^ bitsOf w ≤ p)) (m.2.setProduct w p))

/-- IMUL: signed product into AX or DX:AX. CF and OF say that the low half does not hold it (spec/41_arithmetic.md R266). -/
def execImulRm (w : Width) (rm : RM) (s : State) : Out State :=
  andThen (readRM w rm s) fun m =>
  let p : Int := signedOf w (s.acc w) * signedOf w m.1
  .next (productFlags (decide (signedOf w (clip w p) ≠ p)) (m.2.setProduct w p))

/-- AAM: AL divided by 10 (spec/41_arithmetic.md R267). -/
def execAam (s : State) : Out State :=
  let al := lowByte s.regs.ax
  .next (adjustFlags (al % 10) (s.setReg .word .ax (wordOf (al / 10) (al % 10))))

/-- DIV: unsigned. A divisor of 0 or a quotient that does not fit takes interrupt 0 (spec/41_arithmetic.md R268). -/
def execDivRm (w : Width) (rm : RM) (s : State) : Out State :=
  andThen (readRM w rm s) fun m =>
  let n := s.dividend w
  let q := n / m.1.toNat
  if m.1.toNat = 0 ∨ 2 ^ bitsOf w ≤ q then divideError m.2
  else .next (State.undef allStatus (m.2.setQuotient w q (n % m.1.toNat : Nat)))

/-- IDIV: signed, truncating toward zero. A divisor of 0 or a quotient out of range takes interrupt 0 (spec/41_arithmetic.md R269). -/
def execIdivRm (w : Width) (rm : RM) (s : State) : Out State :=
  andThen (readRM w rm s) fun m =>
  let n := s.signedDividend w
  let q := n.tdiv (signedOf w m.1)
  if signedOf w m.1 = 0 ∨ quotientMax w < q ∨ q < quotientMin w then divideError m.2
  else .next (State.undef allStatus (m.2.setQuotient w q (n.tmod (signedOf w m.1))))

/-- AAD: AH * 10 + AL (spec/41_arithmetic.md R270). -/
def execAad (s : State) : Out State :=
  let v := highByte s.regs.ax * 10 + lowByte s.regs.ax
  .next (adjustFlags v (s.setReg .word .ax (wordOf 0 v)))

/-- CBW (spec/41_arithmetic.md R271). -/
def execCbw (s : State) : Out State := .next (s.setReg .word .ax (sext16 (lowByte s.regs.ax)))

/-- CWD (spec/41_arithmetic.md R272). -/
def execCwd (s : State) : Out State := .next (s.setReg .word .dx (if s.regs.ax.getLsbD 15 then 0xFFFF else 0))

end Sys2Proof.Machine
end

