-- ==== Sys2Proof/Machine/ControlTransfer.lean ====
section
/-! DEFINITION. Control transfer (spec/44_control_transfer.md). `s.ip` is `next_ip` (spec/10_state.md R28). -/

namespace Sys2Proof.Machine

/-- A direct short branch, taken when `c` (R349). -/
def branch (c : Bool) (inc : Byte) (s : State) : Out State := .next (if c then s.jump (s.ip + sext16 inc) else s)

/-- CX counts down; the branch is taken when CX is not 0 and `c` (R372 to R374). -/
def loopWhile (c : Bool) (inc : Byte) (s : State) : Out State :=
  branch (s.regs.cx - 1 != 0 && c) inc (s.setReg .word .cx (s.regs.cx - 1))

/-- An intersegment call: CS is pushed first, then IP (R343, R344). -/
def callTo (newCs newIp : Word) (s : State) : Out State :=
  andThen (push16 s.segs.cs s) fun t =>
  andThen (push16 s.ip t) fun u => .next (u.jumpFar newCs newIp)

/-- An intersegment return: pops IP, then CS (R347). -/
def popFar (s : State) : Out State :=
  andThen (pop16 s) fun p =>
  andThen (pop16 p.2) fun q => .next (q.2.jumpFar q.1 p.1)

/-- SP <- SP + n (R346). -/
def State.addSp (s : State) (n : Word) : State := s.setReg .word .sp (s.regs.sp + n)

/-- CALL direct within segment (spec/44_control_transfer.md R341). -/
def execCallNear (inc : Word) (s : State) : Out State :=
  andThen (push16 s.ip s) fun t => .next (t.jump (s.ip + inc))

/-- CALL indirect within segment: the operand is read before the push (spec/44_control_transfer.md R342). -/
def execCallRm (rm : RM) (s : State) : Out State :=
  andThen (readRM .word rm s) fun target =>
  andThen (push16 s.ip target.2) fun t => .next (t.jump target.1)

/-- CALL direct intersegment (spec/44_control_transfer.md R343). -/
def execCallFar (newIp newCs : Word) (s : State) : Out State := callTo newCs newIp s

/-- CALL indirect intersegment; a register operand is refused, U7 (spec/44_control_transfer.md R344). -/
def execCallMem (rm : RM) (s : State) : Out State :=
  andThen (readPointer rm s) fun p => callTo p.2.1 p.1 p.2.2

/-- RET within segment (spec/44_control_transfer.md R345). -/
def execRetNear (s : State) : Out State :=
  andThen (pop16 s) fun p => .next (p.2.jump p.1)

/-- RET within segment adding an unsigned amount to SP (spec/44_control_transfer.md R346). -/
def execRetNearImm (n : Word) (s : State) : Out State :=
  andThen (pop16 s) fun p => .next ((p.2.jump p.1).addSp n)

/-- RET intersegment (spec/44_control_transfer.md R347). -/
def execRetFar (s : State) : Out State := popFar s

/-- RET intersegment adding an unsigned amount to SP (spec/44_control_transfer.md R348). -/
def execRetFarImm (n : Word) (s : State) : Out State :=
  andThen (popFar s) fun t => .next (t.addSp n)

/-- JE/JZ (spec/44_control_transfer.md R350). -/
def execJe (inc : Byte) (s : State) : Out State := branch s.flags.ZF inc s

/-- JL/JNGE (spec/44_control_transfer.md R351). -/
def execJl (inc : Byte) (s : State) : Out State := branch (s.flags.SF != s.flags.OF) inc s

/-- JLE/JNG (spec/44_control_transfer.md R352). -/
def execJle (inc : Byte) (s : State) : Out State := branch (s.flags.ZF || s.flags.SF != s.flags.OF) inc s

/-- JB/JNAE (spec/44_control_transfer.md R353). -/
def execJb (inc : Byte) (s : State) : Out State := branch s.flags.CF inc s

/-- JBE/JNA (spec/44_control_transfer.md R354). -/
def execJbe (inc : Byte) (s : State) : Out State := branch (s.flags.CF || s.flags.ZF) inc s

/-- JP/JPE (spec/44_control_transfer.md R355). -/
def execJp (inc : Byte) (s : State) : Out State := branch s.flags.PF inc s

/-- JO (spec/44_control_transfer.md R356). -/
def execJo (inc : Byte) (s : State) : Out State := branch s.flags.OF inc s

/-- JS (spec/44_control_transfer.md R357). -/
def execJs (inc : Byte) (s : State) : Out State := branch s.flags.SF inc s

/-- JNE/JNZ (spec/44_control_transfer.md R358). -/
def execJne (inc : Byte) (s : State) : Out State := branch (!s.flags.ZF) inc s

/-- JNL/JGE (spec/44_control_transfer.md R359). -/
def execJnl (inc : Byte) (s : State) : Out State := branch (s.flags.SF == s.flags.OF) inc s

/-- JNLE/JG (spec/44_control_transfer.md R360). -/
def execJnle (inc : Byte) (s : State) : Out State := branch (!s.flags.ZF && s.flags.SF == s.flags.OF) inc s

/-- JNB/JAE (spec/44_control_transfer.md R361). -/
def execJnb (inc : Byte) (s : State) : Out State := branch (!s.flags.CF) inc s

/-- JNBE/JA (spec/44_control_transfer.md R362). -/
def execJnbe (inc : Byte) (s : State) : Out State := branch (!s.flags.CF && !s.flags.ZF) inc s

/-- JNP/JPO (spec/44_control_transfer.md R363). -/
def execJnp (inc : Byte) (s : State) : Out State := branch (!s.flags.PF) inc s

/-- JNO (spec/44_control_transfer.md R364). -/
def execJno (inc : Byte) (s : State) : Out State := branch (!s.flags.OF) inc s

/-- JNS (spec/44_control_transfer.md R365). -/
def execJns (inc : Byte) (s : State) : Out State := branch (!s.flags.SF) inc s

/-- JCXZ (spec/44_control_transfer.md R366). -/
def execJcxz (inc : Byte) (s : State) : Out State := branch (s.regs.cx == 0) inc s

/-- JMP direct within segment (spec/44_control_transfer.md R367). -/
def execJmpNear (inc : Word) (s : State) : Out State := .next (s.jump (s.ip + inc))

/-- JMP direct within segment, short (spec/44_control_transfer.md R368). -/
def execJmpShort (inc : Byte) (s : State) : Out State := branch true inc s

/-- JMP indirect within segment (spec/44_control_transfer.md R369). -/
def execJmpRm (rm : RM) (s : State) : Out State :=
  andThen (readRM .word rm s) fun target => .next (target.2.jump target.1)

/-- JMP direct intersegment (spec/44_control_transfer.md R370). -/
def execJmpFar (newIp newCs : Word) (s : State) : Out State := .next (s.jumpFar newCs newIp)

/-- JMP indirect intersegment; a register operand is refused, U7 (spec/44_control_transfer.md R371). -/
def execJmpMem (rm : RM) (s : State) : Out State :=
  andThen (readPointer rm s) fun p => .next (p.2.2.jumpFar p.2.1 p.1)

/-- LOOP (spec/44_control_transfer.md R372). -/
def execLoop (inc : Byte) (s : State) : Out State := loopWhile true inc s

/-- LOOPZ/LOOPE (spec/44_control_transfer.md R373). -/
def execLoopz (inc : Byte) (s : State) : Out State := loopWhile s.flags.ZF inc s

/-- LOOPNZ/LOOPNE (spec/44_control_transfer.md R374). -/
def execLoopnz (inc : Byte) (s : State) : Out State := loopWhile (!s.flags.ZF) inc s

/-- INT, type specified (spec/44_control_transfer.md R375). -/
def execInt (n : Byte) (s : State) : Out State := interruptSequence n s.ip s

/-- INT type 3 (spec/44_control_transfer.md R376). -/
def execInt3 (s : State) : Out State := interruptSequence 3 s.ip s

/-- INTO (spec/44_control_transfer.md R377). -/
def execInto (s : State) : Out State := if s.flags.OF then interruptSequence 4 s.ip s else .next s

/-- IRET (spec/44_control_transfer.md R378). -/
def execIret (s : State) : Out State := interruptReturn s

end Sys2Proof.Machine
end

