-- ==== Sys2Proof/Machine/DataTransfer.lean ====
section
/-! DEFINITION. Data transfer: MOV, PUSH, POP, XCHG, IN, OUT, XLAT, LEA, LDS, LES, LAHF, SAHF, PUSHF, POPF (spec/40_data_transfer.md). -/

namespace Sys2Proof.Machine

/-- MOV register/memory to/from register (spec/40_data_transfer.md R201). -/
def execMovRmReg (d : Dir) (w : Width) (rm : RM) (r : RegCode) (s : State) : Out State :=
  match d with
  | .toReg => andThen (readRM w rm s) fun p => .next (p.2.setReg w r p.1)
  | .toRm => writeRM w rm (s.reg w r) s

/-- MOV immediate to register/memory (spec/40_data_transfer.md R202). -/
def execMovRmImm (w : Width) (rm : RM) (imm : Word) (s : State) : Out State := writeRM w rm imm s

/-- MOV immediate to register (spec/40_data_transfer.md R203). -/
def execMovRegImm (w : Width) (r : RegCode) (imm : Word) (s : State) : Out State := .next (s.setReg w r imm)

/-- MOV memory to accumulator (spec/40_data_transfer.md R204). -/
def execMovAccMem (w : Width) (addr : Word) (s : State) : Out State :=
  andThen (readMem w (s.segOr .ds) addr s) fun p => .next (p.2.setReg w .ax p.1)

/-- MOV accumulator to memory (spec/40_data_transfer.md R205). -/
def execMovMemAcc (w : Width) (addr : Word) (s : State) : Out State := writeMem w (s.segOr .ds) addr (s.acc w) s

/-- MOV register/memory to segment register, with the interrupt shadow; CS as destination is refused, U9 (spec/40_data_transfer.md R206). -/
def execMovSregRm (sr : SegReg) (rm : RM) (s : State) : Out State :=
  if sr = .cs then .refused .csDestination
  else andThen (readRM .word rm s) fun p => .next { p.2.setSeg sr p.1 with inhibit := true }

/-- MOV segment register to register/memory (spec/40_data_transfer.md R207). -/
def execMovRmSreg (rm : RM) (sr : SegReg) (s : State) : Out State := writeRM .word rm (s.segs.get sr) s

/-- PUSH register/memory; SP as the operand follows PUSH_SP_NEW, U11 (spec/40_data_transfer.md R208). -/
def execPushRm (rm : RM) (s : State) : Out State :=
  if rm = .reg .sp then pushSp s else andThen (readRM .word rm s) fun p => push16 p.1 p.2

/-- PUSH register; PUSH SP stores the decremented SP (spec/40_data_transfer.md R209). -/
def execPushReg (r : RegCode) (s : State) : Out State :=
  if r = .sp then pushSp s else push16 (s.regs.get r) s

/-- PUSH segment register (spec/40_data_transfer.md R210). -/
def execPushSreg (sr : SegReg) (s : State) : Out State := push16 (s.segs.get sr) s

/-- POP register/memory (spec/40_data_transfer.md R211). -/
def execPopRm (rm : RM) (s : State) : Out State :=
  andThen (pop16 s) fun p => writeRM .word rm p.1 p.2

/-- POP register; for SP the popped word stays (spec/40_data_transfer.md R212). -/
def execPopReg (r : RegCode) (s : State) : Out State :=
  andThen (pop16 s) fun p => .next (p.2.setReg .word r p.1)

/-- POP segment register, with the interrupt shadow; CS as destination is refused, U8 (spec/40_data_transfer.md R213). -/
def execPopSreg (sr : SegReg) (s : State) : Out State :=
  if sr = .cs then .refused .csDestination
  else andThen (pop16 s) fun p => .next { p.2.setSeg sr p.1 with inhibit := true }

/-- XCHG register/memory with register (spec/40_data_transfer.md R214). -/
def execXchgRmReg (w : Width) (rm : RM) (r : RegCode) (s : State) : Out State :=
  andThen (readRM w rm s) fun a =>
  andThen (writeRM w rm (s.reg w r) a.2) fun t => .next (t.setReg w r a.1)

/-- XCHG register with accumulator (spec/40_data_transfer.md R215). -/
def execXchgAxReg (r : RegCode) (s : State) : Out State :=
  .next ((s.setReg .word .ax (s.regs.get r)).setReg .word r s.regs.ax)

/-- IN, fixed port (spec/40_data_transfer.md R216). -/
def execInPort (w : Width) (port : Byte) (s : State) : Out State :=
  andThen (ioRead w (zext16 port) s) fun p => .next (p.2.setReg w .ax p.1)

/-- IN, variable port (spec/40_data_transfer.md R217). -/
def execInDx (w : Width) (s : State) : Out State :=
  andThen (ioRead w s.regs.dx s) fun p => .next (p.2.setReg w .ax p.1)

/-- OUT, fixed port (spec/40_data_transfer.md R218). -/
def execOutPort (w : Width) (port : Byte) (s : State) : Out State := ioWrite w (zext16 port) (s.acc w) s

/-- OUT, variable port (spec/40_data_transfer.md R219). -/
def execOutDx (w : Width) (s : State) : Out State := ioWrite w s.regs.dx (s.acc w) s

/-- XLAT: the byte at BX + AL (spec/40_data_transfer.md R220). -/
def execXlat (s : State) : Out State :=
  andThen (readMem .byte (s.segOr .ds) (s.regs.bx + s.acc .byte) s) fun p => .next (p.2.setReg .byte .ax p.1)

/-- LEA: the offset only; a register operand is refused, U5 (spec/40_data_transfer.md R221). -/
def execLea (r : RegCode) (rm : RM) (s : State) : Out State :=
  andThen (eaOrRefuse rm s) fun p => .next (s.setReg .word r p.2)

/-- LDS: a pointer to a register and DS; a register operand is refused, U6 (spec/40_data_transfer.md R222). -/
def execLds (r : RegCode) (rm : RM) (s : State) : Out State :=
  andThen (readPointer rm s) fun p => .next ((p.2.2.setReg .word r p.1).setSeg .ds p.2.1)

/-- LES: a pointer to a register and ES; a register operand is refused, U6 (spec/40_data_transfer.md R223). -/
def execLes (r : RegCode) (rm : RM) (s : State) : Out State :=
  andThen (readPointer rm s) fun p => .next ((p.2.2.setReg .word r p.1).setSeg .es p.2.1)

/-- LAHF: AH, which is byte register 100, takes the low byte of FLAGS (spec/40_data_transfer.md R224). -/
def execLahf (s : State) : Out State := .next (s.setReg .byte .sp (zext16 (lowByte s.flags.toWord)))

/-- SAHF: SF ZF AF PF CF from AH, which is byte register 100 (spec/40_data_transfer.md R225). -/
def execSahf (s : State) : Out State :=
  let v := s.reg .byte .sp
  .next { s with flags := { s.flags with
    SF := v.getLsbD 7, ZF := v.getLsbD 6, AF := v.getLsbD 4, PF := v.getLsbD 2, CF := v.getLsbD 0 } }

/-- PUSHF (spec/40_data_transfer.md R226). -/
def execPushf (s : State) : Out State := push16 s.flags.toWord s

/-- POPF: all nine flags (spec/40_data_transfer.md R227). -/
def execPopf (s : State) : Out State :=
  andThen (pop16 s) fun p => .next { p.2 with flags := Flags.ofWord p.1 }

end Sys2Proof.Machine
end

