-- ==== Sys2Proof/Machine/Logic.lean ====
section
/-! DEFINITION. Logic, shift and rotate (spec/42_logic.md). -/

namespace Sys2Proof.Machine

/-- NOT: no flag changes (spec/42_logic.md R291). -/
def execNotRm (w : Width) (rm : RM) (s : State) : Out State := unRm aluNot w rm s

/-- SHL/SAL (spec/42_logic.md R292). -/
def execShl (v : Count) (w : Width) (rm : RM) (s : State) : Out State := shiftRm shiftLeft v w rm s

/-- SHR (spec/42_logic.md R293). -/
def execShr (v : Count) (w : Width) (rm : RM) (s : State) : Out State := shiftRm shiftRight v w rm s

/-- SAR (spec/42_logic.md R294). -/
def execSar (v : Count) (w : Width) (rm : RM) (s : State) : Out State := shiftRm shiftArithRight v w rm s

/-- ROL (spec/42_logic.md R295). -/
def execRol (v : Count) (w : Width) (rm : RM) (s : State) : Out State := shiftRm rotateLeft v w rm s

/-- ROR (spec/42_logic.md R296). -/
def execRor (v : Count) (w : Width) (rm : RM) (s : State) : Out State := shiftRm rotateRight v w rm s

/-- RCL (spec/42_logic.md R297). -/
def execRcl (v : Count) (w : Width) (rm : RM) (s : State) : Out State := shiftRm rotateCarryLeft v w rm s

/-- RCR (spec/42_logic.md R298). -/
def execRcr (v : Count) (w : Width) (rm : RM) (s : State) : Out State := shiftRm rotateCarryRight v w rm s

/-- AND register/memory with register (spec/42_logic.md R300). -/
def execAndRmReg (d : Dir) (w : Width) (rm : RM) (r : RegCode) (s : State) : Out State := binRmReg aluAnd d w rm r s

/-- AND immediate with register/memory (spec/42_logic.md R301). -/
def execAndRmImm (w : Width) (rm : RM) (imm : Word) (s : State) : Out State := binRmImm aluAnd w rm imm s

/-- AND immediate with accumulator (spec/42_logic.md R302). -/
def execAndAccImm (w : Width) (imm : Word) (s : State) : Out State := binAccImm aluAnd w imm s

/-- TEST register/memory and register (spec/42_logic.md R303). -/
def execTestRmReg (w : Width) (rm : RM) (r : RegCode) (s : State) : Out State := flagsRmReg aluAnd .toRm w rm r s

/-- TEST immediate and register/memory (spec/42_logic.md R304). -/
def execTestRmImm (w : Width) (rm : RM) (imm : Word) (s : State) : Out State := flagsRmImm aluAnd w rm imm s

/-- TEST immediate and accumulator (spec/42_logic.md R305). -/
def execTestAccImm (w : Width) (imm : Word) (s : State) : Out State := flagsAccImm aluAnd w imm s

/-- OR register/memory with register (spec/42_logic.md R306). -/
def execOrRmReg (d : Dir) (w : Width) (rm : RM) (r : RegCode) (s : State) : Out State := binRmReg aluOr d w rm r s

/-- OR immediate with register/memory (spec/42_logic.md R307). -/
def execOrRmImm (w : Width) (rm : RM) (imm : Word) (s : State) : Out State := binRmImm aluOr w rm imm s

/-- OR immediate with accumulator (spec/42_logic.md R308). -/
def execOrAccImm (w : Width) (imm : Word) (s : State) : Out State := binAccImm aluOr w imm s

/-- XOR register/memory with register (spec/42_logic.md R309). -/
def execXorRmReg (d : Dir) (w : Width) (rm : RM) (r : RegCode) (s : State) : Out State := binRmReg aluXor d w rm r s

/-- XOR immediate with register/memory (spec/42_logic.md R310). -/
def execXorRmImm (w : Width) (rm : RM) (imm : Word) (s : State) : Out State := binRmImm aluXor w rm imm s

/-- XOR immediate with accumulator (spec/42_logic.md R311). -/
def execXorAccImm (w : Width) (imm : Word) (s : State) : Out State := binAccImm aluXor w imm s

end Sys2Proof.Machine
end

