-- ==== Sys2Proof/Machine/ProcessorControl.lean ====
section
/-! DEFINITION. Processor control and the LOCK and SEGMENT prefixes (spec/45_processor_control.md). -/

namespace Sys2Proof.Machine

/-- CLC (spec/45_processor_control.md R401). -/
def execClc (s : State) : Out State := .next { s with flags := { s.flags with CF := false } }

/-- CMC (spec/45_processor_control.md R402). -/
def execCmc (s : State) : Out State := .next { s with flags := { s.flags with CF := !s.flags.CF } }

/-- STC (spec/45_processor_control.md R403). -/
def execStc (s : State) : Out State := .next { s with flags := { s.flags with CF := true } }

/-- CLD (spec/45_processor_control.md R404). -/
def execCld (s : State) : Out State := .next { s with flags := { s.flags with DF := false } }

/-- STD (spec/45_processor_control.md R405). -/
def execStd (s : State) : Out State := .next { s with flags := { s.flags with DF := true } }

/-- CLI (spec/45_processor_control.md R406). -/
def execCli (s : State) : Out State := .next { s with flags := { s.flags with IF := false } }

/-- STI: when IF was 0 the interrupt shadow covers the next instruction (spec/45_processor_control.md R407). -/
def execSti (s : State) : Out State :=
  .next { s with flags := { s.flags with IF := true }, inhibit := s.inhibit || !s.flags.IF }

/-- HLT (spec/45_processor_control.md R408). -/
def execHlt (s : State) : Out State := .next { s with halted := true }

/-- WAIT: stays at its own address while TEST is inactive (spec/45_processor_control.md R409). -/
def execWait (s : State) : Out State := .next (if s.test then s else { s with ip := s.cur.ip0 })

/-- ESC: the CPU reads a memory operand and discards it; the opcode bits are the external device's (spec/45_processor_control.md R410). -/
def execEsc (_x _y : BitVec 3) (rm : RM) (s : State) : Out State :=
  match s.place rm with
  | .reg _ => .next s
  | .mem seg off => andThen (readMem .word seg off s) fun p => .next p.2

/-- LOCK prefix: the signal stays asserted for the instruction that follows (spec/45_processor_control.md R411). -/
def execLock (s : State) : Out State :=
  .next { s with lock := true, cur := { s.cur with nPrefix := s.cur.nPrefix + 1 } }

/-- SEGMENT prefix: the override for the instruction that follows (spec/45_processor_control.md R412). -/
def execSegment (sr : SegReg) (s : State) : Out State :=
  .next { s with cur := { s.cur with seg := some sr, nPrefix := s.cur.nPrefix + 1 } }

end Sys2Proof.Machine
end

