-- ==== Sys2Proof/Machine/StringOps.lean ====
section
/-! DEFINITION. String manipulation and the repeat prefixes (spec/43_string.md). -/

namespace Sys2Proof.Machine

/-- One repeat prefix more, with its z bit (spec/30_encoding.md R126). -/
def State.latchRepeat (s : State) (z : Bool) : State :=
  { s with cur := { s.cur with rep := some z, nPrefix := s.cur.nPrefix + 1 } }

/-- One MOVS (R323). -/
def moveString (w : Width) (s : State) : Out State :=
  andThen (readSi w s) fun p =>
  andThen (writeDi w p.1 p.2) fun t => .next ((t.advanceSi w).advanceDi w)

/-- One CMPS: the SI operand minus the DI operand (R324). -/
def compareString (w : Width) (s : State) : Out State :=
  andThen (readSi w s) fun a =>
  andThen (readDi w a.2) fun b => .next (((aluSub w a.1 b.1 b.2).2.advanceSi w).advanceDi w)

/-- One SCAS: the accumulator minus the DI operand (R325). -/
def scanString (w : Width) (s : State) : Out State :=
  andThen (readDi w s) fun b => .next ((aluSub w (s.acc w) b.1 b.2).2.advanceDi w)

/-- One LODS (R326). -/
def loadString (w : Width) (s : State) : Out State :=
  andThen (readSi w s) fun p => .next ((p.2.setReg w .ax p.1).advanceSi w)

/-- One STOS (R327). -/
def storeString (w : Width) (s : State) : Out State :=
  andThen (writeDi w (s.acc w) s) fun t => .next (t.advanceDi w)

/-- REP, REPE, REPZ prefix (z = 1) for the instruction that follows (spec/43_string.md R321). -/
def execRep (s : State) : Out State := .next (s.latchRepeat true)

/-- REPNE, REPNZ prefix (z = 0) for the instruction that follows (spec/43_string.md R322). -/
def execRepne (s : State) : Out State := .next (s.latchRepeat false)

/-- MOVS (spec/43_string.md R323). -/
def execMovs (w : Width) (s : State) : Out State := repeatStep false (moveString w) s

/-- CMPS (spec/43_string.md R324). -/
def execCmps (w : Width) (s : State) : Out State := repeatStep true (compareString w) s

/-- SCAS (spec/43_string.md R325). -/
def execScas (w : Width) (s : State) : Out State := repeatStep true (scanString w) s

/-- LODS (spec/43_string.md R326). -/
def execLods (w : Width) (s : State) : Out State := repeatStep false (loadString w) s

/-- STOS (spec/43_string.md R327). -/
def execStos (w : Width) (s : State) : Out State := repeatStep false (storeString w) s

end Sys2Proof.Machine
end

