-- ==== Sys2Proof/Machine/Dispatch.lean ====
section
/-! DEFINITION. One arm for each instruction: a direct call of its meaning. `s.ip` is `next_ip` here (spec/10_state.md R28);
`s.cur` holds what the instruction's prefixes latched. -/

namespace Sys2Proof.Machine

open Sys2Proof

def exec (i : Instr) (s : State) : Host.Outcome State Fault Refusal :=
  match i with
  | .movRmReg d w rm r => Sys2Proof.Machine.execMovRmReg d w rm r s
  | .movRmImm w rm imm => Sys2Proof.Machine.execMovRmImm w rm imm s
  | .movRegImm w r imm => Sys2Proof.Machine.execMovRegImm w r imm s
  | .movAccMem w addr => Sys2Proof.Machine.execMovAccMem w addr s
  | .movMemAcc w addr => Sys2Proof.Machine.execMovMemAcc w addr s
  | .movSregRm sr rm => Sys2Proof.Machine.execMovSregRm sr rm s
  | .movRmSreg rm sr => Sys2Proof.Machine.execMovRmSreg rm sr s
  | .pushRm rm => Sys2Proof.Machine.execPushRm rm s
  | .pushReg r => Sys2Proof.Machine.execPushReg r s
  | .pushSreg sr => Sys2Proof.Machine.execPushSreg sr s
  | .popRm rm => Sys2Proof.Machine.execPopRm rm s
  | .popReg r => Sys2Proof.Machine.execPopReg r s
  | .popSreg sr => Sys2Proof.Machine.execPopSreg sr s
  | .xchgRmReg w rm r => Sys2Proof.Machine.execXchgRmReg w rm r s
  | .xchgAxReg r => Sys2Proof.Machine.execXchgAxReg r s
  | .inPort w port => Sys2Proof.Machine.execInPort w port s
  | .inDx w => Sys2Proof.Machine.execInDx w s
  | .outPort w port => Sys2Proof.Machine.execOutPort w port s
  | .outDx w => Sys2Proof.Machine.execOutDx w s
  | .xlat => Sys2Proof.Machine.execXlat s
  | .lea r rm => Sys2Proof.Machine.execLea r rm s
  | .lds r rm => Sys2Proof.Machine.execLds r rm s
  | .les r rm => Sys2Proof.Machine.execLes r rm s
  | .lahf => Sys2Proof.Machine.execLahf s
  | .sahf => Sys2Proof.Machine.execSahf s
  | .pushf => Sys2Proof.Machine.execPushf s
  | .popf => Sys2Proof.Machine.execPopf s
  | .addRmReg d w rm r => Sys2Proof.Machine.execAddRmReg d w rm r s
  | .addRmImm sx w rm imm => Sys2Proof.Machine.execAddRmImm sx w rm imm s
  | .addAccImm w imm => Sys2Proof.Machine.execAddAccImm w imm s
  | .adcRmReg d w rm r => Sys2Proof.Machine.execAdcRmReg d w rm r s
  | .adcRmImm sx w rm imm => Sys2Proof.Machine.execAdcRmImm sx w rm imm s
  | .adcAccImm w imm => Sys2Proof.Machine.execAdcAccImm w imm s
  | .incRm w rm => Sys2Proof.Machine.execIncRm w rm s
  | .incReg r => Sys2Proof.Machine.execIncReg r s
  | .aaa => Sys2Proof.Machine.execAaa s
  | .daa => Sys2Proof.Machine.execDaa s
  | .subRmReg d w rm r => Sys2Proof.Machine.execSubRmReg d w rm r s
  | .subRmImm sx w rm imm => Sys2Proof.Machine.execSubRmImm sx w rm imm s
  | .subAccImm w imm => Sys2Proof.Machine.execSubAccImm w imm s
  | .sbbRmReg d w rm r => Sys2Proof.Machine.execSbbRmReg d w rm r s
  | .sbbRmImm sx w rm imm => Sys2Proof.Machine.execSbbRmImm sx w rm imm s
  | .sbbAccImm w imm => Sys2Proof.Machine.execSbbAccImm w imm s
  | .decRm w rm => Sys2Proof.Machine.execDecRm w rm s
  | .decReg r => Sys2Proof.Machine.execDecReg r s
  | .negRm w rm => Sys2Proof.Machine.execNegRm w rm s
  | .cmpRmReg d w rm r => Sys2Proof.Machine.execCmpRmReg d w rm r s
  | .cmpRmImm sx w rm imm => Sys2Proof.Machine.execCmpRmImm sx w rm imm s
  | .cmpAccImm w imm => Sys2Proof.Machine.execCmpAccImm w imm s
  | .aas => Sys2Proof.Machine.execAas s
  | .das => Sys2Proof.Machine.execDas s
  | .mulRm w rm => Sys2Proof.Machine.execMulRm w rm s
  | .imulRm w rm => Sys2Proof.Machine.execImulRm w rm s
  | .aam => Sys2Proof.Machine.execAam s
  | .divRm w rm => Sys2Proof.Machine.execDivRm w rm s
  | .idivRm w rm => Sys2Proof.Machine.execIdivRm w rm s
  | .aad => Sys2Proof.Machine.execAad s
  | .cbw => Sys2Proof.Machine.execCbw s
  | .cwd => Sys2Proof.Machine.execCwd s
  | .notRm w rm => Sys2Proof.Machine.execNotRm w rm s
  | .shl v w rm => Sys2Proof.Machine.execShl v w rm s
  | .shr v w rm => Sys2Proof.Machine.execShr v w rm s
  | .sar v w rm => Sys2Proof.Machine.execSar v w rm s
  | .rol v w rm => Sys2Proof.Machine.execRol v w rm s
  | .ror v w rm => Sys2Proof.Machine.execRor v w rm s
  | .rcl v w rm => Sys2Proof.Machine.execRcl v w rm s
  | .rcr v w rm => Sys2Proof.Machine.execRcr v w rm s
  | .andRmReg d w rm r => Sys2Proof.Machine.execAndRmReg d w rm r s
  | .andRmImm w rm imm => Sys2Proof.Machine.execAndRmImm w rm imm s
  | .andAccImm w imm => Sys2Proof.Machine.execAndAccImm w imm s
  | .testRmReg w rm r => Sys2Proof.Machine.execTestRmReg w rm r s
  | .testRmImm w rm imm => Sys2Proof.Machine.execTestRmImm w rm imm s
  | .testAccImm w imm => Sys2Proof.Machine.execTestAccImm w imm s
  | .orRmReg d w rm r => Sys2Proof.Machine.execOrRmReg d w rm r s
  | .orRmImm w rm imm => Sys2Proof.Machine.execOrRmImm w rm imm s
  | .orAccImm w imm => Sys2Proof.Machine.execOrAccImm w imm s
  | .xorRmReg d w rm r => Sys2Proof.Machine.execXorRmReg d w rm r s
  | .xorRmImm w rm imm => Sys2Proof.Machine.execXorRmImm w rm imm s
  | .xorAccImm w imm => Sys2Proof.Machine.execXorAccImm w imm s
  | .rep => Sys2Proof.Machine.execRep s
  | .repne => Sys2Proof.Machine.execRepne s
  | .movs w => Sys2Proof.Machine.execMovs w s
  | .cmps w => Sys2Proof.Machine.execCmps w s
  | .scas w => Sys2Proof.Machine.execScas w s
  | .lods w => Sys2Proof.Machine.execLods w s
  | .stos w => Sys2Proof.Machine.execStos w s
  | .callNear inc => Sys2Proof.Machine.execCallNear inc s
  | .callRm rm => Sys2Proof.Machine.execCallRm rm s
  | .callFar newIp newCs => Sys2Proof.Machine.execCallFar newIp newCs s
  | .callMem rm => Sys2Proof.Machine.execCallMem rm s
  | .retNear => Sys2Proof.Machine.execRetNear s
  | .retNearImm n => Sys2Proof.Machine.execRetNearImm n s
  | .retFar => Sys2Proof.Machine.execRetFar s
  | .retFarImm n => Sys2Proof.Machine.execRetFarImm n s
  | .je inc => Sys2Proof.Machine.execJe inc s
  | .jl inc => Sys2Proof.Machine.execJl inc s
  | .jle inc => Sys2Proof.Machine.execJle inc s
  | .jb inc => Sys2Proof.Machine.execJb inc s
  | .jbe inc => Sys2Proof.Machine.execJbe inc s
  | .jp inc => Sys2Proof.Machine.execJp inc s
  | .jo inc => Sys2Proof.Machine.execJo inc s
  | .js inc => Sys2Proof.Machine.execJs inc s
  | .jne inc => Sys2Proof.Machine.execJne inc s
  | .jnl inc => Sys2Proof.Machine.execJnl inc s
  | .jnle inc => Sys2Proof.Machine.execJnle inc s
  | .jnb inc => Sys2Proof.Machine.execJnb inc s
  | .jnbe inc => Sys2Proof.Machine.execJnbe inc s
  | .jnp inc => Sys2Proof.Machine.execJnp inc s
  | .jno inc => Sys2Proof.Machine.execJno inc s
  | .jns inc => Sys2Proof.Machine.execJns inc s
  | .jcxz inc => Sys2Proof.Machine.execJcxz inc s
  | .jmpNear inc => Sys2Proof.Machine.execJmpNear inc s
  | .jmpShort inc => Sys2Proof.Machine.execJmpShort inc s
  | .jmpRm rm => Sys2Proof.Machine.execJmpRm rm s
  | .jmpFar newIp newCs => Sys2Proof.Machine.execJmpFar newIp newCs s
  | .jmpMem rm => Sys2Proof.Machine.execJmpMem rm s
  | .loop inc => Sys2Proof.Machine.execLoop inc s
  | .loopz inc => Sys2Proof.Machine.execLoopz inc s
  | .loopnz inc => Sys2Proof.Machine.execLoopnz inc s
  | .int n => Sys2Proof.Machine.execInt n s
  | .int3 => Sys2Proof.Machine.execInt3 s
  | .into => Sys2Proof.Machine.execInto s
  | .iret => Sys2Proof.Machine.execIret s
  | .clc => Sys2Proof.Machine.execClc s
  | .cmc => Sys2Proof.Machine.execCmc s
  | .stc => Sys2Proof.Machine.execStc s
  | .cld => Sys2Proof.Machine.execCld s
  | .std => Sys2Proof.Machine.execStd s
  | .cli => Sys2Proof.Machine.execCli s
  | .sti => Sys2Proof.Machine.execSti s
  | .hlt => Sys2Proof.Machine.execHlt s
  | .wait => Sys2Proof.Machine.execWait s
  | .esc x y rm => Sys2Proof.Machine.execEsc x y rm s
  | .lock => Sys2Proof.Machine.execLock s
  | .segment sr => Sys2Proof.Machine.execSegment sr s

end Sys2Proof.Machine
end

