-- ==== Sys2Proof/WellFormed.lean ====
section
/-! DEFINITION. Which terms of Instr an encoding can carry. -/

namespace Sys2Proof

/-- `[BP]` with MOD = 00 has no encoding: R/M = 110 is the direct address there (spec/30_encoding.md R100, R101). -/
def RM.wf : RM → Bool
  | .base .bp => false
  | .base _ => true
  | .reg _ => true
  | .direct _ => true
  | .disp8 _ _ => true
  | .disp16 _ _ => true

/-- An immediate is as wide as the operation (spec/30_encoding.md R117). -/
def immFits (w : Width) (imm : Word) : Bool :=
  match w with
  | .byte => highByte imm == 0#8
  | .word => true

/-- The immediate values the `s:w` forms carry: with s:w = 11 only a sign-extended byte (spec/30_encoding.md R118). -/
def immFitsS (s : Bool) (w : Width) (imm : Word) : Bool :=
  match w, s with
  | .byte, _ => highByte imm == 0#8
  | .word, true => imm == sext16 (lowByte imm)
  | .word, false => true

/-- The terms that some byte sequence encodes. -/
def Instr.wf : Instr → Bool
  | .movRmReg _ _ rm _ => rm.wf
  | .movRmImm w rm imm => rm.wf && immFits w imm
  | .movRegImm w _ imm => immFits w imm
  | .movAccMem _ _ => true
  | .movMemAcc _ _ => true
  | .movSregRm _ rm => rm.wf
  | .movRmSreg rm _ => rm.wf
  | .pushRm rm => rm.wf
  | .pushReg _ => true
  | .pushSreg _ => true
  | .popRm rm => rm.wf
  | .popReg _ => true
  | .popSreg _ => true
  | .xchgRmReg _ rm _ => rm.wf
  | .xchgAxReg _ => true
  | .inPort _ _ => true
  | .inDx _ => true
  | .outPort _ _ => true
  | .outDx _ => true
  | .xlat => true
  | .lea _ rm => rm.wf
  | .lds _ rm => rm.wf
  | .les _ rm => rm.wf
  | .lahf => true
  | .sahf => true
  | .pushf => true
  | .popf => true
  | .addRmReg _ _ rm _ => rm.wf
  | .addRmImm s w rm imm => rm.wf && immFitsS s w imm
  | .addAccImm w imm => immFits w imm
  | .adcRmReg _ _ rm _ => rm.wf
  | .adcRmImm s w rm imm => rm.wf && immFitsS s w imm
  | .adcAccImm w imm => immFits w imm
  | .incRm _ rm => rm.wf
  | .incReg _ => true
  | .aaa => true
  | .daa => true
  | .subRmReg _ _ rm _ => rm.wf
  | .subRmImm s w rm imm => rm.wf && immFitsS s w imm
  | .subAccImm w imm => immFits w imm
  | .sbbRmReg _ _ rm _ => rm.wf
  | .sbbRmImm s w rm imm => rm.wf && immFitsS s w imm
  | .sbbAccImm w imm => immFits w imm
  | .decRm _ rm => rm.wf
  | .decReg _ => true
  | .negRm _ rm => rm.wf
  | .cmpRmReg _ _ rm _ => rm.wf
  | .cmpRmImm s w rm imm => rm.wf && immFitsS s w imm
  | .cmpAccImm w imm => immFits w imm
  | .aas => true
  | .das => true
  | .mulRm _ rm => rm.wf
  | .imulRm _ rm => rm.wf
  | .aam => true
  | .divRm _ rm => rm.wf
  | .idivRm _ rm => rm.wf
  | .aad => true
  | .cbw => true
  | .cwd => true
  | .notRm _ rm => rm.wf
  | .shl _ _ rm => rm.wf
  | .shr _ _ rm => rm.wf
  | .sar _ _ rm => rm.wf
  | .rol _ _ rm => rm.wf
  | .ror _ _ rm => rm.wf
  | .rcl _ _ rm => rm.wf
  | .rcr _ _ rm => rm.wf
  | .andRmReg _ _ rm _ => rm.wf
  | .andRmImm w rm imm => rm.wf && immFits w imm
  | .andAccImm w imm => immFits w imm
  | .testRmReg _ rm _ => rm.wf
  | .testRmImm w rm imm => rm.wf && immFits w imm
  | .testAccImm w imm => immFits w imm
  | .orRmReg _ _ rm _ => rm.wf
  | .orRmImm w rm imm => rm.wf && immFits w imm
  | .orAccImm w imm => immFits w imm
  | .xorRmReg _ _ rm _ => rm.wf
  | .xorRmImm w rm imm => rm.wf && immFits w imm
  | .xorAccImm w imm => immFits w imm
  | .rep => true
  | .repne => true
  | .movs _ => true
  | .cmps _ => true
  | .scas _ => true
  | .lods _ => true
  | .stos _ => true
  | .callNear _ => true
  | .callRm rm => rm.wf
  | .callFar _ _ => true
  | .callMem rm => rm.wf
  | .retNear => true
  | .retNearImm _ => true
  | .retFar => true
  | .retFarImm _ => true
  | .je _ => true
  | .jl _ => true
  | .jle _ => true
  | .jb _ => true
  | .jbe _ => true
  | .jp _ => true
  | .jo _ => true
  | .js _ => true
  | .jne _ => true
  | .jnl _ => true
  | .jnle _ => true
  | .jnb _ => true
  | .jnbe _ => true
  | .jnp _ => true
  | .jno _ => true
  | .jns _ => true
  | .jcxz _ => true
  | .jmpNear _ => true
  | .jmpShort _ => true
  | .jmpRm rm => rm.wf
  | .jmpFar _ _ => true
  | .jmpMem rm => rm.wf
  | .loop _ => true
  | .loopz _ => true
  | .loopnz _ => true
  | .int _ => true
  | .int3 => true
  | .into => true
  | .iret => true
  | .clc => true
  | .cmc => true
  | .stc => true
  | .cld => true
  | .std => true
  | .cli => true
  | .sti => true
  | .hlt => true
  | .wait => true
  | .esc _ _ rm => rm.wf
  | .lock => true
  | .segment _ => true

end Sys2Proof
end

