-- ==== Sys2Proof/Decode.lean ====
section
/-! DEFINITION. Bytes to instruction and back. The decoder is the table of spec/opcode_table.json: a row's mask and value
over the first two bytes (spec/30_encoding.md R136) and a reader for its fields and the bytes that follow. It is total
and rejects by name. The encoder after it is written from the patterns of the same table. -/

namespace Sys2Proof

/-- Why bytes are no instruction. -/
inductive DecodeError where
  /-- The bytes end before the instruction does. -/
  | truncated
  /-- The table assigns the encoding to no instruction (spec/30_encoding.md R150, R151). -/
  | unassigned
  /-- More than MAX_PREFIXES prefixes, two of one kind, or LOCK with a repeat (spec/30_encoding.md R115, U13). -/
  | badPrefixes
  /-- A repeat prefix before an instruction that is not a string primitive (spec/30_encoding.md R115, U10). -/
  | repNonString
deriving DecidableEq, Repr

/-- What a reader answers: a value with the bytes it left, or why there is none. -/
abbrev Reading : Type → Type := Except DecodeError

/-! ## Fields -/

/-- Code 000 to 111 to register (spec/30_encoding.md R97). -/
def RegCode.ofCode : Nat → RegCode
  | 0 => .ax | 1 => .cx | 2 => .dx | 3 => .bx | 4 => .sp | 5 => .bp | 6 => .si | _ => .di

/-- Register to code (spec/30_encoding.md R97). -/
def RegCode.code : RegCode → Nat
  | .ax => 0 | .cx => 1 | .dx => 2 | .bx => 3 | .sp => 4 | .bp => 5 | .si => 6 | .di => 7

/-- Code 00 to 11 to segment register (spec/30_encoding.md R105). -/
def SegReg.ofCode : Nat → SegReg
  | 0 => .es | 1 => .cs | 2 => .ss | _ => .ds

/-- Segment register to code (spec/30_encoding.md R105). -/
def SegReg.code : SegReg → Nat
  | .es => 0 | .cs => 1 | .ss => 2 | .ds => 3

/-- R/M code to base and index (spec/30_encoding.md R99). -/
def AddrBase.ofCode : Nat → AddrBase
  | 0 => .bxSi | 1 => .bxDi | 2 => .bpSi | 3 => .bpDi | 4 => .si | 5 => .di | 6 => .bp | _ => .bx

/-- Base and index to R/M code (spec/30_encoding.md R99). -/
def AddrBase.code : AddrBase → Nat
  | .bxSi => 0 | .bxDi => 1 | .bpSi => 2 | .bpDi => 3 | .si => 4 | .di => 5 | .bp => 6 | .bx => 7

/-- The W bit's value (spec/30_encoding.md R94). -/
def Width.bit : Width → Nat
  | .byte => 0 | .word => 1

/-- The D bit's value (spec/30_encoding.md R93). -/
def Dir.bit : Dir → Nat
  | .toRm => 0 | .toReg => 1

/-- The v bit's value (spec/30_encoding.md R125). -/
def Count.bit : Count → Nat
  | .one => 0 | .cl => 1

/-- W in bit 0 of the first byte (spec/30_encoding.md R94). -/
def wBit (b : Byte) : Width := if b.toNat % 2 = 1 then .word else .byte

/-- W in bit 3 of the first byte (spec/30_encoding.md R119). -/
def wBit3 (b : Byte) : Width := if b.toNat / 8 % 2 = 1 then .word else .byte

/-- D in bit 1 of the first byte (spec/30_encoding.md R93). -/
def dBit (b : Byte) : Dir := if b.toNat / 2 % 2 = 1 then .toReg else .toRm

/-- s in bit 1 of the first byte (spec/30_encoding.md R118). -/
def sBit (b : Byte) : Bool := b.toNat / 2 % 2 == 1

/-- v in bit 1 of the first byte (spec/30_encoding.md R125). -/
def vBit (b : Byte) : Count := if b.toNat / 2 % 2 = 1 then .cl else .one

/-! ## Readers of the bytes that follow -/

/-- One byte. -/
def takeByte : List Byte → Reading (Byte × List Byte)
  | [] => .error .truncated
  | b :: bs => .ok (b, bs)

/-- A word, low byte first (spec/20_memory.md R64). -/
def takeWord : List Byte → Reading (Word × List Byte)
  | lo :: hi :: bs => .ok (wordOf hi lo, bs)
  | _ => .error .truncated

/-- `Data | Data if w=1` (spec/30_encoding.md R117). -/
def takeImm (w : Width) (bs : List Byte) : Reading (Word × List Byte) :=
  match w with
  | .byte => do
    let (b, bs) ← takeByte bs
    return (zext16 b, bs)
  | .word => takeWord bs

/-- `Data | Data if s:w=01`, the value after sign extension (spec/30_encoding.md R118). -/
def takeImmS (s : Bool) (w : Width) (bs : List Byte) : Reading (Word × List Byte) :=
  match w, s with
  | .byte, _ => do
    let (b, bs) ← takeByte bs
    return (zext16 b, bs)
  | .word, true => do
    let (b, bs) ← takeByte bs
    return (sext16 b, bs)
  | .word, false => takeWord bs

/-- The second byte and its displacement: the REG field's value and the r/m operand (spec/30_encoding.md R95, R99 to R102). -/
def takeModRM : List Byte → Reading ((Nat × RM) × List Byte)
  | [] => .error .truncated
  | m :: bs =>
    let reg := m.toNat / 8 % 8
    let rm := m.toNat % 8
    match m.toNat / 64 with
    | 0 =>
      if rm = 6 then do
        let (a, bs) ← takeWord bs
        return ((reg, .direct a), bs)
      else .ok ((reg, .base (.ofCode rm)), bs)
    | 1 => do
      let (d, bs) ← takeByte bs
      return ((reg, .disp8 (.ofCode rm) d), bs)
    | 2 => do
      let (d, bs) ← takeWord bs
      return ((reg, .disp16 (.ofCode rm) d), bs)
    | _ => .ok ((reg, .reg (.ofCode rm)), bs)

/-! ## Readers of a row: the first byte, then the rest -/

/-- A row's reader: from the first byte and the bytes after it. -/
abbrev RowReader := Byte → List Byte → Reading (Instr × List Byte)

/-- One byte, no field. -/
def rowOne (i : Instr) : RowReader := fun _ bs => .ok (i, bs)

/-- Two fixed bytes (AAM, AAD: spec/30_encoding.md R128). -/
def rowTwo (i : Instr) : RowReader := fun _ bs => do
  let (_, bs) ← takeByte bs
  return (i, bs)

/-- One byte with W. -/
def rowW (mk : Width → Instr) : RowReader := fun b bs => .ok (mk (wBit b), bs)

/-- Opcode and register (spec/30_encoding.md R104). -/
def rowReg (mk : RegCode → Instr) : RowReader := fun b bs => .ok (mk (.ofCode (b.toNat % 8)), bs)

/-- Segment register in bits 4:3 of the first byte (spec/30_encoding.md R105). -/
def rowSreg (mk : SegReg → Instr) : RowReader := fun b bs => .ok (mk (.ofCode (b.toNat / 8 % 4)), bs)

/-- Register, W in bit 3, immediate (spec/30_encoding.md R119). -/
def rowRegImm (mk : Width → RegCode → Word → Instr) : RowReader := fun b bs => do
  let (imm, bs) ← takeImm (wBit3 b) bs
  return (mk (wBit3 b) (.ofCode (b.toNat % 8)) imm, bs)

/-- Accumulator and immediate (spec/30_encoding.md R116). -/
def rowAccImm (mk : Width → Word → Instr) : RowReader := fun b bs => do
  let (imm, bs) ← takeImm (wBit b) bs
  return (mk (wBit b) imm, bs)

/-- Accumulator and memory at a two-byte offset (spec/30_encoding.md R120). -/
def rowAccMem (mk : Width → Word → Instr) : RowReader := fun b bs => do
  let (addr, bs) ← takeWord bs
  return (mk (wBit b) addr, bs)

/-- Accumulator and fixed port: one byte whatever W is (spec/30_encoding.md R116). -/
def rowPort (mk : Width → Byte → Instr) : RowReader := fun b bs => do
  let (p, bs) ← takeByte bs
  return (mk (wBit b) p, bs)

/-- One byte of branch increment or interrupt type (spec/30_encoding.md R121). -/
def rowRel8 (mk : Byte → Instr) : RowReader := fun _ bs => do
  let (d, bs) ← takeByte bs
  return (mk d, bs)

/-- Two bytes of branch increment or stack amount (spec/30_encoding.md R121). -/
def rowRel16 (mk : Word → Instr) : RowReader := fun _ bs => do
  let (d, bs) ← takeWord bs
  return (mk d, bs)

/-- A far pointer: IP, then CS (spec/30_encoding.md R123). -/
def rowFar (mk : Word → Word → Instr) : RowReader := fun _ bs => do
  let (ip, bs) ← takeWord bs
  let (cs, bs) ← takeWord bs
  return (mk ip cs, bs)

/-- A ModRM operand of fixed width, REG an opcode extension (spec/30_encoding.md R98). -/
def rowRm (mk : RM → Instr) : RowReader := fun _ bs => do
  let ((_, rm), bs) ← takeModRM bs
  return (mk rm, bs)

/-- A ModRM operand with W, REG an opcode extension (spec/30_encoding.md R98). -/
def rowRmW (mk : Width → RM → Instr) : RowReader := fun b bs => do
  let ((_, rm), bs) ← takeModRM bs
  return (mk (wBit b) rm, bs)

/-- The shift group (spec/30_encoding.md R125, R132). -/
def rowShift (mk : Count → Width → RM → Instr) : RowReader := fun b bs => do
  let ((_, rm), bs) ← takeModRM bs
  return (mk (vBit b) (wBit b) rm, bs)

/-- ModRM with a register and D (spec/30_encoding.md R92, R93). -/
def rowRmRegD (mk : Dir → Width → RM → RegCode → Instr) : RowReader := fun b bs => do
  let ((reg, rm), bs) ← takeModRM bs
  return (mk (dBit b) (wBit b) rm (.ofCode reg), bs)

/-- ModRM with a register, no D. -/
def rowRmReg (mk : Width → RM → RegCode → Instr) : RowReader := fun b bs => do
  let ((reg, rm), bs) ← takeModRM bs
  return (mk (wBit b) rm (.ofCode reg), bs)

/-- ModRM with a word register destination (LEA, LDS, LES). -/
def rowRegRm (mk : RegCode → RM → Instr) : RowReader := fun _ bs => do
  let ((reg, rm), bs) ← takeModRM bs
  return (mk (.ofCode reg) rm, bs)

/-- ModRM with a segment register as destination (spec/30_encoding.md R106). -/
def rowSregRm (mk : SegReg → RM → Instr) : RowReader := fun _ bs => do
  let ((reg, rm), bs) ← takeModRM bs
  return (mk (.ofCode (reg % 4)) rm, bs)

/-- ModRM with a segment register as source (spec/30_encoding.md R106). -/
def rowRmSreg (mk : RM → SegReg → Instr) : RowReader := fun _ bs => do
  let ((reg, rm), bs) ← takeModRM bs
  return (mk rm (.ofCode (reg % 4)), bs)

/-- ModRM, then an immediate of the operation's width (spec/30_encoding.md R117). -/
def rowRmImm (mk : Width → RM → Word → Instr) : RowReader := fun b bs => do
  let ((_, rm), bs) ← takeModRM bs
  let (imm, bs) ← takeImm (wBit b) bs
  return (mk (wBit b) rm imm, bs)

/-- ModRM, then an immediate by s:w (spec/30_encoding.md R118). -/
def rowRmImmS (mk : Bool → Width → RM → Word → Instr) : RowReader := fun b bs => do
  let ((_, rm), bs) ← takeModRM bs
  let (imm, bs) ← takeImmS (sBit b) (wBit b) bs
  return (mk (sBit b) (wBit b) rm imm, bs)

/-- ESC: six bits for the external device and an r/m operand (spec/30_encoding.md R124). -/
def rowEsc (mk : BitVec 3 → BitVec 3 → RM → Instr) : RowReader := fun b bs => do
  let ((reg, rm), bs) ← takeModRM bs
  return (mk (BitVec.ofNat 3 b.toNat) (BitVec.ofNat 3 reg) rm, bs)

/-! ## The table -/

/-- A row of spec/opcode_table.json: it matches bytes `b1`, `b2` when `b1 * 256 + b2` masked is its value (spec/30_encoding.md R136). -/
structure Row where
  value : Nat
  mask : Nat
  read : RowReader

/-- The rows of spec/opcode_table.json with rules R201 to R227. -/
def rowsTransfer : List Row := [
  ⟨0x8800, 0xFC00, rowRmRegD .movRmReg⟩,
  ⟨0xC600, 0xFE38, rowRmImm .movRmImm⟩,
  ⟨0xB000, 0xF000, rowRegImm .movRegImm⟩,
  ⟨0xA000, 0xFE00, rowAccMem .movAccMem⟩,
  ⟨0xA200, 0xFE00, rowAccMem .movMemAcc⟩,
  ⟨0x8E00, 0xFF20, rowSregRm .movSregRm⟩,
  ⟨0x8C00, 0xFF20, rowRmSreg .movRmSreg⟩,
  ⟨0xFF30, 0xFF38, rowRm .pushRm⟩,
  ⟨0x5000, 0xF800, rowReg .pushReg⟩,
  ⟨0x0600, 0xE700, rowSreg .pushSreg⟩,
  ⟨0x8F00, 0xFF38, rowRm .popRm⟩,
  ⟨0x5800, 0xF800, rowReg .popReg⟩,
  ⟨0x0700, 0xE700, rowSreg .popSreg⟩,
  ⟨0x8600, 0xFE00, rowRmReg .xchgRmReg⟩,
  ⟨0x9000, 0xF800, rowReg .xchgAxReg⟩,
  ⟨0xE400, 0xFE00, rowPort .inPort⟩,
  ⟨0xEC00, 0xFE00, rowW .inDx⟩,
  ⟨0xE600, 0xFE00, rowPort .outPort⟩,
  ⟨0xEE00, 0xFE00, rowW .outDx⟩,
  ⟨0xD700, 0xFF00, rowOne .xlat⟩,
  ⟨0x8D00, 0xFF00, rowRegRm .lea⟩,
  ⟨0xC500, 0xFF00, rowRegRm .lds⟩,
  ⟨0xC400, 0xFF00, rowRegRm .les⟩,
  ⟨0x9F00, 0xFF00, rowOne .lahf⟩,
  ⟨0x9E00, 0xFF00, rowOne .sahf⟩,
  ⟨0x9C00, 0xFF00, rowOne .pushf⟩,
  ⟨0x9D00, 0xFF00, rowOne .popf⟩]

/-- The rows of spec/opcode_table.json with rules R241 to R272. -/
def rowsArithmetic : List Row := [
  ⟨0x0000, 0xFC00, rowRmRegD .addRmReg⟩,
  ⟨0x8000, 0xFC38, rowRmImmS .addRmImm⟩,
  ⟨0x0400, 0xFE00, rowAccImm .addAccImm⟩,
  ⟨0x1000, 0xFC00, rowRmRegD .adcRmReg⟩,
  ⟨0x8010, 0xFC38, rowRmImmS .adcRmImm⟩,
  ⟨0x1400, 0xFE00, rowAccImm .adcAccImm⟩,
  ⟨0xFE00, 0xFE38, rowRmW .incRm⟩,
  ⟨0x4000, 0xF800, rowReg .incReg⟩,
  ⟨0x3700, 0xFF00, rowOne .aaa⟩,
  ⟨0x2700, 0xFF00, rowOne .daa⟩,
  ⟨0x2800, 0xFC00, rowRmRegD .subRmReg⟩,
  ⟨0x8028, 0xFC38, rowRmImmS .subRmImm⟩,
  ⟨0x2C00, 0xFE00, rowAccImm .subAccImm⟩,
  ⟨0x1800, 0xFC00, rowRmRegD .sbbRmReg⟩,
  ⟨0x8018, 0xFC38, rowRmImmS .sbbRmImm⟩,
  ⟨0x1C00, 0xFE00, rowAccImm .sbbAccImm⟩,
  ⟨0xFE08, 0xFE38, rowRmW .decRm⟩,
  ⟨0x4800, 0xF800, rowReg .decReg⟩,
  ⟨0xF618, 0xFE38, rowRmW .negRm⟩,
  ⟨0x3800, 0xFC00, rowRmRegD .cmpRmReg⟩,
  ⟨0x8038, 0xFC38, rowRmImmS .cmpRmImm⟩,
  ⟨0x3C00, 0xFE00, rowAccImm .cmpAccImm⟩,
  ⟨0x3F00, 0xFF00, rowOne .aas⟩,
  ⟨0x2F00, 0xFF00, rowOne .das⟩,
  ⟨0xF620, 0xFE38, rowRmW .mulRm⟩,
  ⟨0xF628, 0xFE38, rowRmW .imulRm⟩,
  ⟨0xD40A, 0xFFFF, rowTwo .aam⟩,
  ⟨0xF630, 0xFE38, rowRmW .divRm⟩,
  ⟨0xF638, 0xFE38, rowRmW .idivRm⟩,
  ⟨0xD50A, 0xFFFF, rowTwo .aad⟩,
  ⟨0x9800, 0xFF00, rowOne .cbw⟩,
  ⟨0x9900, 0xFF00, rowOne .cwd⟩]

/-- The rows of spec/opcode_table.json with rules R291 to R311. -/
def rowsLogic : List Row := [
  ⟨0xF610, 0xFE38, rowRmW .notRm⟩,
  ⟨0xD020, 0xFC38, rowShift .shl⟩,
  ⟨0xD028, 0xFC38, rowShift .shr⟩,
  ⟨0xD038, 0xFC38, rowShift .sar⟩,
  ⟨0xD000, 0xFC38, rowShift .rol⟩,
  ⟨0xD008, 0xFC38, rowShift .ror⟩,
  ⟨0xD010, 0xFC38, rowShift .rcl⟩,
  ⟨0xD018, 0xFC38, rowShift .rcr⟩,
  ⟨0x2000, 0xFC00, rowRmRegD .andRmReg⟩,
  ⟨0x8020, 0xFE38, rowRmImm .andRmImm⟩,
  ⟨0x2400, 0xFE00, rowAccImm .andAccImm⟩,
  ⟨0x8400, 0xFE00, rowRmReg .testRmReg⟩,
  ⟨0xF600, 0xFE38, rowRmImm .testRmImm⟩,
  ⟨0xA800, 0xFE00, rowAccImm .testAccImm⟩,
  ⟨0x0800, 0xFC00, rowRmRegD .orRmReg⟩,
  ⟨0x8008, 0xFE38, rowRmImm .orRmImm⟩,
  ⟨0x0C00, 0xFE00, rowAccImm .orAccImm⟩,
  ⟨0x3000, 0xFC00, rowRmRegD .xorRmReg⟩,
  ⟨0x8030, 0xFE38, rowRmImm .xorRmImm⟩,
  ⟨0x3400, 0xFE00, rowAccImm .xorAccImm⟩]

/-- The rows of spec/opcode_table.json with rules R321 to R327. -/
def rowsString : List Row := [
  ⟨0xF300, 0xFF00, rowOne .rep⟩,
  ⟨0xF200, 0xFF00, rowOne .repne⟩,
  ⟨0xA400, 0xFE00, rowW .movs⟩,
  ⟨0xA600, 0xFE00, rowW .cmps⟩,
  ⟨0xAE00, 0xFE00, rowW .scas⟩,
  ⟨0xAC00, 0xFE00, rowW .lods⟩,
  ⟨0xAA00, 0xFE00, rowW .stos⟩]

/-- The rows of spec/opcode_table.json with rules R341 to R378. -/
def rowsControl : List Row := [
  ⟨0xE800, 0xFF00, rowRel16 .callNear⟩,
  ⟨0xFF10, 0xFF38, rowRm .callRm⟩,
  ⟨0x9A00, 0xFF00, rowFar .callFar⟩,
  ⟨0xFF18, 0xFF38, rowRm .callMem⟩,
  ⟨0xC300, 0xFF00, rowOne .retNear⟩,
  ⟨0xC200, 0xFF00, rowRel16 .retNearImm⟩,
  ⟨0xCB00, 0xFF00, rowOne .retFar⟩,
  ⟨0xCA00, 0xFF00, rowRel16 .retFarImm⟩,
  ⟨0x7400, 0xFF00, rowRel8 .je⟩,
  ⟨0x7C00, 0xFF00, rowRel8 .jl⟩,
  ⟨0x7E00, 0xFF00, rowRel8 .jle⟩,
  ⟨0x7200, 0xFF00, rowRel8 .jb⟩,
  ⟨0x7600, 0xFF00, rowRel8 .jbe⟩,
  ⟨0x7A00, 0xFF00, rowRel8 .jp⟩,
  ⟨0x7000, 0xFF00, rowRel8 .jo⟩,
  ⟨0x7800, 0xFF00, rowRel8 .js⟩,
  ⟨0x7500, 0xFF00, rowRel8 .jne⟩,
  ⟨0x7D00, 0xFF00, rowRel8 .jnl⟩,
  ⟨0x7F00, 0xFF00, rowRel8 .jnle⟩,
  ⟨0x7300, 0xFF00, rowRel8 .jnb⟩,
  ⟨0x7700, 0xFF00, rowRel8 .jnbe⟩,
  ⟨0x7B00, 0xFF00, rowRel8 .jnp⟩,
  ⟨0x7100, 0xFF00, rowRel8 .jno⟩,
  ⟨0x7900, 0xFF00, rowRel8 .jns⟩,
  ⟨0xE300, 0xFF00, rowRel8 .jcxz⟩,
  ⟨0xE900, 0xFF00, rowRel16 .jmpNear⟩,
  ⟨0xEB00, 0xFF00, rowRel8 .jmpShort⟩,
  ⟨0xFF20, 0xFF38, rowRm .jmpRm⟩,
  ⟨0xEA00, 0xFF00, rowFar .jmpFar⟩,
  ⟨0xFF28, 0xFF38, rowRm .jmpMem⟩,
  ⟨0xE200, 0xFF00, rowRel8 .loop⟩,
  ⟨0xE100, 0xFF00, rowRel8 .loopz⟩,
  ⟨0xE000, 0xFF00, rowRel8 .loopnz⟩,
  ⟨0xCD00, 0xFF00, rowRel8 .int⟩,
  ⟨0xCC00, 0xFF00, rowOne .int3⟩,
  ⟨0xCE00, 0xFF00, rowOne .into⟩,
  ⟨0xCF00, 0xFF00, rowOne .iret⟩]

/-- The rows of spec/opcode_table.json with rules R401 to R412. -/
def rowsProcessor : List Row := [
  ⟨0xF800, 0xFF00, rowOne .clc⟩,
  ⟨0xF500, 0xFF00, rowOne .cmc⟩,
  ⟨0xF900, 0xFF00, rowOne .stc⟩,
  ⟨0xFC00, 0xFF00, rowOne .cld⟩,
  ⟨0xFD00, 0xFF00, rowOne .std⟩,
  ⟨0xFA00, 0xFF00, rowOne .cli⟩,
  ⟨0xFB00, 0xFF00, rowOne .sti⟩,
  ⟨0xF400, 0xFF00, rowOne .hlt⟩,
  ⟨0x9B00, 0xFF00, rowOne .wait⟩,
  ⟨0xD800, 0xF800, rowEsc .esc⟩,
  ⟨0xF000, 0xFF00, rowOne .lock⟩,
  ⟨0x2600, 0xE700, rowSreg .segment⟩]

/-- All 135 rows (spec/30_encoding.md R136). -/
def opcodeRows : List Row :=
  rowsTransfer ++ rowsArithmetic ++ rowsLogic ++ rowsString ++ rowsControl ++ rowsProcessor

/-- Does a row match these two bytes (spec/30_encoding.md R136)? -/
def Row.hits (r : Row) (b1 b2 : Byte) : Bool := (b1.toNat * 256 + b2.toNat) &&& r.mask == r.value

/-- The row for these two bytes. No two rows match the same pair (spec/30_encoding.md R136). -/
def findRow (b1 b2 : Byte) : Option Row := opcodeRows.find? fun r => r.hits b1 b2

/-- Could some second byte complete this first byte to an instruction? -/
def firstByteAssigned (b1 : Byte) : Bool :=
  opcodeRows.any fun r => b1.toNat &&& (r.mask >>> 8) == r.value >>> 8

/-- One row of the table read from the front of the bytes: a prefix, or an instruction without its prefixes. -/
def decodeOne : List Byte → Reading (Instr × List Byte)
  | [] => .error .truncated
  | b1 :: bs =>
    match findRow b1 (bs.headD 0#8) with
    | some r => r.read b1 bs
    | none => .error (if bs.isEmpty && firstByteAssigned b1 then .truncated else .unassigned)

/-! ## Prefixes -/

/-- The prefix rows of the table (spec/30_encoding.md R110, R113). -/
def Instr.isPrefix : Instr → Bool
  | .rep | .repne | .lock | .segment _ => true
  | _ => false

/-- The repeat prefixes F3h and F2h (spec/43_string.md R321, R322). -/
def Instr.isRepeat : Instr → Bool
  | .rep | .repne => true
  | _ => false

/-- The segment override prefixes (spec/45_processor_control.md R412). -/
def Instr.isSegment : Instr → Bool
  | .segment _ => true
  | _ => false

/-- The five string primitives (spec/43_string.md R320), the only instructions a repeat prefix may precede. -/
def Instr.isString : Instr → Bool
  | .movs _ | .cmps _ | .scas _ | .lods _ | .stos _ => true
  | _ => false

/-- An instruction with its prefixes, in the order they stand, and its length in bytes with them
(spec/10_state.md R28, spec/30_encoding.md R115). -/
structure Decoded where
  prefixes : List Instr
  body : Instr
  length : Nat
deriving DecidableEq, Repr

/-- May these prefixes stand together: at most one of F0h, F2h, F3h and at most one segment override, MAX_PREFIXES in
all (spec/30_encoding.md R115)? -/
def prefixesAllowed (ps : List Instr) : Bool :=
  ps.length ≤ Config.maxPrefixes &&
  (ps.filter Instr.isSegment).length ≤ 1 && (ps.filter fun p => p.isPrefix && !p.isSegment).length ≤ 1

/-- May these prefixes stand before this instruction (spec/30_encoding.md R115, U10)? -/
def prefixesFit (ps : List Instr) (body : Instr) : Bool := !ps.any Instr.isRepeat || body.isString

/-- Reads prefixes until an instruction comes; `seen` are those read so far and `fuel` how many more may come. -/
def decodeFrom : (fuel : Nat) → (seen : List Instr) → List Byte → Except DecodeError (List Instr × Instr × List Byte)
  | fuel, seen, bs =>
    match decodeOne bs with
    | .error e => .error e
    | .ok (i, rest) =>
      if i.isPrefix then
        if prefixesAllowed (seen ++ [i]) then
          match fuel with
          | 0 => .error .badPrefixes
          | fuel + 1 => decodeFrom fuel (seen ++ [i]) rest
        else .error .badPrefixes
      else if prefixesFit seen i then .ok (seen, i, rest)
      else .error .repNonString

/-- The instruction at the front of the bytes, with its prefixes (spec/30_encoding.md R115, R129). -/
def decode (bs : List Byte) : Except DecodeError Decoded :=
  match decodeFrom Config.maxPrefixes [] bs with
  | .error e => .error e
  | .ok (ps, i, rest) => .ok ⟨ps, i, bs.length - rest.length⟩

/-! ## Encoder -/

/-- A byte of the table's patterns, given as a number. -/
def opByte (n : Nat) : Byte := BitVec.ofNat 8 n

/-- A word field, low byte first (spec/20_memory.md R64). -/
def encodeWord (v : Word) : List Byte := [lowByte v, highByte v]

/-- `Data | Data if w=1` (spec/30_encoding.md R117). -/
def encodeImm (w : Width) (imm : Word) : List Byte :=
  match w with
  | .byte => [lowByte imm]
  | .word => encodeWord imm

/-- `Data | Data if s:w=01` (spec/30_encoding.md R118). -/
def encodeImmS (s : Bool) (w : Width) (imm : Word) : List Byte :=
  match w, s with
  | .byte, _ => [lowByte imm]
  | .word, true => [lowByte imm]
  | .word, false => encodeWord imm

/-- The second byte: `MOD * 64 + REG * 8 + R/M` (spec/30_encoding.md R95). -/
def modrmByte (mod reg rm : Nat) : Byte := opByte (mod * 64 + reg * 8 + rm)

/-- The second byte and its displacement (spec/30_encoding.md R95 to R102). -/
def RM.encode (rm : RM) (reg : Nat) : List Byte :=
  match rm with
  | .reg c => [modrmByte 3 reg c.code]
  | .direct a => modrmByte 0 reg 6 :: encodeWord a
  | .base b => [modrmByte 0 reg b.code]
  | .disp8 b d => [modrmByte 1 reg b.code, d]
  | .disp16 b d => modrmByte 2 reg b.code :: encodeWord d

/-- The bytes of a well-formed instruction, or the byte of a prefix, from the patterns of spec/opcode_table.json. -/
def encode : Instr → List Byte
  | .movRmReg d w rm r => opByte (0x88 + d.bit * 2 + w.bit) :: rm.encode r.code
  | .movRmImm w rm imm => opByte (0xC6 + w.bit) :: (rm.encode 0 ++ encodeImm w imm)
  | .movRegImm w r imm => opByte (0xB0 + w.bit * 8 + r.code) :: encodeImm w imm
  | .movAccMem w addr => opByte (0xA0 + w.bit) :: encodeWord addr
  | .movMemAcc w addr => opByte (0xA2 + w.bit) :: encodeWord addr
  | .movSregRm sr rm => opByte 0x8E :: rm.encode sr.code
  | .movRmSreg rm sr => opByte 0x8C :: rm.encode sr.code
  | .pushRm rm => opByte 0xFF :: rm.encode 6
  | .pushReg r => [opByte (0x50 + r.code)]
  | .pushSreg sr => [opByte (0x06 + sr.code * 8)]
  | .popRm rm => opByte 0x8F :: rm.encode 0
  | .popReg r => [opByte (0x58 + r.code)]
  | .popSreg sr => [opByte (0x07 + sr.code * 8)]
  | .xchgRmReg w rm r => opByte (0x86 + w.bit) :: rm.encode r.code
  | .xchgAxReg r => [opByte (0x90 + r.code)]
  | .inPort w port => [opByte (0xE4 + w.bit), port]
  | .inDx w => [opByte (0xEC + w.bit)]
  | .outPort w port => [opByte (0xE6 + w.bit), port]
  | .outDx w => [opByte (0xEE + w.bit)]
  | .xlat => [opByte 0xD7]
  | .lea r rm => opByte 0x8D :: rm.encode r.code
  | .lds r rm => opByte 0xC5 :: rm.encode r.code
  | .les r rm => opByte 0xC4 :: rm.encode r.code
  | .lahf => [opByte 0x9F]
  | .sahf => [opByte 0x9E]
  | .pushf => [opByte 0x9C]
  | .popf => [opByte 0x9D]
  | .addRmReg d w rm r => opByte (0x00 + d.bit * 2 + w.bit) :: rm.encode r.code
  | .addRmImm s w rm imm => opByte (0x80 + s.toNat * 2 + w.bit) :: (rm.encode 0 ++ encodeImmS s w imm)
  | .addAccImm w imm => opByte (0x04 + w.bit) :: encodeImm w imm
  | .adcRmReg d w rm r => opByte (0x10 + d.bit * 2 + w.bit) :: rm.encode r.code
  | .adcRmImm s w rm imm => opByte (0x80 + s.toNat * 2 + w.bit) :: (rm.encode 2 ++ encodeImmS s w imm)
  | .adcAccImm w imm => opByte (0x14 + w.bit) :: encodeImm w imm
  | .incRm w rm => opByte (0xFE + w.bit) :: rm.encode 0
  | .incReg r => [opByte (0x40 + r.code)]
  | .aaa => [opByte 0x37]
  | .daa => [opByte 0x27]
  | .subRmReg d w rm r => opByte (0x28 + d.bit * 2 + w.bit) :: rm.encode r.code
  | .subRmImm s w rm imm => opByte (0x80 + s.toNat * 2 + w.bit) :: (rm.encode 5 ++ encodeImmS s w imm)
  | .subAccImm w imm => opByte (0x2C + w.bit) :: encodeImm w imm
  | .sbbRmReg d w rm r => opByte (0x18 + d.bit * 2 + w.bit) :: rm.encode r.code
  | .sbbRmImm s w rm imm => opByte (0x80 + s.toNat * 2 + w.bit) :: (rm.encode 3 ++ encodeImmS s w imm)
  | .sbbAccImm w imm => opByte (0x1C + w.bit) :: encodeImm w imm
  | .decRm w rm => opByte (0xFE + w.bit) :: rm.encode 1
  | .decReg r => [opByte (0x48 + r.code)]
  | .negRm w rm => opByte (0xF6 + w.bit) :: rm.encode 3
  | .cmpRmReg d w rm r => opByte (0x38 + d.bit * 2 + w.bit) :: rm.encode r.code
  | .cmpRmImm s w rm imm => opByte (0x80 + s.toNat * 2 + w.bit) :: (rm.encode 7 ++ encodeImmS s w imm)
  | .cmpAccImm w imm => opByte (0x3C + w.bit) :: encodeImm w imm
  | .aas => [opByte 0x3F]
  | .das => [opByte 0x2F]
  | .mulRm w rm => opByte (0xF6 + w.bit) :: rm.encode 4
  | .imulRm w rm => opByte (0xF6 + w.bit) :: rm.encode 5
  | .aam => [opByte 0xD4, 0x0A#8]
  | .divRm w rm => opByte (0xF6 + w.bit) :: rm.encode 6
  | .idivRm w rm => opByte (0xF6 + w.bit) :: rm.encode 7
  | .aad => [opByte 0xD5, 0x0A#8]
  | .cbw => [opByte 0x98]
  | .cwd => [opByte 0x99]
  | .notRm w rm => opByte (0xF6 + w.bit) :: rm.encode 2
  | .shl v w rm => opByte (0xD0 + v.bit * 2 + w.bit) :: rm.encode 4
  | .shr v w rm => opByte (0xD0 + v.bit * 2 + w.bit) :: rm.encode 5
  | .sar v w rm => opByte (0xD0 + v.bit * 2 + w.bit) :: rm.encode 7
  | .rol v w rm => opByte (0xD0 + v.bit * 2 + w.bit) :: rm.encode 0
  | .ror v w rm => opByte (0xD0 + v.bit * 2 + w.bit) :: rm.encode 1
  | .rcl v w rm => opByte (0xD0 + v.bit * 2 + w.bit) :: rm.encode 2
  | .rcr v w rm => opByte (0xD0 + v.bit * 2 + w.bit) :: rm.encode 3
  | .andRmReg d w rm r => opByte (0x20 + d.bit * 2 + w.bit) :: rm.encode r.code
  | .andRmImm w rm imm => opByte (0x80 + w.bit) :: (rm.encode 4 ++ encodeImm w imm)
  | .andAccImm w imm => opByte (0x24 + w.bit) :: encodeImm w imm
  | .testRmReg w rm r => opByte (0x84 + w.bit) :: rm.encode r.code
  | .testRmImm w rm imm => opByte (0xF6 + w.bit) :: (rm.encode 0 ++ encodeImm w imm)
  | .testAccImm w imm => opByte (0xA8 + w.bit) :: encodeImm w imm
  | .orRmReg d w rm r => opByte (0x08 + d.bit * 2 + w.bit) :: rm.encode r.code
  | .orRmImm w rm imm => opByte (0x80 + w.bit) :: (rm.encode 1 ++ encodeImm w imm)
  | .orAccImm w imm => opByte (0x0C + w.bit) :: encodeImm w imm
  | .xorRmReg d w rm r => opByte (0x30 + d.bit * 2 + w.bit) :: rm.encode r.code
  | .xorRmImm w rm imm => opByte (0x80 + w.bit) :: (rm.encode 6 ++ encodeImm w imm)
  | .xorAccImm w imm => opByte (0x34 + w.bit) :: encodeImm w imm
  | .rep => [opByte 0xF3]
  | .repne => [opByte 0xF2]
  | .movs w => [opByte (0xA4 + w.bit)]
  | .cmps w => [opByte (0xA6 + w.bit)]
  | .scas w => [opByte (0xAE + w.bit)]
  | .lods w => [opByte (0xAC + w.bit)]
  | .stos w => [opByte (0xAA + w.bit)]
  | .callNear inc => opByte 0xE8 :: encodeWord inc
  | .callRm rm => opByte 0xFF :: rm.encode 2
  | .callFar newIp newCs => opByte 0x9A :: (encodeWord newIp ++ encodeWord newCs)
  | .callMem rm => opByte 0xFF :: rm.encode 3
  | .retNear => [opByte 0xC3]
  | .retNearImm n => opByte 0xC2 :: encodeWord n
  | .retFar => [opByte 0xCB]
  | .retFarImm n => opByte 0xCA :: encodeWord n
  | .je inc => [opByte 0x74, inc]
  | .jl inc => [opByte 0x7C, inc]
  | .jle inc => [opByte 0x7E, inc]
  | .jb inc => [opByte 0x72, inc]
  | .jbe inc => [opByte 0x76, inc]
  | .jp inc => [opByte 0x7A, inc]
  | .jo inc => [opByte 0x70, inc]
  | .js inc => [opByte 0x78, inc]
  | .jne inc => [opByte 0x75, inc]
  | .jnl inc => [opByte 0x7D, inc]
  | .jnle inc => [opByte 0x7F, inc]
  | .jnb inc => [opByte 0x73, inc]
  | .jnbe inc => [opByte 0x77, inc]
  | .jnp inc => [opByte 0x7B, inc]
  | .jno inc => [opByte 0x71, inc]
  | .jns inc => [opByte 0x79, inc]
  | .jcxz inc => [opByte 0xE3, inc]
  | .jmpNear inc => opByte 0xE9 :: encodeWord inc
  | .jmpShort inc => [opByte 0xEB, inc]
  | .jmpRm rm => opByte 0xFF :: rm.encode 4
  | .jmpFar newIp newCs => opByte 0xEA :: (encodeWord newIp ++ encodeWord newCs)
  | .jmpMem rm => opByte 0xFF :: rm.encode 5
  | .loop inc => [opByte 0xE2, inc]
  | .loopz inc => [opByte 0xE1, inc]
  | .loopnz inc => [opByte 0xE0, inc]
  | .int n => [opByte 0xCD, n]
  | .int3 => [opByte 0xCC]
  | .into => [opByte 0xCE]
  | .iret => [opByte 0xCF]
  | .clc => [opByte 0xF8]
  | .cmc => [opByte 0xF5]
  | .stc => [opByte 0xF9]
  | .cld => [opByte 0xFC]
  | .std => [opByte 0xFD]
  | .cli => [opByte 0xFA]
  | .sti => [opByte 0xFB]
  | .hlt => [opByte 0xF4]
  | .wait => [opByte 0x9B]
  | .esc x y rm => opByte (0xD8 + x.toNat) :: rm.encode y.toNat
  | .lock => [opByte 0xF0]
  | .segment sr => [opByte (0x26 + sr.code * 8)]

/-- The bytes of an instruction with its prefixes. -/
def encodeAll (ps : List Instr) (body : Instr) : List Byte := ps.flatMap encode ++ encode body

/-! ## The host's question -/

/-- The bytes of an instruction given as the table numbers it: a row of two bytes is `byte1 * 256 + byte2`, so its first
byte is the high one; everything after the row's own bytes is 0 (spec/30_encoding.md R136; log 15). Longest instruction: 8 bytes (R114). -/
def tableBytes (nbits w : Nat) : List Byte :=
  let n := nbits / 8
  (List.range n).map (fun k => BitVec.ofNat 8 (w >>> (8 * (n - 1 - k)))) ++ List.replicate (8 - n) 0#8

/-- The table's instruction that the decoder reads from an instruction with these bits: for a prefix row, the prefix. -/
def decodeTableWord (nbits w : Nat) : Option Instr :=
  match decodeOne (tableBytes nbits w) with
  | .ok (i, _) => some i
  | .error _ => none

end Sys2Proof
end

