-- ==== Sys2Proof/Machine/Fetch.lean ====
section
/-! DEFINITION. Fetching, the prefetch queue, and one step around a given `exec`: the lines, the instruction with its
prefixes, the recognition point (spec/10_state.md R28, spec/20_memory.md R78, spec/60_exceptions.md R509; log 7, log 9). -/

namespace Sys2Proof.Machine

/-! ## Fetch -/

/-- The longest instruction: two prefixes and six bytes (spec/30_encoding.md R114, R129). -/
def maxLength : Nat := Config.maxPrefixes + 6

/-- The physical address of the code byte `k` bytes after offset `ip`; offsets wrap in the segment (spec/10_state.md R29). -/
def State.codeAddr (s : State) (ip : Word) (k : Nat) : PAddr := phys s.segs.cs (ip + BitVec.ofNat 16 k)

/-- Up to `n` code bytes from offset `ip` on, stopping at the first address outside the memory map. -/
def State.codeBytes (s : State) : Nat → Word → List Byte
  | 0, _ => []
  | n + 1, ip =>
    let a := phys s.segs.cs ip
    if inSpans s.unmapped a.toNat then [] else s.byteAt a :: State.codeBytes s n (ip + 1)

/-- The queued copy of the byte at an address, if there is one. -/
def queued (q : List Queued) (a : PAddr) : Option Queued := q.find? fun c => c.addr == a

/-- A queued copy of a byte that was stored to since, or that differs from memory: old or new byte, the bus timing
decides (U14; log 9). -/
def State.staleAt (s : State) (a : PAddr) : Bool :=
  match queued s.queue a with
  | some c => c.stored || c.byte != s.byteAt a
  | none => false

/-- Whether a byte of an instruction of `len` bytes at IP is stale (spec/70_reset_and_hazards.md R545). -/
def State.raced (s : State) (len : Nat) : Bool := (List.range len).any fun k => s.staleAt (s.codeAddr s.ip k)

/-- The instruction at CS:IP. -/
def fetch (s : State) : Out Decoded :=
  let bytes := s.codeBytes maxLength s.ip
  match decode bytes with
  | .ok d => if s.raced d.length then .refused .prefetchRace else .next d
  | .error .truncated => .fault (.unmappedRead (s.codeAddr s.ip bytes.length).toNat)
  | .error .unassigned => .refused .unassigned
  | .error .badPrefixes => .refused .badPrefixes
  | .error .repNonString => .refused .repNonString

/-- The bytes that may be in the prefetch queue while an instruction of `len` bytes at IP executes: its own and the
next PREFETCH_DEPTH. A byte that was queued before stays as it was queued (spec/20_memory.md R78; log 9). -/
def State.window (s : State) (len : Nat) : List Queued :=
  (List.range (len + Config.prefetchDepth)).map fun k =>
    let a := s.codeAddr s.ip k
    (queued s.queue a).getD ⟨a, s.byteAt a, false⟩

/-! ## One step -/

/-- The state in which the fetched instruction executes: IP is `next_ip` (spec/10_state.md R28). -/
def State.start (s : State) (len : Nat) : State :=
  { s with
    cur := ⟨s.ip, 0, none, none⟩
    ip := s.ip + BitVec.ofNat 16 len
    inRepeat := false
    queue := s.window len }

/-- The prefixes, in order. -/
def runPrefixes (ex : Instr → State → Out State) : List Instr → State → Out State
  | [], s => .next s
  | i :: is, s => andThen (ex i s) fun t => runPrefixes ex is t

/-- The instruction is over: nothing is latched any more. -/
def State.finish (s : State) : State := { s with cur := Current.idle, lock := false }

/-- A decoded instruction with its prefixes, and the recognition point after it (spec/60_exceptions.md R505, R508). LOCK
lasts for the instruction only (spec/45_processor_control.md R411). -/
def runDecoded (ex : Instr → State → Out State) (d : Decoded) (s : State) : Out State :=
  andThen (runPrefixes ex d.prefixes (s.start d.length)) fun t =>
  andThen (ex d.body t) fun u =>
  recognise s.flags.TF u.savedIp u.finish

/-- A halted CPU: a recognition point and nothing else (spec/60_exceptions.md R518); stuck when no event can come
(spec/93_implementation_defined.md U16; log 10). `more` says that the environment has events to come. -/
def idle (more : Bool) (s : State) : Out State :=
  if !more && !s.flags.IF && !s.nmiPending then .fault .haltedForEver else recognise false s.ip s

/-- What the CPU does in a step for which the environment has been sampled: a reset, a recognition point while halted, or
an instruction. `more` says that the environment has events to come. -/
def act (ex : Instr → State → Out State) (reset more : Bool) (s : State) : Out State :=
  if reset then .next s.resetSequence
  else if s.halted then idle more s
  else andThen (fetch s) fun d => runDecoded ex d s

/-- One step, with `ex` as the meaning of an instruction: what the environment brings, what the CPU does, and the writes
of other bus masters that are left. -/
def stepWith (ex : Instr → State → Out State) (s : State) : Out State :=
  andThen (act ex s.resetNow (!s.inputs.isEmpty) s.sample) fun t => .next t.settle

/-! ## The host's question (log 16) -/

/-- Memory with bytes stored from code offset `ip` on, whatever the memory map says. -/
def State.store (s : State) (ip : Word) : List Byte → Memory → Memory
  | [], m => m
  | b :: bs, m => State.store s (ip + 1) bs (m.write (phys s.segs.cs ip).toNat b)

/-- The ranges that hold none of the addresses. -/
def spansWithout (l : List Span) (as : List Nat) : List Span := l.filter fun p => !as.any fun a => inSpans [p] a

/-- The first schedule entry without RESET and without writes that land before the fetch. -/
def undisturbed : List Lines → List Lines
  | [] => []
  | l :: ls => { l with reset := false, writes := [] } :: ls

/-- The state with these bytes at CS:IP, so that the next step fetches them. -/
def State.withCode (s : State) (bytes : List Byte) : State :=
  { s with
    mem := s.store s.ip bytes s.mem
    unmapped := spansWithout s.unmapped ((List.range bytes.length).map fun k => (s.codeAddr s.ip k).toNat)
    inputs := undisturbed s.inputs
    halted := false
    queue := [] }

end Sys2Proof.Machine
end

