-- ==== Sys2Proof/Machine/Step.lean ====
section
/-! DEFINITION. The step function and the host's way to place an instruction. -/

namespace Sys2Proof.Machine

/-- One step: an instruction with the recognition point after it, one iteration of a repeated string instruction, one
recognition point while halted, or a reset (spec/70_reset_and_hazards.md R550; log 7). -/
def step (s : State) : Host.Outcome State Fault Refusal := stepWith exec s

/-- The state whose next step fetches and runs the table's instruction with these bits (log 15, log 16). -/
def State.withFetchWord (s : State) (nbits w : Nat) : State := s.withCode (tableBytes nbits w)

end Sys2Proof.Machine
end

