-- ==== Sys2Proof/Safety.lean ====
section
/-! DEFINITION. The words that statements about the machine use: which accesses the memory map admits, what an operand
holds, what a store leaves behind, and the invariant that every step keeps. Nothing here is part of the machine. -/

namespace Sys2Proof.Machine

/-! ## Accesses that the memory map admits (spec/20_memory.md R80)

`admitsRead` and `admitsWrite` speak of the map alone. The other words say too that no write of another bus master lands
between the accesses (`State.alone`), so that the operand is one value. -/

/-- A read of the byte is admitted. -/
def canReadByte (a : PAddr) (s : State) : Bool := !inSpans s.unmapped a.toNat

/-- A write of the byte is admitted. -/
def canWriteByte (a : PAddr) (s : State) : Bool := !inSpans s.unmapped a.toNat && !inSpans s.rom a.toNat

/-- The addresses of a byte or word operand, the low byte's first (spec/20_memory.md R66). -/
def cellsOf (w : Width) (seg off : Word) : List PAddr :=
  match w with
  | .byte => [phys seg off]
  | .word => [phys seg off, phys seg (off + 1)]

/-- The memory map admits a read of the operand. -/
def admitsRead (w : Width) (seg off : Word) (s : State) : Bool := (cellsOf w seg off).all fun a => canReadByte a s

/-- The memory map admits a write of the operand. -/
def admitsWrite (w : Width) (seg off : Word) (s : State) : Bool := (cellsOf w seg off).all fun a => canWriteByte a s

/-- No write of another bus master lands between the CPU's accesses: none is due, or LOCK holds the bus
(spec/20_memory.md R68, R77). -/
def State.alone (s : State) : Bool := s.lock || s.due.isEmpty

/-- A read of the operand is admitted and undisturbed. -/
def canRead (w : Width) (seg off : Word) (s : State) : Bool := s.alone && admitsRead w seg off s

/-- A write of the operand is admitted and undisturbed. -/
def canWrite (w : Width) (seg off : Word) (s : State) : Bool := s.alone && admitsWrite w seg off s

/-- `ReadRM(w)` is admitted: always for a register. -/
def canReadRM (w : Width) (rm : RM) (s : State) : Bool :=
  match s.place rm with
  | .reg _ => true
  | .mem seg off => canRead w seg off s

/-- `WriteRM(w)` is admitted: always for a register. -/
def canWriteRM (w : Width) (rm : RM) (s : State) : Bool :=
  match s.place rm with
  | .reg _ => true
  | .mem seg off => canWrite w seg off s

/-- A push is admitted with SP lowered by `n` before it. -/
def canPush (n : Word) (s : State) : Bool := canWrite .word s.segs.ss (s.regs.sp - n - 2) s

/-- A pop is admitted with SP raised by `n` before it. -/
def canPop (n : Word) (s : State) : Bool := canRead .word s.segs.ss (s.regs.sp + n) s

/-- The four bytes of a doubleword pointer can be read; false where the operand is a register. -/
def canReadPointer (rm : RM) (s : State) : Bool :=
  match s.place rm with
  | .reg _ => false
  | .mem seg off => canRead .word seg off s && canRead .word seg (off + 2) s

/-- The address of byte `k` of entry `n` of the vector table (spec/60_exceptions.md R502). -/
def vectorAddr (n : Byte) (k : Nat) : PAddr := BitVec.ofNat 20 (4 * n.toNat + k)

/-- Entry `n` of the vector table can be read. -/
def canReadVector (n : Byte) (s : State) : Bool := s.alone && [0, 1, 2, 3].all fun k => canReadByte (vectorAddr n k) s

/-- Interrupt `n` can be taken: its entry can be read and three words pushed (spec/60_exceptions.md R506). -/
def canInterrupt (n : Byte) (s : State) : Bool :=
  canReadVector n s && canPush 0 s && canPush 2 s && canPush 4 s

/-- The fault, where an operation stops with one. -/
def faultOf {α : Type} (o : Out α) : Option Fault := match o with | .fault r => some r | _ => none

/-! ## What memory and operands hold -/

/-- The byte or word in memory at `seg:off`. -/
def State.load (s : State) (w : Width) (seg off : Word) : Word :=
  match w with
  | .byte => zext16 (s.byteAt (phys seg off))
  | .word => wordOf (s.byteAt (phys seg (off + 1))) (s.byteAt (phys seg off))

/-- What an r/m operand holds. -/
def State.operand (s : State) (w : Width) (rm : RM) : Word :=
  match s.place rm with
  | .reg c => s.reg w c
  | .mem seg off => s.load w seg off

/-- The offset word and the segment word of a doubleword pointer in memory; 0 for a register. -/
def State.pointer (s : State) (rm : RM) : Word × Word :=
  match s.place rm with
  | .reg _ => (0, 0)
  | .mem seg off => (s.load .word seg off, s.load .word seg (off + 2))

/-- The new IP and the new CS in entry `n` of the vector table. -/
def State.vector (s : State) (n : Byte) : Word × Word :=
  (wordOf (s.byteAt (vectorAddr n 1)) (s.byteAt (vectorAddr n 0)), wordOf (s.byteAt (vectorAddr n 3)) (s.byteAt (vectorAddr n 2)))

/-- The bytes that a store of `v` at `seg:off` writes, each with its address (spec/20_memory.md R66). -/
def cells (w : Width) (seg off v : Word) : List (PAddr × Byte) :=
  match w with
  | .byte => [(phys seg off, lowByte v)]
  | .word => [(phys seg off, lowByte v), (phys seg (off + 1), highByte v)]

/-- What a list of stored bytes says of an address, if it says anything: the last one stored there counts. -/
def storedAt : List (PAddr × Byte) → PAddr → Option Byte
  | [], _ => none
  | (k, b) :: l, a => (storedAt l a).or (if k = a then some b else none)

/-- `t` is `s` with exactly these bytes stored: every other byte of memory reads as before, the queued copies of the
bytes stored to are marked, and nothing else changed. -/
def Stores (bs : List (PAddr × Byte)) (s t : State) : Prop :=
  t = { s with mem := t.mem, queue := markStored (bs.map Prod.fst) s.queue } ∧ ∀ a : PAddr, t.byteAt a = (storedAt bs a).getD (s.byteAt a)

/-- `t` is `s` with `v` written to the r/m operand: to the register it names, or to the byte or word of memory at its
effective address. -/
def Writes (w : Width) (rm : RM) (v : Word) (s t : State) : Prop :=
  match s.place rm with
  | .reg c => t = s.setReg w c v
  | .mem seg off => Stores (cells w seg off v) s t

/-- `t` is `s` after a push of `v`: SP lowered by 2, the word stored at the new SS:SP, nothing else changed. -/
def Pushes (v : Word) (s t : State) : Prop :=
  Stores (cells .word s.segs.ss (s.regs.sp - 2) v) { s with regs := { s.regs with sp := s.regs.sp - 2 } } t

/-- `t` is `s` after two pushes, of `v` and then of `u`. -/
def PushesTwo (v u : Word) (s t : State) : Prop :=
  Stores (cells .word s.segs.ss (s.regs.sp - 2) v ++ cells .word s.segs.ss (s.regs.sp - 4) u)
    { s with regs := { s.regs with sp := s.regs.sp - 4 } } t

/-- `t` is `s` after interrupt `n` was taken with `saved` as the saved IP (spec/60_exceptions.md R506): FLAGS, CS and
the saved IP are on the stack, SP is lower by 6, IF and TF are clear, CS and IP come from entry `n`, the CPU is
neither halted nor inside a repeat, the prefetch queue is empty. Nothing else changed. -/
def Interrupted (n : Byte) (saved : Word) (s t : State) : Prop :=
  Stores (cells .word s.segs.ss (s.regs.sp - 2) s.flags.toWord ++ cells .word s.segs.ss (s.regs.sp - 4) s.segs.cs ++
      cells .word s.segs.ss (s.regs.sp - 6) saved)
    { s with
      regs := { s.regs with sp := s.regs.sp - 6 }
      flags := { s.flags with IF := false, TF := false }
      segs := { s.segs with cs := (s.vector n).2 }
      ip := (s.vector n).1
      halted := false
      inRepeat := false
      queue := [] } t

/-- The ports of an access are driven (spec/93_implementation_defined.md U4). -/
def driven (w : Width) (p : Word) (s : State) : Bool :=
  match w with
  | .byte => !inSpans s.undriven p.toNat
  | .word => !inSpans s.undriven p.toNat && !inSpans s.undriven (p + 1).toNat

/-! ## Which bytes of memory an instruction reads and stores to

`s` is the state in which the instruction executes: IP is `next_ip`, and `cur` holds what its prefixes latched. -/

/-- The bytes of an r/m operand; none for a register. -/
def State.operandCells (s : State) (w : Width) (rm : RM) : List PAddr :=
  match s.place rm with
  | .reg _ => []
  | .mem seg off => cellsOf w seg off

/-- The four bytes of a doubleword pointer; none for a register. -/
def State.pointerCells (s : State) (rm : RM) : List PAddr :=
  match s.place rm with
  | .reg _ => []
  | .mem seg off => cellsOf .word seg off ++ cellsOf .word seg (off + 2)

/-- The bytes of a push, with SP lowered by `n` before it. -/
def State.pushCells (s : State) (n : Word) : List PAddr := cellsOf .word s.segs.ss (s.regs.sp - n - 2)

/-- The bytes of a pop, with SP raised by `n` before it. -/
def State.popCells (s : State) (n : Word) : List PAddr := cellsOf .word s.segs.ss (s.regs.sp + n)

/-- The string element at SI (spec/43_string.md R320). -/
def State.siCells (s : State) (w : Width) : List PAddr := cellsOf w (s.segOr .ds) s.regs.si

/-- The string element at ES:DI (spec/43_string.md R320). -/
def State.diCells (s : State) (w : Width) : List PAddr := cellsOf w s.segs.es s.regs.di

/-- The bytes of entry `n` of the vector table. -/
def vectorCells (n : Byte) : List PAddr := [vectorAddr n 0, vectorAddr n 1, vectorAddr n 2, vectorAddr n 3]

/-- A string instruction has an iteration to run: it is not repeated, or CX is not 0 (spec/43_string.md R328). -/
def State.iterates (s : State) : Bool := s.cur.rep.isNone || s.regs.cx != 0

/-- The interrupt that an instruction itself takes: INT, INT3, INTO with OF, and the divide error. -/
def State.raises (s : State) (i : Instr) : Option Byte :=
  match i with
  | .int n => some n
  | .int3 => some 3
  | .into => if s.flags.OF then some 4 else none
  | .divRm w rm =>
    let d := (s.operand w rm).toNat
    if d = 0 ∨ 2 ^ bitsOf w ≤ s.dividend w / d then some 0 else none
  | .idivRm w rm =>
    let d := signedOf w (s.operand w rm)
    if d = 0 ∨ quotientMax w < (s.signedDividend w).tdiv d ∨ (s.signedDividend w).tdiv d < quotientMin w then some 0
    else none
  | _ => none

/-- The operands that an instruction reads in memory, in order: r/m operands, pointers, the stack, string elements. -/
def State.operandsReadBy (s : State) (i : Instr) : List PAddr :=
  match i with
  | .movRmReg d w rm _ => if d = .toReg then s.operandCells w rm else []
  | .xchgRmReg w rm _ | .incRm w rm | .decRm w rm | .negRm w rm | .notRm w rm
  | .addRmReg _ w rm _ | .adcRmReg _ w rm _ | .subRmReg _ w rm _ | .sbbRmReg _ w rm _ | .cmpRmReg _ w rm _
  | .addRmImm _ w rm _ | .adcRmImm _ w rm _ | .subRmImm _ w rm _ | .sbbRmImm _ w rm _ | .cmpRmImm _ w rm _
  | .andRmReg _ w rm _ | .orRmReg _ w rm _ | .xorRmReg _ w rm _ | .testRmReg w rm _
  | .andRmImm w rm _ | .orRmImm w rm _ | .xorRmImm w rm _ | .testRmImm w rm _
  | .mulRm w rm | .imulRm w rm | .divRm w rm | .idivRm w rm
  | .shl _ w rm | .shr _ w rm | .sar _ w rm | .rol _ w rm | .ror _ w rm | .rcl _ w rm | .rcr _ w rm =>
    s.operandCells w rm
  | .movSregRm sr rm => if sr = .cs then [] else s.operandCells .word rm
  | .pushRm rm | .callRm rm | .jmpRm rm | .esc _ _ rm => s.operandCells .word rm
  | .lds _ rm | .les _ rm | .callMem rm | .jmpMem rm => s.pointerCells rm
  | .movAccMem w a => cellsOf w (s.segOr .ds) a
  | .xlat => cellsOf .byte (s.segOr .ds) (s.regs.bx + s.acc .byte)
  | .popSreg sr => if sr = .cs then [] else s.popCells 0
  | .popRm _ | .popReg _ | .popf | .retNear | .retNearImm _ => s.popCells 0
  | .retFar | .retFarImm _ => s.popCells 0 ++ s.popCells 2
  | .iret => s.popCells 0 ++ s.popCells 2 ++ s.popCells 4
  | .movs w | .lods w => if s.iterates then s.siCells w else []
  | .scas w => if s.iterates then s.diCells w else []
  | .cmps w => if s.iterates then s.siCells w ++ s.diCells w else []
  | .movRmImm _ _ _ | .movRegImm _ _ _ | .movMemAcc _ _ | .movRmSreg _ _ | .pushReg _ | .pushSreg _ | .xchgAxReg _
  | .inPort _ _ | .inDx _ | .outPort _ _ | .outDx _ | .lea _ _ | .lahf | .sahf | .pushf | .addAccImm _ _
  | .adcAccImm _ _ | .incReg _ | .aaa | .daa | .subAccImm _ _ | .sbbAccImm _ _ | .decReg _ | .cmpAccImm _ _ | .aas
  | .das | .aam | .aad | .cbw | .cwd | .andAccImm _ _ | .testAccImm _ _ | .orAccImm _ _ | .xorAccImm _ _ | .rep
  | .repne | .stos _ | .callNear _ | .callFar _ _ | .je _ | .jl _ | .jle _ | .jb _ | .jbe _ | .jp _ | .jo _ | .js _
  | .jne _ | .jnl _ | .jnle _ | .jnb _ | .jnbe _ | .jnp _ | .jno _ | .jns _ | .jcxz _ | .jmpNear _ | .jmpShort _
  | .jmpFar _ _ | .loop _ | .loopz _ | .loopnz _ | .int _ | .int3 | .into | .clc | .cmc | .stc | .cld | .std | .cli
  | .sti | .hlt | .wait | .lock | .segment _ => []

/-- The bytes that an instruction reads, in order, before it stores any: its operands in memory, and the vector of the
interrupt it takes. -/
def State.readBy (s : State) (i : Instr) : List PAddr :=
  match s.raises i with
  | some n => s.operandsReadBy i ++ vectorCells n
  | none => s.operandsReadBy i

/-- The operands that an instruction stores in memory, in order: its destination, the stack slots it pushes to, the
string element at ES:DI. -/
def State.operandsStoredBy (s : State) (i : Instr) : List PAddr :=
  match i with
  | .movRmReg d w rm _ | .addRmReg d w rm _ | .adcRmReg d w rm _ | .subRmReg d w rm _ | .sbbRmReg d w rm _
  | .andRmReg d w rm _ | .orRmReg d w rm _ | .xorRmReg d w rm _ => if d = .toRm then s.operandCells w rm else []
  | .movRmImm w rm _ | .xchgRmReg w rm _ | .incRm w rm | .decRm w rm | .negRm w rm | .notRm w rm
  | .addRmImm _ w rm _ | .adcRmImm _ w rm _ | .subRmImm _ w rm _ | .sbbRmImm _ w rm _
  | .andRmImm w rm _ | .orRmImm w rm _ | .xorRmImm w rm _
  | .shl _ w rm | .shr _ w rm | .sar _ w rm | .rol _ w rm | .ror _ w rm | .rcl _ w rm | .rcr _ w rm =>
    s.operandCells w rm
  | .movRmSreg rm _ | .popRm rm => s.operandCells .word rm
  | .movMemAcc w a => cellsOf w (s.segOr .ds) a
  | .pushRm _ | .pushReg _ | .pushSreg _ | .pushf | .callNear _ | .callRm _ => s.pushCells 0
  | .callFar _ _ => s.pushCells 0 ++ s.pushCells 2
  | .callMem rm => if s.pointerCells rm = [] then [] else s.pushCells 0 ++ s.pushCells 2
  | .movs w | .stos w => if s.iterates then s.diCells w else []
  | .movRegImm _ _ _ | .movAccMem _ _ | .movSregRm _ _ | .popReg _ | .popSreg _ | .xchgAxReg _ | .inPort _ _ | .inDx _
  | .outPort _ _ | .outDx _ | .xlat | .lea _ _ | .lds _ _ | .les _ _ | .lahf | .sahf | .popf | .addAccImm _ _
  | .adcAccImm _ _ | .incReg _ | .aaa | .daa | .subAccImm _ _ | .sbbAccImm _ _ | .decReg _ | .cmpRmReg _ _ _ _
  | .cmpRmImm _ _ _ _ | .cmpAccImm _ _ | .aas | .das | .mulRm _ _ | .imulRm _ _ | .aam | .divRm _ _ | .idivRm _ _
  | .aad | .cbw | .cwd | .andAccImm _ _ | .testRmReg _ _ _ | .testRmImm _ _ _ | .testAccImm _ _ | .orAccImm _ _
  | .xorAccImm _ _ | .rep | .repne | .cmps _ | .scas _ | .lods _ | .retNear | .retNearImm _ | .retFar | .retFarImm _
  | .je _ | .jl _ | .jle _ | .jb _ | .jbe _ | .jp _ | .jo _ | .js _ | .jne _ | .jnl _ | .jnle _ | .jnb _ | .jnbe _
  | .jnp _ | .jno _ | .jns _ | .jcxz _ | .jmpNear _ | .jmpShort _ | .jmpRm _ | .jmpFar _ _ | .jmpMem _ | .loop _
  | .loopz _ | .loopnz _ | .int _ | .int3 | .into | .iret | .clc | .cmc | .stc | .cld | .std | .cli | .sti | .hlt
  | .wait | .esc _ _ _ | .lock | .segment _ => []

/-- The bytes that an instruction stores to, in order: the stack slots of the interrupt it takes, or else its operands. -/
def State.storedBy (s : State) (i : Instr) : List PAddr :=
  match s.raises i with
  | some _ => s.pushCells 0 ++ s.pushCells 2 ++ s.pushCells 4
  | none => s.operandsStoredBy i

/-- How accesses end that read these bytes and then store to those: the fault of the first that the memory map does not
admit, if there is one (spec/20_memory.md R80). -/
def State.faultAmong (s : State) (reads stores : List PAddr) : Option Fault :=
  match reads.find? fun a => !canReadByte a s with
  | some a => some (.unmappedRead a.toNat)
  | none => (stores.find? fun a => !canWriteByte a s).map fun a =>
      if inSpans s.unmapped a.toNat then .unmappedWrite a.toNat else .romWrite a.toNat

/-! ## Forms of an instruction (spec/41_arithmetic.md R240)

`res` is the result from the state before and the operands `a`, `b`; `after` relates the state before, the operands and
the state in which the flags are set and nothing is written yet. -/

/-- The result of an operation, from the state before, the width and the operands. -/
abbrev Result : Type := State → Width → Word → Word → Word

/-- What an operation does to the flags: the state before, the width, the operands, the state after. -/
abbrev FlagsAfter : Type := State → Width → Word → Word → State → Prop

/-- The three forms of an operation that writes its result to the first operand: each completes, with the result where
the form says and nothing else changed but what `after` says. -/
def WritesResult (rmReg : Dir → Width → RM → RegCode → Instr) (rmImm : Width → RM → Word → Instr)
    (accImm : Width → Word → Instr) (res : Result) (after : FlagsAfter) : Prop :=
  ∀ (s : State) (w : Width) (rm : RM) (r : RegCode) (imm : Word),
    (canReadRM w rm s = true →
      ∃ u, after s w (s.reg w r) (s.operand w rm) u ∧
        exec (rmReg .toReg w rm r) s = .next (u.setReg w r (res s w (s.reg w r) (s.operand w rm)))) ∧
    (s.mem.wf = true → canReadRM w rm s = true → canWriteRM w rm s = true →
      ∃ u t, after s w (s.operand w rm) (s.reg w r) u ∧ exec (rmReg .toRm w rm r) s = .next t ∧
        Writes w rm (res s w (s.operand w rm) (s.reg w r)) u t) ∧
    (s.mem.wf = true → canReadRM w rm s = true → canWriteRM w rm s = true →
      ∃ u t, after s w (s.operand w rm) imm u ∧ exec (rmImm w rm imm) s = .next t ∧
        Writes w rm (res s w (s.operand w rm) imm) u t) ∧
    (∃ u, after s w (s.reg w .ax) imm u ∧
      exec (accImm w imm) s = .next (u.setReg w .ax (res s w (s.reg w .ax) imm)))

/-- The forms with an r/m operand of an operation that only sets flags: each completes and writes neither operand. -/
def SetsFlagsOnly (rmImm : Width → RM → Word → Instr) (accImm : Width → Word → Instr) (after : FlagsAfter) : Prop :=
  ∀ (s : State) (w : Width) (rm : RM) (imm : Word),
    (canReadRM w rm s = true → ∃ u, after s w (s.operand w rm) imm u ∧ exec (rmImm w rm imm) s = .next u) ∧
    (∃ u, after s w (s.reg w .ax) imm u ∧ exec (accImm w imm) s = .next u)

/-- One r/m operand, replaced by the result. -/
def ReplacesOperand (mk : Width → RM → Instr) (res : Width → Word → Word) (after : State → Width → Word → State → Prop) : Prop :=
  ∀ (s : State) (w : Width) (rm : RM), s.mem.wf = true → canReadRM w rm s = true → canWriteRM w rm s = true →
    ∃ u t, after s w (s.operand w rm) u ∧ exec (mk w rm) s = .next t ∧ Writes w rm (res w (s.operand w rm)) u t

/-- Flags as `AddFlags` sets them, with carry in `c`. -/
def AfterAdd (c : State → Bool) : FlagsAfter := fun s w a b u => u = { s with flags := addFlags w a b (c s) s.flags }

/-- Flags as `SubFlags` sets them, with borrow in `c`. -/
def AfterSub (c : State → Bool) : FlagsAfter := fun s w a b u => u = { s with flags := subFlags w a b (c s) s.flags }

/-- Flags as `LogicFlags` sets them: AF holds any value, which one draw names. -/
def AfterLogic (f : Word → Word → Word) : FlagsAfter := fun s w a b u =>
  ∃ af, u = { s with flags := { logicFlags w (f a b) s.flags with AF := af }, draws := s.draws + 1 }

/-- What a shift or rotate of `n` steps from `x` to `r` with last carry `c` does to the flags (spec/42_logic.md R299):
nothing for a count of 0; else CF, OF for a count of 1, SF ZF PF for a shift, and TF, IF, DF as before. A rotate keeps
SF, ZF, AF, PF. What it leaves undefined is not mentioned. -/
def AfterShift (op : Shifter) (w : Width) (n : Nat) (x r : Word) (c : Bool) (s u : State) : Prop :=
  u = { s with flags := u.flags, draws := u.draws } ∧
  (n = 0 → u = s) ∧
  (n ≠ 0 → u.flags.CF = c ∧ u.flags.TF = s.flags.TF ∧ u.flags.IF = s.flags.IF ∧ u.flags.DF = s.flags.DF ∧
    (n = 1 → u.flags.OF = op.overflow w x r c) ∧
    (op.isShift = true → u.flags.SF = msb w r ∧ u.flags.ZF = (r.toNat % 2 ^ bitsOf w == 0) ∧ u.flags.PF = parity8 r) ∧
    (op.isShift = false → u.flags.SF = s.flags.SF ∧ u.flags.ZF = s.flags.ZF ∧ u.flags.AF = s.flags.AF ∧
      u.flags.PF = s.flags.PF))

/-- The whole of a shift or rotate: it completes, with the result of `count` steps in the operand. -/
def ShiftsOperand (mk : Count → Width → RM → Instr) (op : Shifter) : Prop :=
  ∀ (s : State) (v : Count) (w : Width) (rm : RM),
    s.mem.wf = true → canReadRM w rm s = true → canWriteRM w rm s = true →
    ∃ u t, AfterShift op w (s.shiftCount v) (s.operand w rm)
        (op.run w (s.shiftCount v) (s.operand w rm) s.flags.CF).1
        (op.run w (s.shiftCount v) (s.operand w rm) s.flags.CF).2 s u ∧
      exec (mk v w rm) s = .next t ∧
      Writes w rm (op.run w (s.shiftCount v) (s.operand w rm) s.flags.CF).1 u t

/-! ## The invariant -/

/-- Holds of every state between two steps: memory is in its canonical form; no prefix is latched and LOCK is released;
the interrupt shadow is over; no write of another bus master is left over; between two iterations of a repeat there are
iterations left and the CPU is not halted; the prefetch queue holds no more than the longest instruction and
PREFETCH_DEPTH bytes after it. -/
structure State.Inv (s : State) : Prop where
  mem : s.mem.wf = true
  cur : s.cur = Current.idle
  lock : s.lock = false
  inhibit : s.inhibit = false
  due : s.due = []
  rep : s.inRepeat = true → s.regs.cx ≠ 0 ∧ s.halted = false
  queue : s.queue.length ≤ maxLength + Config.prefetchDepth

end Sys2Proof.Machine
end

