-- ==== Sys2Proof/Certificates/Slice0/Obligations.lean ====
section
/-! DEFINITION. The statements about the machine that the provers prove, each named for what it says. `exec i s` runs `i`
with IP already at `next_ip` (spec/10_state.md R28) and with what its prefixes latched in `s.cur`. A premise `s.mem.wf`
is the part of the invariant that InvariantKeptByEveryStep keeps. An equation `exec i s = .next t` says that the
instruction completes, what it does, and that nothing else changes. -/

open Sys2Proof Sys2Proof.Machine

/-! ## Encoding -/

/-- Some words written out from the spec's encodings decode to the instructions they stand for. -/
def Obligations.WordsOfTheSpecDecode : Prop :=
  decode [0x8B, 0xD8] = .ok ⟨[], .movRmReg .toReg .word (.reg .ax) .bx, 2⟩ ∧
  decode [0x36, 0x8B, 0x09] = .ok ⟨[.segment .ss], .movRmReg .toReg .word (.base .bxDi) .cx, 3⟩ ∧
  decode [0x83, 0xC3, 0xFF] = .ok ⟨[], .addRmImm true .word (.reg .bx) 0xFFFF, 3⟩ ∧
  decode [0x81, 0x84, 0x34, 0x12, 0x78, 0x56] = .ok ⟨[], .addRmImm false .word (.disp16 .si 0x1234) 0x5678, 6⟩ ∧
  decode [0x8B, 0x0E, 0x34, 0x12] = .ok ⟨[], .movRmReg .toReg .word (.direct 0x1234) .cx, 4⟩ ∧
  decode [0xD3, 0xE0] = .ok ⟨[], .shl .cl .word (.reg .ax), 2⟩ ∧
  decode [0xF3, 0x26, 0xA4] = .ok ⟨[.rep, .segment .es], .movs .byte, 3⟩ ∧
  decode [0xEA, 0xF0, 0xFF, 0x00, 0xF0] = .ok ⟨[], .jmpFar 0xFFF0 0xF000, 5⟩ ∧
  decode [0xD9, 0x06, 0x00, 0x10] = .ok ⟨[], .esc 1 0 (.direct 0x1000), 4⟩ ∧
  decode [0xFB] = .ok ⟨[], .sti, 1⟩

/-- Decoding the encoding of any well-formed instruction or prefix gives it back, whatever bytes follow. -/
def Obligations.DecodeOfEncode : Prop :=
  ∀ (i : Instr) (rest : List Byte), i.wf = true → decodeOne (encode i ++ rest) = .ok (i, rest)

/-- Every byte sequence that decodes is the encoding of what it decodes to: no bit is dropped, no two sequences share an
instruction. -/
def Obligations.EncodeOfDecode : Prop :=
  ∀ (bs rest : List Byte) (i : Instr), decodeOne bs = .ok (i, rest) → i.wf = true ∧ encode i ++ rest = bs

/-- An instruction decodes with its prefixes, and its length counts them (R28, R115). -/
def Obligations.PrefixedInstructionsDecode : Prop :=
  ∀ (ps : List Instr) (i : Instr) (rest : List Byte),
    (∀ p ∈ ps, p.isPrefix = true) → prefixesAllowed ps = true → i.isPrefix = false → i.wf = true → prefixesFit ps i = true →
    decode (encodeAll ps i ++ rest) = .ok ⟨ps, i, (encodeAll ps i).length⟩

/-- Exactly the encodings that R150 lists are unassigned. -/
def Obligations.UnassignedExactlyAsListed : Prop :=
  ∀ (b1 b2 : Byte) (rest : List Byte),
    decodeOne (b1 :: b2 :: rest) = .error .unassigned ↔
      (0x60 ≤ b1 ∧ b1 ≤ 0x6F) ∨ b1 = 0xC0 ∨ b1 = 0xC1 ∨ b1 = 0xC8 ∨ b1 = 0xC9 ∨ b1 = 0xD6 ∨ b1 = 0xF1 ∨
      ((b1 = 0x82 ∨ b1 = 0x83) ∧ (b2.toNat / 8 % 8 = 1 ∨ b2.toNat / 8 % 8 = 4 ∨ b2.toNat / 8 % 8 = 6)) ∨
      ((b1 = 0x8C ∨ b1 = 0x8E) ∧ 4 ≤ b2.toNat / 8 % 8) ∨
      ((b1 = 0x8F ∨ b1 = 0xC6 ∨ b1 = 0xC7) ∧ b2.toNat / 8 % 8 ≠ 0) ∨
      ((0xD0 ≤ b1 ∧ b1 ≤ 0xD3) ∧ b2.toNat / 8 % 8 = 6) ∨
      ((b1 = 0xD4 ∨ b1 = 0xD5) ∧ b2 ≠ 0x0A) ∨
      ((b1 = 0xF6 ∨ b1 = 0xF7) ∧ b2.toNat / 8 % 8 = 1) ∨
      (b1 = 0xFE ∧ 2 ≤ b2.toNat / 8 % 8) ∨
      (b1 = 0xFF ∧ b2.toNat / 8 % 8 = 7)

/-- Misused prefixes are refused: two of one kind, LOCK with a repeat, three of them, and a repeat before an
instruction that is not a string primitive (R115, U10, U13). -/
def Obligations.MisusedPrefixesRefused : Prop :=
  (∀ (a b : SegReg) (rest : List Byte), decode (encodeAll [.segment a] (.segment b) ++ rest) = .error .badPrefixes) ∧
  (∀ (p q : Instr) (rest : List Byte), p.isPrefix = true → q.isPrefix = true → p.isSegment = false → q.isSegment = false →
    decode (encodeAll [p] q ++ rest) = .error .badPrefixes) ∧
  (∀ (p q r : Instr) (rest : List Byte), p.isPrefix = true → q.isPrefix = true → r.isPrefix = true →
    decode (encodeAll [p, q] r ++ rest) = .error .badPrefixes) ∧
  (∀ (p i : Instr) (rest : List Byte), p.isRepeat = true → i.isPrefix = false → i.isString = false → i.wf = true →
    decode (encodeAll [p] i ++ rest) = .error .repNonString)

/-! ## Steps -/

/-- A step outside reset and halt takes in what the environment brings (`s.sample`), fetches, latches the prefixes, runs
`exec` of the decoded instruction with IP at `next_ip`, releases the prefixes, and ends with the recognition point and
the memory writes of other bus masters that are left (what one step takes in is the model's choice, logs 7 and 17). -/
def Obligations.StepRunsDecodedInstruction : Prop :=
  ∀ (s : State) (d : Decoded),
    s.resetNow = false → s.halted = false → decode (s.sample.codeBytes maxLength s.ip) = .ok d →
    s.sample.raced d.length = false →
    step s =
      andThen (runPrefixes exec d.prefixes (s.sample.start d.length)) fun t =>
      andThen (exec d.body t) fun u =>
      andThen (recognise s.flags.TF u.savedIp { u with cur := Current.idle, lock := false }) fun v => .next v.settle

/-- When the bytes at CS:IP are the encoding of a well-formed unprefixed instruction, all inside the memory map and not
raced by an earlier store, a step runs that instruction. The bytes are those after the writes of other bus masters that
the environment brings to this step (log 17); with none, they are those of `s`. -/
def Obligations.StepRunsEncodedInstruction : Prop :=
  ∀ (s : State) (i : Instr),
    s.resetNow = false → s.halted = false → i.wf = true → i.isPrefix = false →
    s.sample.raced (encode i).length = false →
    (∀ k, ∀ h : k < (encode i).length,
      canReadByte (s.codeAddr s.ip k) s = true ∧ s.sample.byteAt (s.codeAddr s.ip k) = (encode i)[k]) →
    step s =
      andThen (exec i (s.sample.start (encode i).length)) fun u =>
      andThen (recognise s.flags.TF u.savedIp u.finish) fun v => .next v.settle

/-- The prefetch queue. While an instruction executes it holds the bytes of the instruction and the PREFETCH_DEPTH
bytes after it, each as it was when it could first be fetched. A store marks the queued copy of what it stores to,
whatever it stores and whoever stores it: an instruction leaves in the queue what was there with exactly the bytes it
stores to marked (and those that other bus masters write to meanwhile), or else it is one that can transfer control and
leaves the queue empty. (For DIV and IDIV, whose operand decides whether they take interrupt 0, this is said where no
other bus master writes meanwhile.) An instruction with a byte whose copy is marked, or differs from memory, is refused:
it was stored to after the bus unit may have fetched it (R545 case 3, U14). With an empty queue the bytes in memory are
the ones executed (R78 case 2). Which bytes may be queued is the model's choice (log 9). -/
def Obligations.PrefetchQueueAndRace : Prop :=
  (∀ (s : State) (len k : Nat), k < len + Config.prefetchDepth →
    (s.start len).queue.length = len + Config.prefetchDepth ∧
    (queued s.queue (s.codeAddr s.ip k) = none →
      (s.start len).queue[k]? = some ⟨s.codeAddr s.ip k, s.byteAt (s.codeAddr s.ip k), false⟩) ∧
    (∀ c, queued s.queue (s.codeAddr s.ip k) = some c → (s.start len).queue[k]? = some c)) ∧
  (∀ (s : State) (a : PAddr) (v : Byte), (s.put a v).queue = markStored [a] s.queue) ∧
  (∀ (s : State) (l : Burst), (State.putOthers l s).queue =
    markStored ((l.filter fun c => canWriteByte c.1 s).map Prod.fst) s.queue) ∧
  (∀ (s : State) (w : Width) (seg off v : Word) (t : State), s.alone = true → writeMem w seg off v s = .next t →
    t.queue = markStored (cellsOf w seg off) s.queue) ∧
  (∀ (i : Instr) (s t : State), (match i with | .divRm _ _ | .idivRm _ _ => s.alone = true | _ => True) →
    exec i s = .next t →
    ((match i with
      | .callNear _ | .callRm _ | .callFar _ _ | .callMem _ | .retNear | .retNearImm _ | .retFar | .retFarImm _
      | .jmpNear _ | .jmpShort _ | .jmpRm _ | .jmpFar _ _ | .jmpMem _ | .loop _ | .loopz _ | .loopnz _ | .jcxz _
      | .je _ | .jl _ | .jle _ | .jb _ | .jbe _ | .jp _ | .jo _ | .js _ | .jne _ | .jnl _ | .jnle _ | .jnb _ | .jnbe _
      | .jnp _ | .jno _ | .jns _ | .int _ | .int3 | .into | .iret | .divRm _ _ | .idivRm _ _ => True
      | _ => False) ∧ t.queue = []) ∨
    ∃ as, t.queue = markStored as s.queue ∧ (∀ a ∈ s.storedBy i, a ∈ as) ∧
      (∀ a ∈ as, a ∈ s.storedBy i ∨ (s.lock = false ∧ ∃ b ∈ s.due, ∃ c ∈ b, c.1 = a ∧ canWriteByte a s = true))) ∧
  (∀ (as : List PAddr) (q : List Queued) (a : PAddr), queued (markStored as q) a =
    (queued q a).map fun c => { c with stored := c.stored || decide (a ∈ as) }) ∧
  (∀ (s : State) (d : Decoded) (k : Nat) (c : Queued),
    s.resetNow = false → s.halted = false → decode (s.sample.codeBytes maxLength s.ip) = .ok d → k < d.length →
    queued s.sample.queue (s.codeAddr s.ip k) = some c →
    c.stored = true ∨ c.byte ≠ s.sample.byteAt (s.codeAddr s.ip k) →
    step s = .refused .prefetchRace) ∧
  (∀ (s : State) (d : Decoded), s.queue = [] → decode (s.codeBytes maxLength s.ip) = .ok d → fetch s = .next d)

/-- A halted CPU: it wakes by NMI or by INTR with IF = 1, saving IP; it idles while nothing is due and something may
come; with IF = 0, no NMI and nothing to come it is stuck (R408, R518, U16; the schedule of what may come is the
model's, logs 6 and 10). Other bus masters write on while it is halted (log 17). -/
def Obligations.HaltedCpu : Prop :=
  ∀ s : State, s.resetNow = false → s.halted = true → s.inhibit = false →
    (s.sample.nmiPending = true →
      step s = andThen (interruptSequence 2 s.ip { s.sample with nmiPending := false }) fun t => .next t.settle) ∧
    (∀ n, s.sample.nmiPending = false → s.flags.IF = true → s.sample.intr = some n →
      step s = andThen (interruptSequence n s.ip s.sample) fun t => .next t.settle) ∧
    (s.sample.nmiPending = false → s.flags.IF = true → s.sample.intr = none → step s = .next s.sample.settle) ∧
    (s.sample.nmiPending = false → s.flags.IF = false → s.inputs ≠ [] → step s = .next s.sample.settle) ∧
    (s.nmiPending = false → s.flags.IF = false → s.inputs = [] → step s = .fault .haltedForEver)

/-! ## The environment -/

/-- What the environment brings to a step: an NMI edge sets the latch, INTR and TEST take their levels, RESET is used
or not, other bus masters write memory. With nothing scheduled all stays as it is. Instructions change none of it: the
NMI latch stays set while the interrupt shadow lasts and is cleared when the NMI is taken (R504). That the inputs come
from a schedule with one entry a step is the model's choice (logs 6 and 17). -/
def Obligations.InputsOfAStep : Prop :=
  (∀ (s : State) (l : Lines) (ls : List Lines), s.inputs = l :: ls →
    s.resetNow = l.reset ∧ s.sample.nmiPending = (s.nmiPending || l.nmi) ∧ s.sample.intr = l.intr ∧
    s.sample.test = l.test ∧ s.sample.inputs = ls ∧ s.sample.due = l.bursts ∧
    (s.mem.wf = true → Stores (l.writes.filter fun c => canWriteByte c.1 s)
      { s with
        inputs := ls, nmiPending := s.nmiPending || l.nmi, intr := l.intr, test := l.test, due := l.bursts } s.sample)) ∧
  (∀ s : State, s.inputs = [] → s.resetNow = false ∧ s.sample = s) ∧
  (∀ (i : Instr) (s t : State), exec i s = .next t →
    t.nmiPending = s.nmiPending ∧ t.intr = s.intr ∧ t.test = s.test ∧ t.inputs = s.inputs) ∧
  (∀ (tf0 : Bool) (saved : Word) (s t : State), recognise tf0 saved s = .next t →
    t.nmiPending = (s.nmiPending && s.inhibit) ∧ t.intr = s.intr ∧ t.test = s.test ∧ t.inputs = s.inputs)

/-- Other bus masters write memory between two bus cycles of the CPU (R68, R76): before each access of an instruction
the next burst that is due lands, where the map has RAM. A word at an even address is one bus cycle, at an odd address
two, with a burst between its bytes; INC of a byte in memory is two, with a burst between the read and the write. A
LOCKed instruction holds the bus from its first bus cycle to its last: it does the same whatever is due (R77). The
bursts as data, and the 16-bit bus of the 8086, are the model's (logs 17 and 18). -/
def Obligations.AccessesAmongOtherMasters : Prop :=
  (∀ (s : State) (seg off v : Word) (rm : RM), s.mem.wf = true →
    let lo := phys seg off
    let hi := phys seg (off + 1)
    let t := s.busCycle
    let u := t.busCycle
    (s.lock = true ∨ s.due = [] → t = s) ∧
    (∀ b bs, s.lock = false → s.due = b :: bs →
      Stores (b.filter fun c => canWriteByte c.1 s) { s with due := bs } t) ∧
    (admitsRead .byte seg off s = true → readMem .byte seg off s = .next (zext16 (t.byteAt lo), t)) ∧
    (admitsRead .word seg off s = true →
      (off.getLsbD 0 = false → readMem .word seg off s = .next (wordOf (t.byteAt hi) (t.byteAt lo), t)) ∧
      (off.getLsbD 0 = true → readMem .word seg off s = .next (wordOf (u.byteAt hi) (t.byteAt lo), u))) ∧
    (admitsWrite .byte seg off s = true → ∃ x, writeMem .byte seg off v s = .next x ∧ Stores [(lo, lowByte v)] t x) ∧
    (admitsWrite .word seg off s = true →
      (off.getLsbD 0 = false →
        ∃ x, writeMem .word seg off v s = .next x ∧ Stores [(lo, lowByte v), (hi, highByte v)] t x) ∧
      (off.getLsbD 0 = true →
        ∃ x y, writeMem .word seg off v s = .next y ∧ Stores [(lo, lowByte v)] t x ∧
          Stores [(hi, highByte v)] x.busCycle y)) ∧
    (s.place rm = .mem seg off → admitsRead .byte seg off s = true → admitsWrite .byte seg off s = true →
      ∃ x, exec (.incRm .byte rm) s = .next x ∧ Stores [(lo, t.byteAt lo + 1)]
        { u with flags := { addFlags .byte (zext16 (t.byteAt lo)) 1 false s.flags with CF := s.flags.CF } } x)) ∧
  (∀ (i : Instr) (s t : State) (due : List Burst), s.lock = true → exec i s = .next t →
    t.due = s.due ∧ exec i { s with due := due } = .next { t with due := due })

/-- An access that the memory map does not admit has no step: it stops with the address, as a read, a write or a write
to ROM (R80, U12). So does every operation that reads or stores memory, and so does every instruction, at the first of
the bytes it reads, and then of those it stores to, that is not admitted; when all are, none of these stops there. A
fetch whose next byte is not there stops too. (The operand that decides whether DIV and IDIV take interrupt 0 is the one
read when no other bus master writes in between.) That the stop is a fault with no state is the model's choice (logs 3
and 19). -/
def Obligations.AccessesOutsideTheMap : Prop :=
  ∀ s : State,
    (∀ reads stores : List PAddr,
      (s.faultAmong reads stores = none ↔
        (∀ a ∈ reads, canReadByte a s = true) ∧ (∀ a ∈ stores, canWriteByte a s = true)) ∧
      (∀ a, s.faultAmong reads stores = some (.unmappedRead a) →
        ∃ b ∈ reads, b.toNat = a ∧ inSpans s.unmapped a = true) ∧
      (∀ a, s.faultAmong reads stores = some (.unmappedWrite a) →
        ∃ b ∈ stores, b.toNat = a ∧ inSpans s.unmapped a = true) ∧
      (∀ a, s.faultAmong reads stores = some (.romWrite a) →
        ∃ b ∈ stores, b.toNat = a ∧ inSpans s.unmapped a = false ∧ inSpans s.rom a = true)) ∧
    (∀ (w : Width) (seg off v : Word),
      faultOf (readMem w seg off s) = s.faultAmong (cellsOf w seg off) [] ∧
      faultOf (writeMem w seg off v s) = s.faultAmong [] (cellsOf w seg off)) ∧
    (∀ (w : Width) (rm : RM) (v : Word),
      faultOf (readRM w rm s) = s.faultAmong (s.operandCells w rm) [] ∧
      faultOf (writeRM w rm v s) = s.faultAmong [] (s.operandCells w rm) ∧
      faultOf (readPointer rm s) = s.faultAmong (s.pointerCells rm) [] ∧
      faultOf (readSi w s) = s.faultAmong (s.siCells w) [] ∧ faultOf (readDi w s) = s.faultAmong (s.diCells w) [] ∧
      faultOf (writeDi w v s) = s.faultAmong [] (s.diCells w) ∧
      faultOf (push16 v s) = s.faultAmong [] (s.pushCells 0) ∧ faultOf (pop16 s) = s.faultAmong (s.popCells 0) []) ∧
    (∀ (n : Byte) (saved : Word), faultOf (interruptSequence n saved s) =
      s.faultAmong (vectorCells n) (s.pushCells 0 ++ s.pushCells 2 ++ s.pushCells 4)) ∧
    (∀ i : Instr, (match i with | .divRm _ _ | .idivRm _ _ => s.alone = true | _ => True) →
      faultOf (exec i s) = s.faultAmong (s.readBy i) (s.storedBy i)) ∧
    (∀ (i : Instr) (k : Nat), i.wf = true → i.isPrefix = false → k < (encode i).length →
      (∀ j, j < k → canReadByte (s.codeAddr s.ip j) s = true ∧ (encode i)[j]? = some (s.byteAt (s.codeAddr s.ip j))) →
      canReadByte (s.codeAddr s.ip k) s = false →
      fetch s = .fault (.unmappedRead (s.codeAddr s.ip k).toNat))

/-! ## Reset and the invariant -/

/-- The state after reset holds the values R45 gives: flags clear and FLAGS reading F002h, CS:IP = FFFFh:0000h, the
first fetch at FFFF0h, the other segment registers 0, the latches clear, the queue empty. -/
def Obligations.ResetStateValues : Prop :=
  State.reset.flags = ⟨false, false, false, false, false, false, false, false, false⟩ ∧
  State.reset.flags.toWord = 0xF002 ∧
  State.reset.segs = { es := 0x0000, cs := 0xFFFF, ss := 0x0000, ds := 0x0000 } ∧
  State.reset.ip = 0x0000 ∧ phys State.reset.segs.cs State.reset.ip = 0xFFFF0 ∧
  State.reset.inhibit = false ∧ State.reset.halted = false ∧ State.reset.nmiPending = false ∧
  State.reset.inRepeat = false ∧ State.reset.lock = false ∧ State.reset.queue = []

/-- The RESET line, at any time, also while halted: the reset values of R540, nothing pushed, memory untouched but for
what other bus masters write in that step (log 17). -/
def Obligations.ResetLineAtAnyTime : Prop :=
  ∀ s : State, s.resetNow = true → ∃ t, step s = .next t ∧
    t.flags = ⟨false, false, false, false, false, false, false, false, false⟩ ∧
    t.segs = { es := 0x0000, cs := 0xFFFF, ss := 0x0000, ds := 0x0000 } ∧ t.ip = 0x0000 ∧
    t.inhibit = false ∧ t.halted = false ∧ t.nmiPending = false ∧ t.inRepeat = false ∧ t.lock = false ∧
    t.queue = [] ∧ phys t.segs.cs t.ip = 0xFFFF0 ∧ t.mem = s.sample.settle.mem ∧
    (∀ l ls, s.inputs = l :: ls → l.writes = [] → l.bursts = [] → t.mem = s.mem)

/-- The invariant that every step keeps holds at reset. -/
def Obligations.InvariantAtReset : Prop := State.reset.Inv

/-- Every step keeps the invariant of Safety.lean: memory in its canonical form, no prefix latched and LOCK released,
the shadow over, no write of another bus master left over, a repeat in progress only with CX not 0 and not halted, the
queue bounded (logs 2, 8, 9 and 17 name what of this is the model's own). -/
def Obligations.InvariantKeptByEveryStep : Prop := ∀ s t : State, s.Inv → step s = .next t → t.Inv

/-- No step changes the memory map, the driven ports, or a byte of ROM (the platform as data is the model's: logs 3
and 5). -/
def Obligations.PlatformKeptByEveryStep : Prop :=
  ∀ s t : State, step s = .next t →
    t.unmapped = s.unmapped ∧ t.rom = s.rom ∧ t.undriven = s.undriven ∧
    ∀ a : PAddr, inSpans s.rom a.toNat = true → t.byteAt a = s.byteAt a

/-! ## Registers, flags word, memory -/

/-- Byte registers are halves of AX, CX, DX, BX; a register write changes that register, for a byte register those eight
bits only, and nothing else of the machine (R21, R22). -/
def Obligations.RegisterWritesAndHalves : Prop :=
  ∀ (s : State) (c : RegCode) (v : Word),
    ([RegCode.ax, .cx, .dx, .bx, .sp, .bp, .si, .di].map RegCode.code = [0, 1, 2, 3, 4, 5, 6, 7]) ∧
    (s.reg .byte .ax = zext16 (lowByte s.regs.ax) ∧ s.reg .byte .cx = zext16 (lowByte s.regs.cx) ∧
      s.reg .byte .dx = zext16 (lowByte s.regs.dx) ∧ s.reg .byte .bx = zext16 (lowByte s.regs.bx) ∧
      s.reg .byte .sp = zext16 (highByte s.regs.ax) ∧ s.reg .byte .bp = zext16 (highByte s.regs.cx) ∧
      s.reg .byte .si = zext16 (highByte s.regs.dx) ∧ s.reg .byte .di = zext16 (highByte s.regs.bx)) ∧
    ((s.setReg .word c v).reg .word c = v ∧ (s.setReg .byte c v).reg .byte c = zext16 (lowByte v)) ∧
    (∀ d, d ≠ c → (s.setReg .word c v).reg .word d = s.reg .word d ∧ (s.setReg .byte c v).reg .byte d = s.reg .byte d) ∧
    (∀ d, d = .sp ∨ d = .bp ∨ d = .si ∨ d = .di → (s.setReg .byte c v).reg .word d = s.reg .word d) ∧
    (∀ w, s.setReg w c v = { s with regs := (s.setReg w c v).regs })

/-- FLAGS as a word: the reserved bits read 1 or 0 as R32 says, the nine flags stand at their places, and a write keeps
exactly them. -/
def Obligations.FlagsWord : Prop :=
  (∀ f : Flags, Flags.ofWord f.toWord = f) ∧
  (∀ v : Word, (Flags.ofWord v).toWord = (v &&& 0x0FD5) ||| 0xF002) ∧
  (∀ f : Flags, f.toWord.getLsbD 0 = f.CF ∧ f.toWord.getLsbD 2 = f.PF ∧ f.toWord.getLsbD 4 = f.AF ∧
    f.toWord.getLsbD 6 = f.ZF ∧ f.toWord.getLsbD 7 = f.SF ∧ f.toWord.getLsbD 8 = f.TF ∧ f.toWord.getLsbD 9 = f.IF ∧
    f.toWord.getLsbD 10 = f.DF ∧ f.toWord.getLsbD 11 = f.OF)

/-- A word written through a segment, at any offset, FFFFh included, is read back whole and byte by byte, low byte at
the lower offset (R65, R66). Memories in the model's canonical form (log 2) that read alike are equal. -/
def Obligations.WordWriteReadBack : Prop :=
  (∀ (s : State) (seg off v : Word), s.mem.wf = true → canWrite .word seg off s = true →
    ∃ t, writeMem .word seg off v s = .next t ∧ readMem .word seg off t = .next (v, t) ∧
      readMem .byte seg off t = .next (zext16 (lowByte v), t) ∧
      readMem .byte seg (off + 1) t = .next (zext16 (highByte v), t) ∧
      ∀ a : PAddr, a ≠ phys seg off → a ≠ phys seg (off + 1) → t.byteAt a = s.byteAt a) ∧
  ∀ m n : Memory, m.wf = true → n.wf = true → (∀ a : PAddr, m.read a.toNat = n.read a.toNat) → m = n

/-- The MOD and R/M codes of each memory form, its effective address, and its segment with and without an override
(R108, R112). -/
def Obligations.EffectiveAddressAndSegment : Prop :=
  ∀ (s : State) (d : Byte) (a : Word),
    let dsOr := match s.cur.seg with | some r => s.segs.get r | none => s.segs.ds
    let ssOr := match s.cur.seg with | some r => s.segs.get r | none => s.segs.ss
    ([AddrBase.bxSi, .bxDi, .bpSi, .bpDi, .si, .di, .bp, .bx].map AddrBase.code = [0, 1, 2, 3, 4, 5, 6, 7]) ∧
    ((RM.direct a).encode 0 = [0x06, lowByte a, highByte a]) ∧
    (∀ b : AddrBase, (RM.base b).encode 0 = [opByte b.code] ∧ (RM.disp8 b d).encode 0 = [opByte (0x40 + b.code), d] ∧
      (RM.disp16 b a).encode 0 = [opByte (0x80 + b.code), lowByte a, highByte a]) ∧
    (∀ r : RegCode, (RM.reg r).encode 0 = [opByte (0xC0 + r.code)]) ∧
    (∀ r, s.place (.reg r) = .reg r) ∧ s.place (.direct a) = .mem dsOr a ∧
    s.place (.base .bxSi) = .mem dsOr (s.regs.bx + s.regs.si) ∧ s.place (.base .bxDi) = .mem dsOr (s.regs.bx + s.regs.di) ∧
    s.place (.base .bpSi) = .mem ssOr (s.regs.bp + s.regs.si) ∧ s.place (.base .bpDi) = .mem ssOr (s.regs.bp + s.regs.di) ∧
    s.place (.base .si) = .mem dsOr s.regs.si ∧ s.place (.base .di) = .mem dsOr s.regs.di ∧
    s.place (.base .bx) = .mem dsOr s.regs.bx ∧
    s.place (.disp8 .bp d) = .mem ssOr (s.regs.bp + d.signExtend 16) ∧
    s.place (.disp16 .bp a) = .mem ssOr (s.regs.bp + a) ∧
    (∀ b, b ≠ .bp → ∀ g o, s.place (.base b) = .mem g o →
      s.place (.disp8 b d) = .mem g (o + d.signExtend 16) ∧ s.place (.disp16 b a) = .mem g (o + a))

/-! ## Data transfer -/

/-- MOV between a register and a register or memory, MOV of an immediate, and MOV between the accumulator and memory at
a direct offset in DS or the override's segment: all forms. -/
def Obligations.MovForms : Prop :=
  ∀ (s : State) (w : Width) (rm : RM) (r : RegCode) (imm addr : Word),
    (canReadRM w rm s = true → exec (.movRmReg .toReg w rm r) s = .next (s.setReg w r (s.operand w rm))) ∧
    (s.mem.wf = true → canWriteRM w rm s = true →
      (∃ t, exec (.movRmReg .toRm w rm r) s = .next t ∧ Writes w rm (s.reg w r) s t) ∧
      (∃ t, exec (.movRmImm w rm imm) s = .next t ∧ Writes w rm imm s t)) ∧
    exec (.movRegImm w r imm) s = .next (s.setReg w r imm) ∧
    (canRead w (s.segOr .ds) addr s = true →
      exec (.movAccMem w addr) s = .next (s.setReg w .ax (s.load w (s.segOr .ds) addr))) ∧
    (s.mem.wf = true → canWrite w (s.segOr .ds) addr s = true →
      ∃ t, exec (.movMemAcc w addr) s = .next t ∧ Stores (cells w (s.segOr .ds) addr (s.reg w .ax)) s t)

/-- MOV to and from a segment register, and POP of a segment register. A load sets the interrupt shadow. -/
def Obligations.SegmentRegisterMoves : Prop :=
  ∀ (s : State) (sr : SegReg) (rm : RM),
    (sr ≠ .cs → canReadRM .word rm s = true →
      exec (.movSregRm sr rm) s = .next { s with segs := s.segs.set sr (s.operand .word rm), inhibit := true }) ∧
    (s.mem.wf = true → canWriteRM .word rm s = true →
      ∃ t, exec (.movRmSreg rm sr) s = .next t ∧ Writes .word rm (s.segs.get sr) s t) ∧
    (sr ≠ .cs → canPop 0 s = true →
      exec (.popSreg sr) s = .next { s with
        segs := s.segs.set sr (s.load .word s.segs.ss s.regs.sp)
        regs := { s.regs with sp := s.regs.sp + 2 }
        inhibit := true })

/-- PUSH in all its forms and PUSHF. PUSH SP stores the decremented SP. That PUSH r/m does so with SP as its operand is
the model's choice among those U11 leaves (log 12). -/
def Obligations.PushForms : Prop :=
  ∀ (s : State) (rm : RM) (r : RegCode) (sr : SegReg), s.mem.wf = true → canPush 0 s = true →
    (canReadRM .word rm s = true → ∃ t, exec (.pushRm rm) s = .next t ∧
      Pushes (if rm = .reg .sp then s.regs.sp - 2 else s.operand .word rm) s t) ∧
    (∃ t, exec (.pushReg r) s = .next t ∧ Pushes (if r = .sp then s.regs.sp - 2 else s.regs.get r) s t) ∧
    (∃ t, exec (.pushSreg sr) s = .next t ∧ Pushes (s.segs.get sr) s t) ∧
    (∃ t, exec .pushf s = .next t ∧ Pushes s.flags.toWord s t)

/-- POP to a register or memory, and POPF. POP SP leaves the popped word in SP. -/
def Obligations.PopForms : Prop :=
  ∀ (s : State) (rm : RM) (r : RegCode), canPop 0 s = true →
    exec (.popReg r) s =
      .next { s with regs := ({ s.regs with sp := s.regs.sp + 2 } : Regs).set r (s.load .word s.segs.ss s.regs.sp) } ∧
    exec .popf s = .next { s with
      regs := { s.regs with sp := s.regs.sp + 2 }
      flags := Flags.ofWord (s.load .word s.segs.ss s.regs.sp) } ∧
    (s.mem.wf = true → canWriteRM .word rm s = true →
      ∃ t, exec (.popRm rm) s = .next t ∧
        Writes .word rm (s.load .word s.segs.ss s.regs.sp) { s with regs := { s.regs with sp := s.regs.sp + 2 } } t)

/-- XCHG: the two operands change places. -/
def Obligations.XchgForms : Prop :=
  ∀ (s : State) (w : Width) (rm : RM) (r : RegCode),
    (s.mem.wf = true → canReadRM w rm s = true → canWriteRM w rm s = true →
      ∃ t, exec (.xchgRmReg w rm r) s = .next (t.setReg w r (s.operand w rm)) ∧ Writes w rm (s.reg w r) s t) ∧
    exec (.xchgAxReg r) s = .next { s with regs := (s.regs.set .ax (s.regs.get r)).set r s.regs.ax }

/-- IN completes from driven ports and changes the accumulator only. A byte the platform has queued for the port is the
byte read; a word takes its low byte from the port and its high byte from the next (from FFh and 100h for port FFh).
OUT hands the accumulator's bytes to the ports, low byte first. How the platform supplies and receives bytes is the
model's (log 5). -/
def Obligations.PortForms : Prop :=
  ∀ (s : State) (w : Width) (port : Byte),
    (driven w (zext16 port) s = true → ∃ v l n,
      exec (.inPort w port) s = .next (({ s with ioIn := l, draws := n } : State).setReg w .ax v)) ∧
    (driven w s.regs.dx s = true → ∃ v l n,
      exec (.inDx w) s = .next (({ s with ioIn := l, draws := n } : State).setReg w .ax v)) ∧
    (∀ b l, driven .byte (zext16 port) s = true → takePort (zext16 port) s.ioIn = some (b, l) →
      exec (.inPort .byte port) s = .next (({ s with ioIn := l } : State).setReg .byte .ax (zext16 b))) ∧
    (∀ lo l hi l', driven .word (zext16 port) s = true → takePort (zext16 port) s.ioIn = some (lo, l) →
      takePort (zext16 port + 1) l = some (hi, l') →
      exec (.inPort .word port) s = .next (({ s with ioIn := l' } : State).setReg .word .ax (wordOf hi lo))) ∧
    zext16 (0xFF : Byte) + 1 = 0x0100 ∧
    (∀ b l, driven .byte s.regs.dx s = true → takePort s.regs.dx s.ioIn = some (b, l) →
      exec (.inDx .byte) s = .next (({ s with ioIn := l } : State).setReg .byte .ax (zext16 b))) ∧
    (∀ lo l hi l', driven .word s.regs.dx s = true → takePort s.regs.dx s.ioIn = some (lo, l) →
      takePort (s.regs.dx + 1) l = some (hi, l') →
      exec (.inDx .word) s = .next (({ s with ioIn := l' } : State).setReg .word .ax (wordOf hi lo))) ∧
    (driven .byte (zext16 port) s = true →
      exec (.outPort .byte port) s = .next { s with ioOut := s.ioOut ++ [(zext16 port, lowByte s.regs.ax)] }) ∧
    (driven .word (zext16 port) s = true →
      exec (.outPort .word port) s = .next { s with
        ioOut := s.ioOut ++ [(zext16 port, lowByte s.regs.ax), (zext16 port + 1, highByte s.regs.ax)] }) ∧
    (driven .byte s.regs.dx s = true →
      exec (.outDx .byte) s = .next { s with ioOut := s.ioOut ++ [(s.regs.dx, lowByte s.regs.ax)] }) ∧
    (driven .word s.regs.dx s = true →
      exec (.outDx .word) s = .next { s with
        ioOut := s.ioOut ++ [(s.regs.dx, lowByte s.regs.ax), (s.regs.dx + 1, highByte s.regs.ax)] })

/-- XLAT with an unsigned index that wraps, LEA of every memory form, LDS and LES, LAHF and SAHF. -/
def Obligations.AddressAndFlagTransfers : Prop :=
  ∀ (s : State) (r : RegCode) (rm : RM),
    encode .xlat = [0xD7] ∧ encode .lahf = [0x9F] ∧ encode .sahf = [0x9E] ∧
    (canRead .byte (s.segOr .ds) (s.regs.bx + zext16 (lowByte s.regs.ax)) s = true →
      exec .xlat s = .next (s.setReg .byte .ax (s.load .byte (s.segOr .ds) (s.regs.bx + zext16 (lowByte s.regs.ax))))) ∧
    (∀ seg off, s.place rm = .mem seg off → exec (.lea r rm) s = .next (s.setReg .word r off)) ∧
    (canReadPointer rm s = true →
      exec (.lds r rm) s = .next { s with
        regs := s.regs.set r (s.pointer rm).1, segs := { s.segs with ds := (s.pointer rm).2 } } ∧
      exec (.les r rm) s = .next { s with
        regs := s.regs.set r (s.pointer rm).1, segs := { s.segs with es := (s.pointer rm).2 } }) ∧
    exec .lahf s = .next { s with regs := { s.regs with ax := wordOf (lowByte s.flags.toWord) (lowByte s.regs.ax) } } ∧
    (let ah := lowByte s.flags.toWord;
      ah.getLsbD 7 = s.flags.SF ∧ ah.getLsbD 6 = s.flags.ZF ∧ ah.getLsbD 5 = false ∧ ah.getLsbD 4 = s.flags.AF ∧
      ah.getLsbD 3 = false ∧ ah.getLsbD 2 = s.flags.PF ∧ ah.getLsbD 1 = true ∧ ah.getLsbD 0 = s.flags.CF) ∧
    exec .sahf s = .next { s with flags := { s.flags with
      SF := s.regs.ax.getLsbD 15, ZF := s.regs.ax.getLsbD 14, AF := s.regs.ax.getLsbD 12, PF := s.regs.ax.getLsbD 10,
      CF := s.regs.ax.getLsbD 8 } }

/-- What the spec gives no meaning is refused by name: a register where memory is needed, CS as the destination of a MOV
or POP (U5 to U9), IN and OUT of a port nothing drives (U4). -/
def Obligations.RefusedOperands : Prop :=
  ∀ (s : State) (r c : RegCode) (rm : RM) (w : Width) (port : Byte),
    exec (.lea r (.reg c)) s = .refused .registerOperand ∧ exec (.lds r (.reg c)) s = .refused .registerOperand ∧
    exec (.les r (.reg c)) s = .refused .registerOperand ∧ exec (.callMem (.reg c)) s = .refused .registerOperand ∧
    exec (.jmpMem (.reg c)) s = .refused .registerOperand ∧
    exec (.movSregRm .cs rm) s = .refused .csDestination ∧ exec (.popSreg .cs) s = .refused .csDestination ∧
    (inSpans s.undriven (zext16 port).toNat = true →
      exec (.inPort w port) s = .refused (.undrivenPort (zext16 port).toNat) ∧
      exec (.outPort w port) s = .refused (.undrivenPort (zext16 port).toNat)) ∧
    (inSpans s.undriven s.regs.dx.toNat = true →
      exec (.inDx w) s = .refused (.undrivenPort s.regs.dx.toNat) ∧
      exec (.outDx w) s = .refused (.undrivenPort s.regs.dx.toNat))

/-! ## Arithmetic and logic -/

/-- ADD, ADC, SUB and SBB in all their forms: the result of R9 in the first operand, the six flags of R9. -/
def Obligations.AddSubtractForms : Prop :=
  ∀ sx : Bool,
    WritesResult .addRmReg (.addRmImm sx) .addAccImm (fun _ w a b => addResult w a b false) (AfterAdd fun _ => false) ∧
    WritesResult .adcRmReg (.adcRmImm sx) .adcAccImm (fun s w a b => addResult w a b s.flags.CF) (AfterAdd (·.flags.CF)) ∧
    WritesResult .subRmReg (.subRmImm sx) .subAccImm (fun _ w a b => subResult w a b false) (AfterSub fun _ => false) ∧
    WritesResult .sbbRmReg (.sbbRmImm sx) .sbbAccImm (fun s w a b => subResult w a b s.flags.CF) (AfterSub (·.flags.CF))

/-- CMP and TEST in all their forms: flags as SUB and AND set them, neither operand written; AF is undefined after
TEST. -/
def Obligations.CompareAndTestForms : Prop :=
  ∀ (sx : Bool),
    SetsFlagsOnly (.cmpRmImm sx) .cmpAccImm (AfterSub fun _ => false) ∧
    SetsFlagsOnly .testRmImm .testAccImm (AfterLogic (· &&& ·)) ∧
    ∀ (s : State) (w : Width) (rm : RM) (r : RegCode), canReadRM w rm s = true →
      exec (.cmpRmReg .toReg w rm r) s =
        .next { s with flags := subFlags w (s.reg w r) (s.operand w rm) false s.flags } ∧
      exec (.cmpRmReg .toRm w rm r) s =
        .next { s with flags := subFlags w (s.operand w rm) (s.reg w r) false s.flags } ∧
      ∃ af, exec (.testRmReg w rm r) s = .next { s with
        flags := { logicFlags w (s.operand w rm &&& s.reg w r) s.flags with AF := af }, draws := s.draws + 1 }

/-- AND, OR and XOR in all their forms; CF and OF clear, SF ZF PF of the result; AF is undefined. -/
def Obligations.LogicForms : Prop :=
  WritesResult .andRmReg .andRmImm .andAccImm (fun _ _ a b => a &&& b) (AfterLogic (· &&& ·)) ∧
  WritesResult .orRmReg .orRmImm .orAccImm (fun _ _ a b => a ||| b) (AfterLogic (· ||| ·)) ∧
  WritesResult .xorRmReg .xorRmImm .xorAccImm (fun _ _ a b => a ^^^ b) (AfterLogic (· ^^^ ·))

/-- INC and DEC are ADD and SUB of 1 with CF kept; NEG is 0 minus the operand; NOT inverts and sets no flag. -/
def Obligations.OneOperandForms : Prop :=
  ReplacesOperand .incRm (fun w a => addResult w a 1 false)
    (fun s w a u => u = { s with flags := { addFlags w a 1 false s.flags with CF := s.flags.CF } }) ∧
  ReplacesOperand .decRm (fun w a => subResult w a 1 false)
    (fun s w a u => u = { s with flags := { subFlags w a 1 false s.flags with CF := s.flags.CF } }) ∧
  ReplacesOperand .negRm (fun w a => subResult w 0 a false)
    (fun s w a u => u = { s with flags := subFlags w 0 a false s.flags }) ∧
  ReplacesOperand .notRm (fun w a => a ^^^ (match w with | .byte => 0x00FF | .word => 0xFFFF)) (fun s _ _ u => u = s) ∧
  ∀ (s : State) (r : RegCode),
    exec (.incReg r) s = .next { s with
      regs := s.regs.set r (s.regs.get r + 1)
      flags := { addFlags .word (s.regs.get r) 1 false s.flags with CF := s.flags.CF } } ∧
    exec (.decReg r) s = .next { s with
      regs := s.regs.set r (s.regs.get r - 1)
      flags := { subFlags .word (s.regs.get r) 1 false s.flags with CF := s.flags.CF } }

/-- AAA, AAS, DAA and DAS, one byte each; the flags they leave undefined hold any value. -/
def Obligations.DecimalAdjusts : Prop :=
  ∀ s : State,
    let al := lowByte s.regs.ax
    let ah := highByte s.regs.ax
    let low := decide (9 < al.toNat % 16) || s.flags.AF
    let high := decide (0x99 < al.toNat) || s.flags.CF
    encode .aaa = [0x37] ∧ encode .aas = [0x3F] ∧ encode .daa = [0x27] ∧ encode .das = [0x2F] ∧
    (∃ f sf zf pf, exec .aaa s = .next { s with
      regs := { s.regs with ax := if low then wordOf (ah + 1) ((al + 6) &&& 0x0F) else wordOf ah (al &&& 0x0F) }
      flags := { s.flags with AF := low, CF := low, OF := f, SF := sf, ZF := zf, PF := pf }
      draws := s.draws + 4 }) ∧
    (∃ f sf zf pf, exec .aas s = .next { s with
      regs := { s.regs with ax := if low then wordOf (ah - 1) ((al - 6) &&& 0x0F) else wordOf ah (al &&& 0x0F) }
      flags := { s.flags with AF := low, CF := low, OF := f, SF := sf, ZF := zf, PF := pf }
      draws := s.draws + 4 }) ∧
    (∃ f r, r = al + (if low then 6 else 0) + (if high then 0x60 else 0) ∧ exec .daa s = .next { s with
      regs := { s.regs with ax := wordOf ah r }
      flags := { s.flags with AF := low, CF := high, OF := f, SF := r.msb, ZF := r == 0, PF := parity8 (zext16 r) }
      draws := s.draws + 1 }) ∧
    (∃ f r, r = al - (if low then 6 else 0) - (if high then 0x60 else 0) ∧ exec .das s = .next { s with
      regs := { s.regs with ax := wordOf ah r }
      flags := { s.flags with AF := low, CF := high, OF := f, SF := r.msb, ZF := r == 0, PF := parity8 (zext16 r) }
      draws := s.draws + 1 })

/-- MUL and IMUL: the exact product in AX or DX:AX; CF and OF are set when its low half does not hold it; nothing is
said of SF, ZF, AF, PF, which are undefined. -/
def Obligations.Products : Prop :=
  ∀ (s : State) (w : Width) (rm : RM), canReadRM w rm s = true →
    (∃ t, exec (.mulRm w rm) s = .next t ∧
      t = { s with
        regs := { s.regs with ax := t.regs.ax, dx := t.regs.dx }
        flags := { t.flags with TF := s.flags.TF, IF := s.flags.IF, DF := s.flags.DF }
        draws := t.draws } ∧
      (w = .byte → t.regs.dx = s.regs.dx ∧ t.regs.ax.toNat = (lowByte s.regs.ax).toNat * (s.operand .byte rm).toNat ∧
        t.flags.CF = decide (highByte t.regs.ax ≠ 0)) ∧
      (w = .word → t.regs.dx.toNat * 2 ^ 16 + t.regs.ax.toNat = s.regs.ax.toNat * (s.operand .word rm).toNat ∧
        t.flags.CF = decide (t.regs.dx ≠ 0)) ∧
      t.flags.OF = t.flags.CF) ∧
    (∃ t, exec (.imulRm w rm) s = .next t ∧
      t = { s with
        regs := { s.regs with ax := t.regs.ax, dx := t.regs.dx }
        flags := { t.flags with TF := s.flags.TF, IF := s.flags.IF, DF := s.flags.DF }
        draws := t.draws } ∧
      (w = .byte → t.regs.dx = s.regs.dx ∧
        t.regs.ax.toInt = (lowByte s.regs.ax).toInt * (lowByte (s.operand .byte rm)).toInt ∧
        t.flags.CF = decide (sext16 (lowByte t.regs.ax) ≠ t.regs.ax)) ∧
      (w = .word → t.regs.dx.toInt * 2 ^ 16 + t.regs.ax.toNat = s.regs.ax.toInt * (s.operand .word rm).toInt ∧
        t.flags.CF = decide (s.regs.ax.toInt * (s.operand .word rm).toInt ≠ t.regs.ax.toInt)) ∧
      t.flags.OF = t.flags.CF)

/-- AAM, AAD, CBW and CWD, with their encodings: the second byte of AAM and AAD is 0Ah and no other. -/
def Obligations.AsciiMultiplyDivideAndExtensions : Prop :=
  encode .aam = [0xD4, 0x0A] ∧ encode .aad = [0xD5, 0x0A] ∧ encode .cbw = [0x98] ∧ encode .cwd = [0x99] ∧
  (∀ (b : Byte) (rest : List Byte), b ≠ 0x0A →
    decodeOne (0xD4 :: b :: rest) = .error .unassigned ∧ decodeOne (0xD5 :: b :: rest) = .error .unassigned) ∧
  ∀ s : State,
    (∃ f af cf, let r := BitVec.ofNat 8 ((lowByte s.regs.ax).toNat % 10)
      exec .aam s = .next { s with
        regs := { s.regs with ax := wordOf (BitVec.ofNat 8 ((lowByte s.regs.ax).toNat / 10)) r }
        flags := { s.flags with SF := r.msb, ZF := r == 0, PF := parity8 (zext16 r), OF := f, AF := af, CF := cf }
        draws := s.draws + 3 }) ∧
    (∃ f af cf, let r := BitVec.ofNat 8 ((highByte s.regs.ax).toNat * 10 + (lowByte s.regs.ax).toNat)
      exec .aad s = .next { s with
        regs := { s.regs with ax := zext16 r }
        flags := { s.flags with SF := r.msb, ZF := r == 0, PF := parity8 (zext16 r), OF := f, AF := af, CF := cf }
        draws := s.draws + 3 }) ∧
    exec .cbw s = .next { s with regs := { s.regs with ax := (lowByte s.regs.ax).signExtend 16 } } ∧
    exec .cwd s = .next { s with regs := { s.regs with dx := if s.regs.ax.msb then 0xFFFF else 0x0000 } }

/-- DIV and IDIV with a divisor that is not 0 and a quotient that fits: quotient and remainder; the six status flags
are undefined and hold some value. -/
def Obligations.Quotients : Prop :=
  ∀ (s : State) (rm : RM),
    (canReadRM .byte rm s = true →
      (∀ q r : Byte, s.operand .byte rm ≠ 0 →
        s.regs.ax.toNat = q.toNat * (s.operand .byte rm).toNat + r.toNat → r.toNat < (s.operand .byte rm).toNat →
        ∃ (f : Flags) (n : Nat), exec (.divRm .byte rm) s = .next { s with
          regs := { s.regs with ax := wordOf r q }
          flags := { f with TF := s.flags.TF, IF := s.flags.IF, DF := s.flags.DF }
          draws := n }) ∧
      (∀ q r : Byte, (lowByte (s.operand .byte rm)).toInt ≠ 0 → -127 ≤ q.toInt →
        q.toInt = s.regs.ax.toInt.tdiv (lowByte (s.operand .byte rm)).toInt →
        r.toInt = s.regs.ax.toInt.tmod (lowByte (s.operand .byte rm)).toInt →
        ∃ (f : Flags) (n : Nat), exec (.idivRm .byte rm) s = .next { s with
          regs := { s.regs with ax := wordOf r q }
          flags := { f with TF := s.flags.TF, IF := s.flags.IF, DF := s.flags.DF }
          draws := n })) ∧
    (canReadRM .word rm s = true →
      (∀ q r : Word, s.operand .word rm ≠ 0 →
        s.regs.dx.toNat * 2 ^ 16 + s.regs.ax.toNat = q.toNat * (s.operand .word rm).toNat + r.toNat →
        r.toNat < (s.operand .word rm).toNat →
        ∃ (f : Flags) (n : Nat), exec (.divRm .word rm) s = .next { s with
          regs := { s.regs with ax := q, dx := r }
          flags := { f with TF := s.flags.TF, IF := s.flags.IF, DF := s.flags.DF }
          draws := n }) ∧
      (∀ q r : Word, (s.operand .word rm).toInt ≠ 0 → -32767 ≤ q.toInt →
        q.toInt = (s.regs.dx.toInt * 2 ^ 16 + s.regs.ax.toNat).tdiv (s.operand .word rm).toInt →
        r.toInt = (s.regs.dx.toInt * 2 ^ 16 + s.regs.ax.toNat).tmod (s.operand .word rm).toInt →
        ∃ (f : Flags) (n : Nat), exec (.idivRm .word rm) s = .next { s with
          regs := { s.regs with ax := q, dx := r }
          flags := { f with TF := s.flags.TF, IF := s.flags.IF, DF := s.flags.DF }
          draws := n }))

/-- The divide error: a divisor of 0 or a quotient that does not fit takes interrupt 0, with the address of the next
instruction saved, the registers and the pushed flags as before (R268, R269, R507, with the 8086's parameters, log
18). -/
def Obligations.DivideErrorTaken : Prop :=
  ∀ (s : State) (rm : RM), s.mem.wf = true → canInterrupt 0 s = true →
    (canReadRM .byte rm s = true →
      ((s.operand .byte rm = 0 ∨ 2 ^ 8 ≤ s.regs.ax.toNat / (s.operand .byte rm).toNat) →
        ∃ t, exec (.divRm .byte rm) s = .next t ∧ Interrupted 0 s.ip s t) ∧
      (((lowByte (s.operand .byte rm)).toInt = 0 ∨
          127 < s.regs.ax.toInt.tdiv (lowByte (s.operand .byte rm)).toInt ∨
          s.regs.ax.toInt.tdiv (lowByte (s.operand .byte rm)).toInt < -127) →
        ∃ t, exec (.idivRm .byte rm) s = .next t ∧ Interrupted 0 s.ip s t)) ∧
    (canReadRM .word rm s = true →
      ((s.operand .word rm = 0 ∨
          2 ^ 16 ≤ (s.regs.dx.toNat * 2 ^ 16 + s.regs.ax.toNat) / (s.operand .word rm).toNat) →
        ∃ t, exec (.divRm .word rm) s = .next t ∧ Interrupted 0 s.ip s t) ∧
      (((s.operand .word rm).toInt = 0 ∨
          32767 < (s.regs.dx.toInt * 2 ^ 16 + s.regs.ax.toNat).tdiv (s.operand .word rm).toInt ∨
          (s.regs.dx.toInt * 2 ^ 16 + s.regs.ax.toNat).tdiv (s.operand .word rm).toInt < -32767) →
        ∃ t, exec (.idivRm .word rm) s = .next t ∧ Interrupted 0 s.ip s t))

/-- The flag computations of R9. `AddFlags` and `SubFlags` are exact: carry, or borrow, and result together hold the
sum, or the difference (R280 item 5); OF says that the signed sum, or difference, does not fit the width; AF is the
carry, or borrow, of the low digits. SF is the result's sign, ZF says that it is 0, PF that its low byte has an even
number of 1 bits. `LogicFlags` clears CF and OF. TF, IF and DF stay. -/
def Obligations.SumsAndDifferencesExact : Prop :=
  ∀ (w : Width) (a b : Word) (c : Bool) (f : Flags), a.toNat < 2 ^ bitsOf w → b.toNat < 2 ^ bitsOf w →
    let ofResult := fun (g : Flags) (r : Word) =>
      g.SF = decide (signedOf w r < 0) ∧ g.ZF = decide (r = 0) ∧
      g.PF = decide (((List.range 8).filter fun k => r.toNat / 2 ^ k % 2 = 1).length % 2 = 0) ∧
      g.TF = f.TF ∧ g.IF = f.IF ∧ g.DF = f.DF
    (addFlags w a b c f).CF.toNat * 2 ^ bitsOf w + (addResult w a b c).toNat = a.toNat + b.toNat + c.toNat ∧
    ((subResult w a b c).toNat : Int) - (subFlags w a b c f).CF.toNat * 2 ^ bitsOf w =
      (a.toNat : Int) - b.toNat - c.toNat ∧
    (addFlags w a b c f).OF = decide (signedOf w (addResult w a b c) ≠ signedOf w a + signedOf w b + c.toNat) ∧
    (subFlags w a b c f).OF = decide (signedOf w (subResult w a b c) ≠ signedOf w a - signedOf w b - c.toNat) ∧
    (addFlags w a b c f).AF = decide (15 < a.toNat % 16 + b.toNat % 16 + c.toNat) ∧
    (subFlags w a b c f).AF = decide ((a.toNat % 16 : Int) - b.toNat % 16 - c.toNat < 0) ∧
    ofResult (addFlags w a b c f) (addResult w a b c) ∧ ofResult (subFlags w a b c f) (subResult w a b c) ∧
    ofResult (logicFlags w a f) a ∧ (logicFlags w a f).CF = false ∧ (logicFlags w a f).OF = false

/-- Encodings of one operation agree: the accumulator form and the two immediate forms of ADD, SUB and CMP; the two
directions of ADD, XOR and MOV between registers; the one-byte and the two-byte INC and DEC; INC and DEC with ADD and
SUB of 1 but for CF; NEG twice restores the register (R280). -/
def Obligations.EquivalentEncodings : Prop :=
  ∀ (s : State) (w : Width) (r c : RegCode) (imm : Word) (sx : Bool),
    exec (.addAccImm w imm) s = exec (.addRmImm sx w (.reg .ax) imm) s ∧
    exec (.subAccImm w imm) s = exec (.subRmImm sx w (.reg .ax) imm) s ∧
    exec (.cmpAccImm w imm) s = exec (.cmpRmImm sx w (.reg .ax) imm) s ∧
    exec (.addRmReg .toRm w (.reg r) c) s = exec (.addRmReg .toReg w (.reg c) r) s ∧
    exec (.xorRmReg .toRm w (.reg r) c) s = exec (.xorRmReg .toReg w (.reg c) r) s ∧
    exec (.movRmReg .toRm w (.reg r) c) s = exec (.movRmReg .toReg w (.reg c) r) s ∧
    exec (.incReg r) s = exec (.incRm .word (.reg r)) s ∧ exec (.decReg r) s = exec (.decRm .word (.reg r)) s ∧
    (∃ t u, exec (.incReg r) s = .next t ∧ exec (.addRmImm true .word (.reg r) 1) s = .next u ∧
      t = { u with flags := { u.flags with CF := s.flags.CF } }) ∧
    (∃ t u, exec (.decReg r) s = .next t ∧ exec (.subRmImm true .word (.reg r) 1) s = .next u ∧
      t = { u with flags := { u.flags with CF := s.flags.CF } }) ∧
    (∃ t u, exec (.negRm w (.reg r)) s = .next t ∧ exec (.negRm w (.reg r)) t = .next u ∧ u.regs = s.regs)

/-! ## Shifts and rotates -/

/-- The seven shifts and rotates, with a count of 1 or in CL, 0 to 255: each completes with the result of count
single steps in the operand, and its flags as R299 says. -/
def Obligations.ShiftAndRotateForms : Prop :=
  ShiftsOperand .shl shiftLeft ∧ ShiftsOperand .shr shiftRight ∧ ShiftsOperand .sar shiftArithRight ∧
  ShiftsOperand .rol rotateLeft ∧ ShiftsOperand .ror rotateRight ∧ ShiftsOperand .rcl rotateCarryLeft ∧
  ShiftsOperand .rcr rotateCarryRight

/-- What a shift or rotate by any count leaves, as a number: SHL multiplies, SHR divides, SAR divides rounding down, by
2^count; ROL and ROR turn the operand's bits, RCL and RCR the operand's with CF above them, the count taken modulo the
number of bits. The last bit out is in CF. OF after a count of 1: for the left ones the result's top bit against CF, for
SHR the operand's top bit, 0 for SAR, for ROR and RCR the result's two top bits (R292 to R299). -/
def Obligations.ShiftAndRotateResults : Prop :=
  ∀ (w : Width) (n : Nat) (x : Word) (c : Bool), x.toNat < 2 ^ bitsOf w →
    let size := bitsOf w
    let turn := fun (width k y : Nat) => (y * 2 ^ (k % width) + y / 2 ^ (width - k % width)) % 2 ^ width
    let top := fun (y : Word) => decide (2 ^ (size - 1) ≤ y.toNat)
    let withCarry := fun (p : Word × Bool) => p.2.toNat * 2 ^ size + p.1.toNat
    (shiftLeft.run w n x c).1.toNat = x.toNat * 2 ^ n % 2 ^ size ∧
    (shiftRight.run w n x c).1.toNat = x.toNat / 2 ^ n ∧
    signedOf w (shiftArithRight.run w n x c).1 = signedOf w x / 2 ^ n ∧
    (rotateLeft.run w n x c).1.toNat = turn size n x.toNat ∧
    (rotateRight.run w n x c).1.toNat = turn size (size - n % size) x.toNat ∧
    withCarry (rotateCarryLeft.run w n x c) = turn (size + 1) n (withCarry (x, c)) ∧
    withCarry (rotateCarryRight.run w n x c) = turn (size + 1) (size + 1 - n % (size + 1)) (withCarry (x, c)) ∧
    (n ≠ 0 →
      (shiftLeft.run w n x c).2 = decide (x.toNat * 2 ^ n / 2 ^ size % 2 = 1) ∧
      (shiftRight.run w n x c).2 = decide (x.toNat / 2 ^ (n - 1) % 2 = 1) ∧
      (shiftArithRight.run w n x c).2 = decide (signedOf w x / 2 ^ (n - 1) % 2 = 1) ∧
      (rotateLeft.run w n x c).2 = decide ((rotateLeft.run w n x c).1.toNat % 2 = 1) ∧
      (rotateRight.run w n x c).2 = top (rotateRight.run w n x c).1) ∧
    (∀ y d, y.toNat < 2 ^ size →
      shiftLeft.overflow w x y d = (top y != d) ∧ shiftRight.overflow w x y d = top x ∧
      shiftArithRight.overflow w x y d = false ∧ rotateLeft.overflow w x y d = (top y != d) ∧
      rotateCarryLeft.overflow w x y d = (top y != d) ∧
      rotateRight.overflow w x y d = (top y != decide (2 ^ (size - 2) ≤ y.toNat % 2 ^ (size - 1))) ∧
      rotateCarryRight.overflow w x y d = (top y != decide (2 ^ (size - 2) ≤ y.toNat % 2 ^ (size - 1))))

/-! ## Strings and prefixes -/

/-- The string primitives without a repeat prefix. The element step is 1 or 2, downward when DF = 1; the SI operand is
in DS or the override's segment, the DI operand always in ES. -/
def Obligations.StringPrimitives : Prop :=
  ∀ (s : State) (w : Width) (step : Word), s.cur.rep = none →
    step = (match w, s.flags.DF with | .byte, false => 1 | .byte, true => -1 | .word, false => 2 | .word, true => -2) →
    let si := s.regs.si
    let di := s.regs.di
    let src := s.segOr .ds
    (s.mem.wf = true → canRead w src si s = true → canWrite w s.segs.es di s = true →
      ∃ t, exec (.movs w) s = .next t ∧
        Stores (cells w s.segs.es di (s.load w src si)) { s with regs := { s.regs with si := si + step, di := di + step } } t) ∧
    (canRead w src si s = true → canRead w s.segs.es di s = true →
      exec (.cmps w) s = .next { s with
        regs := { s.regs with si := si + step, di := di + step }
        flags := subFlags w (s.load w src si) (s.load w s.segs.es di) false s.flags }) ∧
    (canRead w s.segs.es di s = true →
      exec (.scas w) s = .next { s with
        regs := { s.regs with di := di + step }
        flags := subFlags w (s.reg w .ax) (s.load w s.segs.es di) false s.flags }) ∧
    (canRead w src si s = true →
      exec (.lods w) s =
        .next (({ s with regs := { s.regs with si := si + step } } : State).setReg w .ax (s.load w src si))) ∧
    (s.mem.wf = true → canWrite w s.segs.es di s = true →
      ∃ t, exec (.stos w) s = .next t ∧
        Stores (cells w s.segs.es di (s.reg w .ax)) { s with regs := { s.regs with di := di + step } } t)

/-- One step of a repeated string instruction: nothing when CX is 0; else one iteration, CX lower by 1, and IP back at
the first byte unless CX is 0 or the ZF test of CMPS and SCAS stops the loop (R328). -/
def Obligations.RepeatLoop : Prop :=
  ∀ (s : State) (i : Instr) (z : Bool), i.isString = true → s.cur.rep = some z →
    (s.regs.cx = 0 → exec i s = .next { s with inRepeat := false }) ∧
    (∀ u, s.regs.cx ≠ 0 → exec i { s with cur := { s.cur with rep := none } } = .next u →
      let stops := (match i with | .cmps _ | .scas _ => u.flags.ZF != z | _ => false) || s.regs.cx == 1
      exec i s = .next { u with
        cur := s.cur
        regs := { u.regs with cx := s.regs.cx - 1 }
        inRepeat := !stops
        ip := if stops then u.ip else s.cur.ip0 })

/-- The prefixes latch what they say for the instruction that follows and change nothing else (that they are
instructions of their own is the model's choice, log 8). -/
def Obligations.PrefixesLatch : Prop :=
  ∀ (s : State) (sr : SegReg),
    exec .rep s = .next { s with cur := { s.cur with rep := some true, nPrefix := s.cur.nPrefix + 1 } } ∧
    exec .repne s = .next { s with cur := { s.cur with rep := some false, nPrefix := s.cur.nPrefix + 1 } } ∧
    exec .lock s = .next { s with lock := true, cur := { s.cur with nPrefix := s.cur.nPrefix + 1 } } ∧
    exec (.segment sr) s = .next { s with cur := { s.cur with seg := some sr, nPrefix := s.cur.nPrefix + 1 } }

/-- What a prefix does not do: with the LOCK signal asserted or not, an instruction does the same when no other bus
master writes (R77, R411); a segment override has no effect on stack and control-transfer instructions without a memory
operand, on SCAS and STOS, on LEA, and on I/O (R412). -/
def Obligations.PrefixesWithoutEffect : Prop :=
  ∀ (s t : State) (i : Instr), exec i s = .next t →
    (∀ b, i ≠ .lock → s.due = [] → exec i { s with lock := b } = .next { t with lock := b }) ∧
    (∀ o : Option SegReg, (match i with
      | .pushReg _ | .pushSreg _ | .popReg _ | .popSreg _ | .pushf | .popf | .callNear _ | .callFar _ _ | .retNear
      | .retNearImm _ | .retFar | .retFarImm _ | .int _ | .int3 | .into | .iret | .scas _ | .stos _ | .lea _ _
      | .inPort _ _ | .inDx _ | .outPort _ _ | .outDx _ | .jmpNear _ | .jmpShort _ | .jmpFar _ _ | .loop _ | .loopz _
      | .loopnz _ | .jcxz _ | .je _ | .jl _ | .jle _ | .jb _ | .jbe _ | .jp _ | .jo _ | .js _ | .jne _ | .jnl _ | .jnle _
      | .jnb _ | .jnbe _ | .jnp _ | .jno _ | .jns _ | .callRm (.reg _) | .jmpRm (.reg _) | .pushRm (.reg _)
      | .popRm (.reg _) => True
      | _ => False) →
      exec i { s with cur := { s.cur with seg := o } } = .next { t with cur := { t.cur with seg := o } })

/-! ## Control transfer -/

/-- CALL in its four forms: the return address pushed, for an intersegment call after CS; the operand is read first. -/
def Obligations.CallForms : Prop :=
  ∀ (s : State) (rm : RM) (inc newIp newCs : Word), s.mem.wf = true → canPush 0 s = true →
    (∃ t, exec (.callNear inc) s = .next t ∧ Pushes s.ip { s with ip := s.ip + inc, queue := [] } t) ∧
    (canReadRM .word rm s = true →
      ∃ t, exec (.callRm rm) s = .next t ∧ Pushes s.ip { s with ip := s.operand .word rm, queue := [] } t) ∧
    (canPush 2 s = true →
      (∃ t, exec (.callFar newIp newCs) s = .next t ∧ PushesTwo s.segs.cs s.ip
        { s with ip := newIp, segs := { s.segs with cs := newCs }, queue := [] } t) ∧
      (canReadPointer rm s = true →
        ∃ t, exec (.callMem rm) s = .next t ∧ PushesTwo s.segs.cs s.ip
          { s with ip := (s.pointer rm).1, segs := { s.segs with cs := (s.pointer rm).2 }, queue := [] } t))

/-- RET in its four forms: IP, for an intersegment return CS too, popped from SS:SP; the immediate forms then add to
SP. -/
def Obligations.ReturnForms : Prop :=
  ∀ (s : State) (n : Word), canPop 0 s = true →
    let ip' := s.load .word s.segs.ss s.regs.sp
    let cs' := s.load .word s.segs.ss (s.regs.sp + 2)
    exec .retNear s = .next { s with ip := ip', regs := { s.regs with sp := s.regs.sp + 2 }, queue := [] } ∧
    exec (.retNearImm n) s = .next { s with ip := ip', regs := { s.regs with sp := s.regs.sp + 2 + n }, queue := [] } ∧
    (canPop 2 s = true →
      exec .retFar s = .next { s with
        ip := ip', segs := { s.segs with cs := cs' }, regs := { s.regs with sp := s.regs.sp + 4 }, queue := [] } ∧
      exec (.retFarImm n) s = .next { s with
        ip := ip', segs := { s.segs with cs := cs' }, regs := { s.regs with sp := s.regs.sp + 4 + n }, queue := [] })

/-- The sixteen conditional jumps and JCXZ, two bytes each: taken exactly when the condition of R350 to R366 holds, to
`next_ip` plus the sign-extended displacement; nothing else changes. -/
def Obligations.ConditionalJumps : Prop :=
  ∀ (s : State) (inc : Byte),
    let f := s.flags
    let go := fun (c : Bool) =>
      Host.Outcome.next (φ := Fault) (ρ := Refusal)
        (if c then ({ s with ip := s.ip + inc.signExtend 16, queue := [] } : State) else s)
    encode (.je inc) = [0x74, inc] ∧ encode (.jl inc) = [0x7C, inc] ∧ encode (.jle inc) = [0x7E, inc] ∧
    encode (.jb inc) = [0x72, inc] ∧ encode (.jbe inc) = [0x76, inc] ∧ encode (.jp inc) = [0x7A, inc] ∧
    encode (.jo inc) = [0x70, inc] ∧ encode (.js inc) = [0x78, inc] ∧ encode (.jne inc) = [0x75, inc] ∧
    encode (.jnl inc) = [0x7D, inc] ∧ encode (.jnle inc) = [0x7F, inc] ∧ encode (.jnb inc) = [0x73, inc] ∧
    encode (.jnbe inc) = [0x77, inc] ∧ encode (.jnp inc) = [0x7B, inc] ∧ encode (.jno inc) = [0x71, inc] ∧
    encode (.jns inc) = [0x79, inc] ∧ encode (.jcxz inc) = [0xE3, inc] ∧
    exec (.je inc) s = go f.ZF ∧ exec (.jne inc) s = go (!f.ZF) ∧
    exec (.jl inc) s = go (f.SF != f.OF) ∧ exec (.jnl inc) s = go (f.SF == f.OF) ∧
    exec (.jle inc) s = go (f.ZF || f.SF != f.OF) ∧ exec (.jnle inc) s = go (!f.ZF && f.SF == f.OF) ∧
    exec (.jb inc) s = go f.CF ∧ exec (.jnb inc) s = go (!f.CF) ∧
    exec (.jbe inc) s = go (f.CF || f.ZF) ∧ exec (.jnbe inc) s = go (!f.CF && !f.ZF) ∧
    exec (.jp inc) s = go f.PF ∧ exec (.jnp inc) s = go (!f.PF) ∧
    exec (.jo inc) s = go f.OF ∧ exec (.jno inc) s = go (!f.OF) ∧
    exec (.js inc) s = go f.SF ∧ exec (.jns inc) s = go (!f.SF) ∧
    exec (.jcxz inc) s = go (s.regs.cx == 0)

/-- JMP in its five forms. LOOP, LOOPZ and LOOPNZ: CX lower by 1, the branch taken when CX is then not 0 and ZF is as
asked; no flag changes. -/
def Obligations.JumpAndLoopForms : Prop :=
  ∀ (s : State) (rm : RM) (inc newIp newCs : Word) (short : Byte),
    let t : State := { s with regs := { s.regs with cx := s.regs.cx - 1 } }
    let loops := fun (c : Bool) =>
      Host.Outcome.next (φ := Fault) (ρ := Refusal)
        (if s.regs.cx ≠ 1 ∧ c = true then ({ t with ip := s.ip + short.signExtend 16, queue := [] } : State) else t)
    encode (.loop short) = [0xE2, short] ∧ encode (.loopz short) = [0xE1, short] ∧ encode (.loopnz short) = [0xE0, short] ∧
    exec (.loop short) s = loops true ∧ exec (.loopz short) s = loops s.flags.ZF ∧
    exec (.loopnz short) s = loops (!s.flags.ZF) ∧
    exec (.jmpNear inc) s = .next { s with ip := s.ip + inc, queue := [] } ∧
    exec (.jmpShort short) s = .next { s with ip := s.ip + short.signExtend 16, queue := [] } ∧
    (canReadRM .word rm s = true → exec (.jmpRm rm) s = .next { s with ip := s.operand .word rm, queue := [] }) ∧
    exec (.jmpFar newIp newCs) s = .next { s with ip := newIp, segs := { s.segs with cs := newCs }, queue := [] } ∧
    (canReadPointer rm s = true →
      exec (.jmpMem rm) s = .next { s with
        ip := (s.pointer rm).1, segs := { s.segs with cs := (s.pointer rm).2 }, queue := [] })

/-! ## Interrupts -/

/-- INT n, INT3 and INTO with OF = 1 take their interrupt whatever IF is, saving `next_ip`; INTO with OF = 0 does
nothing. -/
def Obligations.SoftwareInterrupts : Prop :=
  ∀ (s : State) (n : Byte), s.mem.wf = true →
    encode (.int n) = [0xCD, n] ∧ encode .int3 = [0xCC] ∧ encode .into = [0xCE] ∧
    (canInterrupt n s = true → ∃ t, exec (.int n) s = .next t ∧ Interrupted n s.ip s t) ∧
    (canInterrupt 3 s = true → ∃ t, exec .int3 s = .next t ∧ Interrupted 3 s.ip s t) ∧
    (s.flags.OF = true → canInterrupt 4 s = true → ∃ t, exec .into s = .next t ∧ Interrupted 4 s.ip s t) ∧
    (s.flags.OF = false → exec .into s = .next s)

/-- What the interrupt sequence leaves on the stack: FLAGS at SS:SP-2, CS at SS:SP-4, the saved IP at SS:SP-6, each low
byte first; IF and TF clear, the other seven flags as they were; CS:IP from the vector read before the pushes (R506). -/
def Obligations.InterruptSequenceLeaves : Prop :=
  ∀ (s : State) (n : Byte) (saved : Word), s.mem.wf = true → canInterrupt n s = true →
    ∃ t, interruptSequence n saved s = .next t ∧
      t.load .word s.segs.ss (s.regs.sp - 2) = s.flags.toWord ∧
      t.load .word s.segs.ss (s.regs.sp - 4) = s.segs.cs ∧
      t.load .word s.segs.ss (s.regs.sp - 6) = saved ∧
      (∀ a : PAddr, (∀ k : Nat, 1 ≤ k → k ≤ 6 → a ≠ phys s.segs.ss (s.regs.sp - BitVec.ofNat 16 k)) → t.byteAt a = s.byteAt a) ∧
      t = { s with
        mem := t.mem
        regs := { s.regs with sp := s.regs.sp - 6 }
        flags := { s.flags with IF := false, TF := false }
        ip := wordOf (s.byteAt (vectorAddr n 1)) (s.byteAt (vectorAddr n 0))
        segs := { s.segs with cs := wordOf (s.byteAt (vectorAddr n 3)) (s.byteAt (vectorAddr n 2)) }
        halted := false
        inRepeat := false
        queue := [] }

/-- IRET pops IP, CS and FLAGS, all nine flags from the popped word (R378). A handler that begins with IRET returns to
where it was called from: INT n and then IRET restore every register, CS:IP at the next instruction and all flags. -/
def Obligations.InterruptReturn : Prop :=
  (∀ s : State, canPop 0 s = true → canPop 2 s = true → canPop 4 s = true →
    exec .iret s = .next { s with
      ip := s.load .word s.segs.ss s.regs.sp
      segs := { s.segs with cs := s.load .word s.segs.ss (s.regs.sp + 2) }
      flags := Flags.ofWord (s.load .word s.segs.ss (s.regs.sp + 4))
      regs := { s.regs with sp := s.regs.sp + 6 }
      queue := [] }) ∧
  ∀ (s : State) (n : Byte), s.mem.wf = true → canInterrupt n s = true →
    ∃ t u, exec (.int n) s = .next t ∧ exec .iret t = .next u ∧
      u = { s with mem := t.mem, halted := false, inRepeat := false, queue := [] }

/-- The order at a recognition point (R508): the shadow first; then NMI, else INTR when IF = 1; single step last, on top
of the handler just entered. The IP saved between two iterations of a repeat is the last prefix byte's (R329); otherwise
it is IP. -/
def Obligations.RecognitionOrder : Prop :=
  ∀ (s : State) (saved : Word),
    (∀ tf0, s.inhibit = true → recognise tf0 saved s = .next { s with inhibit := false }) ∧
    (s.inhibit = false → s.nmiPending = true →
      recognise false saved s = interruptSequence 2 saved { s with nmiPending := false } ∧
      recognise true saved s =
        andThen (interruptSequence 2 saved { s with nmiPending := false }) fun t => interruptSequence 1 t.ip t) ∧
    (∀ n, s.inhibit = false → s.nmiPending = false → s.flags.IF = true → s.intr = some n →
      recognise false saved s = interruptSequence n saved s ∧
      recognise true saved s = andThen (interruptSequence n saved s) fun t => interruptSequence 1 t.ip t) ∧
    (s.inhibit = false → s.nmiPending = false → (s.flags.IF = false ∨ s.intr = none) →
      recognise false saved s = .next s ∧ recognise true saved s = interruptSequence 1 saved s) ∧
    (s.inRepeat = true → 1 ≤ s.cur.nPrefix → s.savedIp = s.cur.ip0 + BitVec.ofNat 16 (s.cur.nPrefix - 1)) ∧
    (s.inRepeat = false → s.savedIp = s.ip)

/-- TF changes only through POPF and IRET and by the interrupt sequence; IF by CLI and STI too; DF only through CLD,
STD, POPF and IRET (R31, R505). -/
def Obligations.ControlFlagWriters : Prop :=
  ∀ (i : Instr) (s t : State), exec i s = .next t →
    (match i with
      | .popf | .iret => True
      | .int _ | .int3 | .into | .divRm _ _ | .idivRm _ _ => t.flags.TF = s.flags.TF ∨ t.flags.TF = false
      | _ => t.flags.TF = s.flags.TF) ∧
    (match i with
      | .popf | .iret | .cli | .sti => True
      | .int _ | .int3 | .into | .divRm _ _ | .idivRm _ _ => t.flags.IF = s.flags.IF ∨ t.flags.IF = false
      | _ => t.flags.IF = s.flags.IF) ∧
    (match i with
      | .popf | .iret | .cld | .std => True
      | _ => t.flags.DF = s.flags.DF)

/-- Which segment register an instruction can change: SS by MOV and POP only; DS and ES by those, LDS and LES; CS by
intersegment transfers, IRET and interrupts (R27). -/
def Obligations.SegmentRegisterWriters : Prop :=
  ∀ (i : Instr) (s t : State), exec i s = .next t →
    (match i with | .movSregRm .ss _ | .popSreg .ss => True | _ => t.segs.ss = s.segs.ss) ∧
    (match i with | .movSregRm .ds _ | .popSreg .ds | .lds _ _ => True | _ => t.segs.ds = s.segs.ds) ∧
    (match i with | .movSregRm .es _ | .popSreg .es | .les _ _ => True | _ => t.segs.es = s.segs.es) ∧
    (match i with
      | .callFar _ _ | .callMem _ | .jmpFar _ _ | .jmpMem _ | .retFar | .retFarImm _ | .int _ | .int3 | .into | .iret
      | .divRm _ _ | .idivRm _ _ => True
      | _ => t.segs.cs = s.segs.cs)

/-- Instructions that touch no flag (R31): NOT, MOV, PUSH, POP, PUSHF, XCHG, IN, OUT, XLAT, LEA, LDS, LES, LAHF, CBW,
CWD, every jump, CALL, RET, LOOP, JCXZ, LODS, STOS, MOVS. -/
def Obligations.InstructionsThatTouchNoFlag : Prop :=
  ∀ (i : Instr) (s t : State), exec i s = .next t →
    (match i with
      | .notRm _ _ | .movRmReg _ _ _ _ | .movRmImm _ _ _ | .movRegImm _ _ _ | .movAccMem _ _ | .movMemAcc _ _
      | .movSregRm _ _ | .movRmSreg _ _ | .pushRm _ | .pushReg _ | .pushSreg _ | .pushf | .popRm _ | .popReg _
      | .popSreg _ | .xchgRmReg _ _ _ | .xchgAxReg _ | .inPort _ _ | .inDx _ | .outPort _ _ | .outDx _ | .xlat
      | .lea _ _ | .lds _ _ | .les _ _ | .lahf | .cbw | .cwd | .je _ | .jl _ | .jle _ | .jb _ | .jbe _ | .jp _ | .jo _
      | .js _ | .jne _ | .jnl _ | .jnle _ | .jnb _ | .jnbe _ | .jnp _ | .jno _ | .jns _ | .jcxz _ | .jmpNear _
      | .jmpShort _ | .jmpRm _ | .jmpFar _ _ | .jmpMem _ | .callNear _ | .callRm _ | .callFar _ _ | .callMem _
      | .retNear | .retNearImm _ | .retFar | .retFarImm _ | .loop _ | .loopz _ | .loopnz _ | .lods _ | .stos _
      | .movs _ => True
      | _ => False) → t.flags = s.flags

/-! ## Processor control -/

/-- CLC, CMC, STC, CLD, STD, CLI change their one flag; STI sets IF and, when IF was 0, the interrupt shadow. -/
def Obligations.FlagInstructions : Prop :=
  ∀ s : State,
    encode .clc = [0xF8] ∧ encode .cmc = [0xF5] ∧ encode .stc = [0xF9] ∧ encode .cld = [0xFC] ∧ encode .std = [0xFD] ∧
    encode .cli = [0xFA] ∧ encode .sti = [0xFB] ∧
    exec .clc s = .next { s with flags := { s.flags with CF := false } } ∧
    exec .cmc s = .next { s with flags := { s.flags with CF := !s.flags.CF } } ∧
    exec .stc s = .next { s with flags := { s.flags with CF := true } } ∧
    exec .cld s = .next { s with flags := { s.flags with DF := false } } ∧
    exec .std s = .next { s with flags := { s.flags with DF := true } } ∧
    exec .cli s = .next { s with flags := { s.flags with IF := false } } ∧
    (s.flags.IF = true → exec .sti s = .next s) ∧
    (s.flags.IF = false → exec .sti s = .next { s with flags := { s.flags with IF := true }, inhibit := true })

/-- HLT halts; WAIT goes on when TEST is active and stays at its own address otherwise; ESC changes nothing, given
that its operand is a register or a word that can be read. -/
def Obligations.HaltWaitEscape : Prop :=
  ∀ (s : State) (x y : BitVec 3) (rm : RM),
    exec .hlt s = .next { s with halted := true } ∧
    (s.test = true → exec .wait s = .next s) ∧
    (s.test = false → exec .wait s = .next { s with ip := s.cur.ip0 }) ∧
    (canReadRM .word rm s = true → exec (.esc x y rm) s = .next s)
end

