-- ==== Sys2Proof/Laws/State.lean ====
section
/-! SUPPORT. What each state update leaves alone: one lemma for each field that an update does not write, so that no proof
unfolds an update to see past it. -/

namespace Sys2Proof.Machine

/-! ## setReg -/

@[simp] theorem setReg_segs (s : State) (w : Width) (c : RegCode) (v : Word) : (s.setReg w c v).segs = s.segs := by cases w <;> rfl
@[simp] theorem setReg_ip (s : State) (w : Width) (c : RegCode) (v : Word) : (s.setReg w c v).ip = s.ip := by cases w <;> rfl
@[simp] theorem setReg_flags (s : State) (w : Width) (c : RegCode) (v : Word) : (s.setReg w c v).flags = s.flags := by cases w <;> rfl
@[simp] theorem setReg_inhibit (s : State) (w : Width) (c : RegCode) (v : Word) : (s.setReg w c v).inhibit = s.inhibit := by cases w <;> rfl
@[simp] theorem setReg_halted (s : State) (w : Width) (c : RegCode) (v : Word) : (s.setReg w c v).halted = s.halted := by cases w <;> rfl
@[simp] theorem setReg_nmiPending (s : State) (w : Width) (c : RegCode) (v : Word) : (s.setReg w c v).nmiPending = s.nmiPending := by cases w <;> rfl
@[simp] theorem setReg_inRepeat (s : State) (w : Width) (c : RegCode) (v : Word) : (s.setReg w c v).inRepeat = s.inRepeat := by cases w <;> rfl
@[simp] theorem setReg_lock (s : State) (w : Width) (c : RegCode) (v : Word) : (s.setReg w c v).lock = s.lock := by cases w <;> rfl
@[simp] theorem setReg_queue (s : State) (w : Width) (c : RegCode) (v : Word) : (s.setReg w c v).queue = s.queue := by cases w <;> rfl
@[simp] theorem setReg_mem (s : State) (w : Width) (c : RegCode) (v : Word) : (s.setReg w c v).mem = s.mem := by cases w <;> rfl
@[simp] theorem setReg_cur (s : State) (w : Width) (c : RegCode) (v : Word) : (s.setReg w c v).cur = s.cur := by cases w <;> rfl
@[simp] theorem setReg_intr (s : State) (w : Width) (c : RegCode) (v : Word) : (s.setReg w c v).intr = s.intr := by cases w <;> rfl
@[simp] theorem setReg_test (s : State) (w : Width) (c : RegCode) (v : Word) : (s.setReg w c v).test = s.test := by cases w <;> rfl
@[simp] theorem setReg_inputs (s : State) (w : Width) (c : RegCode) (v : Word) : (s.setReg w c v).inputs = s.inputs := by cases w <;> rfl
@[simp] theorem setReg_due (s : State) (w : Width) (c : RegCode) (v : Word) : (s.setReg w c v).due = s.due := by cases w <;> rfl
@[simp] theorem setReg_unmapped (s : State) (w : Width) (c : RegCode) (v : Word) : (s.setReg w c v).unmapped = s.unmapped := by cases w <;> rfl
@[simp] theorem setReg_rom (s : State) (w : Width) (c : RegCode) (v : Word) : (s.setReg w c v).rom = s.rom := by cases w <;> rfl
@[simp] theorem setReg_undriven (s : State) (w : Width) (c : RegCode) (v : Word) : (s.setReg w c v).undriven = s.undriven := by cases w <;> rfl
@[simp] theorem setReg_ioIn (s : State) (w : Width) (c : RegCode) (v : Word) : (s.setReg w c v).ioIn = s.ioIn := by cases w <;> rfl
@[simp] theorem setReg_ioOut (s : State) (w : Width) (c : RegCode) (v : Word) : (s.setReg w c v).ioOut = s.ioOut := by cases w <;> rfl
@[simp] theorem setReg_draws (s : State) (w : Width) (c : RegCode) (v : Word) : (s.setReg w c v).draws = s.draws := by cases w <;> rfl

/-! ## setSeg -/

@[simp] theorem setSeg_regs (s : State) (c : SegReg) (v : Word) : (s.setSeg c v).regs = s.regs := rfl
@[simp] theorem setSeg_ip (s : State) (c : SegReg) (v : Word) : (s.setSeg c v).ip = s.ip := rfl
@[simp] theorem setSeg_flags (s : State) (c : SegReg) (v : Word) : (s.setSeg c v).flags = s.flags := rfl
@[simp] theorem setSeg_inhibit (s : State) (c : SegReg) (v : Word) : (s.setSeg c v).inhibit = s.inhibit := rfl
@[simp] theorem setSeg_halted (s : State) (c : SegReg) (v : Word) : (s.setSeg c v).halted = s.halted := rfl
@[simp] theorem setSeg_nmiPending (s : State) (c : SegReg) (v : Word) : (s.setSeg c v).nmiPending = s.nmiPending := rfl
@[simp] theorem setSeg_inRepeat (s : State) (c : SegReg) (v : Word) : (s.setSeg c v).inRepeat = s.inRepeat := rfl
@[simp] theorem setSeg_lock (s : State) (c : SegReg) (v : Word) : (s.setSeg c v).lock = s.lock := rfl
@[simp] theorem setSeg_queue (s : State) (c : SegReg) (v : Word) : (s.setSeg c v).queue = s.queue := rfl
@[simp] theorem setSeg_mem (s : State) (c : SegReg) (v : Word) : (s.setSeg c v).mem = s.mem := rfl
@[simp] theorem setSeg_cur (s : State) (c : SegReg) (v : Word) : (s.setSeg c v).cur = s.cur := rfl
@[simp] theorem setSeg_intr (s : State) (c : SegReg) (v : Word) : (s.setSeg c v).intr = s.intr := rfl
@[simp] theorem setSeg_test (s : State) (c : SegReg) (v : Word) : (s.setSeg c v).test = s.test := rfl
@[simp] theorem setSeg_inputs (s : State) (c : SegReg) (v : Word) : (s.setSeg c v).inputs = s.inputs := rfl
@[simp] theorem setSeg_due (s : State) (c : SegReg) (v : Word) : (s.setSeg c v).due = s.due := rfl
@[simp] theorem setSeg_unmapped (s : State) (c : SegReg) (v : Word) : (s.setSeg c v).unmapped = s.unmapped := rfl
@[simp] theorem setSeg_rom (s : State) (c : SegReg) (v : Word) : (s.setSeg c v).rom = s.rom := rfl
@[simp] theorem setSeg_undriven (s : State) (c : SegReg) (v : Word) : (s.setSeg c v).undriven = s.undriven := rfl
@[simp] theorem setSeg_ioIn (s : State) (c : SegReg) (v : Word) : (s.setSeg c v).ioIn = s.ioIn := rfl
@[simp] theorem setSeg_ioOut (s : State) (c : SegReg) (v : Word) : (s.setSeg c v).ioOut = s.ioOut := rfl
@[simp] theorem setSeg_draws (s : State) (c : SegReg) (v : Word) : (s.setSeg c v).draws = s.draws := rfl

/-! ## jump -/

@[simp] theorem jump_regs (s : State) (v : Word) : (s.jump v).regs = s.regs := rfl
@[simp] theorem jump_segs (s : State) (v : Word) : (s.jump v).segs = s.segs := rfl
@[simp] theorem jump_flags (s : State) (v : Word) : (s.jump v).flags = s.flags := rfl
@[simp] theorem jump_inhibit (s : State) (v : Word) : (s.jump v).inhibit = s.inhibit := rfl
@[simp] theorem jump_halted (s : State) (v : Word) : (s.jump v).halted = s.halted := rfl
@[simp] theorem jump_nmiPending (s : State) (v : Word) : (s.jump v).nmiPending = s.nmiPending := rfl
@[simp] theorem jump_inRepeat (s : State) (v : Word) : (s.jump v).inRepeat = s.inRepeat := rfl
@[simp] theorem jump_lock (s : State) (v : Word) : (s.jump v).lock = s.lock := rfl
@[simp] theorem jump_mem (s : State) (v : Word) : (s.jump v).mem = s.mem := rfl
@[simp] theorem jump_cur (s : State) (v : Word) : (s.jump v).cur = s.cur := rfl
@[simp] theorem jump_intr (s : State) (v : Word) : (s.jump v).intr = s.intr := rfl
@[simp] theorem jump_test (s : State) (v : Word) : (s.jump v).test = s.test := rfl
@[simp] theorem jump_inputs (s : State) (v : Word) : (s.jump v).inputs = s.inputs := rfl
@[simp] theorem jump_due (s : State) (v : Word) : (s.jump v).due = s.due := rfl
@[simp] theorem jump_unmapped (s : State) (v : Word) : (s.jump v).unmapped = s.unmapped := rfl
@[simp] theorem jump_rom (s : State) (v : Word) : (s.jump v).rom = s.rom := rfl
@[simp] theorem jump_undriven (s : State) (v : Word) : (s.jump v).undriven = s.undriven := rfl
@[simp] theorem jump_ioIn (s : State) (v : Word) : (s.jump v).ioIn = s.ioIn := rfl
@[simp] theorem jump_ioOut (s : State) (v : Word) : (s.jump v).ioOut = s.ioOut := rfl
@[simp] theorem jump_draws (s : State) (v : Word) : (s.jump v).draws = s.draws := rfl

/-! ## jumpFar -/

@[simp] theorem jumpFar_regs (s : State) (g v : Word) : (s.jumpFar g v).regs = s.regs := rfl
@[simp] theorem jumpFar_flags (s : State) (g v : Word) : (s.jumpFar g v).flags = s.flags := rfl
@[simp] theorem jumpFar_inhibit (s : State) (g v : Word) : (s.jumpFar g v).inhibit = s.inhibit := rfl
@[simp] theorem jumpFar_halted (s : State) (g v : Word) : (s.jumpFar g v).halted = s.halted := rfl
@[simp] theorem jumpFar_nmiPending (s : State) (g v : Word) : (s.jumpFar g v).nmiPending = s.nmiPending := rfl
@[simp] theorem jumpFar_inRepeat (s : State) (g v : Word) : (s.jumpFar g v).inRepeat = s.inRepeat := rfl
@[simp] theorem jumpFar_lock (s : State) (g v : Word) : (s.jumpFar g v).lock = s.lock := rfl
@[simp] theorem jumpFar_mem (s : State) (g v : Word) : (s.jumpFar g v).mem = s.mem := rfl
@[simp] theorem jumpFar_cur (s : State) (g v : Word) : (s.jumpFar g v).cur = s.cur := rfl
@[simp] theorem jumpFar_intr (s : State) (g v : Word) : (s.jumpFar g v).intr = s.intr := rfl
@[simp] theorem jumpFar_test (s : State) (g v : Word) : (s.jumpFar g v).test = s.test := rfl
@[simp] theorem jumpFar_inputs (s : State) (g v : Word) : (s.jumpFar g v).inputs = s.inputs := rfl
@[simp] theorem jumpFar_due (s : State) (g v : Word) : (s.jumpFar g v).due = s.due := rfl
@[simp] theorem jumpFar_unmapped (s : State) (g v : Word) : (s.jumpFar g v).unmapped = s.unmapped := rfl
@[simp] theorem jumpFar_rom (s : State) (g v : Word) : (s.jumpFar g v).rom = s.rom := rfl
@[simp] theorem jumpFar_undriven (s : State) (g v : Word) : (s.jumpFar g v).undriven = s.undriven := rfl
@[simp] theorem jumpFar_ioIn (s : State) (g v : Word) : (s.jumpFar g v).ioIn = s.ioIn := rfl
@[simp] theorem jumpFar_ioOut (s : State) (g v : Word) : (s.jumpFar g v).ioOut = s.ioOut := rfl
@[simp] theorem jumpFar_draws (s : State) (g v : Word) : (s.jumpFar g v).draws = s.draws := rfl

/-! ## advanceSi -/

@[simp] theorem advanceSi_segs (s : State) (w : Width) : (s.advanceSi w).segs = s.segs := rfl
@[simp] theorem advanceSi_ip (s : State) (w : Width) : (s.advanceSi w).ip = s.ip := rfl
@[simp] theorem advanceSi_flags (s : State) (w : Width) : (s.advanceSi w).flags = s.flags := rfl
@[simp] theorem advanceSi_inhibit (s : State) (w : Width) : (s.advanceSi w).inhibit = s.inhibit := rfl
@[simp] theorem advanceSi_halted (s : State) (w : Width) : (s.advanceSi w).halted = s.halted := rfl
@[simp] theorem advanceSi_nmiPending (s : State) (w : Width) : (s.advanceSi w).nmiPending = s.nmiPending := rfl
@[simp] theorem advanceSi_inRepeat (s : State) (w : Width) : (s.advanceSi w).inRepeat = s.inRepeat := rfl
@[simp] theorem advanceSi_lock (s : State) (w : Width) : (s.advanceSi w).lock = s.lock := rfl
@[simp] theorem advanceSi_queue (s : State) (w : Width) : (s.advanceSi w).queue = s.queue := rfl
@[simp] theorem advanceSi_mem (s : State) (w : Width) : (s.advanceSi w).mem = s.mem := rfl
@[simp] theorem advanceSi_cur (s : State) (w : Width) : (s.advanceSi w).cur = s.cur := rfl
@[simp] theorem advanceSi_intr (s : State) (w : Width) : (s.advanceSi w).intr = s.intr := rfl
@[simp] theorem advanceSi_test (s : State) (w : Width) : (s.advanceSi w).test = s.test := rfl
@[simp] theorem advanceSi_inputs (s : State) (w : Width) : (s.advanceSi w).inputs = s.inputs := rfl
@[simp] theorem advanceSi_due (s : State) (w : Width) : (s.advanceSi w).due = s.due := rfl
@[simp] theorem advanceSi_unmapped (s : State) (w : Width) : (s.advanceSi w).unmapped = s.unmapped := rfl
@[simp] theorem advanceSi_rom (s : State) (w : Width) : (s.advanceSi w).rom = s.rom := rfl
@[simp] theorem advanceSi_undriven (s : State) (w : Width) : (s.advanceSi w).undriven = s.undriven := rfl
@[simp] theorem advanceSi_ioIn (s : State) (w : Width) : (s.advanceSi w).ioIn = s.ioIn := rfl
@[simp] theorem advanceSi_ioOut (s : State) (w : Width) : (s.advanceSi w).ioOut = s.ioOut := rfl
@[simp] theorem advanceSi_draws (s : State) (w : Width) : (s.advanceSi w).draws = s.draws := rfl

/-! ## advanceDi -/

@[simp] theorem advanceDi_segs (s : State) (w : Width) : (s.advanceDi w).segs = s.segs := rfl
@[simp] theorem advanceDi_ip (s : State) (w : Width) : (s.advanceDi w).ip = s.ip := rfl
@[simp] theorem advanceDi_flags (s : State) (w : Width) : (s.advanceDi w).flags = s.flags := rfl
@[simp] theorem advanceDi_inhibit (s : State) (w : Width) : (s.advanceDi w).inhibit = s.inhibit := rfl
@[simp] theorem advanceDi_halted (s : State) (w : Width) : (s.advanceDi w).halted = s.halted := rfl
@[simp] theorem advanceDi_nmiPending (s : State) (w : Width) : (s.advanceDi w).nmiPending = s.nmiPending := rfl
@[simp] theorem advanceDi_inRepeat (s : State) (w : Width) : (s.advanceDi w).inRepeat = s.inRepeat := rfl
@[simp] theorem advanceDi_lock (s : State) (w : Width) : (s.advanceDi w).lock = s.lock := rfl
@[simp] theorem advanceDi_queue (s : State) (w : Width) : (s.advanceDi w).queue = s.queue := rfl
@[simp] theorem advanceDi_mem (s : State) (w : Width) : (s.advanceDi w).mem = s.mem := rfl
@[simp] theorem advanceDi_cur (s : State) (w : Width) : (s.advanceDi w).cur = s.cur := rfl
@[simp] theorem advanceDi_intr (s : State) (w : Width) : (s.advanceDi w).intr = s.intr := rfl
@[simp] theorem advanceDi_test (s : State) (w : Width) : (s.advanceDi w).test = s.test := rfl
@[simp] theorem advanceDi_inputs (s : State) (w : Width) : (s.advanceDi w).inputs = s.inputs := rfl
@[simp] theorem advanceDi_due (s : State) (w : Width) : (s.advanceDi w).due = s.due := rfl
@[simp] theorem advanceDi_unmapped (s : State) (w : Width) : (s.advanceDi w).unmapped = s.unmapped := rfl
@[simp] theorem advanceDi_rom (s : State) (w : Width) : (s.advanceDi w).rom = s.rom := rfl
@[simp] theorem advanceDi_undriven (s : State) (w : Width) : (s.advanceDi w).undriven = s.undriven := rfl
@[simp] theorem advanceDi_ioIn (s : State) (w : Width) : (s.advanceDi w).ioIn = s.ioIn := rfl
@[simp] theorem advanceDi_ioOut (s : State) (w : Width) : (s.advanceDi w).ioOut = s.ioOut := rfl
@[simp] theorem advanceDi_draws (s : State) (w : Width) : (s.advanceDi w).draws = s.draws := rfl

/-! ## addSp -/

@[simp] theorem addSp_segs (s : State) (n : Word) : (s.addSp n).segs = s.segs := rfl
@[simp] theorem addSp_ip (s : State) (n : Word) : (s.addSp n).ip = s.ip := rfl
@[simp] theorem addSp_flags (s : State) (n : Word) : (s.addSp n).flags = s.flags := rfl
@[simp] theorem addSp_inhibit (s : State) (n : Word) : (s.addSp n).inhibit = s.inhibit := rfl
@[simp] theorem addSp_halted (s : State) (n : Word) : (s.addSp n).halted = s.halted := rfl
@[simp] theorem addSp_nmiPending (s : State) (n : Word) : (s.addSp n).nmiPending = s.nmiPending := rfl
@[simp] theorem addSp_inRepeat (s : State) (n : Word) : (s.addSp n).inRepeat = s.inRepeat := rfl
@[simp] theorem addSp_lock (s : State) (n : Word) : (s.addSp n).lock = s.lock := rfl
@[simp] theorem addSp_queue (s : State) (n : Word) : (s.addSp n).queue = s.queue := rfl
@[simp] theorem addSp_mem (s : State) (n : Word) : (s.addSp n).mem = s.mem := rfl
@[simp] theorem addSp_cur (s : State) (n : Word) : (s.addSp n).cur = s.cur := rfl
@[simp] theorem addSp_intr (s : State) (n : Word) : (s.addSp n).intr = s.intr := rfl
@[simp] theorem addSp_test (s : State) (n : Word) : (s.addSp n).test = s.test := rfl
@[simp] theorem addSp_inputs (s : State) (n : Word) : (s.addSp n).inputs = s.inputs := rfl
@[simp] theorem addSp_due (s : State) (n : Word) : (s.addSp n).due = s.due := rfl
@[simp] theorem addSp_unmapped (s : State) (n : Word) : (s.addSp n).unmapped = s.unmapped := rfl
@[simp] theorem addSp_rom (s : State) (n : Word) : (s.addSp n).rom = s.rom := rfl
@[simp] theorem addSp_undriven (s : State) (n : Word) : (s.addSp n).undriven = s.undriven := rfl
@[simp] theorem addSp_ioIn (s : State) (n : Word) : (s.addSp n).ioIn = s.ioIn := rfl
@[simp] theorem addSp_ioOut (s : State) (n : Word) : (s.addSp n).ioOut = s.ioOut := rfl
@[simp] theorem addSp_draws (s : State) (n : Word) : (s.addSp n).draws = s.draws := rfl

/-! ## latchRepeat -/

@[simp] theorem latchRepeat_regs (s : State) (z : Bool) : (s.latchRepeat z).regs = s.regs := rfl
@[simp] theorem latchRepeat_segs (s : State) (z : Bool) : (s.latchRepeat z).segs = s.segs := rfl
@[simp] theorem latchRepeat_ip (s : State) (z : Bool) : (s.latchRepeat z).ip = s.ip := rfl
@[simp] theorem latchRepeat_flags (s : State) (z : Bool) : (s.latchRepeat z).flags = s.flags := rfl
@[simp] theorem latchRepeat_inhibit (s : State) (z : Bool) : (s.latchRepeat z).inhibit = s.inhibit := rfl
@[simp] theorem latchRepeat_halted (s : State) (z : Bool) : (s.latchRepeat z).halted = s.halted := rfl
@[simp] theorem latchRepeat_nmiPending (s : State) (z : Bool) : (s.latchRepeat z).nmiPending = s.nmiPending := rfl
@[simp] theorem latchRepeat_inRepeat (s : State) (z : Bool) : (s.latchRepeat z).inRepeat = s.inRepeat := rfl
@[simp] theorem latchRepeat_lock (s : State) (z : Bool) : (s.latchRepeat z).lock = s.lock := rfl
@[simp] theorem latchRepeat_queue (s : State) (z : Bool) : (s.latchRepeat z).queue = s.queue := rfl
@[simp] theorem latchRepeat_mem (s : State) (z : Bool) : (s.latchRepeat z).mem = s.mem := rfl
@[simp] theorem latchRepeat_intr (s : State) (z : Bool) : (s.latchRepeat z).intr = s.intr := rfl
@[simp] theorem latchRepeat_test (s : State) (z : Bool) : (s.latchRepeat z).test = s.test := rfl
@[simp] theorem latchRepeat_inputs (s : State) (z : Bool) : (s.latchRepeat z).inputs = s.inputs := rfl
@[simp] theorem latchRepeat_due (s : State) (z : Bool) : (s.latchRepeat z).due = s.due := rfl
@[simp] theorem latchRepeat_unmapped (s : State) (z : Bool) : (s.latchRepeat z).unmapped = s.unmapped := rfl
@[simp] theorem latchRepeat_rom (s : State) (z : Bool) : (s.latchRepeat z).rom = s.rom := rfl
@[simp] theorem latchRepeat_undriven (s : State) (z : Bool) : (s.latchRepeat z).undriven = s.undriven := rfl
@[simp] theorem latchRepeat_ioIn (s : State) (z : Bool) : (s.latchRepeat z).ioIn = s.ioIn := rfl
@[simp] theorem latchRepeat_ioOut (s : State) (z : Bool) : (s.latchRepeat z).ioOut = s.ioOut := rfl
@[simp] theorem latchRepeat_draws (s : State) (z : Bool) : (s.latchRepeat z).draws = s.draws := rfl

/-! ## start -/

@[simp] theorem start_regs (s : State) (n : Nat) : (s.start n).regs = s.regs := rfl
@[simp] theorem start_segs (s : State) (n : Nat) : (s.start n).segs = s.segs := rfl
@[simp] theorem start_flags (s : State) (n : Nat) : (s.start n).flags = s.flags := rfl
@[simp] theorem start_inhibit (s : State) (n : Nat) : (s.start n).inhibit = s.inhibit := rfl
@[simp] theorem start_halted (s : State) (n : Nat) : (s.start n).halted = s.halted := rfl
@[simp] theorem start_nmiPending (s : State) (n : Nat) : (s.start n).nmiPending = s.nmiPending := rfl
@[simp] theorem start_lock (s : State) (n : Nat) : (s.start n).lock = s.lock := rfl
@[simp] theorem start_mem (s : State) (n : Nat) : (s.start n).mem = s.mem := rfl
@[simp] theorem start_intr (s : State) (n : Nat) : (s.start n).intr = s.intr := rfl
@[simp] theorem start_test (s : State) (n : Nat) : (s.start n).test = s.test := rfl
@[simp] theorem start_inputs (s : State) (n : Nat) : (s.start n).inputs = s.inputs := rfl
@[simp] theorem start_due (s : State) (n : Nat) : (s.start n).due = s.due := rfl
@[simp] theorem start_unmapped (s : State) (n : Nat) : (s.start n).unmapped = s.unmapped := rfl
@[simp] theorem start_rom (s : State) (n : Nat) : (s.start n).rom = s.rom := rfl
@[simp] theorem start_undriven (s : State) (n : Nat) : (s.start n).undriven = s.undriven := rfl
@[simp] theorem start_ioIn (s : State) (n : Nat) : (s.start n).ioIn = s.ioIn := rfl
@[simp] theorem start_ioOut (s : State) (n : Nat) : (s.start n).ioOut = s.ioOut := rfl
@[simp] theorem start_draws (s : State) (n : Nat) : (s.start n).draws = s.draws := rfl

/-! ## finish -/

@[simp] theorem finish_regs (s : State) : (s.finish).regs = s.regs := rfl
@[simp] theorem finish_segs (s : State) : (s.finish).segs = s.segs := rfl
@[simp] theorem finish_ip (s : State) : (s.finish).ip = s.ip := rfl
@[simp] theorem finish_flags (s : State) : (s.finish).flags = s.flags := rfl
@[simp] theorem finish_inhibit (s : State) : (s.finish).inhibit = s.inhibit := rfl
@[simp] theorem finish_halted (s : State) : (s.finish).halted = s.halted := rfl
@[simp] theorem finish_nmiPending (s : State) : (s.finish).nmiPending = s.nmiPending := rfl
@[simp] theorem finish_inRepeat (s : State) : (s.finish).inRepeat = s.inRepeat := rfl
@[simp] theorem finish_queue (s : State) : (s.finish).queue = s.queue := rfl
@[simp] theorem finish_mem (s : State) : (s.finish).mem = s.mem := rfl
@[simp] theorem finish_intr (s : State) : (s.finish).intr = s.intr := rfl
@[simp] theorem finish_test (s : State) : (s.finish).test = s.test := rfl
@[simp] theorem finish_inputs (s : State) : (s.finish).inputs = s.inputs := rfl
@[simp] theorem finish_due (s : State) : (s.finish).due = s.due := rfl
@[simp] theorem finish_unmapped (s : State) : (s.finish).unmapped = s.unmapped := rfl
@[simp] theorem finish_rom (s : State) : (s.finish).rom = s.rom := rfl
@[simp] theorem finish_undriven (s : State) : (s.finish).undriven = s.undriven := rfl
@[simp] theorem finish_ioIn (s : State) : (s.finish).ioIn = s.ioIn := rfl
@[simp] theorem finish_ioOut (s : State) : (s.finish).ioOut = s.ioOut := rfl
@[simp] theorem finish_draws (s : State) : (s.finish).draws = s.draws := rfl

/-! ## resetSequence -/

@[simp] theorem resetSequence_mem (s : State) : (s.resetSequence).mem = s.mem := rfl
@[simp] theorem resetSequence_intr (s : State) : (s.resetSequence).intr = s.intr := rfl
@[simp] theorem resetSequence_test (s : State) : (s.resetSequence).test = s.test := rfl
@[simp] theorem resetSequence_inputs (s : State) : (s.resetSequence).inputs = s.inputs := rfl
@[simp] theorem resetSequence_due (s : State) : (s.resetSequence).due = s.due := rfl
@[simp] theorem resetSequence_unmapped (s : State) : (s.resetSequence).unmapped = s.unmapped := rfl
@[simp] theorem resetSequence_rom (s : State) : (s.resetSequence).rom = s.rom := rfl
@[simp] theorem resetSequence_undriven (s : State) : (s.resetSequence).undriven = s.undriven := rfl
@[simp] theorem resetSequence_ioIn (s : State) : (s.resetSequence).ioIn = s.ioIn := rfl
@[simp] theorem resetSequence_ioOut (s : State) : (s.resetSequence).ioOut = s.ioOut := rfl

/-! ## put -/

@[simp] theorem put_regs (s : State) (a : PAddr) (v : Byte) : (s.put a v).regs = s.regs := rfl
@[simp] theorem put_segs (s : State) (a : PAddr) (v : Byte) : (s.put a v).segs = s.segs := rfl
@[simp] theorem put_ip (s : State) (a : PAddr) (v : Byte) : (s.put a v).ip = s.ip := rfl
@[simp] theorem put_flags (s : State) (a : PAddr) (v : Byte) : (s.put a v).flags = s.flags := rfl
@[simp] theorem put_inhibit (s : State) (a : PAddr) (v : Byte) : (s.put a v).inhibit = s.inhibit := rfl
@[simp] theorem put_halted (s : State) (a : PAddr) (v : Byte) : (s.put a v).halted = s.halted := rfl
@[simp] theorem put_nmiPending (s : State) (a : PAddr) (v : Byte) : (s.put a v).nmiPending = s.nmiPending := rfl
@[simp] theorem put_inRepeat (s : State) (a : PAddr) (v : Byte) : (s.put a v).inRepeat = s.inRepeat := rfl
@[simp] theorem put_lock (s : State) (a : PAddr) (v : Byte) : (s.put a v).lock = s.lock := rfl
@[simp] theorem put_cur (s : State) (a : PAddr) (v : Byte) : (s.put a v).cur = s.cur := rfl
@[simp] theorem put_intr (s : State) (a : PAddr) (v : Byte) : (s.put a v).intr = s.intr := rfl
@[simp] theorem put_test (s : State) (a : PAddr) (v : Byte) : (s.put a v).test = s.test := rfl
@[simp] theorem put_inputs (s : State) (a : PAddr) (v : Byte) : (s.put a v).inputs = s.inputs := rfl
@[simp] theorem put_due (s : State) (a : PAddr) (v : Byte) : (s.put a v).due = s.due := rfl
@[simp] theorem put_unmapped (s : State) (a : PAddr) (v : Byte) : (s.put a v).unmapped = s.unmapped := rfl
@[simp] theorem put_rom (s : State) (a : PAddr) (v : Byte) : (s.put a v).rom = s.rom := rfl
@[simp] theorem put_undriven (s : State) (a : PAddr) (v : Byte) : (s.put a v).undriven = s.undriven := rfl
@[simp] theorem put_ioIn (s : State) (a : PAddr) (v : Byte) : (s.put a v).ioIn = s.ioIn := rfl
@[simp] theorem put_ioOut (s : State) (a : PAddr) (v : Byte) : (s.put a v).ioOut = s.ioOut := rfl
@[simp] theorem put_draws (s : State) (a : PAddr) (v : Byte) : (s.put a v).draws = s.draws := rfl

/-! ## putOthers -/

@[simp] theorem putOthers_regs (l : Burst) (s : State) : (State.putOthers l s).regs = s.regs := by
  induction l generalizing s with
  | nil => rfl
  | cons c l ih => exact (ih _).trans (by split <;> rfl)
@[simp] theorem putOthers_segs (l : Burst) (s : State) : (State.putOthers l s).segs = s.segs := by
  induction l generalizing s with
  | nil => rfl
  | cons c l ih => exact (ih _).trans (by split <;> rfl)
@[simp] theorem putOthers_ip (l : Burst) (s : State) : (State.putOthers l s).ip = s.ip := by
  induction l generalizing s with
  | nil => rfl
  | cons c l ih => exact (ih _).trans (by split <;> rfl)
@[simp] theorem putOthers_flags (l : Burst) (s : State) : (State.putOthers l s).flags = s.flags := by
  induction l generalizing s with
  | nil => rfl
  | cons c l ih => exact (ih _).trans (by split <;> rfl)
@[simp] theorem putOthers_inhibit (l : Burst) (s : State) : (State.putOthers l s).inhibit = s.inhibit := by
  induction l generalizing s with
  | nil => rfl
  | cons c l ih => exact (ih _).trans (by split <;> rfl)
@[simp] theorem putOthers_halted (l : Burst) (s : State) : (State.putOthers l s).halted = s.halted := by
  induction l generalizing s with
  | nil => rfl
  | cons c l ih => exact (ih _).trans (by split <;> rfl)
@[simp] theorem putOthers_nmiPending (l : Burst) (s : State) : (State.putOthers l s).nmiPending = s.nmiPending := by
  induction l generalizing s with
  | nil => rfl
  | cons c l ih => exact (ih _).trans (by split <;> rfl)
@[simp] theorem putOthers_inRepeat (l : Burst) (s : State) : (State.putOthers l s).inRepeat = s.inRepeat := by
  induction l generalizing s with
  | nil => rfl
  | cons c l ih => exact (ih _).trans (by split <;> rfl)
@[simp] theorem putOthers_lock (l : Burst) (s : State) : (State.putOthers l s).lock = s.lock := by
  induction l generalizing s with
  | nil => rfl
  | cons c l ih => exact (ih _).trans (by split <;> rfl)
@[simp] theorem putOthers_cur (l : Burst) (s : State) : (State.putOthers l s).cur = s.cur := by
  induction l generalizing s with
  | nil => rfl
  | cons c l ih => exact (ih _).trans (by split <;> rfl)
@[simp] theorem putOthers_intr (l : Burst) (s : State) : (State.putOthers l s).intr = s.intr := by
  induction l generalizing s with
  | nil => rfl
  | cons c l ih => exact (ih _).trans (by split <;> rfl)
@[simp] theorem putOthers_test (l : Burst) (s : State) : (State.putOthers l s).test = s.test := by
  induction l generalizing s with
  | nil => rfl
  | cons c l ih => exact (ih _).trans (by split <;> rfl)
@[simp] theorem putOthers_inputs (l : Burst) (s : State) : (State.putOthers l s).inputs = s.inputs := by
  induction l generalizing s with
  | nil => rfl
  | cons c l ih => exact (ih _).trans (by split <;> rfl)
@[simp] theorem putOthers_due (l : Burst) (s : State) : (State.putOthers l s).due = s.due := by
  induction l generalizing s with
  | nil => rfl
  | cons c l ih => exact (ih _).trans (by split <;> rfl)
@[simp] theorem putOthers_unmapped (l : Burst) (s : State) : (State.putOthers l s).unmapped = s.unmapped := by
  induction l generalizing s with
  | nil => rfl
  | cons c l ih => exact (ih _).trans (by split <;> rfl)
@[simp] theorem putOthers_rom (l : Burst) (s : State) : (State.putOthers l s).rom = s.rom := by
  induction l generalizing s with
  | nil => rfl
  | cons c l ih => exact (ih _).trans (by split <;> rfl)
@[simp] theorem putOthers_undriven (l : Burst) (s : State) : (State.putOthers l s).undriven = s.undriven := by
  induction l generalizing s with
  | nil => rfl
  | cons c l ih => exact (ih _).trans (by split <;> rfl)
@[simp] theorem putOthers_ioIn (l : Burst) (s : State) : (State.putOthers l s).ioIn = s.ioIn := by
  induction l generalizing s with
  | nil => rfl
  | cons c l ih => exact (ih _).trans (by split <;> rfl)
@[simp] theorem putOthers_ioOut (l : Burst) (s : State) : (State.putOthers l s).ioOut = s.ioOut := by
  induction l generalizing s with
  | nil => rfl
  | cons c l ih => exact (ih _).trans (by split <;> rfl)
@[simp] theorem putOthers_draws (l : Burst) (s : State) : (State.putOthers l s).draws = s.draws := by
  induction l generalizing s with
  | nil => rfl
  | cons c l ih => exact (ih _).trans (by split <;> rfl)

/-! ## busCycle -/

@[simp] theorem busCycle_regs (s : State) : (s.busCycle).regs = s.regs := by unfold State.busCycle; split <;> simp
@[simp] theorem busCycle_segs (s : State) : (s.busCycle).segs = s.segs := by unfold State.busCycle; split <;> simp
@[simp] theorem busCycle_ip (s : State) : (s.busCycle).ip = s.ip := by unfold State.busCycle; split <;> simp
@[simp] theorem busCycle_flags (s : State) : (s.busCycle).flags = s.flags := by unfold State.busCycle; split <;> simp
@[simp] theorem busCycle_inhibit (s : State) : (s.busCycle).inhibit = s.inhibit := by unfold State.busCycle; split <;> simp
@[simp] theorem busCycle_halted (s : State) : (s.busCycle).halted = s.halted := by unfold State.busCycle; split <;> simp
@[simp] theorem busCycle_nmiPending (s : State) : (s.busCycle).nmiPending = s.nmiPending := by unfold State.busCycle; split <;> simp
@[simp] theorem busCycle_inRepeat (s : State) : (s.busCycle).inRepeat = s.inRepeat := by unfold State.busCycle; split <;> simp
@[simp] theorem busCycle_lock (s : State) : (s.busCycle).lock = s.lock := by unfold State.busCycle; split <;> simp
@[simp] theorem busCycle_cur (s : State) : (s.busCycle).cur = s.cur := by unfold State.busCycle; split <;> simp
@[simp] theorem busCycle_intr (s : State) : (s.busCycle).intr = s.intr := by unfold State.busCycle; split <;> simp
@[simp] theorem busCycle_test (s : State) : (s.busCycle).test = s.test := by unfold State.busCycle; split <;> simp
@[simp] theorem busCycle_inputs (s : State) : (s.busCycle).inputs = s.inputs := by unfold State.busCycle; split <;> simp
@[simp] theorem busCycle_unmapped (s : State) : (s.busCycle).unmapped = s.unmapped := by unfold State.busCycle; split <;> simp
@[simp] theorem busCycle_rom (s : State) : (s.busCycle).rom = s.rom := by unfold State.busCycle; split <;> simp
@[simp] theorem busCycle_undriven (s : State) : (s.busCycle).undriven = s.undriven := by unfold State.busCycle; split <;> simp
@[simp] theorem busCycle_ioIn (s : State) : (s.busCycle).ioIn = s.ioIn := by unfold State.busCycle; split <;> simp
@[simp] theorem busCycle_ioOut (s : State) : (s.busCycle).ioOut = s.ioOut := by unfold State.busCycle; split <;> simp
@[simp] theorem busCycle_draws (s : State) : (s.busCycle).draws = s.draws := by unfold State.busCycle; split <;> simp

/-! ## highCycle -/

@[simp] theorem highCycle_regs (s : State) (a : PAddr) : (s.highCycle a).regs = s.regs := by unfold State.highCycle; split <;> simp
@[simp] theorem highCycle_segs (s : State) (a : PAddr) : (s.highCycle a).segs = s.segs := by unfold State.highCycle; split <;> simp
@[simp] theorem highCycle_ip (s : State) (a : PAddr) : (s.highCycle a).ip = s.ip := by unfold State.highCycle; split <;> simp
@[simp] theorem highCycle_flags (s : State) (a : PAddr) : (s.highCycle a).flags = s.flags := by unfold State.highCycle; split <;> simp
@[simp] theorem highCycle_inhibit (s : State) (a : PAddr) : (s.highCycle a).inhibit = s.inhibit := by unfold State.highCycle; split <;> simp
@[simp] theorem highCycle_halted (s : State) (a : PAddr) : (s.highCycle a).halted = s.halted := by unfold State.highCycle; split <;> simp
@[simp] theorem highCycle_nmiPending (s : State) (a : PAddr) : (s.highCycle a).nmiPending = s.nmiPending := by unfold State.highCycle; split <;> simp
@[simp] theorem highCycle_inRepeat (s : State) (a : PAddr) : (s.highCycle a).inRepeat = s.inRepeat := by unfold State.highCycle; split <;> simp
@[simp] theorem highCycle_lock (s : State) (a : PAddr) : (s.highCycle a).lock = s.lock := by unfold State.highCycle; split <;> simp
@[simp] theorem highCycle_cur (s : State) (a : PAddr) : (s.highCycle a).cur = s.cur := by unfold State.highCycle; split <;> simp
@[simp] theorem highCycle_intr (s : State) (a : PAddr) : (s.highCycle a).intr = s.intr := by unfold State.highCycle; split <;> simp
@[simp] theorem highCycle_test (s : State) (a : PAddr) : (s.highCycle a).test = s.test := by unfold State.highCycle; split <;> simp
@[simp] theorem highCycle_inputs (s : State) (a : PAddr) : (s.highCycle a).inputs = s.inputs := by unfold State.highCycle; split <;> simp
@[simp] theorem highCycle_unmapped (s : State) (a : PAddr) : (s.highCycle a).unmapped = s.unmapped := by unfold State.highCycle; split <;> simp
@[simp] theorem highCycle_rom (s : State) (a : PAddr) : (s.highCycle a).rom = s.rom := by unfold State.highCycle; split <;> simp
@[simp] theorem highCycle_undriven (s : State) (a : PAddr) : (s.highCycle a).undriven = s.undriven := by unfold State.highCycle; split <;> simp
@[simp] theorem highCycle_ioIn (s : State) (a : PAddr) : (s.highCycle a).ioIn = s.ioIn := by unfold State.highCycle; split <;> simp
@[simp] theorem highCycle_ioOut (s : State) (a : PAddr) : (s.highCycle a).ioOut = s.ioOut := by unfold State.highCycle; split <;> simp
@[simp] theorem highCycle_draws (s : State) (a : PAddr) : (s.highCycle a).draws = s.draws := by unfold State.highCycle; split <;> simp

/-! ## settle -/

@[simp] theorem settle_regs (s : State) : (s.settle).regs = s.regs := by simp [State.settle]
@[simp] theorem settle_segs (s : State) : (s.settle).segs = s.segs := by simp [State.settle]
@[simp] theorem settle_ip (s : State) : (s.settle).ip = s.ip := by simp [State.settle]
@[simp] theorem settle_flags (s : State) : (s.settle).flags = s.flags := by simp [State.settle]
@[simp] theorem settle_inhibit (s : State) : (s.settle).inhibit = s.inhibit := by simp [State.settle]
@[simp] theorem settle_halted (s : State) : (s.settle).halted = s.halted := by simp [State.settle]
@[simp] theorem settle_nmiPending (s : State) : (s.settle).nmiPending = s.nmiPending := by simp [State.settle]
@[simp] theorem settle_inRepeat (s : State) : (s.settle).inRepeat = s.inRepeat := by simp [State.settle]
@[simp] theorem settle_lock (s : State) : (s.settle).lock = s.lock := by simp [State.settle]
@[simp] theorem settle_cur (s : State) : (s.settle).cur = s.cur := by simp [State.settle]
@[simp] theorem settle_intr (s : State) : (s.settle).intr = s.intr := by simp [State.settle]
@[simp] theorem settle_test (s : State) : (s.settle).test = s.test := by simp [State.settle]
@[simp] theorem settle_inputs (s : State) : (s.settle).inputs = s.inputs := by simp [State.settle]
@[simp] theorem settle_unmapped (s : State) : (s.settle).unmapped = s.unmapped := by simp [State.settle]
@[simp] theorem settle_rom (s : State) : (s.settle).rom = s.rom := by simp [State.settle]
@[simp] theorem settle_undriven (s : State) : (s.settle).undriven = s.undriven := by simp [State.settle]
@[simp] theorem settle_ioIn (s : State) : (s.settle).ioIn = s.ioIn := by simp [State.settle]
@[simp] theorem settle_ioOut (s : State) : (s.settle).ioOut = s.ioOut := by simp [State.settle]
@[simp] theorem settle_draws (s : State) : (s.settle).draws = s.draws := by simp [State.settle]

/-! ## sample -/

@[simp] theorem sample_regs (s : State) : (s.sample).regs = s.regs := by unfold State.sample; split <;> simp
@[simp] theorem sample_segs (s : State) : (s.sample).segs = s.segs := by unfold State.sample; split <;> simp
@[simp] theorem sample_ip (s : State) : (s.sample).ip = s.ip := by unfold State.sample; split <;> simp
@[simp] theorem sample_flags (s : State) : (s.sample).flags = s.flags := by unfold State.sample; split <;> simp
@[simp] theorem sample_inhibit (s : State) : (s.sample).inhibit = s.inhibit := by unfold State.sample; split <;> simp
@[simp] theorem sample_halted (s : State) : (s.sample).halted = s.halted := by unfold State.sample; split <;> simp
@[simp] theorem sample_inRepeat (s : State) : (s.sample).inRepeat = s.inRepeat := by unfold State.sample; split <;> simp
@[simp] theorem sample_lock (s : State) : (s.sample).lock = s.lock := by unfold State.sample; split <;> simp
@[simp] theorem sample_cur (s : State) : (s.sample).cur = s.cur := by unfold State.sample; split <;> simp
@[simp] theorem sample_unmapped (s : State) : (s.sample).unmapped = s.unmapped := by unfold State.sample; split <;> simp
@[simp] theorem sample_rom (s : State) : (s.sample).rom = s.rom := by unfold State.sample; split <;> simp
@[simp] theorem sample_undriven (s : State) : (s.sample).undriven = s.undriven := by unfold State.sample; split <;> simp
@[simp] theorem sample_ioIn (s : State) : (s.sample).ioIn = s.ioIn := by unfold State.sample; split <;> simp
@[simp] theorem sample_ioOut (s : State) : (s.sample).ioOut = s.ioOut := by unfold State.sample; split <;> simp
@[simp] theorem sample_draws (s : State) : (s.sample).draws = s.draws := by unfold State.sample; split <;> simp

/-! ## undef -/

@[simp] theorem undef_regs (l : List StatusFlag) (s : State) : (State.undef l s).regs = s.regs := by
  induction l generalizing s with
  | nil => rfl
  | cons a l ih => exact ih _
@[simp] theorem undef_segs (l : List StatusFlag) (s : State) : (State.undef l s).segs = s.segs := by
  induction l generalizing s with
  | nil => rfl
  | cons a l ih => exact ih _
@[simp] theorem undef_ip (l : List StatusFlag) (s : State) : (State.undef l s).ip = s.ip := by
  induction l generalizing s with
  | nil => rfl
  | cons a l ih => exact ih _
@[simp] theorem undef_inhibit (l : List StatusFlag) (s : State) : (State.undef l s).inhibit = s.inhibit := by
  induction l generalizing s with
  | nil => rfl
  | cons a l ih => exact ih _
@[simp] theorem undef_halted (l : List StatusFlag) (s : State) : (State.undef l s).halted = s.halted := by
  induction l generalizing s with
  | nil => rfl
  | cons a l ih => exact ih _
@[simp] theorem undef_nmiPending (l : List StatusFlag) (s : State) : (State.undef l s).nmiPending = s.nmiPending := by
  induction l generalizing s with
  | nil => rfl
  | cons a l ih => exact ih _
@[simp] theorem undef_inRepeat (l : List StatusFlag) (s : State) : (State.undef l s).inRepeat = s.inRepeat := by
  induction l generalizing s with
  | nil => rfl
  | cons a l ih => exact ih _
@[simp] theorem undef_lock (l : List StatusFlag) (s : State) : (State.undef l s).lock = s.lock := by
  induction l generalizing s with
  | nil => rfl
  | cons a l ih => exact ih _
@[simp] theorem undef_queue (l : List StatusFlag) (s : State) : (State.undef l s).queue = s.queue := by
  induction l generalizing s with
  | nil => rfl
  | cons a l ih => exact ih _
@[simp] theorem undef_mem (l : List StatusFlag) (s : State) : (State.undef l s).mem = s.mem := by
  induction l generalizing s with
  | nil => rfl
  | cons a l ih => exact ih _
@[simp] theorem undef_cur (l : List StatusFlag) (s : State) : (State.undef l s).cur = s.cur := by
  induction l generalizing s with
  | nil => rfl
  | cons a l ih => exact ih _
@[simp] theorem undef_intr (l : List StatusFlag) (s : State) : (State.undef l s).intr = s.intr := by
  induction l generalizing s with
  | nil => rfl
  | cons a l ih => exact ih _
@[simp] theorem undef_test (l : List StatusFlag) (s : State) : (State.undef l s).test = s.test := by
  induction l generalizing s with
  | nil => rfl
  | cons a l ih => exact ih _
@[simp] theorem undef_inputs (l : List StatusFlag) (s : State) : (State.undef l s).inputs = s.inputs := by
  induction l generalizing s with
  | nil => rfl
  | cons a l ih => exact ih _
@[simp] theorem undef_due (l : List StatusFlag) (s : State) : (State.undef l s).due = s.due := by
  induction l generalizing s with
  | nil => rfl
  | cons a l ih => exact ih _
@[simp] theorem undef_unmapped (l : List StatusFlag) (s : State) : (State.undef l s).unmapped = s.unmapped := by
  induction l generalizing s with
  | nil => rfl
  | cons a l ih => exact ih _
@[simp] theorem undef_rom (l : List StatusFlag) (s : State) : (State.undef l s).rom = s.rom := by
  induction l generalizing s with
  | nil => rfl
  | cons a l ih => exact ih _
@[simp] theorem undef_undriven (l : List StatusFlag) (s : State) : (State.undef l s).undriven = s.undriven := by
  induction l generalizing s with
  | nil => rfl
  | cons a l ih => exact ih _
@[simp] theorem undef_ioIn (l : List StatusFlag) (s : State) : (State.undef l s).ioIn = s.ioIn := by
  induction l generalizing s with
  | nil => rfl
  | cons a l ih => exact ih _
@[simp] theorem undef_ioOut (l : List StatusFlag) (s : State) : (State.undef l s).ioOut = s.ioOut := by
  induction l generalizing s with
  | nil => rfl
  | cons a l ih => exact ih _

/-! ## setProduct -/

@[simp] theorem setProduct_segs (s : State) (w : Width) (p : Int) : (s.setProduct w p).segs = s.segs := by cases w <;> rfl
@[simp] theorem setProduct_ip (s : State) (w : Width) (p : Int) : (s.setProduct w p).ip = s.ip := by cases w <;> rfl
@[simp] theorem setProduct_flags (s : State) (w : Width) (p : Int) : (s.setProduct w p).flags = s.flags := by cases w <;> rfl
@[simp] theorem setProduct_inhibit (s : State) (w : Width) (p : Int) : (s.setProduct w p).inhibit = s.inhibit := by cases w <;> rfl
@[simp] theorem setProduct_halted (s : State) (w : Width) (p : Int) : (s.setProduct w p).halted = s.halted := by cases w <;> rfl
@[simp] theorem setProduct_nmiPending (s : State) (w : Width) (p : Int) : (s.setProduct w p).nmiPending = s.nmiPending := by cases w <;> rfl
@[simp] theorem setProduct_inRepeat (s : State) (w : Width) (p : Int) : (s.setProduct w p).inRepeat = s.inRepeat := by cases w <;> rfl
@[simp] theorem setProduct_lock (s : State) (w : Width) (p : Int) : (s.setProduct w p).lock = s.lock := by cases w <;> rfl
@[simp] theorem setProduct_queue (s : State) (w : Width) (p : Int) : (s.setProduct w p).queue = s.queue := by cases w <;> rfl
@[simp] theorem setProduct_mem (s : State) (w : Width) (p : Int) : (s.setProduct w p).mem = s.mem := by cases w <;> rfl
@[simp] theorem setProduct_cur (s : State) (w : Width) (p : Int) : (s.setProduct w p).cur = s.cur := by cases w <;> rfl
@[simp] theorem setProduct_intr (s : State) (w : Width) (p : Int) : (s.setProduct w p).intr = s.intr := by cases w <;> rfl
@[simp] theorem setProduct_test (s : State) (w : Width) (p : Int) : (s.setProduct w p).test = s.test := by cases w <;> rfl
@[simp] theorem setProduct_inputs (s : State) (w : Width) (p : Int) : (s.setProduct w p).inputs = s.inputs := by cases w <;> rfl
@[simp] theorem setProduct_due (s : State) (w : Width) (p : Int) : (s.setProduct w p).due = s.due := by cases w <;> rfl
@[simp] theorem setProduct_unmapped (s : State) (w : Width) (p : Int) : (s.setProduct w p).unmapped = s.unmapped := by cases w <;> rfl
@[simp] theorem setProduct_rom (s : State) (w : Width) (p : Int) : (s.setProduct w p).rom = s.rom := by cases w <;> rfl
@[simp] theorem setProduct_undriven (s : State) (w : Width) (p : Int) : (s.setProduct w p).undriven = s.undriven := by cases w <;> rfl
@[simp] theorem setProduct_ioIn (s : State) (w : Width) (p : Int) : (s.setProduct w p).ioIn = s.ioIn := by cases w <;> rfl
@[simp] theorem setProduct_ioOut (s : State) (w : Width) (p : Int) : (s.setProduct w p).ioOut = s.ioOut := by cases w <;> rfl
@[simp] theorem setProduct_draws (s : State) (w : Width) (p : Int) : (s.setProduct w p).draws = s.draws := by cases w <;> rfl

/-! ## setQuotient -/

@[simp] theorem setQuotient_segs (s : State) (w : Width) (q r : Int) : (s.setQuotient w q r).segs = s.segs := by cases w <;> rfl
@[simp] theorem setQuotient_ip (s : State) (w : Width) (q r : Int) : (s.setQuotient w q r).ip = s.ip := by cases w <;> rfl
@[simp] theorem setQuotient_flags (s : State) (w : Width) (q r : Int) : (s.setQuotient w q r).flags = s.flags := by cases w <;> rfl
@[simp] theorem setQuotient_inhibit (s : State) (w : Width) (q r : Int) : (s.setQuotient w q r).inhibit = s.inhibit := by cases w <;> rfl
@[simp] theorem setQuotient_halted (s : State) (w : Width) (q r : Int) : (s.setQuotient w q r).halted = s.halted := by cases w <;> rfl
@[simp] theorem setQuotient_nmiPending (s : State) (w : Width) (q r : Int) : (s.setQuotient w q r).nmiPending = s.nmiPending := by cases w <;> rfl
@[simp] theorem setQuotient_inRepeat (s : State) (w : Width) (q r : Int) : (s.setQuotient w q r).inRepeat = s.inRepeat := by cases w <;> rfl
@[simp] theorem setQuotient_lock (s : State) (w : Width) (q r : Int) : (s.setQuotient w q r).lock = s.lock := by cases w <;> rfl
@[simp] theorem setQuotient_queue (s : State) (w : Width) (q r : Int) : (s.setQuotient w q r).queue = s.queue := by cases w <;> rfl
@[simp] theorem setQuotient_mem (s : State) (w : Width) (q r : Int) : (s.setQuotient w q r).mem = s.mem := by cases w <;> rfl
@[simp] theorem setQuotient_cur (s : State) (w : Width) (q r : Int) : (s.setQuotient w q r).cur = s.cur := by cases w <;> rfl
@[simp] theorem setQuotient_intr (s : State) (w : Width) (q r : Int) : (s.setQuotient w q r).intr = s.intr := by cases w <;> rfl
@[simp] theorem setQuotient_test (s : State) (w : Width) (q r : Int) : (s.setQuotient w q r).test = s.test := by cases w <;> rfl
@[simp] theorem setQuotient_inputs (s : State) (w : Width) (q r : Int) : (s.setQuotient w q r).inputs = s.inputs := by cases w <;> rfl
@[simp] theorem setQuotient_due (s : State) (w : Width) (q r : Int) : (s.setQuotient w q r).due = s.due := by cases w <;> rfl
@[simp] theorem setQuotient_unmapped (s : State) (w : Width) (q r : Int) : (s.setQuotient w q r).unmapped = s.unmapped := by cases w <;> rfl
@[simp] theorem setQuotient_rom (s : State) (w : Width) (q r : Int) : (s.setQuotient w q r).rom = s.rom := by cases w <;> rfl
@[simp] theorem setQuotient_undriven (s : State) (w : Width) (q r : Int) : (s.setQuotient w q r).undriven = s.undriven := by cases w <;> rfl
@[simp] theorem setQuotient_ioIn (s : State) (w : Width) (q r : Int) : (s.setQuotient w q r).ioIn = s.ioIn := by cases w <;> rfl
@[simp] theorem setQuotient_ioOut (s : State) (w : Width) (q r : Int) : (s.setQuotient w q r).ioOut = s.ioOut := by cases w <;> rfl
@[simp] theorem setQuotient_draws (s : State) (w : Width) (q r : Int) : (s.setQuotient w q r).draws = s.draws := by cases w <;> rfl

/-! ## asciiDone -/

@[simp] theorem asciiDone_segs (s : State) (b : Bool) (h l : Byte) : (asciiDone b h l s).segs = s.segs := rfl
@[simp] theorem asciiDone_ip (s : State) (b : Bool) (h l : Byte) : (asciiDone b h l s).ip = s.ip := rfl
@[simp] theorem asciiDone_inhibit (s : State) (b : Bool) (h l : Byte) : (asciiDone b h l s).inhibit = s.inhibit := rfl
@[simp] theorem asciiDone_halted (s : State) (b : Bool) (h l : Byte) : (asciiDone b h l s).halted = s.halted := rfl
@[simp] theorem asciiDone_nmiPending (s : State) (b : Bool) (h l : Byte) : (asciiDone b h l s).nmiPending = s.nmiPending := rfl
@[simp] theorem asciiDone_inRepeat (s : State) (b : Bool) (h l : Byte) : (asciiDone b h l s).inRepeat = s.inRepeat := rfl
@[simp] theorem asciiDone_lock (s : State) (b : Bool) (h l : Byte) : (asciiDone b h l s).lock = s.lock := rfl
@[simp] theorem asciiDone_queue (s : State) (b : Bool) (h l : Byte) : (asciiDone b h l s).queue = s.queue := rfl
@[simp] theorem asciiDone_mem (s : State) (b : Bool) (h l : Byte) : (asciiDone b h l s).mem = s.mem := rfl
@[simp] theorem asciiDone_cur (s : State) (b : Bool) (h l : Byte) : (asciiDone b h l s).cur = s.cur := rfl
@[simp] theorem asciiDone_intr (s : State) (b : Bool) (h l : Byte) : (asciiDone b h l s).intr = s.intr := rfl
@[simp] theorem asciiDone_test (s : State) (b : Bool) (h l : Byte) : (asciiDone b h l s).test = s.test := rfl
@[simp] theorem asciiDone_inputs (s : State) (b : Bool) (h l : Byte) : (asciiDone b h l s).inputs = s.inputs := rfl
@[simp] theorem asciiDone_due (s : State) (b : Bool) (h l : Byte) : (asciiDone b h l s).due = s.due := rfl
@[simp] theorem asciiDone_unmapped (s : State) (b : Bool) (h l : Byte) : (asciiDone b h l s).unmapped = s.unmapped := rfl
@[simp] theorem asciiDone_rom (s : State) (b : Bool) (h l : Byte) : (asciiDone b h l s).rom = s.rom := rfl
@[simp] theorem asciiDone_undriven (s : State) (b : Bool) (h l : Byte) : (asciiDone b h l s).undriven = s.undriven := rfl
@[simp] theorem asciiDone_ioIn (s : State) (b : Bool) (h l : Byte) : (asciiDone b h l s).ioIn = s.ioIn := rfl
@[simp] theorem asciiDone_ioOut (s : State) (b : Bool) (h l : Byte) : (asciiDone b h l s).ioOut = s.ioOut := rfl

/-! ## decimalDone -/

@[simp] theorem decimalDone_segs (s : State) (x y : Bool) (a : Byte) : (decimalDone x y a s).segs = s.segs := rfl
@[simp] theorem decimalDone_ip (s : State) (x y : Bool) (a : Byte) : (decimalDone x y a s).ip = s.ip := rfl
@[simp] theorem decimalDone_inhibit (s : State) (x y : Bool) (a : Byte) : (decimalDone x y a s).inhibit = s.inhibit := rfl
@[simp] theorem decimalDone_halted (s : State) (x y : Bool) (a : Byte) : (decimalDone x y a s).halted = s.halted := rfl
@[simp] theorem decimalDone_nmiPending (s : State) (x y : Bool) (a : Byte) : (decimalDone x y a s).nmiPending = s.nmiPending := rfl
@[simp] theorem decimalDone_inRepeat (s : State) (x y : Bool) (a : Byte) : (decimalDone x y a s).inRepeat = s.inRepeat := rfl
@[simp] theorem decimalDone_lock (s : State) (x y : Bool) (a : Byte) : (decimalDone x y a s).lock = s.lock := rfl
@[simp] theorem decimalDone_queue (s : State) (x y : Bool) (a : Byte) : (decimalDone x y a s).queue = s.queue := rfl
@[simp] theorem decimalDone_mem (s : State) (x y : Bool) (a : Byte) : (decimalDone x y a s).mem = s.mem := rfl
@[simp] theorem decimalDone_cur (s : State) (x y : Bool) (a : Byte) : (decimalDone x y a s).cur = s.cur := rfl
@[simp] theorem decimalDone_intr (s : State) (x y : Bool) (a : Byte) : (decimalDone x y a s).intr = s.intr := rfl
@[simp] theorem decimalDone_test (s : State) (x y : Bool) (a : Byte) : (decimalDone x y a s).test = s.test := rfl
@[simp] theorem decimalDone_inputs (s : State) (x y : Bool) (a : Byte) : (decimalDone x y a s).inputs = s.inputs := rfl
@[simp] theorem decimalDone_due (s : State) (x y : Bool) (a : Byte) : (decimalDone x y a s).due = s.due := rfl
@[simp] theorem decimalDone_unmapped (s : State) (x y : Bool) (a : Byte) : (decimalDone x y a s).unmapped = s.unmapped := rfl
@[simp] theorem decimalDone_rom (s : State) (x y : Bool) (a : Byte) : (decimalDone x y a s).rom = s.rom := rfl
@[simp] theorem decimalDone_undriven (s : State) (x y : Bool) (a : Byte) : (decimalDone x y a s).undriven = s.undriven := rfl
@[simp] theorem decimalDone_ioIn (s : State) (x y : Bool) (a : Byte) : (decimalDone x y a s).ioIn = s.ioIn := rfl
@[simp] theorem decimalDone_ioOut (s : State) (x y : Bool) (a : Byte) : (decimalDone x y a s).ioOut = s.ioOut := rfl

/-! ## adjustFlags -/

@[simp] theorem adjustFlags_regs (s : State) (a : Byte) : (adjustFlags a s).regs = s.regs := rfl
@[simp] theorem adjustFlags_segs (s : State) (a : Byte) : (adjustFlags a s).segs = s.segs := rfl
@[simp] theorem adjustFlags_ip (s : State) (a : Byte) : (adjustFlags a s).ip = s.ip := rfl
@[simp] theorem adjustFlags_inhibit (s : State) (a : Byte) : (adjustFlags a s).inhibit = s.inhibit := rfl
@[simp] theorem adjustFlags_halted (s : State) (a : Byte) : (adjustFlags a s).halted = s.halted := rfl
@[simp] theorem adjustFlags_nmiPending (s : State) (a : Byte) : (adjustFlags a s).nmiPending = s.nmiPending := rfl
@[simp] theorem adjustFlags_inRepeat (s : State) (a : Byte) : (adjustFlags a s).inRepeat = s.inRepeat := rfl
@[simp] theorem adjustFlags_lock (s : State) (a : Byte) : (adjustFlags a s).lock = s.lock := rfl
@[simp] theorem adjustFlags_queue (s : State) (a : Byte) : (adjustFlags a s).queue = s.queue := rfl
@[simp] theorem adjustFlags_mem (s : State) (a : Byte) : (adjustFlags a s).mem = s.mem := rfl
@[simp] theorem adjustFlags_cur (s : State) (a : Byte) : (adjustFlags a s).cur = s.cur := rfl
@[simp] theorem adjustFlags_intr (s : State) (a : Byte) : (adjustFlags a s).intr = s.intr := rfl
@[simp] theorem adjustFlags_test (s : State) (a : Byte) : (adjustFlags a s).test = s.test := rfl
@[simp] theorem adjustFlags_inputs (s : State) (a : Byte) : (adjustFlags a s).inputs = s.inputs := rfl
@[simp] theorem adjustFlags_due (s : State) (a : Byte) : (adjustFlags a s).due = s.due := rfl
@[simp] theorem adjustFlags_unmapped (s : State) (a : Byte) : (adjustFlags a s).unmapped = s.unmapped := rfl
@[simp] theorem adjustFlags_rom (s : State) (a : Byte) : (adjustFlags a s).rom = s.rom := rfl
@[simp] theorem adjustFlags_undriven (s : State) (a : Byte) : (adjustFlags a s).undriven = s.undriven := rfl
@[simp] theorem adjustFlags_ioIn (s : State) (a : Byte) : (adjustFlags a s).ioIn = s.ioIn := rfl
@[simp] theorem adjustFlags_ioOut (s : State) (a : Byte) : (adjustFlags a s).ioOut = s.ioOut := rfl

/-! ## productFlags -/

@[simp] theorem productFlags_regs (s : State) (b : Bool) : (productFlags b s).regs = s.regs := rfl
@[simp] theorem productFlags_segs (s : State) (b : Bool) : (productFlags b s).segs = s.segs := rfl
@[simp] theorem productFlags_ip (s : State) (b : Bool) : (productFlags b s).ip = s.ip := rfl
@[simp] theorem productFlags_inhibit (s : State) (b : Bool) : (productFlags b s).inhibit = s.inhibit := rfl
@[simp] theorem productFlags_halted (s : State) (b : Bool) : (productFlags b s).halted = s.halted := rfl
@[simp] theorem productFlags_nmiPending (s : State) (b : Bool) : (productFlags b s).nmiPending = s.nmiPending := rfl
@[simp] theorem productFlags_inRepeat (s : State) (b : Bool) : (productFlags b s).inRepeat = s.inRepeat := rfl
@[simp] theorem productFlags_lock (s : State) (b : Bool) : (productFlags b s).lock = s.lock := rfl
@[simp] theorem productFlags_queue (s : State) (b : Bool) : (productFlags b s).queue = s.queue := rfl
@[simp] theorem productFlags_mem (s : State) (b : Bool) : (productFlags b s).mem = s.mem := rfl
@[simp] theorem productFlags_cur (s : State) (b : Bool) : (productFlags b s).cur = s.cur := rfl
@[simp] theorem productFlags_intr (s : State) (b : Bool) : (productFlags b s).intr = s.intr := rfl
@[simp] theorem productFlags_test (s : State) (b : Bool) : (productFlags b s).test = s.test := rfl
@[simp] theorem productFlags_inputs (s : State) (b : Bool) : (productFlags b s).inputs = s.inputs := rfl
@[simp] theorem productFlags_due (s : State) (b : Bool) : (productFlags b s).due = s.due := rfl
@[simp] theorem productFlags_unmapped (s : State) (b : Bool) : (productFlags b s).unmapped = s.unmapped := rfl
@[simp] theorem productFlags_rom (s : State) (b : Bool) : (productFlags b s).rom = s.rom := rfl
@[simp] theorem productFlags_undriven (s : State) (b : Bool) : (productFlags b s).undriven = s.undriven := rfl
@[simp] theorem productFlags_ioIn (s : State) (b : Bool) : (productFlags b s).ioIn = s.ioIn := rfl
@[simp] theorem productFlags_ioOut (s : State) (b : Bool) : (productFlags b s).ioOut = s.ioOut := rfl

/-! ## setFlags -/

@[simp] theorem setFlags_regs (s : State) (op : Shifter) (w : Width) (n : Nat) (x r : Word) (c : Bool) : (op.setFlags w n x r c s).regs = s.regs := by simp only [Shifter.setFlags, Shifter.setResult, Shifter.setOverflow]; split_ifs <;> rfl
@[simp] theorem setFlags_segs (s : State) (op : Shifter) (w : Width) (n : Nat) (x r : Word) (c : Bool) : (op.setFlags w n x r c s).segs = s.segs := by simp only [Shifter.setFlags, Shifter.setResult, Shifter.setOverflow]; split_ifs <;> rfl
@[simp] theorem setFlags_ip (s : State) (op : Shifter) (w : Width) (n : Nat) (x r : Word) (c : Bool) : (op.setFlags w n x r c s).ip = s.ip := by simp only [Shifter.setFlags, Shifter.setResult, Shifter.setOverflow]; split_ifs <;> rfl
@[simp] theorem setFlags_inhibit (s : State) (op : Shifter) (w : Width) (n : Nat) (x r : Word) (c : Bool) : (op.setFlags w n x r c s).inhibit = s.inhibit := by simp only [Shifter.setFlags, Shifter.setResult, Shifter.setOverflow]; split_ifs <;> rfl
@[simp] theorem setFlags_halted (s : State) (op : Shifter) (w : Width) (n : Nat) (x r : Word) (c : Bool) : (op.setFlags w n x r c s).halted = s.halted := by simp only [Shifter.setFlags, Shifter.setResult, Shifter.setOverflow]; split_ifs <;> rfl
@[simp] theorem setFlags_nmiPending (s : State) (op : Shifter) (w : Width) (n : Nat) (x r : Word) (c : Bool) : (op.setFlags w n x r c s).nmiPending = s.nmiPending := by simp only [Shifter.setFlags, Shifter.setResult, Shifter.setOverflow]; split_ifs <;> rfl
@[simp] theorem setFlags_inRepeat (s : State) (op : Shifter) (w : Width) (n : Nat) (x r : Word) (c : Bool) : (op.setFlags w n x r c s).inRepeat = s.inRepeat := by simp only [Shifter.setFlags, Shifter.setResult, Shifter.setOverflow]; split_ifs <;> rfl
@[simp] theorem setFlags_lock (s : State) (op : Shifter) (w : Width) (n : Nat) (x r : Word) (c : Bool) : (op.setFlags w n x r c s).lock = s.lock := by simp only [Shifter.setFlags, Shifter.setResult, Shifter.setOverflow]; split_ifs <;> rfl
@[simp] theorem setFlags_queue (s : State) (op : Shifter) (w : Width) (n : Nat) (x r : Word) (c : Bool) : (op.setFlags w n x r c s).queue = s.queue := by simp only [Shifter.setFlags, Shifter.setResult, Shifter.setOverflow]; split_ifs <;> rfl
@[simp] theorem setFlags_mem (s : State) (op : Shifter) (w : Width) (n : Nat) (x r : Word) (c : Bool) : (op.setFlags w n x r c s).mem = s.mem := by simp only [Shifter.setFlags, Shifter.setResult, Shifter.setOverflow]; split_ifs <;> rfl
@[simp] theorem setFlags_cur (s : State) (op : Shifter) (w : Width) (n : Nat) (x r : Word) (c : Bool) : (op.setFlags w n x r c s).cur = s.cur := by simp only [Shifter.setFlags, Shifter.setResult, Shifter.setOverflow]; split_ifs <;> rfl
@[simp] theorem setFlags_intr (s : State) (op : Shifter) (w : Width) (n : Nat) (x r : Word) (c : Bool) : (op.setFlags w n x r c s).intr = s.intr := by simp only [Shifter.setFlags, Shifter.setResult, Shifter.setOverflow]; split_ifs <;> rfl
@[simp] theorem setFlags_test (s : State) (op : Shifter) (w : Width) (n : Nat) (x r : Word) (c : Bool) : (op.setFlags w n x r c s).test = s.test := by simp only [Shifter.setFlags, Shifter.setResult, Shifter.setOverflow]; split_ifs <;> rfl
@[simp] theorem setFlags_inputs (s : State) (op : Shifter) (w : Width) (n : Nat) (x r : Word) (c : Bool) : (op.setFlags w n x r c s).inputs = s.inputs := by simp only [Shifter.setFlags, Shifter.setResult, Shifter.setOverflow]; split_ifs <;> rfl
@[simp] theorem setFlags_due (s : State) (op : Shifter) (w : Width) (n : Nat) (x r : Word) (c : Bool) : (op.setFlags w n x r c s).due = s.due := by simp only [Shifter.setFlags, Shifter.setResult, Shifter.setOverflow]; split_ifs <;> rfl
@[simp] theorem setFlags_unmapped (s : State) (op : Shifter) (w : Width) (n : Nat) (x r : Word) (c : Bool) : (op.setFlags w n x r c s).unmapped = s.unmapped := by simp only [Shifter.setFlags, Shifter.setResult, Shifter.setOverflow]; split_ifs <;> rfl
@[simp] theorem setFlags_rom (s : State) (op : Shifter) (w : Width) (n : Nat) (x r : Word) (c : Bool) : (op.setFlags w n x r c s).rom = s.rom := by simp only [Shifter.setFlags, Shifter.setResult, Shifter.setOverflow]; split_ifs <;> rfl
@[simp] theorem setFlags_undriven (s : State) (op : Shifter) (w : Width) (n : Nat) (x r : Word) (c : Bool) : (op.setFlags w n x r c s).undriven = s.undriven := by simp only [Shifter.setFlags, Shifter.setResult, Shifter.setOverflow]; split_ifs <;> rfl
@[simp] theorem setFlags_ioIn (s : State) (op : Shifter) (w : Width) (n : Nat) (x r : Word) (c : Bool) : (op.setFlags w n x r c s).ioIn = s.ioIn := by simp only [Shifter.setFlags, Shifter.setResult, Shifter.setOverflow]; split_ifs <;> rfl
@[simp] theorem setFlags_ioOut (s : State) (op : Shifter) (w : Width) (n : Nat) (x r : Word) (c : Bool) : (op.setFlags w n x r c s).ioOut = s.ioOut := by simp only [Shifter.setFlags, Shifter.setResult, Shifter.setOverflow]; split_ifs <;> rfl

/-! ## endIteration -/

@[simp] theorem endIteration_segs (s : State) (b : Bool) : (endIteration b s).segs = s.segs := by unfold endIteration; dsimp only; split <;> rfl
@[simp] theorem endIteration_flags (s : State) (b : Bool) : (endIteration b s).flags = s.flags := by unfold endIteration; dsimp only; split <;> rfl
@[simp] theorem endIteration_inhibit (s : State) (b : Bool) : (endIteration b s).inhibit = s.inhibit := by unfold endIteration; dsimp only; split <;> rfl
@[simp] theorem endIteration_halted (s : State) (b : Bool) : (endIteration b s).halted = s.halted := by unfold endIteration; dsimp only; split <;> rfl
@[simp] theorem endIteration_nmiPending (s : State) (b : Bool) : (endIteration b s).nmiPending = s.nmiPending := by unfold endIteration; dsimp only; split <;> rfl
@[simp] theorem endIteration_lock (s : State) (b : Bool) : (endIteration b s).lock = s.lock := by unfold endIteration; dsimp only; split <;> rfl
@[simp] theorem endIteration_queue (s : State) (b : Bool) : (endIteration b s).queue = s.queue := by unfold endIteration; dsimp only; split <;> rfl
@[simp] theorem endIteration_mem (s : State) (b : Bool) : (endIteration b s).mem = s.mem := by unfold endIteration; dsimp only; split <;> rfl
@[simp] theorem endIteration_cur (s : State) (b : Bool) : (endIteration b s).cur = s.cur := by unfold endIteration; dsimp only; split <;> rfl
@[simp] theorem endIteration_intr (s : State) (b : Bool) : (endIteration b s).intr = s.intr := by unfold endIteration; dsimp only; split <;> rfl
@[simp] theorem endIteration_test (s : State) (b : Bool) : (endIteration b s).test = s.test := by unfold endIteration; dsimp only; split <;> rfl
@[simp] theorem endIteration_inputs (s : State) (b : Bool) : (endIteration b s).inputs = s.inputs := by unfold endIteration; dsimp only; split <;> rfl
@[simp] theorem endIteration_due (s : State) (b : Bool) : (endIteration b s).due = s.due := by unfold endIteration; dsimp only; split <;> rfl
@[simp] theorem endIteration_unmapped (s : State) (b : Bool) : (endIteration b s).unmapped = s.unmapped := by unfold endIteration; dsimp only; split <;> rfl
@[simp] theorem endIteration_rom (s : State) (b : Bool) : (endIteration b s).rom = s.rom := by unfold endIteration; dsimp only; split <;> rfl
@[simp] theorem endIteration_undriven (s : State) (b : Bool) : (endIteration b s).undriven = s.undriven := by unfold endIteration; dsimp only; split <;> rfl
@[simp] theorem endIteration_ioIn (s : State) (b : Bool) : (endIteration b s).ioIn = s.ioIn := by unfold endIteration; dsimp only; split <;> rfl
@[simp] theorem endIteration_ioOut (s : State) (b : Bool) : (endIteration b s).ioOut = s.ioOut := by unfold endIteration; dsimp only; split <;> rfl
@[simp] theorem endIteration_draws (s : State) (b : Bool) : (endIteration b s).draws = s.draws := by unfold endIteration; dsimp only; split <;> rfl

/-! ## withCode -/

@[simp] theorem withCode_regs (s : State) (l : List Byte) : (s.withCode l).regs = s.regs := rfl
@[simp] theorem withCode_segs (s : State) (l : List Byte) : (s.withCode l).segs = s.segs := rfl
@[simp] theorem withCode_ip (s : State) (l : List Byte) : (s.withCode l).ip = s.ip := rfl
@[simp] theorem withCode_flags (s : State) (l : List Byte) : (s.withCode l).flags = s.flags := rfl
@[simp] theorem withCode_inhibit (s : State) (l : List Byte) : (s.withCode l).inhibit = s.inhibit := rfl
@[simp] theorem withCode_nmiPending (s : State) (l : List Byte) : (s.withCode l).nmiPending = s.nmiPending := rfl
@[simp] theorem withCode_inRepeat (s : State) (l : List Byte) : (s.withCode l).inRepeat = s.inRepeat := rfl
@[simp] theorem withCode_lock (s : State) (l : List Byte) : (s.withCode l).lock = s.lock := rfl
@[simp] theorem withCode_cur (s : State) (l : List Byte) : (s.withCode l).cur = s.cur := rfl
@[simp] theorem withCode_intr (s : State) (l : List Byte) : (s.withCode l).intr = s.intr := rfl
@[simp] theorem withCode_test (s : State) (l : List Byte) : (s.withCode l).test = s.test := rfl
@[simp] theorem withCode_due (s : State) (l : List Byte) : (s.withCode l).due = s.due := rfl
@[simp] theorem withCode_rom (s : State) (l : List Byte) : (s.withCode l).rom = s.rom := rfl
@[simp] theorem withCode_undriven (s : State) (l : List Byte) : (s.withCode l).undriven = s.undriven := rfl
@[simp] theorem withCode_ioIn (s : State) (l : List Byte) : (s.withCode l).ioIn = s.ioIn := rfl
@[simp] theorem withCode_ioOut (s : State) (l : List Byte) : (s.withCode l).ioOut = s.ioOut := rfl
@[simp] theorem withCode_draws (s : State) (l : List Byte) : (s.withCode l).draws = s.draws := rfl

/-! ## What the updates write -/

@[simp] theorem setReg_word_regs (s : State) (c : RegCode) (v : Word) : (s.setReg .word c v).regs = s.regs.set c v := rfl
@[simp] theorem setReg_byte_regs (s : State) (c : RegCode) (v : Word) :
    (s.setReg .byte c v).regs = s.regs.setByte c (lowByte v) := rfl
@[simp] theorem setSeg_segs (s : State) (c : SegReg) (v : Word) : (s.setSeg c v).segs = s.segs.set c v := rfl
@[simp] theorem jump_ip (s : State) (v : Word) : (s.jump v).ip = v := rfl
@[simp] theorem jump_queue (s : State) (v : Word) : (s.jump v).queue = [] := rfl
@[simp] theorem jumpFar_ip (s : State) (g v : Word) : (s.jumpFar g v).ip = v := rfl
@[simp] theorem jumpFar_queue (s : State) (g v : Word) : (s.jumpFar g v).queue = [] := rfl
@[simp] theorem jumpFar_segs (s : State) (g v : Word) : (s.jumpFar g v).segs = { s.segs with cs := g } := rfl
@[simp] theorem start_ip (s : State) (n : Nat) : (s.start n).ip = s.ip + BitVec.ofNat 16 n := rfl
@[simp] theorem start_cur (s : State) (n : Nat) : (s.start n).cur = ⟨s.ip, 0, none, none⟩ := rfl
@[simp] theorem start_inRepeat (s : State) (n : Nat) : (s.start n).inRepeat = false := rfl
@[simp] theorem start_queue (s : State) (n : Nat) : (s.start n).queue = s.window n := rfl
@[simp] theorem finish_cur (s : State) : s.finish.cur = Current.idle := rfl
@[simp] theorem finish_lock (s : State) : s.finish.lock = false := rfl
@[simp] theorem put_mem (s : State) (a : PAddr) (v : Byte) : (s.put a v).mem = s.mem.write a.toNat v := rfl
@[simp] theorem put_queue (s : State) (a : PAddr) (v : Byte) : (s.put a v).queue = markStored [a] s.queue := rfl
@[simp] theorem settle_due (s : State) : s.settle.due = [] := by simp [State.settle]
@[simp] theorem markStored_length (as : List PAddr) (q : List Queued) : (markStored as q).length = q.length := by
  simp [markStored]
@[simp] theorem markStored_nil (as : List PAddr) : markStored as [] = [] := rfl
@[simp] theorem markStored_none (q : List Queued) : markStored [] q = q := by simp [markStored]
@[simp] theorem undef_nil (s : State) : State.undef [] s = s := rfl

/-! ## Registers -/

@[simp] theorem get_set_same (g : Regs) (c : RegCode) (v : Word) : (g.set c v).get c = v := by cases c <;> rfl

theorem get_set_other (g : Regs) {c d : RegCode} (v : Word) (h : d ≠ c) : (g.set c v).get d = g.get d := by
  cases c <;> cases d <;> first | rfl | exact absurd rfl h

@[simp] theorem segs_get_set_same (g : Segs) (c : SegReg) (v : Word) : (g.set c v).get c = v := by cases c <;> rfl

theorem segs_get_set_other (g : Segs) {c d : SegReg} (v : Word) (h : d ≠ c) : (g.set c v).get d = g.get d := by
  cases c <;> cases d <;> first | rfl | exact absurd rfl h

/-! ## Halves of a word -/

theorem wordOf_toNat (h l : Byte) : (wordOf h l).toNat = 256 * h.toNat + l.toNat := by
  have e : (wordOf h l).toNat = h.toNat <<< 8 ||| l.toNat := BitVec.toNat_append h l
  rw [e, ← Nat.shiftLeft_add_eq_or_of_lt l.isLt, Nat.shiftLeft_eq]; omega

@[simp] theorem lowByte_wordOf (h l : Byte) : lowByte (wordOf h l) = l := by
  apply BitVec.eq_of_toNat_eq
  rw [lowByte, BitVec.toNat_setWidth, wordOf_toNat]; omega

@[simp] theorem highByte_wordOf (h l : Byte) : highByte (wordOf h l) = h := by
  apply BitVec.eq_of_toNat_eq
  rw [highByte, BitVec.toNat_setWidth, BitVec.toNat_ushiftRight, wordOf_toNat, Nat.shiftRight_eq_div_pow]; omega

@[simp] theorem wordOf_halves (v : Word) : wordOf (highByte v) (lowByte v) = v := by
  apply BitVec.eq_of_toNat_eq
  rw [wordOf_toNat, highByte, lowByte, BitVec.toNat_setWidth, BitVec.toNat_setWidth, BitVec.toNat_ushiftRight,
    Nat.shiftRight_eq_div_pow]; omega

end Sys2Proof.Machine
end

