-- ==== Sys2Proof/Laws/Memory.lean ====
section
/-! SUPPORT. Memory: what a read gives after a write, and that writes keep the canonical form. -/

namespace Sys2Proof.Machine

@[simp] theorem unlisted_eq : Memory.unlisted = 0#8 := rfl

theorem read_cons_same (a : Nat) (v : Byte) (m : Memory) (h : Memory.read m a = Memory.unlisted) :
    Memory.read (Memory.cons a v m) a = v := by
  unfold Memory.cons
  split
  · simp_all
  · simp [Memory.read]

theorem read_cons_other {a b : Nat} (v : Byte) (m : Memory) (h : b ≠ a) :
    Memory.read (Memory.cons a v m) b = Memory.read m b := by
  unfold Memory.cons
  split
  · rfl
  · simp [Memory.read, Ne.symm h]

/-- Below the first listed address nothing is listed. -/
theorem read_of_above {m : Memory} : ∀ {lo a : Nat}, m.above lo = true → m.wf = true → a ≤ lo → m.read a = Memory.unlisted := by
  induction m with
  | nil => intros; rfl
  | cons c m ih =>
    obtain ⟨k, b⟩ := c
    intro lo a ha hw hle
    simp only [Memory.above, decide_eq_true_eq] at ha
    simp only [Memory.wf, Bool.and_eq_true, decide_eq_true_eq] at hw
    have : k ≠ a := by omega
    simp only [Memory.read, if_neg this]
    exact ih hw.1.2 hw.2 (by omega)

theorem above_mono {m : Memory} {lo lo' : Nat} (h : m.above lo = true) (hle : lo' ≤ lo) : m.above lo' = true := by
  cases m with
  | nil => rfl
  | cons c m => simp only [Memory.above, decide_eq_true_eq] at h ⊢; omega

/-- A written byte is read back. -/
theorem read_write_same {m : Memory} (hw : m.wf = true) (a : Nat) (v : Byte) : (m.write a v).read a = v := by
  induction m with
  | nil => exact read_cons_same a v [] rfl
  | cons c m ih =>
    obtain ⟨k, b⟩ := c
    have hc := hw
    simp only [Memory.wf, Bool.and_eq_true, decide_eq_true_eq] at hw
    unfold Memory.write
    split
    · next h => exact read_cons_same a v _ (read_of_above (lo := a) (by simpa [Memory.above] using h) hc le_rfl)
    · split
      · next h => subst h; exact read_cons_same a v m (read_of_above hw.1.2 hw.2 le_rfl)
      · next h => simp only [Memory.read, if_neg (Ne.symm h)]; exact ih hw.2

/-- A write leaves every other byte alone. -/
theorem read_write_other (m : Memory) {a b : Nat} (v : Byte) (h : b ≠ a) : (m.write a v).read b = m.read b := by
  induction m with
  | nil => exact read_cons_other v [] h
  | cons c m ih =>
    obtain ⟨k, x⟩ := c
    unfold Memory.write
    split
    · exact read_cons_other v _ h
    · split
      · next e => subst e; rw [read_cons_other v m h]; simp [Memory.read, Ne.symm h]
      · simp only [Memory.read, ih]

theorem wf_cons {a : Nat} {v : Byte} {m : Memory} (hw : m.wf = true) (ha : a < 2 ^ 20) (h : m.above a = true) :
    (Memory.cons a v m).wf = true := by
  unfold Memory.cons
  split
  · exact hw
  · simp_all [Memory.wf]

theorem above_cons {a lo : Nat} {v : Byte} {m : Memory} (hlo : lo < a) (h : m.above lo = true) :
    (Memory.cons a v m).above lo = true := by
  unfold Memory.cons
  split
  · exact h
  · simpa [Memory.above] using hlo

theorem above_write {m : Memory} {a lo : Nat} {v : Byte} (hlo : lo < a) (h : m.above lo = true) (hw : m.wf = true) :
    (m.write a v).above lo = true := by
  cases m with
  | nil => exact above_cons hlo h
  | cons c m =>
    obtain ⟨k, b⟩ := c
    simp only [Memory.wf, Bool.and_eq_true, decide_eq_true_eq] at hw
    unfold Memory.write
    split
    · exact above_cons hlo h
    · split
      · next e => subst e; exact above_cons hlo (above_mono hw.1.2 (by omega))
      · exact h

/-- A write keeps the canonical form. -/
theorem wf_write {m : Memory} (hw : m.wf = true) {a : Nat} (ha : a < 2 ^ 20) (v : Byte) : (m.write a v).wf = true := by
  induction m with
  | nil => exact wf_cons rfl ha rfl
  | cons c m ih =>
    obtain ⟨k, b⟩ := c
    have hc := hw
    simp only [Memory.wf, Bool.and_eq_true, decide_eq_true_eq] at hw
    unfold Memory.write
    split
    · next h => exact wf_cons hc ha (by simpa [Memory.above] using h)
    · split
      · next e => subst e; exact wf_cons hw.2 ha hw.1.2
      · simp only [Memory.wf, Bool.and_eq_true, decide_eq_true_eq]
        exact ⟨⟨hw.1.1, above_write (by omega) hw.1.2 hw.2⟩, ih hw.2⟩

/-- Memory after reset has the canonical form. -/
theorem reset_wf : State.reset.mem.wf = true := rfl

end Sys2Proof.Machine
end

