-- ==== Sys2Proof/Laws/Access.lean ====
section
/-! SUPPORT. One lemma for each shared operation that reads or writes: when it answers, and what it then answers. -/

namespace Sys2Proof.Machine

/-! ## Sequencing -/

@[simp] theorem andThen_next {α β : Type} (a : α) (f : α → Out β) : andThen (.next a) f = f a := rfl
@[simp] theorem andThen_fault {α β : Type} (r : Fault) (f : α → Out β) : andThen (.fault r) f = .fault r := rfl
@[simp] theorem andThen_refused {α β : Type} (r : Refusal) (f : α → Out β) : andThen (.refused r) f = .refused r := rfl

/-- A sequence answers when both parts do. -/
theorem andThen_eq_next {α β : Type} {o : Out α} {f : α → Out β} {b : β} :
    andThen o f = .next b ↔ ∃ a, o = .next a ∧ f a = .next b := by
  cases o <;> simp [andThen]

/-! ## Stored bytes -/

theorem storedAt_append (bs cs : List (PAddr × Byte)) (a : PAddr) :
    storedAt (bs ++ cs) a = (storedAt cs a).or (storedAt bs a) := by
  induction bs with
  | nil => simp [storedAt]
  | cons c bs ih => simp [storedAt, ih, Option.or_assoc]

/-- Marks add up. -/
theorem markStored_append (as bs : List PAddr) (q : List Queued) :
    markStored bs (markStored as q) = markStored (as ++ bs) q := by
  simp [markStored, Function.comp_def, Bool.or_assoc]

theorem Stores.nil (s : State) : Stores [] s s := ⟨by simp, fun _ => rfl⟩

/-- Stores add up. -/
theorem Stores.trans {bs cs : List (PAddr × Byte)} {s t u : State} (h : Stores bs s t) (k : Stores cs t u) :
    Stores (bs ++ cs) s u := by
  refine ⟨?_, fun a => ?_⟩
  · rw [k.1, h.1]; simp [markStored_append]
  · rw [k.2 a, h.2 a, storedAt_append]
    cases storedAt cs a <;> rfl

/-- `t` is `s` but for memory, the marks in the queue and the bursts that are due: what accesses to memory can change. -/
def OnlyMemory (s t : State) : Prop := t = { s with mem := t.mem, queue := t.queue, due := t.due }

theorem OnlyMemory.refl (s : State) : OnlyMemory s s := rfl

theorem OnlyMemory.trans {s t u : State} (h : OnlyMemory s t) (k : OnlyMemory t u) : OnlyMemory s u := by
  unfold OnlyMemory at *; rw [k, h]

/-- A store leaves every field but memory and the queue alone. -/
theorem Stores.same {bs : List (PAddr × Byte)} {s t : State} (h : Stores bs s t) :
    t = { s with mem := t.mem, queue := t.queue } := by rw [h.1]

theorem Stores.only {bs : List (PAddr × Byte)} {s t : State} (h : Stores bs s t) : OnlyMemory s t := by
  unfold OnlyMemory; rw [h.1]

/-! ## Bus cycles -/

theorem put_only (s : State) (a : PAddr) (v : Byte) : OnlyMemory s (s.put a v) := rfl

theorem putOthers_only (l : Burst) (s : State) : OnlyMemory s (State.putOthers l s) := by
  induction l generalizing s with
  | nil => exact .refl s
  | cons c l ih => exact OnlyMemory.trans (by split; exacts [.refl s, put_only ..]) (ih _)

theorem busCycle_only (s : State) : OnlyMemory s s.busCycle := by
  unfold State.busCycle
  split
  · exact (show OnlyMemory s { s with due := _ } from rfl).trans (putOthers_only ..)
  · exact .refl s

theorem highCycle_only (s : State) (a : PAddr) : OnlyMemory s (s.highCycle a) := by
  unfold State.highCycle; split; exacts [.refl s, busCycle_only s]

theorem settle_only (s : State) : OnlyMemory s s.settle :=
  (show OnlyMemory s { s with due := [] } from rfl).trans (putOthers_only ..)

/-- With no burst due, or under LOCK, a bus cycle changes nothing. -/
theorem busCycle_of_alone {s : State} (h : s.alone = true) : s.busCycle = s := by
  unfold State.busCycle
  unfold State.alone at h
  split <;> simp_all

theorem highCycle_of_alone {s : State} (a : PAddr) (h : s.alone = true) : s.highCycle a = s := by
  unfold State.highCycle; rw [busCycle_of_alone h, ite_self]

/-- With no burst due nothing is left to land. -/
theorem settle_of_due {s : State} (h : s.due = []) : s.settle = s := by
  unfold State.settle
  rw [h]
  show ({ s with due := [] } : State) = s
  rw [← h]

/-! ## Bytes -/

theorem memRead_of {a : PAddr} {s : State} (h : canReadByte a s = true) : memRead a s = .next (s.byteAt a) := by
  simp_all [canReadByte, memRead]

/-- A byte read answers exactly when the map admits it, and answers the byte. -/
theorem memRead_eq_next {a : PAddr} {s : State} {b : Byte} :
    memRead a s = .next b ↔ canReadByte a s = true ∧ b = s.byteAt a := by
  unfold memRead canReadByte
  cases inSpans s.unmapped a.toNat <;> simp [eq_comm]

/-- A byte write answers exactly when the map admits it, and puts the byte. -/
theorem memWrite_eq_next {a : PAddr} {v : Byte} {s t : State} :
    memWrite a v s = .next t ↔ canWriteByte a s = true ∧ t = s.put a v := by
  unfold memWrite canWriteByte
  cases inSpans s.unmapped a.toNat <;> cases inSpans s.rom a.toNat <;> simp [eq_comm]

theorem stores_put {s : State} (hw : s.mem.wf = true) (a : PAddr) (v : Byte) : Stores [(a, v)] s (s.put a v) := by
  refine ⟨rfl, fun b => ?_⟩
  by_cases h : a = b
  · subst h; simp [State.byteAt, storedAt, read_write_same hw]
  · have : b.toNat ≠ a.toNat := fun e => h (BitVec.eq_of_toNat_eq e.symm)
    simp [State.byteAt, storedAt, h, read_write_other _ _ this]

/-- Other masters' writes store what the map admits, and memory stays in canonical form. -/
theorem putOthers_stores (l : Burst) {s : State} (hw : s.mem.wf = true) :
    Stores (l.filter fun c => canWriteByte c.1 s) s (State.putOthers l s) ∧ (State.putOthers l s).mem.wf = true := by
  induction l generalizing s with
  | nil => exact ⟨Stores.nil s, hw⟩
  | cons c l ih =>
    unfold State.putOthers
    have e : (inSpans s.unmapped c.1.toNat || inSpans s.rom c.1.toNat) = !canWriteByte c.1 s := by
      simp [canWriteByte]
    rw [e, List.filter_cons]
    cases canWriteByte c.1 s
    · exact ih hw
    · have := ih (s := s.put c.1 c.2) (wf_write hw (by omega) _)
      exact ⟨(stores_put hw c.1 c.2).trans this.1, this.2⟩

/-- Whether the map admits an access depends on the map only. -/
theorem canReadByte_of_only {s t : State} (h : OnlyMemory s t) (a : PAddr) : canReadByte a t = canReadByte a s := by
  rw [h]; rfl

theorem canWriteByte_of_only {s t : State} (h : OnlyMemory s t) (a : PAddr) : canWriteByte a t = canWriteByte a s := by
  rw [h]; rfl

theorem admitsWrite_of_only {s t : State} (h : OnlyMemory s t) (w : Width) (seg off : Word) :
    admitsWrite w seg off t = admitsWrite w seg off s := by
  rw [h]; rfl

/-! ## Operands in memory -/

/-- A segment value is a multiple of 16: an address is even when its offset is. -/
theorem phys_even (seg off : Word) : (phys seg off).getLsbD 0 = off.getLsbD 0 := by
  simp [phys, BitVec.getLsbD]; omega

@[simp] theorem admitsRead_byte (seg off : Word) (s : State) :
    admitsRead .byte seg off s = canReadByte (phys seg off) s := by simp [admitsRead, cellsOf]
@[simp] theorem admitsRead_word (seg off : Word) (s : State) :
    admitsRead .word seg off s = (canReadByte (phys seg off) s && canReadByte (phys seg (off + 1)) s) := by
  simp [admitsRead, cellsOf]
@[simp] theorem admitsWrite_byte (seg off : Word) (s : State) :
    admitsWrite .byte seg off s = canWriteByte (phys seg off) s := by simp [admitsWrite, cellsOf]
@[simp] theorem admitsWrite_word (seg off : Word) (s : State) :
    admitsWrite .word seg off s = (canWriteByte (phys seg off) s && canWriteByte (phys seg (off + 1)) s) := by
  simp [admitsWrite, cellsOf]

theorem canRead_iff {w : Width} {seg off : Word} {s : State} :
    canRead w seg off s = true ↔ s.alone = true ∧ admitsRead w seg off s = true := Bool.and_eq_true _ _ ▸ Iff.rfl

theorem canWrite_iff {w : Width} {seg off : Word} {s : State} :
    canWrite w seg off s = true ↔ s.alone = true ∧ admitsWrite w seg off s = true := Bool.and_eq_true _ _ ▸ Iff.rfl

/-- Two bytes read as a word, when they are: the map admits both, and only other masters' writes changed anything. -/
theorem readPair_next {lo hi : PAddr} {s : State} {p : Word × State} (h : readPair lo hi s = .next p) :
    (canReadByte lo s = true ∧ canReadByte hi s = true) ∧ OnlyMemory s p.2 := by
  obtain ⟨l, h1, h⟩ := andThen_eq_next.1 h
  obtain ⟨b, h2, h⟩ := andThen_eq_next.1 h
  injection h with h
  have o1 := busCycle_only s
  have o2 := o1.trans (highCycle_only s.busCycle lo)
  rw [memRead_eq_next] at h1 h2
  exact ⟨⟨canReadByte_of_only o1 lo ▸ h1.1, canReadByte_of_only o2 hi ▸ h2.1⟩, h ▸ o2⟩

theorem readPair_eq_next {lo hi : PAddr} {s : State} (h : s.alone = true) {p : Word × State} :
    readPair lo hi s = .next p ↔
      (canReadByte lo s = true ∧ canReadByte hi s = true) ∧ p = (wordOf (s.byteAt hi) (s.byteAt lo), s) := by
  simp only [readPair, busCycle_of_alone h, highCycle_of_alone lo h, andThen_eq_next, memRead_eq_next]
  constructor
  · rintro ⟨_, ⟨h1, rfl⟩, _, ⟨h2, rfl⟩, e⟩; injection e with e; exact ⟨⟨h1, h2⟩, e.symm⟩
  · rintro ⟨⟨h1, h2⟩, rfl⟩; exact ⟨_, ⟨h1, rfl⟩, _, ⟨h2, rfl⟩, rfl⟩

/-- A read through a segment, when it answers: the map admits it, and only other masters' writes changed anything. -/
theorem readMem_next {w : Width} {seg off : Word} {s : State} {p : Word × State} (h : readMem w seg off s = .next p) :
    admitsRead w seg off s = true ∧ OnlyMemory s p.2 := by
  cases w with
  | byte =>
    obtain ⟨b, h1, h⟩ := andThen_eq_next.1 h
    injection h with h
    rw [memRead_eq_next] at h1
    exact ⟨by rw [admitsRead_byte]; exact canReadByte_of_only (busCycle_only s) _ ▸ h1.1, h ▸ busCycle_only s⟩
  | word =>
    obtain ⟨⟨h1, h2⟩, h3⟩ := readPair_next h
    exact ⟨by rw [admitsRead_word, h1, h2]; rfl, h3⟩

/-- An undisturbed read through a segment answers exactly when the map admits it, and answers what memory holds. -/
theorem readMem_eq_next {w : Width} {seg off : Word} {s : State} (h : s.alone = true) {p : Word × State} :
    readMem w seg off s = .next p ↔ canRead w seg off s = true ∧ p = (s.load w seg off, s) := by
  rw [canRead_iff]
  cases w with
  | byte =>
    simp only [readMem, busCycle_of_alone h, andThen_eq_next, memRead_eq_next, admitsRead_byte, State.load, h, true_and]
    constructor
    · rintro ⟨b, ⟨k, rfl⟩, e⟩; injection e with e; exact ⟨k, e.symm⟩
    · rintro ⟨k, rfl⟩; exact ⟨_, ⟨k, rfl⟩, rfl⟩
  | word => simp only [readMem, readPair_eq_next h, admitsRead_word, Bool.and_eq_true, State.load, h, true_and]

theorem readMem_of {w : Width} {seg off : Word} {s : State} (h : canRead w seg off s = true) :
    readMem w seg off s = .next (s.load w seg off, s) := (readMem_eq_next (canRead_iff.1 h).1).2 ⟨h, rfl⟩

/-- A write through a segment, when it answers: the map admits it, and only memory changed; undisturbed, the bytes are
stored and nothing else, and memory stays in canonical form. -/
theorem writeMem_next {w : Width} {seg off v : Word} {s t : State} (h : writeMem w seg off v s = .next t) :
    admitsWrite w seg off s = true ∧ OnlyMemory s t ∧
      (s.alone = true → s.mem.wf = true → Stores (cells w seg off v) s t ∧ t.mem.wf = true) := by
  cases w with
  | byte =>
    obtain ⟨k, rfl⟩ := memWrite_eq_next.1 h
    refine ⟨?_, (busCycle_only s).trans (put_only ..), fun ha hw => ?_⟩
    · rw [admitsWrite_byte]; exact canWriteByte_of_only (busCycle_only s) _ ▸ k
    · rw [busCycle_of_alone ha]; exact ⟨stores_put hw _ _, wf_write hw (by omega) _⟩
  | word =>
    obtain ⟨u, h1, h2⟩ := andThen_eq_next.1 h
    obtain ⟨k1, rfl⟩ := memWrite_eq_next.1 h1
    obtain ⟨k2, rfl⟩ := memWrite_eq_next.1 h2
    have o1 := busCycle_only s
    have o2 := (o1.trans (put_only _ (phys seg off) (lowByte v))).trans (highCycle_only _ (phys seg off))
    refine ⟨?_, o2.trans (put_only ..), fun ha hw => ?_⟩
    · rw [admitsWrite_word, ← canWriteByte_of_only o1, ← canWriteByte_of_only o2, k1, k2]; rfl
    · rw [busCycle_of_alone ha, highCycle_of_alone _ (show (s.put _ _).alone = true from ha)]
      have hw1 : (s.put (phys seg off) (lowByte v)).mem.wf = true := wf_write hw (by omega) (lowByte v)
      exact ⟨(stores_put hw _ _).trans (stores_put hw1 _ _), wf_write hw1 (by omega) _⟩

/-- A write that the map admits answers, whatever other masters do. -/
theorem writeMem_admitted {w : Width} {seg off : Word} (v : Word) {s : State} (h : admitsWrite w seg off s = true) :
    ∃ t, writeMem w seg off v s = .next t := by
  have o1 := busCycle_only s
  cases w with
  | byte =>
    rw [admitsWrite_byte, ← canWriteByte_of_only o1] at h
    exact ⟨_, memWrite_eq_next.2 ⟨h, rfl⟩⟩
  | word =>
    have o2 := (o1.trans (put_only _ (phys seg off) (lowByte v))).trans (highCycle_only _ (phys seg off))
    rw [admitsWrite_word, Bool.and_eq_true, ← canWriteByte_of_only o1, ← canWriteByte_of_only o2] at h
    exact ⟨_, andThen_eq_next.2 ⟨_, memWrite_eq_next.2 ⟨h.1, rfl⟩, memWrite_eq_next.2 ⟨h.2, rfl⟩⟩⟩

theorem writeMem_of {w : Width} {seg off : Word} (v : Word) {s : State} (h : canWrite w seg off s = true)
    (hw : s.mem.wf = true) : ∃ t, writeMem w seg off v s = .next t ∧ Stores (cells w seg off v) s t ∧ t.mem.wf = true := by
  obtain ⟨ha, h⟩ := canWrite_iff.1 h
  obtain ⟨t, ht⟩ := writeMem_admitted v h
  exact ⟨t, ht, (writeMem_next ht).2.2 ha hw⟩

/-! ## r/m operands -/

/-- A read of an r/m operand, when it answers, changes nothing but what other masters write. -/
theorem readRM_next {w : Width} {rm : RM} {s : State} {p : Word × State} (h : readRM w rm s = .next p) :
    OnlyMemory s p.2 := by
  unfold readRM at h
  split at h
  · injection h with h; exact h ▸ .refl s
  · exact (readMem_next h).2

/-- An undisturbed read of an r/m operand answers exactly when the map admits it, and answers what the operand holds. -/
theorem readRM_eq_next {w : Width} {rm : RM} {s : State} (h : s.alone = true) {p : Word × State} :
    readRM w rm s = .next p ↔ canReadRM w rm s = true ∧ p = (s.operand w rm, s) := by
  unfold readRM canReadRM State.operand
  cases s.place rm with
  | reg c => simp [eq_comm]
  | mem seg off => exact readMem_eq_next h

theorem readRM_of {w : Width} {rm : RM} {s : State} (h : canReadRM w rm s = true) :
    readRM w rm s = .next (s.operand w rm, s) := by
  unfold canReadRM at h
  unfold readRM State.operand
  cases hp : s.place rm with
  | reg c => rfl
  | mem seg off => simp only [hp] at h; exact readMem_of h

/-- A write to an r/m operand, when it answers. -/
theorem writeRM_next {w : Width} {rm : RM} {v : Word} {s t : State} (h : writeRM w rm v s = .next t) :
    t = { s with regs := t.regs, mem := t.mem, queue := t.queue, due := t.due } ∧
      (canWriteRM w rm s = true → s.mem.wf = true → Writes w rm v s t ∧ t.mem.wf = true) := by
  unfold writeRM at h; unfold canWriteRM Writes
  cases hp : s.place rm with
  | reg c =>
    simp only [hp] at h ⊢
    injection h with h; subst h
    exact ⟨by cases w <;> rfl, fun _ hw => ⟨rfl, by simpa using hw⟩⟩
  | mem seg off =>
    simp only [hp] at h ⊢
    obtain ⟨-, k2, k3⟩ := writeMem_next h
    exact ⟨by rw [k2], fun hc => k3 (canWrite_iff.1 hc).1⟩

theorem writeRM_of {w : Width} {rm : RM} (v : Word) {s : State} (h : canWriteRM w rm s = true) (hw : s.mem.wf = true) :
    ∃ t, writeRM w rm v s = .next t ∧ Writes w rm v s t ∧ t.mem.wf = true := by
  have : ∃ t, writeRM w rm v s = .next t := by
    unfold writeRM; unfold canWriteRM at h
    cases hp : s.place rm with
    | reg c => exact ⟨_, rfl⟩
    | mem seg off =>
      simp only [hp] at h
      exact writeMem_admitted v (canWrite_iff.1 h).2
  obtain ⟨t, ht⟩ := this
  exact ⟨t, ht, (writeRM_next ht).2 h hw⟩

/-- A pointer read, when it answers, changes nothing but what other masters write. -/
theorem readPointer_next {rm : RM} {s : State} {p : Word × Word × State} (h : readPointer rm s = .next p) :
    OnlyMemory s p.2.2 := by
  obtain ⟨_, _, h⟩ := andThen_eq_next.1 h
  obtain ⟨_, h1, h⟩ := andThen_eq_next.1 h
  obtain ⟨_, h2, h⟩ := andThen_eq_next.1 h
  injection h with h
  exact h ▸ (readMem_next h1).2.trans (readMem_next h2).2

/-- An undisturbed pointer read answers when the operand is in memory and its four bytes can be read. -/
theorem readPointer_of {rm : RM} {s : State} (h : canReadPointer rm s = true) :
    readPointer rm s = .next ((s.pointer rm).1, (s.pointer rm).2, s) := by
  unfold canReadPointer at h
  unfold readPointer eaOrRefuse State.pointer
  cases hp : s.place rm with
  | reg c => simp [hp] at h
  | mem seg off =>
    simp only [hp, Bool.and_eq_true] at h
    simp only [andThen_next, readMem_of h.1, readMem_of h.2]

/-! ## The stack -/

theorem canPop_zero (s : State) : canPop 0 s = canRead .word s.segs.ss s.regs.sp s := by
  unfold canPop; rw [show s.regs.sp + 0 = s.regs.sp from BitVec.add_zero _]

theorem canPush_zero (s : State) : canPush 0 s = canWrite .word s.segs.ss (s.regs.sp - 2) s := by
  unfold canPush; rw [show s.regs.sp - 0 = s.regs.sp from BitVec.sub_zero _]

/-- A pop, when it answers: SP is raised by 2, and nothing else changed but what other masters write. -/
theorem pop16_next {s : State} {p : Word × State} (h : pop16 s = .next p) :
    OnlyMemory { s with regs := { s.regs with sp := s.regs.sp + 2 } } p.2 := by
  obtain ⟨q, h1, h⟩ := andThen_eq_next.1 h
  injection h with h
  have := (readMem_next h1).2
  unfold OnlyMemory at *
  rw [← h, this]; rfl

/-- An undisturbed pop answers exactly when the map admits it. -/
theorem pop16_eq_next {s : State} (ha : s.alone = true) {p : Word × State} :
    pop16 s = .next p ↔ canPop 0 s = true ∧
      p = (s.load .word s.segs.ss s.regs.sp, s.setReg .word .sp (s.regs.sp + 2)) := by
  rw [canPop_zero]
  simp only [pop16, andThen_eq_next, readMem_eq_next ha]
  constructor
  · rintro ⟨v, ⟨h, rfl⟩, e⟩; exact ⟨h, by injection e with e; exact e.symm⟩
  · rintro ⟨h, rfl⟩; exact ⟨_, ⟨h, rfl⟩, rfl⟩

theorem pop16_of {s : State} (h : canPop 0 s = true) :
    pop16 s = .next (s.load .word s.segs.ss s.regs.sp, s.setReg .word .sp (s.regs.sp + 2)) :=
  (pop16_eq_next (canRead_iff.1 h).1).2 ⟨h, rfl⟩

/-- A push, when it answers: SP is lowered by 2, and nothing else changed but memory; undisturbed, the word is stored. -/
theorem push16_next {v : Word} {s t : State} (h : push16 v s = .next t) :
    admitsWrite .word s.segs.ss (s.regs.sp - 2) s = true ∧
      OnlyMemory { s with regs := { s.regs with sp := s.regs.sp - 2 } } t ∧
      (s.alone = true → s.mem.wf = true → Pushes v s t ∧ t.mem.wf = true) := by
  have h' : writeMem .word s.segs.ss (s.regs.sp - 2) v (s.setReg .word .sp (s.regs.sp - 2)) = .next t := h
  exact writeMem_next h'

theorem push16_of (v : Word) {s : State} (h : canPush 0 s = true) (hw : s.mem.wf = true) :
    ∃ t, push16 v s = .next t ∧ Pushes v s t ∧ t.mem.wf = true := by
  have h' : canWrite .word s.segs.ss (s.regs.sp - 2) (s.setReg .word .sp (s.regs.sp - 2)) = true := by
    rw [canPush_zero] at h; exact h
  obtain ⟨t, ht, _⟩ := writeMem_of v h' (by simpa using hw)
  exact ⟨t, ht, (push16_next ht).2.2 (canWrite_iff.1 h').1 hw⟩

/-! ## Interrupts -/

theorem vectorAddr_succ (n : Byte) (k : Nat) : vectorAddr n (k + 1) = vectorAddr n k + 1 := by
  unfold vectorAddr
  apply BitVec.eq_of_toNat_eq
  simp [BitVec.toNat_add]; omega

theorem canReadVector_iff {n : Byte} {s : State} :
    canReadVector n s = true ↔ s.alone = true ∧ ([0, 1, 2, 3].all fun k => canReadByte (vectorAddr n k) s) = true :=
  Bool.and_eq_true _ _ ▸ Iff.rfl

/-- A read of a vector, when it answers, changes nothing but what other masters write. -/
theorem readVector_next {n : Byte} {s : State} {p : Word × Word × State} (h : readVector n s = .next p) :
    OnlyMemory s p.2.2 := by
  obtain ⟨_, h1, h⟩ := andThen_eq_next.1 h
  obtain ⟨_, h2, h⟩ := andThen_eq_next.1 h
  injection h with h
  exact h ▸ (readPair_next h1).2.trans (readPair_next h2).2

theorem readVector_eq_next {n : Byte} {s : State} (ha : s.alone = true) {p : Word × Word × State} :
    readVector n s = .next p ↔ canReadVector n s = true ∧ p = ((s.vector n).1, (s.vector n).2, s) := by
  have e0 : BitVec.ofNat 20 (4 * n.toNat) = vectorAddr n 0 := rfl
  have e2 : BitVec.ofNat 20 (4 * n.toNat + 2) = vectorAddr n 2 := rfl
  simp only [readVector, memReadWord, e0, e2, ← vectorAddr_succ, canReadVector_iff, ha, true_and, andThen_eq_next,
    List.all_cons, List.all_nil, Bool.and_true, Bool.and_eq_true, State.vector]
  constructor
  · rintro ⟨p, h1, q, h2, e⟩
    obtain ⟨⟨k0, k1⟩, rfl⟩ := (readPair_eq_next ha).1 h1
    obtain ⟨⟨k2, k3⟩, rfl⟩ := (readPair_eq_next ha).1 h2
    injection e with e
    exact ⟨⟨k0, k1, k2, k3⟩, e.symm⟩
  · rintro ⟨⟨k0, k1, k2, k3⟩, rfl⟩
    exact ⟨_, (readPair_eq_next ha).2 ⟨⟨k0, k1⟩, rfl⟩, _, (readPair_eq_next ha).2 ⟨⟨k2, k3⟩, rfl⟩, rfl⟩

end Sys2Proof.Machine
end

