-- ==== Sys2Proof/Laws/Interrupts.lean ====
section
/-! SUPPORT. What the interrupt sequence, the return from an interrupt and the recognition point answer. -/

namespace Sys2Proof.Machine

/-- Whether other masters can disturb depends on LOCK and what is due only. -/
theorem alone_of_eq {s t : State} (hl : t.lock = s.lock) (hd : t.due = s.due) : t.alone = s.alone := by
  simp [State.alone, hl, hd]

/-- Whether writes are admitted and undisturbed depends on the memory map, SP, LOCK and what is due only. -/
theorem canPush_of_eq {n m : Word} {s t : State} (hm : t.unmapped = s.unmapped) (hr : t.rom = s.rom)
    (hg : t.segs.ss = s.segs.ss) (hl : t.lock = s.lock) (hd : t.due = s.due) (hs : t.regs.sp - m = s.regs.sp - n) :
    canPush m t = canPush n s := by
  simp [canPush, canWrite, admitsWrite, canWriteByte, alone_of_eq hl hd, hm, hr, hg, hs]

/-- Whether reads are admitted and undisturbed depends on the memory map, SP, LOCK and what is due only. -/
theorem canPop_of_eq {n m : Word} {s t : State} (hm : t.unmapped = s.unmapped) (hg : t.segs.ss = s.segs.ss)
    (hl : t.lock = s.lock) (hd : t.due = s.due) (hs : t.regs.sp + m = s.regs.sp + n) : canPop m t = canPop n s := by
  simp [canPop, canRead, admitsRead, canReadByte, alone_of_eq hl hd, hm, hg, hs]

/-- The interrupt sequence, when it answers: registers other than SP, the flags but IF and TF, the environment and the
platform are as before, and the queue is empty. -/
theorem interruptSequence_next {n : Byte} {saved : Word} {s t : State} (h : interruptSequence n saved s = .next t) :
    t = { s with
      regs := { s.regs with sp := s.regs.sp - 6 }
      flags := { s.flags with IF := false, TF := false }
      segs := { s.segs with cs := t.segs.cs }
      ip := t.ip
      halted := false
      inRepeat := false
      queue := []
      mem := t.mem
      due := t.due } := by
  obtain ⟨v, hv, h⟩ := andThen_eq_next.1 h
  obtain ⟨s1, h1, h⟩ := andThen_eq_next.1 h
  obtain ⟨s2, h2, h⟩ := andThen_eq_next.1 h
  obtain ⟨s3, h3, h⟩ := andThen_eq_next.1 h
  injection h with h
  have e0 : v.2.2 = _ := readVector_next hv
  have e1 : s1 = { s with regs := { s.regs with sp := s.regs.sp - 2 }, mem := s1.mem, queue := s1.queue, due := s1.due } := by
    have : s1 = _ := (push16_next h1).2.1
    rw [this, e0]
  have e2 : s2 = { s with
      regs := { s.regs with sp := s.regs.sp - 4 }, flags := { s.flags with IF := false, TF := false }, mem := s2.mem,
      queue := s2.queue, due := s2.due } := by
    have : s2 = _ := (push16_next h2).2.1
    rw [this, e1, ← show s.regs.sp - 2 - 2 = s.regs.sp - 4 by bv_omega]
  have e3 : s3 = { s with
      regs := { s.regs with sp := s.regs.sp - 6 }, flags := { s.flags with IF := false, TF := false }, mem := s3.mem,
      queue := s3.queue, due := s3.due } := by
    have : s3 = _ := (push16_next h3).2.1
    rw [this, e2, ← show s.regs.sp - 4 - 2 = s.regs.sp - 6 by bv_omega]
  rw [← h, e3]; rfl

/-- The interrupt sequence undisturbed, when it answers: its accesses were admitted, and memory in canonical form holds
exactly the three words pushed. -/
theorem interruptSequence_alone {n : Byte} {saved : Word} {s t : State} (ha : s.alone = true) (hw : s.mem.wf = true)
    (h : interruptSequence n saved s = .next t) :
    canInterrupt n s = true ∧ Interrupted n saved s t ∧ t.mem.wf = true := by
  have et := interruptSequence_next h
  obtain ⟨v, hv, h⟩ := andThen_eq_next.1 h
  obtain ⟨kv, rfl⟩ := (readVector_eq_next ha).1 hv
  obtain ⟨s1, h1, h⟩ := andThen_eq_next.1 h
  obtain ⟨s2, h2, h⟩ := andThen_eq_next.1 h
  obtain ⟨s3, h3, h⟩ := andThen_eq_next.1 h
  injection h with h
  obtain ⟨c1, -, m1⟩ := push16_next h1
  obtain ⟨p1, w1⟩ := m1 ha hw
  have a1 : s1.alone = true := by rw [p1.1]; exact ha
  obtain ⟨c2, -, m2⟩ := push16_next h2
  obtain ⟨p2, w2⟩ := m2 a1 w1
  have a2 : s2.alone = true := by rw [p2.1]; exact a1
  obtain ⟨c3, -, m3⟩ := push16_next h3
  obtain ⟨p3, w3⟩ := m3 a2 w2
  have f1 : s1.regs.sp = s.regs.sp - 2 := by rw [p1.1]
  have f2 : s2.regs.sp = s.regs.sp - 4 := by
    rw [p2.1]; show s1.regs.sp - 2 = _; rw [f1]; bv_omega
  have b1 : s1.segs = s.segs := by rw [p1.1]
  have b2 : s2.segs = s.segs := by rw [p2.1]; exact b1
  have bt : t.mem = s3.mem := by rw [← h]; rfl
  have ec : t.segs.cs = (s.vector n).2 := by rw [← h]; rfl
  have ei : t.ip = (s.vector n).1 := by rw [← h]; rfl
  have ed : t.due = s.due := by
    rw [← h]; show s3.due = _; rw [p3.1]; show s2.due = _; rw [p2.1]; show s1.due = _; rw [p1.1]
  refine ⟨?_, ⟨?_, fun a => ?_⟩, bt ▸ w3⟩
  · have k1 : canPush 0 s = true := by rw [canPush_zero]; exact canWrite_iff.2 ⟨ha, c1⟩
    have k2 : canPush 2 s = true := by
      rw [← canPush_of_eq (s := s) (t := s1) (n := 2) (m := 0) (by rw [p1.1]) (by rw [p1.1]) (by rw [p1.1])
        (by rw [p1.1]) (by rw [p1.1]) (by rw [f1]; bv_omega), canPush_zero]
      exact canWrite_iff.2 ⟨a1, c2⟩
    have k3 : canPush 4 s = true := by
      rw [← canPush_of_eq (s := s) (t := s2) (n := 4) (m := 0) (by rw [p2.1, p1.1]) (by rw [p2.1, p1.1])
        (by rw [b2]) (by rw [p2.1, p1.1]) (by rw [p2.1, p1.1]) (by rw [f2]; bv_omega), canPush_zero]
      exact canWrite_iff.2 ⟨a2, c3⟩
    simp only [canInterrupt, kv, k1, k2, k3, Bool.and_self]
  · rw [et, ec, ei, ed]; rfl
  · have q1 := p1.2 a
    have q2 := p2.2 a
    have q3 := p3.2 a
    simp only [State.byteAt] at q1 q2 q3 ⊢
    simp only [storedAt_append]
    rw [bt, q3, q2, q1, f1, f2, b1, b2, show s.regs.sp - 2 - 2 = s.regs.sp - 4 by bv_omega,
      show s.regs.sp - 4 - 2 = s.regs.sp - 6 by bv_omega]
    cases storedAt (cells .word s.segs.ss (s.regs.sp - 6) saved) a <;>
      cases storedAt (cells .word s.segs.ss (s.regs.sp - 4) s.segs.cs) a <;> rfl

theorem interruptSequence_of {n : Byte} (saved : Word) {s : State} (h : canInterrupt n s = true) (hw : s.mem.wf = true) :
    ∃ t, interruptSequence n saved s = .next t ∧ Interrupted n saved s t ∧ t.mem.wf = true := by
  simp only [canInterrupt, Bool.and_eq_true] at h
  obtain ⟨⟨⟨hv, h1⟩, h2⟩, h3⟩ := h
  have ha := (canReadVector_iff.1 hv).1
  have : ∃ t, interruptSequence n saved s = .next t := by
    obtain ⟨s1, e1, p1, w1⟩ := push16_of s.flags.toWord h1 hw
    have k2 : canPush 0 ({ s1 with flags := { s1.flags with IF := false, TF := false } } : State) = true := by
      rw [← h2]
      exact canPush_of_eq (by rw [p1.1]) (by rw [p1.1]) (by rw [p1.1]) (by rw [p1.1]) (by rw [p1.1])
        (by show s1.regs.sp - 0 = _; rw [p1.1]; show s.regs.sp - 2 - 0 = _; bv_omega)
    obtain ⟨s2, e2, p2, w2⟩ := push16_of s1.segs.cs k2 w1
    have k3 : canPush 0 s2 = true := by
      rw [← h3]
      exact canPush_of_eq (by rw [p2.1, p1.1]) (by rw [p2.1, p1.1]) (by rw [p2.1, p1.1]) (by rw [p2.1, p1.1])
        (by rw [p2.1, p1.1]) (by rw [p2.1, p1.1]; show s.regs.sp - 2 - 2 - 0 = _; bv_omega)
    obtain ⟨s3, e3, _, _⟩ := push16_of saved k3 w2
    exact ⟨_, andThen_eq_next.2 ⟨_, (readVector_eq_next ha).2 ⟨hv, rfl⟩, andThen_eq_next.2 ⟨_, e1,
      andThen_eq_next.2 ⟨_, e2, andThen_eq_next.2 ⟨_, e3, rfl⟩⟩⟩⟩⟩
  obtain ⟨t, ht⟩ := this
  exact ⟨t, ht, (interruptSequence_alone ha hw ht).2⟩

/-- The return from an interrupt, when it answers: IP, CS, FLAGS and SP change, the queue is empty, and nothing else
changed but what other masters write. -/
theorem interruptReturn_next {s t : State} (h : interruptReturn s = .next t) :
    t = { s with
      ip := t.ip
      segs := { s.segs with cs := t.segs.cs }
      flags := t.flags
      regs := { s.regs with sp := s.regs.sp + 6 }
      queue := []
      mem := t.mem
      due := t.due } := by
  obtain ⟨p, h1, h⟩ := andThen_eq_next.1 h
  obtain ⟨q, h2, h⟩ := andThen_eq_next.1 h
  obtain ⟨r, h3, h⟩ := andThen_eq_next.1 h
  injection h with h
  have e1 : p.2 = _ := pop16_next h1
  have e2 : q.2 = { s with
      regs := { s.regs with sp := s.regs.sp + 4 }, mem := q.2.mem, queue := q.2.queue, due := q.2.due } := by
    have : q.2 = _ := pop16_next h2
    rw [this, e1, ← show s.regs.sp + 2 + 2 = s.regs.sp + 4 by bv_omega]
  have e3 : r.2 = { s with
      regs := { s.regs with sp := s.regs.sp + 6 }, mem := r.2.mem, queue := r.2.queue, due := r.2.due } := by
    have : r.2 = _ := pop16_next h3
    rw [this, e2, ← show s.regs.sp + 4 + 2 = s.regs.sp + 6 by bv_omega]
  rw [← h, e3]; rfl

/-- The return from an interrupt answers when three words can be popped undisturbed. -/
theorem interruptReturn_of {s : State} (h0 : canPop 0 s = true) (h2 : canPop 2 s = true) (h4 : canPop 4 s = true) :
    interruptReturn s = .next { s with
      ip := s.load .word s.segs.ss s.regs.sp
      segs := { s.segs with cs := s.load .word s.segs.ss (s.regs.sp + 2) }
      flags := Flags.ofWord (s.load .word s.segs.ss (s.regs.sp + 4))
      regs := { s.regs with sp := s.regs.sp + 6 }
      queue := [] } := by
  have e4 : s.regs.sp + 2 + 2 = s.regs.sp + 4 := by bv_omega
  have e6 : s.regs.sp + 4 + 2 = s.regs.sp + 6 := by bv_omega
  have c2 : canPop 0 (s.setReg .word .sp (s.regs.sp + 2)) = true :=
    h2 ▸ canPop_of_eq rfl rfl rfl rfl (by show s.regs.sp + 2 + 0 = _; bv_omega)
  have c4 : canPop 0 ((s.setReg .word .sp (s.regs.sp + 2)).setReg .word .sp (s.regs.sp + 2 + 2)) = true :=
    h4 ▸ canPop_of_eq rfl rfl rfl rfl (by show s.regs.sp + 2 + 2 + 0 = _; bv_omega)
  rw [← e6, ← e4]
  exact andThen_eq_next.2 ⟨_, pop16_of h0, andThen_eq_next.2 ⟨_, pop16_of c2, andThen_eq_next.2 ⟨_, pop16_of c4, rfl⟩⟩⟩

/-- The external part of a recognition point, when it answers. -/
theorem takeExternal_next {saved : Word} {s : State} {r : State × Bool} (h : takeExternal saved s = .next r) :
    (s.nmiPending = true ∧ r.2 = true ∧ interruptSequence 2 saved { s with nmiPending := false } = .next r.1) ∨
    (∃ n, s.nmiPending = false ∧ s.flags.IF = true ∧ s.intr = some n ∧ r.2 = true ∧
      interruptSequence n saved s = .next r.1) ∨
    (s.nmiPending = false ∧ (s.flags.IF = false ∨ s.intr = none) ∧ r = (s, false)) := by
  unfold takeExternal at h
  cases hn : s.nmiPending <;> simp only [hn, if_true, if_false, Bool.false_eq_true] at h
  · cases hi : s.flags.IF <;> cases hq : s.intr <;> simp only [hi, hq] at h
    all_goals first
      | (injection h with h; exact .inr (.inr ⟨rfl, by simp, h.symm⟩))
      | (obtain ⟨t, ht, e⟩ := andThen_eq_next.1 h; injection e with e; subst e
         exact .inr (.inl ⟨_, rfl, rfl, rfl, rfl, ht⟩))
  · obtain ⟨t, ht, e⟩ := andThen_eq_next.1 h
    injection e with e; subst e
    exact .inl ⟨rfl, rfl, ht⟩

/-- The recognition point, when it answers: the shadow was over or is over now. -/
theorem recognise_next {tf0 : Bool} {saved : Word} {s t : State} (h : recognise tf0 saved s = .next t) :
    (s.inhibit = true ∧ t = { s with inhibit := false }) ∨
    (s.inhibit = false ∧ ∃ r, takeExternal saved s = .next r ∧
      ((tf0 = false ∧ t = r.1) ∨
        (tf0 = true ∧ interruptSequence 1 (if r.2 then r.1.ip else saved) r.1 = .next t))) := by
  unfold recognise at h
  cases hi : s.inhibit <;> simp only [hi, if_true, if_false, Bool.false_eq_true] at h
  · obtain ⟨r, hr, h⟩ := andThen_eq_next.1 h
    refine .inr ⟨rfl, r, hr, ?_⟩
    cases tf0 <;> simp only [if_true, if_false, Bool.false_eq_true] at h
    · injection h with h; exact .inl ⟨rfl, h.symm⟩
    · exact .inr ⟨rfl, h⟩
  · injection h with h; exact .inl ⟨rfl, h.symm⟩

end Sys2Proof.Machine
end

