-- ==== Sys2Proof/Laws/PerInstr.lean ====
section
/-! SUPPORT. A family of statements about every instruction, made per constructor: its encoding is one to six bytes long
(spec/30_encoding.md R114, R129). -/

namespace Sys2Proof

/-- The encoding of `i` is one to six bytes long. -/
def Laws.EncodedLength.Statement (i : Instr) : Prop := 1 ≤ (encode i).length ∧ (encode i).length ≤ 6

theorem length_encodeImm (w : Width) (v : Word) : (encodeImm w v).length ≤ 2 := by
  cases w <;> simp [encodeImm, encodeWord]

theorem length_encodeImmS (x : Bool) (w : Width) (v : Word) : (encodeImmS x w v).length ≤ 2 := by
  cases w <;> cases x <;> simp [encodeImmS, encodeWord]

theorem length_rm (rm : RM) (n : Nat) : (rm.encode n).length ≤ 3 := by
  cases rm <;> simp [RM.encode, encodeWord]

/-- An opcode byte and at most five bytes after it. -/
theorem length_cons_five (b : Byte) {l : List Byte} (h : l.length ≤ 5) : 1 ≤ (b :: l).length ∧ (b :: l).length ≤ 6 := by
  simp only [List.length_cons]; omega

theorem length_cons_rm (b : Byte) (rm : RM) (n : Nat) : 1 ≤ (b :: rm.encode n).length ∧ (b :: rm.encode n).length ≤ 6 :=
  length_cons_five b (le_trans (length_rm rm n) (by decide))

theorem length_cons_rm_imm (b : Byte) (rm : RM) (n : Nat) {l : List Byte} (h : l.length ≤ 2) :
    1 ≤ (b :: (rm.encode n ++ l)).length ∧ (b :: (rm.encode n ++ l)).length ≤ 6 :=
  length_cons_five b (by rw [List.length_append]; have := length_rm rm n; omega)

theorem Laws.EncodedLength.movRmReg (d : Dir) (w : Width) (rm : RM) (r : RegCode) :
    Laws.EncodedLength.Statement (.movRmReg d w rm r) := length_cons_rm ..

theorem Laws.EncodedLength.movRmImm (w : Width) (rm : RM) (imm : Word) :
    Laws.EncodedLength.Statement (.movRmImm w rm imm) := length_cons_rm_imm _ rm _ (length_encodeImm w imm)

theorem Laws.EncodedLength.movRegImm (w : Width) (r : RegCode) (imm : Word) :
    Laws.EncodedLength.Statement (.movRegImm w r imm) := length_cons_five _ (le_trans (length_encodeImm w imm) (by decide))

theorem Laws.EncodedLength.movAccMem (w : Width) (addr : Word) :
    Laws.EncodedLength.Statement (.movAccMem w addr) := length_cons_five _ (by simp [encodeWord])

theorem Laws.EncodedLength.movMemAcc (w : Width) (addr : Word) :
    Laws.EncodedLength.Statement (.movMemAcc w addr) := length_cons_five _ (by simp [encodeWord])

theorem Laws.EncodedLength.movSregRm (sr : SegReg) (rm : RM) :
    Laws.EncodedLength.Statement (.movSregRm sr rm) := length_cons_rm ..

theorem Laws.EncodedLength.movRmSreg (rm : RM) (sr : SegReg) :
    Laws.EncodedLength.Statement (.movRmSreg rm sr) := length_cons_rm ..

theorem Laws.EncodedLength.pushRm (rm : RM) :
    Laws.EncodedLength.Statement (.pushRm rm) := length_cons_rm ..

theorem Laws.EncodedLength.pushReg (r : RegCode) :
    Laws.EncodedLength.Statement (.pushReg r) := length_cons_five _ (by simp)

theorem Laws.EncodedLength.pushSreg (sr : SegReg) :
    Laws.EncodedLength.Statement (.pushSreg sr) := length_cons_five _ (by simp)

theorem Laws.EncodedLength.popRm (rm : RM) :
    Laws.EncodedLength.Statement (.popRm rm) := length_cons_rm ..

theorem Laws.EncodedLength.popReg (r : RegCode) :
    Laws.EncodedLength.Statement (.popReg r) := length_cons_five _ (by simp)

theorem Laws.EncodedLength.popSreg (sr : SegReg) :
    Laws.EncodedLength.Statement (.popSreg sr) := length_cons_five _ (by simp)

theorem Laws.EncodedLength.xchgRmReg (w : Width) (rm : RM) (r : RegCode) :
    Laws.EncodedLength.Statement (.xchgRmReg w rm r) := length_cons_rm ..

theorem Laws.EncodedLength.xchgAxReg (r : RegCode) :
    Laws.EncodedLength.Statement (.xchgAxReg r) := length_cons_five _ (by simp)

theorem Laws.EncodedLength.inPort (w : Width) (port : Byte) :
    Laws.EncodedLength.Statement (.inPort w port) := length_cons_five _ (by simp)

theorem Laws.EncodedLength.inDx (w : Width) :
    Laws.EncodedLength.Statement (.inDx w) := length_cons_five _ (by simp)

theorem Laws.EncodedLength.outPort (w : Width) (port : Byte) :
    Laws.EncodedLength.Statement (.outPort w port) := length_cons_five _ (by simp)

theorem Laws.EncodedLength.outDx (w : Width) :
    Laws.EncodedLength.Statement (.outDx w) := length_cons_five _ (by simp)

theorem Laws.EncodedLength.xlat :
    Laws.EncodedLength.Statement (.xlat) := length_cons_five _ (by simp)

theorem Laws.EncodedLength.lea (r : RegCode) (rm : RM) :
    Laws.EncodedLength.Statement (.lea r rm) := length_cons_rm ..

theorem Laws.EncodedLength.lds (r : RegCode) (rm : RM) :
    Laws.EncodedLength.Statement (.lds r rm) := length_cons_rm ..

theorem Laws.EncodedLength.les (r : RegCode) (rm : RM) :
    Laws.EncodedLength.Statement (.les r rm) := length_cons_rm ..

theorem Laws.EncodedLength.lahf :
    Laws.EncodedLength.Statement (.lahf) := length_cons_five _ (by simp)

theorem Laws.EncodedLength.sahf :
    Laws.EncodedLength.Statement (.sahf) := length_cons_five _ (by simp)

theorem Laws.EncodedLength.pushf :
    Laws.EncodedLength.Statement (.pushf) := length_cons_five _ (by simp)

theorem Laws.EncodedLength.popf :
    Laws.EncodedLength.Statement (.popf) := length_cons_five _ (by simp)

theorem Laws.EncodedLength.addRmReg (d : Dir) (w : Width) (rm : RM) (r : RegCode) :
    Laws.EncodedLength.Statement (.addRmReg d w rm r) := length_cons_rm ..

theorem Laws.EncodedLength.addRmImm (sx : Bool) (w : Width) (rm : RM) (imm : Word) :
    Laws.EncodedLength.Statement (.addRmImm sx w rm imm) := length_cons_rm_imm _ rm _ (length_encodeImmS sx w imm)

theorem Laws.EncodedLength.addAccImm (w : Width) (imm : Word) :
    Laws.EncodedLength.Statement (.addAccImm w imm) := length_cons_five _ (le_trans (length_encodeImm w imm) (by decide))

theorem Laws.EncodedLength.adcRmReg (d : Dir) (w : Width) (rm : RM) (r : RegCode) :
    Laws.EncodedLength.Statement (.adcRmReg d w rm r) := length_cons_rm ..

theorem Laws.EncodedLength.adcRmImm (sx : Bool) (w : Width) (rm : RM) (imm : Word) :
    Laws.EncodedLength.Statement (.adcRmImm sx w rm imm) := length_cons_rm_imm _ rm _ (length_encodeImmS sx w imm)

theorem Laws.EncodedLength.adcAccImm (w : Width) (imm : Word) :
    Laws.EncodedLength.Statement (.adcAccImm w imm) := length_cons_five _ (le_trans (length_encodeImm w imm) (by decide))

theorem Laws.EncodedLength.incRm (w : Width) (rm : RM) :
    Laws.EncodedLength.Statement (.incRm w rm) := length_cons_rm ..

theorem Laws.EncodedLength.incReg (r : RegCode) :
    Laws.EncodedLength.Statement (.incReg r) := length_cons_five _ (by simp)

theorem Laws.EncodedLength.aaa :
    Laws.EncodedLength.Statement (.aaa) := length_cons_five _ (by simp)

theorem Laws.EncodedLength.daa :
    Laws.EncodedLength.Statement (.daa) := length_cons_five _ (by simp)

theorem Laws.EncodedLength.subRmReg (d : Dir) (w : Width) (rm : RM) (r : RegCode) :
    Laws.EncodedLength.Statement (.subRmReg d w rm r) := length_cons_rm ..

theorem Laws.EncodedLength.subRmImm (sx : Bool) (w : Width) (rm : RM) (imm : Word) :
    Laws.EncodedLength.Statement (.subRmImm sx w rm imm) := length_cons_rm_imm _ rm _ (length_encodeImmS sx w imm)

theorem Laws.EncodedLength.subAccImm (w : Width) (imm : Word) :
    Laws.EncodedLength.Statement (.subAccImm w imm) := length_cons_five _ (le_trans (length_encodeImm w imm) (by decide))

theorem Laws.EncodedLength.sbbRmReg (d : Dir) (w : Width) (rm : RM) (r : RegCode) :
    Laws.EncodedLength.Statement (.sbbRmReg d w rm r) := length_cons_rm ..

theorem Laws.EncodedLength.sbbRmImm (sx : Bool) (w : Width) (rm : RM) (imm : Word) :
    Laws.EncodedLength.Statement (.sbbRmImm sx w rm imm) := length_cons_rm_imm _ rm _ (length_encodeImmS sx w imm)

theorem Laws.EncodedLength.sbbAccImm (w : Width) (imm : Word) :
    Laws.EncodedLength.Statement (.sbbAccImm w imm) := length_cons_five _ (le_trans (length_encodeImm w imm) (by decide))

theorem Laws.EncodedLength.decRm (w : Width) (rm : RM) :
    Laws.EncodedLength.Statement (.decRm w rm) := length_cons_rm ..

theorem Laws.EncodedLength.decReg (r : RegCode) :
    Laws.EncodedLength.Statement (.decReg r) := length_cons_five _ (by simp)

theorem Laws.EncodedLength.negRm (w : Width) (rm : RM) :
    Laws.EncodedLength.Statement (.negRm w rm) := length_cons_rm ..

theorem Laws.EncodedLength.cmpRmReg (d : Dir) (w : Width) (rm : RM) (r : RegCode) :
    Laws.EncodedLength.Statement (.cmpRmReg d w rm r) := length_cons_rm ..

theorem Laws.EncodedLength.cmpRmImm (sx : Bool) (w : Width) (rm : RM) (imm : Word) :
    Laws.EncodedLength.Statement (.cmpRmImm sx w rm imm) := length_cons_rm_imm _ rm _ (length_encodeImmS sx w imm)

theorem Laws.EncodedLength.cmpAccImm (w : Width) (imm : Word) :
    Laws.EncodedLength.Statement (.cmpAccImm w imm) := length_cons_five _ (le_trans (length_encodeImm w imm) (by decide))

theorem Laws.EncodedLength.aas :
    Laws.EncodedLength.Statement (.aas) := length_cons_five _ (by simp)

theorem Laws.EncodedLength.das :
    Laws.EncodedLength.Statement (.das) := length_cons_five _ (by simp)

theorem Laws.EncodedLength.mulRm (w : Width) (rm : RM) :
    Laws.EncodedLength.Statement (.mulRm w rm) := length_cons_rm ..

theorem Laws.EncodedLength.imulRm (w : Width) (rm : RM) :
    Laws.EncodedLength.Statement (.imulRm w rm) := length_cons_rm ..

theorem Laws.EncodedLength.aam :
    Laws.EncodedLength.Statement (.aam) := length_cons_five _ (by simp)

theorem Laws.EncodedLength.divRm (w : Width) (rm : RM) :
    Laws.EncodedLength.Statement (.divRm w rm) := length_cons_rm ..

theorem Laws.EncodedLength.idivRm (w : Width) (rm : RM) :
    Laws.EncodedLength.Statement (.idivRm w rm) := length_cons_rm ..

theorem Laws.EncodedLength.aad :
    Laws.EncodedLength.Statement (.aad) := length_cons_five _ (by simp)

theorem Laws.EncodedLength.cbw :
    Laws.EncodedLength.Statement (.cbw) := length_cons_five _ (by simp)

theorem Laws.EncodedLength.cwd :
    Laws.EncodedLength.Statement (.cwd) := length_cons_five _ (by simp)

theorem Laws.EncodedLength.notRm (w : Width) (rm : RM) :
    Laws.EncodedLength.Statement (.notRm w rm) := length_cons_rm ..

theorem Laws.EncodedLength.shl (v : Count) (w : Width) (rm : RM) :
    Laws.EncodedLength.Statement (.shl v w rm) := length_cons_rm ..

theorem Laws.EncodedLength.shr (v : Count) (w : Width) (rm : RM) :
    Laws.EncodedLength.Statement (.shr v w rm) := length_cons_rm ..

theorem Laws.EncodedLength.sar (v : Count) (w : Width) (rm : RM) :
    Laws.EncodedLength.Statement (.sar v w rm) := length_cons_rm ..

theorem Laws.EncodedLength.rol (v : Count) (w : Width) (rm : RM) :
    Laws.EncodedLength.Statement (.rol v w rm) := length_cons_rm ..

theorem Laws.EncodedLength.ror (v : Count) (w : Width) (rm : RM) :
    Laws.EncodedLength.Statement (.ror v w rm) := length_cons_rm ..

theorem Laws.EncodedLength.rcl (v : Count) (w : Width) (rm : RM) :
    Laws.EncodedLength.Statement (.rcl v w rm) := length_cons_rm ..

theorem Laws.EncodedLength.rcr (v : Count) (w : Width) (rm : RM) :
    Laws.EncodedLength.Statement (.rcr v w rm) := length_cons_rm ..

theorem Laws.EncodedLength.andRmReg (d : Dir) (w : Width) (rm : RM) (r : RegCode) :
    Laws.EncodedLength.Statement (.andRmReg d w rm r) := length_cons_rm ..

theorem Laws.EncodedLength.andRmImm (w : Width) (rm : RM) (imm : Word) :
    Laws.EncodedLength.Statement (.andRmImm w rm imm) := length_cons_rm_imm _ rm _ (length_encodeImm w imm)

theorem Laws.EncodedLength.andAccImm (w : Width) (imm : Word) :
    Laws.EncodedLength.Statement (.andAccImm w imm) := length_cons_five _ (le_trans (length_encodeImm w imm) (by decide))

theorem Laws.EncodedLength.testRmReg (w : Width) (rm : RM) (r : RegCode) :
    Laws.EncodedLength.Statement (.testRmReg w rm r) := length_cons_rm ..

theorem Laws.EncodedLength.testRmImm (w : Width) (rm : RM) (imm : Word) :
    Laws.EncodedLength.Statement (.testRmImm w rm imm) := length_cons_rm_imm _ rm _ (length_encodeImm w imm)

theorem Laws.EncodedLength.testAccImm (w : Width) (imm : Word) :
    Laws.EncodedLength.Statement (.testAccImm w imm) := length_cons_five _ (le_trans (length_encodeImm w imm) (by decide))

theorem Laws.EncodedLength.orRmReg (d : Dir) (w : Width) (rm : RM) (r : RegCode) :
    Laws.EncodedLength.Statement (.orRmReg d w rm r) := length_cons_rm ..

theorem Laws.EncodedLength.orRmImm (w : Width) (rm : RM) (imm : Word) :
    Laws.EncodedLength.Statement (.orRmImm w rm imm) := length_cons_rm_imm _ rm _ (length_encodeImm w imm)

theorem Laws.EncodedLength.orAccImm (w : Width) (imm : Word) :
    Laws.EncodedLength.Statement (.orAccImm w imm) := length_cons_five _ (le_trans (length_encodeImm w imm) (by decide))

theorem Laws.EncodedLength.xorRmReg (d : Dir) (w : Width) (rm : RM) (r : RegCode) :
    Laws.EncodedLength.Statement (.xorRmReg d w rm r) := length_cons_rm ..

theorem Laws.EncodedLength.xorRmImm (w : Width) (rm : RM) (imm : Word) :
    Laws.EncodedLength.Statement (.xorRmImm w rm imm) := length_cons_rm_imm _ rm _ (length_encodeImm w imm)

theorem Laws.EncodedLength.xorAccImm (w : Width) (imm : Word) :
    Laws.EncodedLength.Statement (.xorAccImm w imm) := length_cons_five _ (le_trans (length_encodeImm w imm) (by decide))

theorem Laws.EncodedLength.rep :
    Laws.EncodedLength.Statement (.rep) := length_cons_five _ (by simp)

theorem Laws.EncodedLength.repne :
    Laws.EncodedLength.Statement (.repne) := length_cons_five _ (by simp)

theorem Laws.EncodedLength.movs (w : Width) :
    Laws.EncodedLength.Statement (.movs w) := length_cons_five _ (by simp)

theorem Laws.EncodedLength.cmps (w : Width) :
    Laws.EncodedLength.Statement (.cmps w) := length_cons_five _ (by simp)

theorem Laws.EncodedLength.scas (w : Width) :
    Laws.EncodedLength.Statement (.scas w) := length_cons_five _ (by simp)

theorem Laws.EncodedLength.lods (w : Width) :
    Laws.EncodedLength.Statement (.lods w) := length_cons_five _ (by simp)

theorem Laws.EncodedLength.stos (w : Width) :
    Laws.EncodedLength.Statement (.stos w) := length_cons_five _ (by simp)

theorem Laws.EncodedLength.callNear (inc : Word) :
    Laws.EncodedLength.Statement (.callNear inc) := length_cons_five _ (by simp [encodeWord])

theorem Laws.EncodedLength.callRm (rm : RM) :
    Laws.EncodedLength.Statement (.callRm rm) := length_cons_rm ..

theorem Laws.EncodedLength.callFar (newIp : Word) (newCs : Word) :
    Laws.EncodedLength.Statement (.callFar newIp newCs) := length_cons_five _ (by simp [encodeWord])

theorem Laws.EncodedLength.callMem (rm : RM) :
    Laws.EncodedLength.Statement (.callMem rm) := length_cons_rm ..

theorem Laws.EncodedLength.retNear :
    Laws.EncodedLength.Statement (.retNear) := length_cons_five _ (by simp)

theorem Laws.EncodedLength.retNearImm (n : Word) :
    Laws.EncodedLength.Statement (.retNearImm n) := length_cons_five _ (by simp [encodeWord])

theorem Laws.EncodedLength.retFar :
    Laws.EncodedLength.Statement (.retFar) := length_cons_five _ (by simp)

theorem Laws.EncodedLength.retFarImm (n : Word) :
    Laws.EncodedLength.Statement (.retFarImm n) := length_cons_five _ (by simp [encodeWord])

theorem Laws.EncodedLength.je (inc : Byte) :
    Laws.EncodedLength.Statement (.je inc) := length_cons_five _ (by simp)

theorem Laws.EncodedLength.jl (inc : Byte) :
    Laws.EncodedLength.Statement (.jl inc) := length_cons_five _ (by simp)

theorem Laws.EncodedLength.jle (inc : Byte) :
    Laws.EncodedLength.Statement (.jle inc) := length_cons_five _ (by simp)

theorem Laws.EncodedLength.jb (inc : Byte) :
    Laws.EncodedLength.Statement (.jb inc) := length_cons_five _ (by simp)

theorem Laws.EncodedLength.jbe (inc : Byte) :
    Laws.EncodedLength.Statement (.jbe inc) := length_cons_five _ (by simp)

theorem Laws.EncodedLength.jp (inc : Byte) :
    Laws.EncodedLength.Statement (.jp inc) := length_cons_five _ (by simp)

theorem Laws.EncodedLength.jo (inc : Byte) :
    Laws.EncodedLength.Statement (.jo inc) := length_cons_five _ (by simp)

theorem Laws.EncodedLength.js (inc : Byte) :
    Laws.EncodedLength.Statement (.js inc) := length_cons_five _ (by simp)

theorem Laws.EncodedLength.jne (inc : Byte) :
    Laws.EncodedLength.Statement (.jne inc) := length_cons_five _ (by simp)

theorem Laws.EncodedLength.jnl (inc : Byte) :
    Laws.EncodedLength.Statement (.jnl inc) := length_cons_five _ (by simp)

theorem Laws.EncodedLength.jnle (inc : Byte) :
    Laws.EncodedLength.Statement (.jnle inc) := length_cons_five _ (by simp)

theorem Laws.EncodedLength.jnb (inc : Byte) :
    Laws.EncodedLength.Statement (.jnb inc) := length_cons_five _ (by simp)

theorem Laws.EncodedLength.jnbe (inc : Byte) :
    Laws.EncodedLength.Statement (.jnbe inc) := length_cons_five _ (by simp)

theorem Laws.EncodedLength.jnp (inc : Byte) :
    Laws.EncodedLength.Statement (.jnp inc) := length_cons_five _ (by simp)

theorem Laws.EncodedLength.jno (inc : Byte) :
    Laws.EncodedLength.Statement (.jno inc) := length_cons_five _ (by simp)

theorem Laws.EncodedLength.jns (inc : Byte) :
    Laws.EncodedLength.Statement (.jns inc) := length_cons_five _ (by simp)

theorem Laws.EncodedLength.jcxz (inc : Byte) :
    Laws.EncodedLength.Statement (.jcxz inc) := length_cons_five _ (by simp)

theorem Laws.EncodedLength.jmpNear (inc : Word) :
    Laws.EncodedLength.Statement (.jmpNear inc) := length_cons_five _ (by simp [encodeWord])

theorem Laws.EncodedLength.jmpShort (inc : Byte) :
    Laws.EncodedLength.Statement (.jmpShort inc) := length_cons_five _ (by simp)

theorem Laws.EncodedLength.jmpRm (rm : RM) :
    Laws.EncodedLength.Statement (.jmpRm rm) := length_cons_rm ..

theorem Laws.EncodedLength.jmpFar (newIp : Word) (newCs : Word) :
    Laws.EncodedLength.Statement (.jmpFar newIp newCs) := length_cons_five _ (by simp [encodeWord])

theorem Laws.EncodedLength.jmpMem (rm : RM) :
    Laws.EncodedLength.Statement (.jmpMem rm) := length_cons_rm ..

theorem Laws.EncodedLength.loop (inc : Byte) :
    Laws.EncodedLength.Statement (.loop inc) := length_cons_five _ (by simp)

theorem Laws.EncodedLength.loopz (inc : Byte) :
    Laws.EncodedLength.Statement (.loopz inc) := length_cons_five _ (by simp)

theorem Laws.EncodedLength.loopnz (inc : Byte) :
    Laws.EncodedLength.Statement (.loopnz inc) := length_cons_five _ (by simp)

theorem Laws.EncodedLength.int (n : Byte) :
    Laws.EncodedLength.Statement (.int n) := length_cons_five _ (by simp)

theorem Laws.EncodedLength.int3 :
    Laws.EncodedLength.Statement (.int3) := length_cons_five _ (by simp)

theorem Laws.EncodedLength.into :
    Laws.EncodedLength.Statement (.into) := length_cons_five _ (by simp)

theorem Laws.EncodedLength.iret :
    Laws.EncodedLength.Statement (.iret) := length_cons_five _ (by simp)

theorem Laws.EncodedLength.clc :
    Laws.EncodedLength.Statement (.clc) := length_cons_five _ (by simp)

theorem Laws.EncodedLength.cmc :
    Laws.EncodedLength.Statement (.cmc) := length_cons_five _ (by simp)

theorem Laws.EncodedLength.stc :
    Laws.EncodedLength.Statement (.stc) := length_cons_five _ (by simp)

theorem Laws.EncodedLength.cld :
    Laws.EncodedLength.Statement (.cld) := length_cons_five _ (by simp)

theorem Laws.EncodedLength.std :
    Laws.EncodedLength.Statement (.std) := length_cons_five _ (by simp)

theorem Laws.EncodedLength.cli :
    Laws.EncodedLength.Statement (.cli) := length_cons_five _ (by simp)

theorem Laws.EncodedLength.sti :
    Laws.EncodedLength.Statement (.sti) := length_cons_five _ (by simp)

theorem Laws.EncodedLength.hlt :
    Laws.EncodedLength.Statement (.hlt) := length_cons_five _ (by simp)

theorem Laws.EncodedLength.wait :
    Laws.EncodedLength.Statement (.wait) := length_cons_five _ (by simp)

theorem Laws.EncodedLength.esc (x : BitVec 3) (y : BitVec 3) (rm : RM) :
    Laws.EncodedLength.Statement (.esc x y rm) := length_cons_rm ..

theorem Laws.EncodedLength.lock :
    Laws.EncodedLength.Statement (.lock) := length_cons_five _ (by simp)

theorem Laws.EncodedLength.segment (sr : SegReg) :
    Laws.EncodedLength.Statement (.segment sr) := length_cons_five _ (by simp)

end Sys2Proof
end

