-- ==== Sys2Proof/Laws/Tame.lean ====
section
/-! SUPPORT. What no operation inside an instruction does, said once (`Tame`) and shown of every shared operation: memory
leaves its canonical form, ROM changes, the memory map, the lines, the latched prefixes or LOCK change, the prefetch
queue gains a byte, the CPU halts or enters a repeat. -/

namespace Sys2Proof.Machine

/-- `t` can follow `s` inside an instruction. -/
structure Tame (s t : State) : Prop where
  wf : s.mem.wf = true → t.mem.wf = true
  rom_bytes : ∀ a : PAddr, inSpans s.rom a.toNat = true → t.byteAt a = s.byteAt a
  queue : (∃ as, t.queue = markStored as s.queue) ∨ t.queue = []
  inRepeat : t.inRepeat = true → s.inRepeat = true
  halted : t.halted = true → s.halted = true
  cur : t.cur = s.cur
  lock : t.lock = s.lock
  nmi : t.nmiPending = s.nmiPending
  intr : t.intr = s.intr
  test : t.test = s.test
  inputs : t.inputs = s.inputs
  unmapped : t.unmapped = s.unmapped
  rom : t.rom = s.rom
  undriven : t.undriven = s.undriven

theorem Tame.refl (s : State) : Tame s s :=
  ⟨id, fun _ _ => rfl, .inl ⟨[], by simp⟩, id, id, rfl, rfl, rfl, rfl, rfl, rfl, rfl, rfl, rfl⟩

theorem Tame.trans {s t u : State} (h : Tame s t) (k : Tame t u) : Tame s u where
  wf := k.wf ∘ h.wf
  rom_bytes a ha := (k.rom_bytes a (h.rom ▸ ha)).trans (h.rom_bytes a ha)
  queue := by
    obtain ⟨bs, e⟩ | e := k.queue
    · rw [e]
      exact h.queue.imp (fun ⟨as, f⟩ => ⟨as ++ bs, by rw [f, markStored_append]⟩) (fun f => by rw [f]; rfl)
    · exact .inr e
  inRepeat := h.inRepeat ∘ k.inRepeat
  halted := h.halted ∘ k.halted
  cur := k.cur.trans h.cur
  lock := k.lock.trans h.lock
  nmi := k.nmi.trans h.nmi
  intr := k.intr.trans h.intr
  test := k.test.trans h.test
  inputs := k.inputs.trans h.inputs
  unmapped := k.unmapped.trans h.unmapped
  rom := k.rom.trans h.rom
  undriven := k.undriven.trans h.undriven

/-- An update of registers, segment registers, IP, flags, shadow, ports and draws only. -/
theorem tame_of_core {s t : State} (h : t = { s with
    regs := t.regs, segs := t.segs, ip := t.ip, flags := t.flags, inhibit := t.inhibit, ioIn := t.ioIn,
    ioOut := t.ioOut, draws := t.draws }) : Tame s t := by
  rw [h]
  exact ⟨id, fun _ _ => rfl, .inl ⟨[], by simp⟩, id, id, rfl, rfl, rfl, rfl, rfl, rfl, rfl, rfl, rfl⟩

theorem tame_setReg (s : State) (w : Width) (c : RegCode) (v : Word) : Tame s (s.setReg w c v) :=
  tame_of_core (by cases w <;> rfl)

theorem tame_setSeg (s : State) (c : SegReg) (v : Word) : Tame s (s.setSeg c v) := tame_of_core rfl

theorem tame_undef (s : State) (l : List StatusFlag) : Tame s (s.undef l) := by
  induction l generalizing s with
  | nil => exact .refl s
  | cons a l ih => exact (tame_of_core rfl).trans (ih _)

theorem tame_jump (s : State) (v : Word) : Tame s (s.jump v) :=
  ⟨id, fun _ _ => rfl, .inr rfl, id, id, rfl, rfl, rfl, rfl, rfl, rfl, rfl, rfl, rfl⟩

theorem tame_jumpFar (s : State) (g v : Word) : Tame s (s.jumpFar g v) := (tame_setSeg s .cs g).trans (tame_jump _ v)

/-! ## Memory -/

/-- A byte outside ROM, whoever stores it. -/
theorem tame_put {s : State} {a : PAddr} (h : inSpans s.rom a.toNat = false) (v : Byte) : Tame s (s.put a v) := by
  refine ⟨fun hw => wf_write hw (by omega) v, fun b hb => ?_, .inl ⟨_, rfl⟩, id, id, rfl, rfl, rfl, rfl, rfl, rfl, rfl, rfl,
    rfl⟩
  refine read_write_other _ _ fun e => ?_
  rw [e] at hb
  simp [h] at hb

theorem tame_putOthers (l : Burst) (s : State) : Tame s (State.putOthers l s) := by
  induction l generalizing s with
  | nil => exact .refl s
  | cons c l ih =>
    refine Tame.trans ?_ (ih _)
    split
    · exact .refl s
    · next h => exact tame_put (by simp_all) _

/-- An update of what is due only. -/
theorem tame_due (s : State) (l : List Burst) : Tame s { s with due := l } :=
  ⟨id, fun _ _ => rfl, .inl ⟨[], by simp⟩, id, id, rfl, rfl, rfl, rfl, rfl, rfl, rfl, rfl, rfl⟩

theorem tame_busCycle (s : State) : Tame s s.busCycle := by
  unfold State.busCycle
  split
  · exact (tame_due s _).trans (tame_putOthers ..)
  · exact .refl s

theorem tame_highCycle (s : State) (a : PAddr) : Tame s (s.highCycle a) := by
  unfold State.highCycle; split; exacts [.refl s, tame_busCycle s]

theorem tame_settle (s : State) : Tame s s.settle := (tame_due s _).trans (tame_putOthers ..)

theorem tame_memWrite {a : PAddr} {v : Byte} {s t : State} (h : memWrite a v s = .next t) : Tame s t := by
  obtain ⟨k, rfl⟩ := memWrite_eq_next.1 h
  exact tame_put (by simp_all [canWriteByte]) v

theorem tame_readPair {lo hi : PAddr} {s : State} {p : Word × State} (h : readPair lo hi s = .next p) : Tame s p.2 := by
  obtain ⟨_, _, h⟩ := andThen_eq_next.1 h
  obtain ⟨_, _, h⟩ := andThen_eq_next.1 h
  injection h with h
  exact h ▸ (tame_busCycle s).trans (tame_highCycle ..)

theorem tame_readMem {w : Width} {seg off : Word} {s : State} {p : Word × State} (h : readMem w seg off s = .next p) :
    Tame s p.2 := by
  cases w with
  | byte =>
    obtain ⟨_, _, h⟩ := andThen_eq_next.1 h
    injection h with h
    exact h ▸ tame_busCycle s
  | word => exact tame_readPair h

theorem tame_readRM {w : Width} {rm : RM} {s : State} {p : Word × State} (h : readRM w rm s = .next p) : Tame s p.2 := by
  unfold readRM at h
  split at h
  · injection h with h; exact h ▸ .refl s
  · exact tame_readMem h

theorem tame_readPointer {rm : RM} {s : State} {p : Word × Word × State} (h : readPointer rm s = .next p) :
    Tame s p.2.2 := by
  obtain ⟨_, _, h⟩ := andThen_eq_next.1 h
  obtain ⟨_, h1, h⟩ := andThen_eq_next.1 h
  obtain ⟨_, h2, h⟩ := andThen_eq_next.1 h
  injection h with h
  exact h ▸ (tame_readMem h1).trans (tame_readMem h2)

theorem tame_readVector {n : Byte} {s : State} {p : Word × Word × State} (h : readVector n s = .next p) :
    Tame s p.2.2 := by
  obtain ⟨_, h1, h⟩ := andThen_eq_next.1 h
  obtain ⟨_, h2, h⟩ := andThen_eq_next.1 h
  injection h with h
  exact h ▸ (tame_readPair h1).trans (tame_readPair h2)

theorem tame_writeMem {w : Width} {seg off v : Word} {s t : State} (h : writeMem w seg off v s = .next t) : Tame s t := by
  cases w with
  | byte => exact (tame_busCycle s).trans (tame_memWrite h)
  | word =>
    obtain ⟨u, h1, h2⟩ := andThen_eq_next.1 h
    exact ((tame_busCycle s).trans (tame_memWrite h1)).trans ((tame_highCycle ..).trans (tame_memWrite h2))

theorem tame_writeRM {w : Width} {rm : RM} {v : Word} {s t : State} (h : writeRM w rm v s = .next t) : Tame s t := by
  unfold writeRM at h
  split at h
  · injection h with h; exact h ▸ tame_setReg ..
  · exact tame_writeMem h

theorem tame_push16 {v : Word} {s t : State} (h : push16 v s = .next t) : Tame s t := by
  have h' : writeMem .word s.segs.ss (s.regs.sp - 2) v (s.setReg .word .sp (s.regs.sp - 2)) = .next t := h
  exact (tame_setReg ..).trans (tame_writeMem h')

theorem tame_pop16 {s : State} {p : Word × State} (h : pop16 s = .next p) : Tame s p.2 := by
  obtain ⟨q, h1, h⟩ := andThen_eq_next.1 h
  injection h with h
  exact h ▸ (tame_readMem h1).trans (tame_setReg q.2 .word .sp _)

theorem tame_ioReadByte {p : Word} {s : State} {r : Byte × State} (h : ioReadByte p s = .next r) : Tame s r.2 := by
  unfold ioReadByte at h
  split at h
  · cases h
  · split at h <;> injection h with h <;> exact h ▸ tame_of_core rfl

theorem tame_ioRead {w : Width} {p : Word} {s : State} {r : Word × State} (h : ioRead w p s = .next r) : Tame s r.2 := by
  cases w with
  | byte =>
    obtain ⟨x, hx, e⟩ := andThen_eq_next.1 h
    injection e with e; exact e ▸ tame_ioReadByte hx
  | word =>
    obtain ⟨x, hx, e⟩ := andThen_eq_next.1 h
    obtain ⟨y, hy, e⟩ := andThen_eq_next.1 e
    injection e with e; exact e ▸ (tame_ioReadByte hx).trans (tame_ioReadByte hy)

theorem tame_ioWriteByte {p : Word} {v : Byte} {s t : State} (h : ioWriteByte p v s = .next t) : Tame s t := by
  unfold ioWriteByte at h
  split at h
  · cases h
  · injection h with h; exact h ▸ tame_of_core rfl

theorem tame_ioWrite {w : Width} {p v : Word} {s t : State} (h : ioWrite w p v s = .next t) : Tame s t := by
  cases w with
  | byte => exact tame_ioWriteByte h
  | word =>
    obtain ⟨u, h1, h2⟩ := andThen_eq_next.1 h
    exact (tame_ioWriteByte h1).trans (tame_ioWriteByte h2)

theorem tame_interruptSequence {n : Byte} {saved : Word} {s t : State} (h : interruptSequence n saved s = .next t) :
    Tame s t := by
  obtain ⟨v, h0, h⟩ := andThen_eq_next.1 h
  obtain ⟨s1, h1, h⟩ := andThen_eq_next.1 h
  obtain ⟨s2, h2, h⟩ := andThen_eq_next.1 h
  obtain ⟨s3, h3, h⟩ := andThen_eq_next.1 h
  injection h with h
  have k : Tame s s3 := ((tame_readVector h0).trans (tame_push16 h1)).trans
    ((tame_of_core rfl).trans ((tame_push16 h2).trans (tame_push16 h3)))
  have := k.trans (tame_jumpFar s3 v.2.1 v.1)
  subst h
  exact ⟨this.wf, this.rom_bytes, this.queue, fun e => (nomatch e), fun e => (nomatch e), this.cur, this.lock, this.nmi,
    this.intr, this.test, this.inputs, this.unmapped, this.rom, this.undriven⟩

theorem tame_interruptReturn {s t : State} (h : interruptReturn s = .next t) : Tame s t := by
  obtain ⟨p, h1, h⟩ := andThen_eq_next.1 h
  obtain ⟨q, h2, h⟩ := andThen_eq_next.1 h
  obtain ⟨r, h3, h⟩ := andThen_eq_next.1 h
  injection h with h
  exact h ▸ (((tame_pop16 h1).trans (tame_pop16 h2)).trans (tame_pop16 h3)).trans
    ((tame_jumpFar r.2 q.1 p.1).trans (tame_of_core rfl))

/-! ## Operand forms -/

/-- A two-operand operation that is tame whatever its operands. -/
def BinOp.Tame (op : BinOp) : Prop := ∀ w a b s, Machine.Tame s (op w a b s).2

/-- A one-operand operation that is tame whatever its operand. -/
def UnOp.Tame (op : UnOp) : Prop := ∀ w a s, Machine.Tame s (op w a s).2

theorem tame_aluAdd : BinOp.Tame aluAdd := fun _ _ _ _ => tame_of_core rfl
theorem tame_aluAdc : BinOp.Tame aluAdc := fun _ _ _ _ => tame_of_core rfl
theorem tame_aluSub : BinOp.Tame aluSub := fun _ _ _ _ => tame_of_core rfl
theorem tame_aluSbb : BinOp.Tame aluSbb := fun _ _ _ _ => tame_of_core rfl
theorem tame_aluAnd : BinOp.Tame aluAnd := fun _ _ _ _ => tame_of_core rfl
theorem tame_aluOr : BinOp.Tame aluOr := fun _ _ _ _ => tame_of_core rfl
theorem tame_aluXor : BinOp.Tame aluXor := fun _ _ _ _ => tame_of_core rfl
theorem tame_aluInc : UnOp.Tame aluInc := fun _ _ _ => tame_of_core rfl
theorem tame_aluDec : UnOp.Tame aluDec := fun _ _ _ => tame_of_core rfl
theorem tame_aluNeg : UnOp.Tame aluNeg := fun _ _ _ => tame_of_core rfl
theorem tame_aluNot : UnOp.Tame aluNot := fun _ _ s => .refl s

theorem tame_binRmReg {op : BinOp} (ho : BinOp.Tame op) {d : Dir} {w : Width} {rm : RM} {r : RegCode} {s t : State}
    (h : binRmReg op d w rm r s = .next t) : Tame s t := by
  obtain ⟨m, hm, h⟩ := andThen_eq_next.1 h
  cases d with
  | toReg => injection h with h; exact h ▸ (tame_readRM hm).trans ((ho ..).trans (tame_setReg ..))
  | toRm => exact (tame_readRM hm).trans ((ho ..).trans (tame_writeRM h))

theorem tame_flagsRmReg {op : BinOp} (ho : BinOp.Tame op) {d : Dir} {w : Width} {rm : RM} {r : RegCode} {s t : State}
    (h : flagsRmReg op d w rm r s = .next t) : Tame s t := by
  obtain ⟨m, hm, h⟩ := andThen_eq_next.1 h
  cases d <;> (injection h with h; exact h ▸ (tame_readRM hm).trans (ho ..))

theorem tame_binRmImm {op : BinOp} (ho : BinOp.Tame op) {w : Width} {rm : RM} {imm : Word} {s t : State}
    (h : binRmImm op w rm imm s = .next t) : Tame s t := by
  obtain ⟨m, hm, h⟩ := andThen_eq_next.1 h
  exact (tame_readRM hm).trans ((ho ..).trans (tame_writeRM h))

theorem tame_flagsRmImm {op : BinOp} (ho : BinOp.Tame op) {w : Width} {rm : RM} {imm : Word} {s t : State}
    (h : flagsRmImm op w rm imm s = .next t) : Tame s t := by
  obtain ⟨m, hm, h⟩ := andThen_eq_next.1 h
  injection h with h; exact h ▸ (tame_readRM hm).trans (ho ..)

theorem tame_binAccImm {op : BinOp} (ho : BinOp.Tame op) {w : Width} {imm : Word} {s t : State}
    (h : binAccImm op w imm s = .next t) : Tame s t := by
  injection h with h; exact h ▸ (ho ..).trans (tame_setReg ..)

theorem tame_flagsAccImm {op : BinOp} (ho : BinOp.Tame op) {w : Width} {imm : Word} {s t : State}
    (h : flagsAccImm op w imm s = .next t) : Tame s t := by
  injection h with h; exact h ▸ ho ..

theorem tame_unRm {op : UnOp} (ho : UnOp.Tame op) {w : Width} {rm : RM} {s t : State}
    (h : unRm op w rm s = .next t) : Tame s t := by
  obtain ⟨m, hm, h⟩ := andThen_eq_next.1 h
  exact (tame_readRM hm).trans ((ho ..).trans (tame_writeRM h))

theorem tame_unReg {op : UnOp} (ho : UnOp.Tame op) {r : RegCode} {s t : State}
    (h : unReg op r s = .next t) : Tame s t := by
  injection h with h; exact h ▸ (ho ..).trans (tame_setReg ..)

theorem tame_setFlags (op : Shifter) (w : Width) (n : Nat) (x r : Word) (c : Bool) (s : State) :
    Tame s (op.setFlags w n x r c s) := by
  unfold Shifter.setFlags Shifter.setResult Shifter.setOverflow
  split_ifs <;> first | exact .refl s | exact tame_of_core rfl

theorem tame_shiftRm {op : Shifter} {v : Count} {w : Width} {rm : RM} {s t : State}
    (h : shiftRm op v w rm s = .next t) : Tame s t := by
  obtain ⟨m, hm, h⟩ := andThen_eq_next.1 h
  exact (tame_readRM hm).trans ((tame_setFlags ..).trans (tame_writeRM h))

/-! ## Control transfer and strings -/

theorem tame_branch {c : Bool} {inc : Byte} {s t : State} (h : branch c inc s = .next t) : Tame s t := by
  injection h with h
  cases c
  · exact h ▸ .refl s
  · exact h ▸ tame_jump ..

theorem tame_loopWhile {c : Bool} {inc : Byte} {s t : State} (h : loopWhile c inc s = .next t) : Tame s t :=
  (tame_setReg s .word .cx _).trans (tame_branch h)

theorem tame_callTo {g v : Word} {s t : State} (h : callTo g v s = .next t) : Tame s t := by
  obtain ⟨u, h1, h⟩ := andThen_eq_next.1 h
  obtain ⟨x, h2, h⟩ := andThen_eq_next.1 h
  injection h with h
  exact h ▸ ((tame_push16 h1).trans (tame_push16 h2)).trans (tame_jumpFar ..)

theorem tame_popFar {s t : State} (h : popFar s = .next t) : Tame s t := by
  obtain ⟨p, h1, h⟩ := andThen_eq_next.1 h
  obtain ⟨q, h2, h⟩ := andThen_eq_next.1 h
  injection h with h
  exact h ▸ ((tame_pop16 h1).trans (tame_pop16 h2)).trans (tame_jumpFar ..)

theorem tame_moveString {w : Width} {s t : State} (h : moveString w s = .next t) : Tame s t := by
  obtain ⟨v, h1, h⟩ := andThen_eq_next.1 h
  obtain ⟨u, h2, h⟩ := andThen_eq_next.1 h
  injection h with h
  exact h ▸ (tame_readMem h1).trans ((tame_writeMem h2).trans (tame_of_core rfl))

theorem tame_compareString {w : Width} {s t : State} (h : compareString w s = .next t) : Tame s t := by
  obtain ⟨a, h1, h⟩ := andThen_eq_next.1 h
  obtain ⟨b, h2, h⟩ := andThen_eq_next.1 h
  injection h with h
  exact h ▸ (tame_readMem h1).trans ((tame_readMem h2).trans (tame_of_core rfl))

theorem tame_scanString {w : Width} {s t : State} (h : scanString w s = .next t) : Tame s t := by
  obtain ⟨b, h1, h⟩ := andThen_eq_next.1 h
  injection h with h
  exact h ▸ (tame_readMem h1).trans (tame_of_core rfl)

theorem tame_loadString {w : Width} {s t : State} (h : loadString w s = .next t) : Tame s t := by
  obtain ⟨v, h1, h⟩ := andThen_eq_next.1 h
  injection h with h
  exact h ▸ (tame_readMem h1).trans ((tame_setReg ..).trans (tame_setReg ..))

theorem tame_storeString {w : Width} {s t : State} (h : storeString w s = .next t) : Tame s t := by
  obtain ⟨u, h1, h⟩ := andThen_eq_next.1 h
  injection h with h
  exact h ▸ (tame_writeMem h1).trans (tame_setReg ..)

/-- One step of a string instruction, when it answers: without a repeat prefix the primitive alone; with one, nothing
when CX is 0, else one iteration, after which the loop goes on or is over (spec/43_string.md R328). -/
theorem repeatStep_next {tests : Bool} {prim : State → Out State} {s t : State} (h : repeatStep tests prim s = .next t) :
    (s.cur.rep = none ∧ prim s = .next t) ∨
    (∃ z, s.cur.rep = some z ∧ s.regs.cx = 0 ∧ t = { s with inRepeat := false }) ∨
    (∃ z u, s.cur.rep = some z ∧ s.regs.cx ≠ 0 ∧ prim s = .next u ∧
      t = endIteration (tests && u.flags.ZF != z) u) := by
  unfold repeatStep at h
  cases hr : s.cur.rep with
  | none => simp only [hr] at h; exact .inl ⟨rfl, h⟩
  | some z =>
    simp only [hr] at h
    split at h
    · next hc => injection h with h; exact .inr (.inl ⟨z, rfl, hc, h.symm⟩)
    · next hc =>
      obtain ⟨u, h1, h⟩ := andThen_eq_next.1 h
      injection h with h
      exact .inr (.inr ⟨z, u, rfl, hc, h1, h.symm⟩)

/-- A repeat goes on only with iterations left. -/
theorem endIteration_inRepeat {b : Bool} {t : State} (h : (endIteration b t).inRepeat = true) :
    (endIteration b t).regs.cx ≠ 0 := by
  unfold endIteration at h ⊢
  dsimp only at h ⊢
  split at h
  · cases h
  · next hc => rw [if_neg hc]; simp_all

end Sys2Proof.Machine
end

