-- ==== Sys2Proof/Tests/Slice0.lean ====
section
/-! SUPPORT. Tests: what WellFormed refuses, one encoding of every row of the opcode table written out from its pattern,
one vector of spec/95_test_vectors.md for each instruction that has one, single steps around interrupts, reset and the
prefetch queue, and a witness for every statement that has premises. Expected values come from the spec. -/

namespace Sys2Proof.Tests

open Sys2Proof Sys2Proof.Machine

/-! ## Well-formedness: an ill-formed term for each check -/

theorem test_wf_bp_without_displacement : (Instr.movRmReg .toReg .word (.base .bp) .ax).wf = false := by decide
theorem test_wf_byte_immediate_too_wide : (Instr.movRegImm .byte .ax 0x0100).wf = false := by decide
theorem test_wf_word_immediate_not_sign_extended : (Instr.addRmImm true .word (.reg .ax) 0x0080).wf = false := by decide
theorem test_wf_byte_immediate_not_sign_extended : (Instr.addRmImm true .byte (.reg .ax) 0xFF80).wf = false := by decide

/-- An ill-formed term's bytes read as another instruction: `[BP]` as the direct address. -/
theorem test_wf_bp_reads_as_direct :
    decodeOne (encode (.incRm .word (.base .bp)) ++ [0x34, 0x12]) = .ok (.incRm .word (.direct 0x1234), []) := by decide

/-! ## Decoding: each row's pattern with its fields filled in, first byte first -/

/-- Each byte sequence is one instruction, the one listed, and the encoder writes it. -/
def decodeAll (l : List (List Byte × Instr)) : Bool :=
  l.all fun p => decide (decodeOne p.1 = .ok (p.2, []) ∧ encode p.2 = p.1 ∧ p.2.wf = true)

theorem test_decode_data_transfer_rows : decodeAll [
    ([0x88, 0x19], .movRmReg .toRm .byte (.base .bxDi) .bx),
    ([0xC7, 0x44, 0xFE, 0x34, 0x12], .movRmImm .word (.disp8 .si 0xFE) 0x1234),
    ([0xB5, 0x56], .movRegImm .byte .bp 0x56), ([0xA1, 0x78, 0x56], .movAccMem .word 0x5678),
    ([0xA2, 0x78, 0x56], .movMemAcc .byte 0x5678), ([0x8E, 0x10], .movSregRm .ss (.base .bxSi)),
    ([0x8C, 0x5B, 0xFE], .movRmSreg (.disp8 .bpDi 0xFE) .ds),
    ([0xFF, 0xB6, 0x01, 0x80], .pushRm (.disp16 .bp 0x8001)), ([0x53], .pushReg .bx), ([0x16], .pushSreg .ss),
    ([0x8F, 0x07], .popRm (.base .bx)), ([0x5A], .popReg .dx), ([0x07], .popSreg .es),
    ([0x87, 0xE0], .xchgRmReg .word (.reg .ax) .sp), ([0x91], .xchgAxReg .cx), ([0xE5, 0x60], .inPort .word 0x60),
    ([0xEC], .inDx .byte), ([0xE7, 0x60], .outPort .word 0x60), ([0xEE], .outDx .byte), ([0xD7], .xlat),
    ([0x8D, 0x3D], .lea .di (.base .di)), ([0xC5, 0x60, 0xFE], .lds .sp (.disp8 .bxSi 0xFE)),
    ([0xC4, 0x8B, 0x01, 0x80], .les .cx (.disp16 .bpDi 0x8001)), ([0x9F], .lahf), ([0x9E], .sahf), ([0x9C], .pushf),
    ([0x9D], .popf)] = true := by decide

theorem test_decode_add_and_subtract_rows : decodeAll [
    ([0x03, 0x92, 0x01, 0x80], .addRmReg .toReg .word (.disp16 .bpSi 0x8001) .dx),
    ([0x80, 0xC5, 0x56], .addRmImm false .byte (.reg .bp) 0x56), ([0x05, 0x34, 0x12], .addAccImm .word 0x1234),
    ([0x12, 0x0B], .adcRmReg .toReg .byte (.base .bpDi) .cx),
    ([0x83, 0x56, 0xFE, 0x85], .adcRmImm true .word (.disp8 .bp 0xFE) 0xFF85), ([0x14, 0x56], .adcAccImm .byte 0x56),
    ([0xFF, 0xC4], .incRm .word (.reg .sp)), ([0x45], .incReg .bp), ([0x37], .aaa), ([0x27], .daa),
    ([0x29, 0xA0, 0x01, 0x80], .subRmReg .toRm .word (.disp16 .bxSi 0x8001) .sp),
    ([0x82, 0xEB, 0x85], .subRmImm true .byte (.reg .bx) 0x85), ([0x2D, 0x34, 0x12], .subAccImm .word 0x1234),
    ([0x18, 0x19], .sbbRmReg .toRm .byte (.base .bxDi) .bx),
    ([0x81, 0x5C, 0xFE, 0x34, 0x12], .sbbRmImm false .word (.disp8 .si 0xFE) 0x1234),
    ([0x1C, 0x56], .sbbAccImm .byte 0x56), ([0xFF, 0xCA], .decRm .word (.reg .dx)), ([0x4F], .decReg .di)] = true := by decide

theorem test_decode_other_arithmetic_rows : decodeAll [
    ([0xF7, 0x18], .negRm .word (.base .bxSi)), ([0x3A, 0x4B, 0xFE], .cmpRmReg .toReg .byte (.disp8 .bpDi 0xFE) .cx),
    ([0x83, 0xBE, 0x01, 0x80, 0x85], .cmpRmImm true .word (.disp16 .bp 0x8001) 0xFF85),
    ([0x3C, 0x56], .cmpAccImm .byte 0x56), ([0x3F], .aas), ([0x2F], .das),
    ([0xF7, 0x62, 0xFE], .mulRm .word (.disp8 .bpSi 0xFE)),
    ([0xF6, 0xAD, 0x01, 0x80], .imulRm .byte (.disp16 .di 0x8001)), ([0xD4, 0x0A], .aam),
    ([0xF6, 0x36, 0xBC, 0x9A], .divRm .byte (.direct 0x9ABC)), ([0xF7, 0x3F], .idivRm .word (.base .bx)),
    ([0xD5, 0x0A], .aad), ([0x98], .cbw), ([0x99], .cwd)] = true := by decide

theorem test_decode_shift_rows : decodeAll [
    ([0xF7, 0x16, 0xBC, 0x9A], .notRm .word (.direct 0x9ABC)), ([0xD0, 0x25], .shl .one .byte (.base .di)),
    ([0xD1, 0x68, 0xFE], .shr .one .word (.disp8 .bxSi 0xFE)),
    ([0xD0, 0xBB, 0x01, 0x80], .sar .one .byte (.disp16 .bpDi 0x8001)), ([0xD3, 0xC6], .rol .cl .word (.reg .si)),
    ([0xD2, 0x0E, 0xBC, 0x9A], .ror .cl .byte (.direct 0x9ABC)), ([0xD3, 0x14], .rcl .cl .word (.base .si)),
    ([0xD0, 0x5F, 0xFE], .rcr .one .byte (.disp8 .bx 0xFE))] = true := by decide

theorem test_decode_logic_rows : decodeAll [
    ([0x23, 0x92, 0x01, 0x80], .andRmReg .toReg .word (.disp16 .bpSi 0x8001) .dx),
    ([0x80, 0xE5, 0x56], .andRmImm .byte (.reg .bp) 0x56), ([0x25, 0x34, 0x12], .andAccImm .word 0x1234),
    ([0x84, 0x0B], .testRmReg .byte (.base .bpDi) .cx),
    ([0xF7, 0x46, 0xFE, 0x34, 0x12], .testRmImm .word (.disp8 .bp 0xFE) 0x1234),
    ([0xA8, 0x56], .testAccImm .byte 0x56), ([0x09, 0xC4], .orRmReg .toRm .word (.reg .sp) .ax),
    ([0x80, 0x0E, 0xBC, 0x9A, 0x56], .orRmImm .byte (.direct 0x9ABC) 0x56),
    ([0x0D, 0x34, 0x12], .orAccImm .word 0x1234), ([0x30, 0x7D, 0xFE], .xorRmReg .toRm .byte (.disp8 .di 0xFE) .di),
    ([0x81, 0xB0, 0x01, 0x80, 0x34, 0x12], .xorRmImm .word (.disp16 .bxSi 0x8001) 0x1234),
    ([0x34, 0x56], .xorAccImm .byte 0x56)] = true := by decide

theorem test_decode_string_rows : decodeAll [
    ([0xF3], .rep), ([0xF2], .repne), ([0xA5], .movs .word), ([0xA6], .cmps .byte), ([0xAF], .scas .word),
    ([0xAC], .lods .byte), ([0xAB], .stos .word)] = true := by decide

theorem test_decode_call_and_return_rows : decodeAll [
    ([0xE8, 0x02, 0xFF], .callNear 0xFF02), ([0xFF, 0x96, 0x01, 0x80], .callRm (.disp16 .bp 0x8001)),
    ([0x9A, 0x34, 0x12, 0x78, 0x56], .callFar 0x1234 0x5678), ([0xFF, 0x1E, 0xBC, 0x9A], .callMem (.direct 0x9ABC)),
    ([0xC3], .retNear), ([0xC2, 0x04, 0x01], .retNearImm 0x0104), ([0xCB], .retFar),
    ([0xCA, 0x04, 0x01], .retFarImm 0x0104)] = true := by decide

theorem test_decode_conditional_jump_rows : decodeAll [
    ([0x74, 0xFE], .je 0xFE), ([0x7C, 0xFE], .jl 0xFE), ([0x7E, 0xFE], .jle 0xFE), ([0x72, 0xFE], .jb 0xFE),
    ([0x76, 0xFE], .jbe 0xFE), ([0x7A, 0xFE], .jp 0xFE), ([0x70, 0xFE], .jo 0xFE), ([0x78, 0xFE], .js 0xFE),
    ([0x75, 0xFE], .jne 0xFE), ([0x7D, 0xFE], .jnl 0xFE), ([0x7F, 0xFE], .jnle 0xFE), ([0x73, 0xFE], .jnb 0xFE),
    ([0x77, 0xFE], .jnbe 0xFE), ([0x7B, 0xFE], .jnp 0xFE), ([0x71, 0xFE], .jno 0xFE), ([0x79, 0xFE], .jns 0xFE),
    ([0xE3, 0xFE], .jcxz 0xFE)] = true := by decide

theorem test_decode_jump_loop_interrupt_rows : decodeAll [
    ([0xE9, 0x02, 0xFF], .jmpNear 0xFF02), ([0xEB, 0xFE], .jmpShort 0xFE), ([0xFF, 0xE4], .jmpRm (.reg .sp)),
    ([0xEA, 0x34, 0x12, 0x78, 0x56], .jmpFar 0x1234 0x5678), ([0xFF, 0x2A], .jmpMem (.base .bpSi)),
    ([0xE2, 0xFE], .loop 0xFE), ([0xE1, 0xFE], .loopz 0xFE), ([0xE0, 0xFE], .loopnz 0xFE), ([0xCD, 0x21], .int 0x21),
    ([0xCC], .int3), ([0xCE], .into), ([0xCF], .iret)] = true := by decide

theorem test_decode_processor_control_rows : decodeAll [
    ([0xF8], .clc), ([0xF5], .cmc), ([0xF9], .stc), ([0xFC], .cld), ([0xFD], .std), ([0xFA], .cli), ([0xFB], .sti),
    ([0xF4], .hlt), ([0x9B], .wait), ([0xDC, 0xBD, 0x01, 0x80], .esc 4 7 (.disp16 .di 0x8001)), ([0xF0], .lock),
    ([0x3E], .segment .ds)] = true := by decide

/-- The table numbers a row's bits with the first byte as the high one (spec/30_encoding.md R136). -/
theorem test_decode_table_words :
    decodeTableWord 16 0x8BD8 = some (.movRmReg .toReg .word (.reg .ax) .bx) ∧ decodeTableWord 8 0xF8 = some .clc ∧
    decodeTableWord 16 0xD40A = some .aam ∧ decodeTableWord 8 0x60 = none := by decide

/-! ## One instruction each -/

/-- The state that the vectors of spec/95_test_vectors.md start from. -/
def S0 : State :=
  { State.reset with
    regs := { State.reset.regs with sp := 0x200 }, segs := ⟨0x2000, 0, 0x3000, 0x1000⟩, ip := 0x100 }

/-- The instruction these bytes encode, with its prefixes, runs at IP and leaves a state with the property. -/
def after (bs : List Byte) (s : State) (p : State → Bool) : Bool :=
  match decode bs with
  | .error _ => false
  | .ok d =>
    match andThen (runPrefixes exec d.prefixes (s.start d.length)) (exec d.body) with
    | .next t => p t
    | _ => false

/-- spec/95_test_vectors.md V1. -/
theorem test_movRmReg : after [0x8B, 0x90, 0x80, 0x00]
    ({ S0 with regs := { S0.regs with bx := 0x1000, si := 0x200 }, mem := [(0x11280, 0xCD), (0x11281, 0xAB)] })
    (fun t => t.ip == 0x104 && t.regs.dx == 0xABCD) = true := by decide

/-- spec/95_test_vectors.md V33. -/
theorem test_movRmImm : after [0xC7, 0x47, 0x02, 0x34, 0x12] ({ S0 with regs := { S0.regs with bx := 0x10 } })
    (fun t => t.ip == 0x105 && t.byteAt 0x10012 == 0x34 && t.byteAt 0x10013 == 0x12) = true := by decide

/-- spec/95_test_vectors.md V34. -/
theorem test_movRegImm : after [0xB1, 0x09] ({ S0 with regs := { S0.regs with cx := 0xFFFF } })
    (fun t => t.ip == 0x102 && t.regs.cx == 0xFF09) = true := by decide

/-- spec/95_test_vectors.md V36. -/
theorem test_movAccMem : after [0xA0, 0x34, 0x12] ({ S0 with mem := [(0x11234, 0x99)] })
    (fun t => t.ip == 0x103 && t.regs.ax == 0x99) = true := by decide

/-- spec/95_test_vectors.md V37. -/
theorem test_movMemAcc : after [0x26, 0xA3, 0x10, 0x00] ({ S0 with regs := { S0.regs with ax := 0xBEEF } })
    (fun t => t.ip == 0x104 && t.byteAt 0x20010 == 0xEF && t.byteAt 0x20011 == 0xBE) = true := by decide

/-- spec/95_test_vectors.md V38. -/
theorem test_movSregRm : after [0x8E, 0xD8] ({ S0 with regs := { S0.regs with ax := 0x4000 } })
    (fun t => t.ip == 0x102 && t.segs.ds == 0x4000 && t.inhibit == true) = true := by decide

/-- spec/95_test_vectors.md V39. -/
theorem test_movRmSreg : after [0x8C, 0xC8]
    ({ S0 with regs := { S0.regs with ax := 0xFFFF }, segs := { S0.segs with cs := 0x800 } })
    (fun t => t.ip == 0x102 && t.regs.ax == 0x800) = true := by decide

/-- spec/95_test_vectors.md V49. -/
theorem test_pushRm : after [0xFF, 0x36, 0x00, 0x10] ({ S0 with mem := [(0x11000, 0xEF), (0x11001, 0xBE)] })
    (fun t => t.ip == 0x104 && t.regs.sp == 0x1FE && t.byteAt 0x301FE == 0xEF &&
        t.byteAt 0x301FF == 0xBE) = true := by decide

/-- spec/95_test_vectors.md V41. -/
theorem test_pushReg : after [0x50] ({ S0 with regs := { S0.regs with ax := 0x1234 } })
    (fun t => t.ip == 0x101 && t.regs.sp == 0x1FE && t.byteAt 0x301FE == 0x34 &&
        t.byteAt 0x301FF == 0x12) = true := by decide

/-- spec/95_test_vectors.md V46. -/
theorem test_pushSreg : after [0x06] S0
    (fun t => t.ip == 0x101 && t.regs.sp == 0x1FE && t.byteAt 0x301FF == 0x20) = true := by decide

/-- spec/95_test_vectors.md V50. -/
theorem test_popRm : after [0x8F, 0x06, 0x00, 0x10] ({ S0 with mem := [(0x30200, 0x22), (0x30201, 0x11)] })
    (fun t => t.ip == 0x104 && t.regs.sp == 0x202 && t.byteAt 0x11000 == 0x22 &&
        t.byteAt 0x11001 == 0x11) = true := by decide

/-- spec/95_test_vectors.md V44. -/
theorem test_popReg : after [0x5B] ({ S0 with mem := [(0x30200, 0xCD), (0x30201, 0xAB)] })
    (fun t => t.ip == 0x101 && t.regs.bx == 0xABCD && t.regs.sp == 0x202) = true := by decide

/-- spec/95_test_vectors.md V47. -/
theorem test_popSreg : after [0x1F] ({ S0 with mem := [(0x30201, 0x50)] })
    (fun t => t.ip == 0x101 && t.regs.sp == 0x202 && t.segs.ds == 0x5000 && t.inhibit == true) = true := by decide

/-- spec/95_test_vectors.md V51. -/
theorem test_xchgRmReg : after [0x87, 0xD9] ({ S0 with regs := { S0.regs with cx := 0x2222, bx := 0x1111 } })
    (fun t => t.ip == 0x102 && t.regs.cx == 0x1111 && t.regs.bx == 0x2222) = true := by decide

/-- spec/95_test_vectors.md V52. -/
theorem test_xchgAxReg : after [0x93] ({ S0 with regs := { S0.regs with ax := 0x1, bx := 0x2 } })
    (fun t => t.ip == 0x101 && t.regs.ax == 0x2 && t.regs.bx == 0x1) = true := by decide

/-- spec/95_test_vectors.md V55. -/
theorem test_inPort : after [0xE4, 0x60] ({ S0 with ioIn := [(0x60, 0x1C)] })
    (fun t => t.ip == 0x102 && t.regs.ax == 0x1C) = true := by decide

/-- spec/95_test_vectors.md V56. -/
theorem test_inDx : after [0xED]
    ({ S0 with regs := { S0.regs with dx := 0x3F8 }, ioIn := [(0x3F8, 0x34), (0x3F9, 0x12)] })
    (fun t => t.ip == 0x101 && t.regs.ax == 0x1234) = true := by decide

/-- spec/95_test_vectors.md V57. -/
theorem test_outPort : after [0xE6, 0x60] ({ S0 with regs := { S0.regs with ax := 0xAB } })
    (fun t => t.ip == 0x102 && t.ioOut == [(0x60, 0xAB)]) = true := by decide

/-- spec/95_test_vectors.md V58. -/
theorem test_outDx : after [0xEF] ({ S0 with regs := { S0.regs with ax := 0x1234, dx := 0xFFFF } })
    (fun t => t.ip == 0x101 && t.ioOut == [(0xFFFF, 0x34), (0x0, 0x12)]) = true := by decide

/-- spec/95_test_vectors.md V59. -/
theorem test_xlat : after [0xD7] ({ S0 with regs := { S0.regs with ax := 0x3, bx := 0x100 }, mem := [(0x10103, 0x7F)] })
    (fun t => t.ip == 0x101 && t.regs.ax == 0x7F) = true := by decide

/-- spec/95_test_vectors.md V60. -/
theorem test_lea : after [0x8D, 0x40, 0x05] ({ S0 with regs := { S0.regs with bx := 0xFFFE, si := 0x1 } })
    (fun t => t.ip == 0x103 && t.regs.ax == 0x4) = true := by decide

/-- spec/95_test_vectors.md V62. -/
theorem test_lds : after [0xC5, 0x37]
    ({ S0 with regs := { S0.regs with bx := 0x20 }, mem := [(0x10020, 0x34), (0x10021, 0x12), (0x10023, 0x20)] })
    (fun t => t.ip == 0x102 && t.regs.si == 0x1234 && t.segs.ds == 0x2000) = true := by decide

/-- spec/95_test_vectors.md V63. -/
theorem test_les : after [0xC4, 0x3F]
    ({ S0 with regs := { S0.regs with bx := 0x20 }, mem := [(0x10020, 0x78), (0x10021, 0x56), (0x10023, 0x60)] })
    (fun t => t.ip == 0x102 && t.regs.di == 0x5678 && t.segs.es == 0x6000) = true := by decide

/-- spec/95_test_vectors.md V64. -/
theorem test_lahf : after [0x9F] ({ S0 with flags := Flags.ofWord 0xFD5 })
    (fun t => t.ip == 0x101 && t.regs.ax == 0xD700) = true := by decide

/-- spec/95_test_vectors.md V66. -/
theorem test_sahf : after [0x9E] ({ S0 with regs := { S0.regs with ax := 0xFF00 } })
    (fun t => t.ip == 0x101 && t.flags.CF == true && t.flags.PF == true && t.flags.AF == true &&
        t.flags.ZF == true && t.flags.SF == true) = true := by decide

/-- spec/95_test_vectors.md V67. -/
theorem test_pushf : after [0x9C] S0
    (fun t => t.ip == 0x101 && t.regs.sp == 0x1FE && t.byteAt 0x301FE == 0x2 &&
        t.byteAt 0x301FF == 0xF0) = true := by decide

/-- spec/95_test_vectors.md V69. -/
theorem test_popf : after [0x9D] ({ S0 with mem := [(0x30200, 0xFF), (0x30201, 0xFF)] })
    (fun t => t.ip == 0x101 && t.regs.sp == 0x202 && t.flags.CF == true && t.flags.PF == true &&
        t.flags.AF == true && t.flags.ZF == true && t.flags.SF == true && t.flags.TF == true &&
        t.flags.IF == true && t.flags.DF == true && t.flags.OF == true) = true := by decide

/-- spec/95_test_vectors.md V10. -/
theorem test_addRmReg : after [0x01, 0xD8] ({ S0 with regs := { S0.regs with ax := 0x5, bx := 0x3 } })
    (fun t => t.ip == 0x102 && t.regs.ax == 0x8) = true := by decide

/-- spec/95_test_vectors.md V14. -/
theorem test_addRmImm : after [0x83, 0xC3, 0xFF] ({ S0 with regs := { S0.regs with bx := 0x1 } })
    (fun t => t.ip == 0x103 && t.regs.bx == 0x0 && t.flags.CF == true && t.flags.PF == true && t.flags.AF == true &&
        t.flags.ZF == true) = true := by decide

/-- spec/95_test_vectors.md V100. -/
theorem test_addAccImm : after [0x05, 0x01, 0x00] ({ S0 with regs := { S0.regs with ax := 0xFFFF } })
    (fun t => t.ip == 0x103 && t.regs.ax == 0x0 && t.flags.CF == true && t.flags.PF == true && t.flags.AF == true &&
        t.flags.ZF == true) = true := by decide

/-- spec/95_test_vectors.md V104. -/
theorem test_adcRmReg : after [0x13, 0xC3]
    ({ S0 with regs := { S0.regs with ax := 0xFFFF }, flags := { S0.flags with CF := true } })
    (fun t => t.ip == 0x102 && t.regs.ax == 0x0 && t.flags.PF == true && t.flags.AF == true &&
        t.flags.ZF == true) = true := by decide

/-- spec/95_test_vectors.md V105. -/
theorem test_adcAccImm : after [0x14, 0x00]
    ({ S0 with regs := { S0.regs with ax := 0x7F }, flags := { S0.flags with CF := true } })
    (fun t => t.ip == 0x102 && t.regs.ax == 0x80 && t.flags.CF == false && t.flags.AF == true &&
        t.flags.SF == true && t.flags.OF == true) = true := by decide

/-- spec/95_test_vectors.md V116. -/
theorem test_incRm : after [0xFE, 0x00] ({ S0 with mem := [(0x10000, 0xFF)] })
    (fun t => t.ip == 0x102 && t.flags.PF == true && t.flags.AF == true && t.flags.ZF == true &&
        t.byteAt 0x10000 == 0x0) = true := by decide

/-- spec/95_test_vectors.md V115. -/
theorem test_incReg : after [0x40]
    ({ S0 with regs := { S0.regs with ax := 0x7FFF }, flags := { S0.flags with CF := true } })
    (fun t => t.ip == 0x101 && t.regs.ax == 0x8000 && t.flags.PF == true && t.flags.AF == true &&
        t.flags.SF == true && t.flags.OF == true) = true := by decide

/-- spec/95_test_vectors.md V141. -/
theorem test_aaa : after [0x37] ({ S0 with regs := { S0.regs with ax := 0xFC } })
    (fun t => t.ip == 0x101 && t.regs.ax == 0x102 && t.flags.CF == true && t.flags.AF == true) = true := by decide

/-- spec/95_test_vectors.md V144. -/
theorem test_daa : after [0x27] ({ S0 with regs := { S0.regs with ax := 0x9A } })
    (fun t => t.ip == 0x101 && t.regs.ax == 0x0 && t.flags.CF == true && t.flags.PF == true && t.flags.AF == true &&
        t.flags.ZF == true) = true := by decide

/-- spec/95_test_vectors.md V108. -/
theorem test_subRmReg : after [0x2B, 0xC3] ({ S0 with regs := { S0.regs with ax := 0x1234, bx := 0x1234 } })
    (fun t => t.ip == 0x102 && t.regs.ax == 0x0 && t.flags.PF == true && t.flags.ZF == true) = true := by decide

/-- spec/95_test_vectors.md V106. -/
theorem test_subAccImm : after [0x2D, 0x01, 0x00] S0
    (fun t => t.ip == 0x103 && t.regs.ax == 0xFFFF && t.flags.CF == true && t.flags.PF == true &&
        t.flags.AF == true && t.flags.SF == true) = true := by decide

/-- spec/95_test_vectors.md V109. -/
theorem test_sbbRmReg : after [0x1B, 0xC3]
    ({ S0 with regs := { S0.regs with bx := 0xFFFF }, flags := { S0.flags with CF := true } })
    (fun t => t.ip == 0x102 && t.flags.PF == true && t.flags.AF == true && t.flags.ZF == true) = true := by decide

/-- spec/95_test_vectors.md V110. -/
theorem test_sbbAccImm : after [0x1C, 0x00] ({ S0 with flags := { S0.flags with CF := true } })
    (fun t => t.ip == 0x102 && t.regs.ax == 0xFF && t.flags.PF == true && t.flags.AF == true &&
        t.flags.SF == true) = true := by decide

/-- spec/95_test_vectors.md V120. -/
theorem test_decRm : after [0xFE, 0x0E, 0x00, 0x10] ({ S0 with mem := [(0x11000, 0x1)] })
    (fun t => t.ip == 0x104 && t.flags.PF == true && t.flags.ZF == true && t.byteAt 0x11000 == 0x0) = true := by decide

/-- spec/95_test_vectors.md V118. -/
theorem test_decReg : after [0x49] S0
    (fun t => t.ip == 0x101 && t.regs.cx == 0xFFFF && t.flags.PF == true && t.flags.AF == true &&
        t.flags.SF == true) = true := by decide

/-- spec/95_test_vectors.md V121. -/
theorem test_negRm : after [0xF7, 0xD8] ({ S0 with regs := { S0.regs with ax := 0x1 } })
    (fun t => t.ip == 0x102 && t.regs.ax == 0xFFFF && t.flags.CF == true && t.flags.PF == true &&
        t.flags.AF == true && t.flags.SF == true) = true := by decide

/-- spec/95_test_vectors.md V111. -/
theorem test_cmpRmReg : after [0x3A, 0xC3] ({ S0 with regs := { S0.regs with ax := 0x5, bx := 0x7 } })
    (fun t => t.ip == 0x102 && t.flags.CF == true && t.flags.AF == true && t.flags.SF == true) = true := by decide

/-- spec/95_test_vectors.md V112. -/
theorem test_cmpRmImm : after [0x83, 0x3F, 0xFF]
    ({ S0 with regs := { S0.regs with bx := 0x10 }, mem := [(0x10010, 0xFF), (0x10011, 0xFF)] })
    (fun t => t.ip == 0x103 && t.flags.PF == true && t.flags.ZF == true) = true := by decide

/-- spec/95_test_vectors.md V113. -/
theorem test_cmpAccImm : after [0x3D, 0x00, 0x80] ({ S0 with regs := { S0.regs with ax := 0x7FFF } })
    (fun t => t.ip == 0x103 && t.flags.CF == true && t.flags.PF == true && t.flags.SF == true &&
        t.flags.OF == true) = true := by decide

/-- spec/95_test_vectors.md V142. -/
theorem test_aas : after [0x3F] ({ S0 with regs := { S0.regs with ax := 0xFF }, flags := { S0.flags with AF := true } })
    (fun t => t.ip == 0x101 && t.regs.ax == 0xFF09 && t.flags.CF == true) = true := by decide

/-- spec/95_test_vectors.md V146. -/
theorem test_das : after [0x2F]
    ({ S0 with regs := { S0.regs with ax := 0xEE }, flags := { S0.flags with CF := true, AF := true } })
    (fun t => t.ip == 0x101 && t.regs.ax == 0x88 && t.flags.PF == true && t.flags.SF == true) = true := by decide

/-- spec/95_test_vectors.md V126. -/
theorem test_mulRm : after [0xF7, 0xE3] ({ S0 with regs := { S0.regs with ax := 0x8000, dx := 0xFFFF, bx := 0x2 } })
    (fun t => t.ip == 0x102 && t.regs.ax == 0x0 && t.regs.dx == 0x1 && t.flags.CF == true &&
        t.flags.OF == true) = true := by decide

/-- spec/95_test_vectors.md V128. -/
theorem test_imulRm : after [0xF6, 0xEB] ({ S0 with regs := { S0.regs with ax := 0x80, bx := 0x2 } })
    (fun t => t.ip == 0x102 && t.regs.ax == 0xFF00 && t.flags.CF == true && t.flags.OF == true) = true := by decide

/-- spec/95_test_vectors.md V147. -/
theorem test_aam : after [0xD4, 0x0A] ({ S0 with regs := { S0.regs with ax := 0xFF3F } })
    (fun t => t.ip == 0x102 && t.regs.ax == 0x603 && t.flags.PF == true) = true := by decide

/-- spec/95_test_vectors.md V132. -/
theorem test_divRm : after [0xF6, 0xF3]
    ({ S0 with
      regs := { S0.regs with ax := 0x400, bx := 0x2 }, flags := { S0.flags with IF := true },
      mem := [(0x1, 0x10), (0x3, 0xF0)] })
    (fun t => t.ip == 0x1000 && t.regs.sp == 0x1FA && t.segs.cs == 0xF000 && t.flags.IF == false &&
        t.byteAt 0x301FA == 0x2 && t.byteAt 0x301FB == 0x1 && t.byteAt 0x301FE == 0x2 &&
        t.byteAt 0x301FF == 0xF2) = true := by decide

/-- spec/95_test_vectors.md V136. -/
theorem test_idivRm : after [0xF6, 0xFB]
    ({ S0 with regs := { S0.regs with ax := 0xFF80, bx := 0x1 }, mem := [(0x1, 0x10), (0x3, 0xF0)] })
    (fun t => t.ip == 0x1000 && t.regs.sp == 0x1FA && t.segs.cs == 0xF000 && t.byteAt 0x301FA == 0x2 &&
        t.byteAt 0x301FB == 0x1 && t.byteAt 0x301FE == 0x2 && t.byteAt 0x301FF == 0xF0) = true := by decide

/-- spec/95_test_vectors.md V148. -/
theorem test_aad : after [0xD5, 0x0A] ({ S0 with regs := { S0.regs with ax := 0x603 } })
    (fun t => t.ip == 0x102 && t.regs.ax == 0x3F && t.flags.PF == true) = true := by decide

/-- spec/95_test_vectors.md V150. -/
theorem test_cbw : after [0x98] ({ S0 with regs := { S0.regs with ax := 0x80 } })
    (fun t => t.ip == 0x101 && t.regs.ax == 0xFF80) = true := by decide

/-- spec/95_test_vectors.md V152. -/
theorem test_cwd : after [0x99] ({ S0 with regs := { S0.regs with ax := 0x8000, dx := 0x1234 } })
    (fun t => t.ip == 0x101 && t.regs.dx == 0xFFFF) = true := by decide

/-- spec/95_test_vectors.md V200. -/
theorem test_notRm : after [0xF7, 0xD0] ({ S0 with regs := { S0.regs with ax := 0xFF }, flags := Flags.ofWord 0x8D5 })
    (fun t => t.ip == 0x102 && t.regs.ax == 0xFF00) = true := by decide

/-- spec/95_test_vectors.md V202. -/
theorem test_shl : after [0xD1, 0xE0] ({ S0 with regs := { S0.regs with ax := 0x4000 } })
    (fun t => t.ip == 0x102 && t.regs.ax == 0x8000 && t.flags.PF == true && t.flags.SF == true &&
        t.flags.OF == true) = true := by decide

/-- spec/95_test_vectors.md V207. -/
theorem test_shr : after [0xD3, 0xE8] ({ S0 with regs := { S0.regs with ax := 0x8000, cx := 0x10 } })
    (fun t => t.ip == 0x102 && t.regs.ax == 0x0 && t.flags.CF == true && t.flags.PF == true &&
        t.flags.ZF == true) = true := by decide

/-- spec/95_test_vectors.md V208. -/
theorem test_sar : after [0xD0, 0xF8] ({ S0 with regs := { S0.regs with ax := 0x81 } })
    (fun t => t.ip == 0x102 && t.regs.ax == 0xC0 && t.flags.CF == true && t.flags.PF == true &&
        t.flags.SF == true) = true := by decide

/-- spec/95_test_vectors.md V210. -/
theorem test_rol : after [0xD0, 0xC0] ({ S0 with regs := { S0.regs with ax := 0x81 }, flags := Flags.ofWord 0xD4 })
    (fun t => t.ip == 0x102 && t.regs.ax == 0x3 && t.flags.CF == true && t.flags.OF == true) = true := by decide

/-- spec/95_test_vectors.md V211. -/
theorem test_ror : after [0xD0, 0xC8] ({ S0 with regs := { S0.regs with ax := 0x1 } })
    (fun t => t.ip == 0x102 && t.regs.ax == 0x80 && t.flags.CF == true && t.flags.OF == true) = true := by decide

/-- spec/95_test_vectors.md V213. -/
theorem test_rcl : after [0xD0, 0xD0] ({ S0 with regs := { S0.regs with ax := 0x80 } })
    (fun t => t.ip == 0x102 && t.regs.ax == 0x0 && t.flags.CF == true && t.flags.OF == true) = true := by decide

/-- spec/95_test_vectors.md V215. -/
theorem test_rcr : after [0xD0, 0xD8]
    ({ S0 with regs := { S0.regs with ax := 0x1 }, flags := { S0.flags with CF := true } })
    (fun t => t.ip == 0x102 && t.regs.ax == 0x80 && t.flags.OF == true) = true := by decide

/-- spec/95_test_vectors.md V219. -/
theorem test_andRmReg : after [0x23, 0xC3]
    ({ S0 with regs := { S0.regs with ax := 0xFF0F, bx := 0xFF0 }, flags := { S0.flags with CF := true, OF := true } })
    (fun t => t.ip == 0x102 && t.regs.ax == 0xF00 && t.flags.CF == false && t.flags.PF == true &&
        t.flags.OF == false) = true := by decide

/-- spec/95_test_vectors.md V221. -/
theorem test_andRmImm : after [0x81, 0x27, 0xFF, 0x00]
    ({ S0 with regs := { S0.regs with bx := 0x10 }, mem := [(0x10010, 0x34), (0x10011, 0x12)] })
    (fun t => t.ip == 0x104 && t.byteAt 0x10011 == 0x0) = true := by decide

/-- spec/95_test_vectors.md V220. -/
theorem test_andAccImm : after [0x24, 0x0F] ({ S0 with regs := { S0.regs with ax := 0xF0 } })
    (fun t => t.ip == 0x102 && t.regs.ax == 0x0 && t.flags.PF == true && t.flags.ZF == true) = true := by decide

/-- spec/95_test_vectors.md V222. -/
theorem test_testRmReg : after [0x84, 0xC3] ({ S0 with regs := { S0.regs with ax := 0x81, bx := 0x80 } })
    (fun t => t.ip == 0x102 && t.flags.SF == true) = true := by decide

/-- spec/95_test_vectors.md V224. -/
theorem test_testRmImm : after [0xF6, 0x07, 0x01]
    ({ S0 with regs := { S0.regs with bx := 0x10 }, mem := [(0x10010, 0x3)] })
    (fun t => t.ip == 0x103) = true := by decide

/-- spec/95_test_vectors.md V223. -/
theorem test_testAccImm : after [0xA9, 0x00, 0x80] ({ S0 with regs := { S0.regs with ax := 0x7FFF } })
    (fun t => t.ip == 0x103 && t.flags.PF == true && t.flags.ZF == true) = true := by decide

/-- spec/95_test_vectors.md V225. -/
theorem test_orRmReg : after [0x0B, 0xC3] ({ S0 with regs := { S0.regs with ax := 0xF0, bx := 0xF00 } })
    (fun t => t.ip == 0x102 && t.regs.ax == 0xFF0 && t.flags.PF == true) = true := by decide

/-- spec/95_test_vectors.md V227. -/
theorem test_orRmImm : after [0x80, 0x0F, 0x01]
    ({ S0 with regs := { S0.regs with bx := 0x10 }, mem := [(0x10010, 0x80)] })
    (fun t => t.ip == 0x103 && t.flags.PF == true && t.flags.SF == true && t.byteAt 0x10010 == 0x81) = true := by decide

/-- spec/95_test_vectors.md V226. -/
theorem test_orAccImm : after [0x0C, 0x80] ({ S0 with regs := { S0.regs with ax := 0x1 } })
    (fun t => t.ip == 0x102 && t.regs.ax == 0x81 && t.flags.PF == true && t.flags.SF == true) = true := by decide

/-- spec/95_test_vectors.md V228. -/
theorem test_xorRmReg : after [0x33, 0xC0]
    ({ S0 with regs := { S0.regs with ax := 0x1234 }, flags := { S0.flags with CF := true } })
    (fun t => t.ip == 0x102 && t.regs.ax == 0x0 && t.flags.CF == false && t.flags.PF == true &&
        t.flags.ZF == true) = true := by decide

/-- spec/95_test_vectors.md V230. -/
theorem test_xorRmImm : after [0x81, 0x37, 0xFF, 0xFF]
    ({ S0 with regs := { S0.regs with bx := 0x10 }, mem := [(0x10010, 0xF), (0x10011, 0xF0)] })
    (fun t => t.ip == 0x104 && t.flags.PF == true && t.byteAt 0x10010 == 0xF0 &&
        t.byteAt 0x10011 == 0xF) = true := by decide

/-- spec/95_test_vectors.md V229. -/
theorem test_xorAccImm : after [0x34, 0xFF] ({ S0 with regs := { S0.regs with ax := 0xF } })
    (fun t => t.ip == 0x102 && t.regs.ax == 0xF0 && t.flags.PF == true && t.flags.SF == true) = true := by decide

/-- spec/95_test_vectors.md V301. -/
theorem test_movs : after [0xA5]
    ({ S0 with
      regs := { S0.regs with si := 0x10, di := 0x20 }, flags := { S0.flags with DF := true },
      mem := [(0x10010, 0x34), (0x10011, 0x12)] })
    (fun t => t.ip == 0x101 && t.regs.si == 0xE && t.regs.di == 0x1E && t.byteAt 0x20020 == 0x34 &&
        t.byteAt 0x20021 == 0x12) = true := by decide

/-- spec/95_test_vectors.md V304. -/
theorem test_cmps : after [0xA6]
    ({ S0 with regs := { S0.regs with si := 0x10, di := 0x20 }, mem := [(0x10010, 0x5), (0x20020, 0x7)] })
    (fun t => t.ip == 0x101 && t.regs.si == 0x11 && t.regs.di == 0x21 && t.flags.CF == true && t.flags.AF == true &&
        t.flags.SF == true) = true := by decide

/-- spec/95_test_vectors.md V306. -/
theorem test_scas : after [0xAF] ({ S0 with regs := { S0.regs with di := 0x20 }, mem := [(0x20020, 0x1)] })
    (fun t => t.ip == 0x101 && t.regs.di == 0x22 && t.flags.CF == true && t.flags.PF == true &&
        t.flags.AF == true && t.flags.SF == true) = true := by decide

/-- spec/95_test_vectors.md V307. -/
theorem test_lods : after [0xAD]
    ({ S0 with regs := { S0.regs with si := 0x10 }, mem := [(0x10010, 0xEF), (0x10011, 0xBE)] })
    (fun t => t.ip == 0x101 && t.regs.ax == 0xBEEF && t.regs.si == 0x12) = true := by decide

/-- spec/95_test_vectors.md V310. -/
theorem test_stos : after [0xAB] ({ S0 with regs := { S0.regs with ax := 0x1234, di := 0x20 } })
    (fun t => t.ip == 0x101 && t.regs.di == 0x22 && t.byteAt 0x20020 == 0x34 &&
        t.byteAt 0x20021 == 0x12) = true := by decide

/-- spec/95_test_vectors.md V400. -/
theorem test_callNear : after [0xE8, 0x10, 0x00] S0
    (fun t => t.ip == 0x113 && t.regs.sp == 0x1FE && t.byteAt 0x301FE == 0x3 &&
        t.byteAt 0x301FF == 0x1) = true := by decide

/-- spec/95_test_vectors.md V402. -/
theorem test_callRm : after [0xFF, 0xD3] ({ S0 with regs := { S0.regs with bx := 0x4000 } })
    (fun t => t.ip == 0x4000 && t.regs.sp == 0x1FE && t.byteAt 0x301FE == 0x2 &&
        t.byteAt 0x301FF == 0x1) = true := by decide

/-- spec/95_test_vectors.md V404. -/
theorem test_callFar : after [0x9A, 0x10, 0x00, 0x00, 0x20] S0
    (fun t => t.ip == 0x10 && t.regs.sp == 0x1FC && t.segs.cs == 0x2000 && t.byteAt 0x301FC == 0x5 &&
        t.byteAt 0x301FD == 0x1) = true := by decide

/-- spec/95_test_vectors.md V405. -/
theorem test_callMem : after [0xFF, 0x1F]
    ({ S0 with regs := { S0.regs with bx := 0x10 }, mem := [(0x10010, 0x10), (0x10013, 0x20)] })
    (fun t => t.ip == 0x10 && t.regs.sp == 0x1FC && t.segs.cs == 0x2000 && t.byteAt 0x301FC == 0x2 &&
        t.byteAt 0x301FD == 0x1) = true := by decide

/-- spec/95_test_vectors.md V407. -/
theorem test_retNear : after [0xC3] ({ S0 with mem := [(0x30200, 0x34), (0x30201, 0x12)] })
    (fun t => t.ip == 0x1234 && t.regs.sp == 0x202) = true := by decide

/-- spec/95_test_vectors.md V408. -/
theorem test_retNearImm : after [0xC2, 0x04, 0x00] ({ S0 with mem := [(0x30200, 0x34), (0x30201, 0x12)] })
    (fun t => t.ip == 0x1234 && t.regs.sp == 0x206) = true := by decide

/-- spec/95_test_vectors.md V409. -/
theorem test_retFar : after [0xCB] ({ S0 with mem := [(0x30200, 0x34), (0x30201, 0x12), (0x30203, 0x20)] })
    (fun t => t.ip == 0x1234 && t.regs.sp == 0x204 && t.segs.cs == 0x2000) = true := by decide

/-- spec/95_test_vectors.md V410. -/
theorem test_retFarImm : after [0xCA, 0x02, 0x00]
    ({ S0 with mem := [(0x30200, 0x34), (0x30201, 0x12), (0x30203, 0x20)] })
    (fun t => t.ip == 0x1234 && t.regs.sp == 0x206 && t.segs.cs == 0x2000) = true := by decide

/-- spec/95_test_vectors.md V428. -/
theorem test_je : after [0x74, 0x10] ({ S0 with flags := { S0.flags with ZF := true } })
    (fun t => t.ip == 0x112) = true := by decide

/-- spec/95_test_vectors.md V444. -/
theorem test_jl : after [0x7C, 0x10] ({ S0 with flags := { S0.flags with SF := true } })
    (fun t => t.ip == 0x112) = true := by decide

/-- spec/95_test_vectors.md V448. -/
theorem test_jle : after [0x7E, 0x10] ({ S0 with flags := { S0.flags with OF := true } })
    (fun t => t.ip == 0x112) = true := by decide

/-- spec/95_test_vectors.md V424. -/
theorem test_jb : after [0x72, 0x10] ({ S0 with flags := { S0.flags with CF := true } })
    (fun t => t.ip == 0x112) = true := by decide

/-- spec/95_test_vectors.md V432. -/
theorem test_jbe : after [0x76, 0x10] ({ S0 with flags := { S0.flags with ZF := true } })
    (fun t => t.ip == 0x112) = true := by decide

/-- spec/95_test_vectors.md V440. -/
theorem test_jp : after [0x7A, 0x10] ({ S0 with flags := { S0.flags with PF := true } })
    (fun t => t.ip == 0x112) = true := by decide

/-- spec/95_test_vectors.md V420. -/
theorem test_jo : after [0x70, 0x10] ({ S0 with flags := { S0.flags with OF := true } })
    (fun t => t.ip == 0x112) = true := by decide

/-- spec/95_test_vectors.md V436. -/
theorem test_js : after [0x78, 0x10] ({ S0 with flags := { S0.flags with SF := true } })
    (fun t => t.ip == 0x112) = true := by decide

/-- spec/95_test_vectors.md V430. -/
theorem test_jne : after [0x75, 0x10] S0
    (fun t => t.ip == 0x112) = true := by decide

/-- spec/95_test_vectors.md V446. -/
theorem test_jnl : after [0x7D, 0x10] ({ S0 with flags := { S0.flags with SF := true, OF := true } })
    (fun t => t.ip == 0x112) = true := by decide

/-- spec/95_test_vectors.md V450. -/
theorem test_jnle : after [0x7F, 0x10] ({ S0 with flags := { S0.flags with SF := true, OF := true } })
    (fun t => t.ip == 0x112) = true := by decide

/-- spec/95_test_vectors.md V426. -/
theorem test_jnb : after [0x73, 0x10] S0
    (fun t => t.ip == 0x112) = true := by decide

/-- spec/95_test_vectors.md V434. -/
theorem test_jnbe : after [0x77, 0x10] S0
    (fun t => t.ip == 0x112) = true := by decide

/-- spec/95_test_vectors.md V442. -/
theorem test_jnp : after [0x7B, 0x10] S0
    (fun t => t.ip == 0x112) = true := by decide

/-- spec/95_test_vectors.md V422. -/
theorem test_jno : after [0x71, 0x10] S0
    (fun t => t.ip == 0x112) = true := by decide

/-- spec/95_test_vectors.md V438. -/
theorem test_jns : after [0x79, 0x10] S0
    (fun t => t.ip == 0x112) = true := by decide

/-- spec/95_test_vectors.md V453. -/
theorem test_jcxz : after [0xE3, 0x10] S0
    (fun t => t.ip == 0x112) = true := by decide

/-- spec/95_test_vectors.md V414. -/
theorem test_jmpNear : after [0xE9, 0xFD, 0x0E] S0
    (fun t => t.ip == 0x1000) = true := by decide

/-- spec/95_test_vectors.md V411. -/
theorem test_jmpShort : after [0xEB, 0x05] S0
    (fun t => t.ip == 0x107) = true := by decide

/-- spec/95_test_vectors.md V416. -/
theorem test_jmpRm : after [0xFF, 0xE0] ({ S0 with regs := { S0.regs with ax := 0x1234 } })
    (fun t => t.ip == 0x1234) = true := by decide

/-- spec/95_test_vectors.md V418. -/
theorem test_jmpFar : after [0xEA, 0xF0, 0xFF, 0x00, 0xF0] S0
    (fun t => t.ip == 0xFFF0 && t.segs.cs == 0xF000) = true := by decide

/-- spec/95_test_vectors.md V419. -/
theorem test_jmpMem : after [0xFF, 0x2F]
    ({ S0 with regs := { S0.regs with bx := 0x10 }, mem := [(0x10011, 0x1), (0x10013, 0x50)] })
    (fun t => t.ip == 0x100 && t.segs.cs == 0x5000) = true := by decide

/-- spec/95_test_vectors.md V455. -/
theorem test_loop : after [0xE2, 0xFE] ({ S0 with regs := { S0.regs with cx := 0x2 } })
    (fun t => t.ip == 0x100 && t.regs.cx == 0x1) = true := by decide

/-- spec/95_test_vectors.md V458. -/
theorem test_loopz : after [0xE1, 0x10]
    ({ S0 with regs := { S0.regs with cx := 0x2 }, flags := { S0.flags with ZF := true } })
    (fun t => t.ip == 0x112 && t.regs.cx == 0x1) = true := by decide

/-- spec/95_test_vectors.md V460. -/
theorem test_loopnz : after [0xE0, 0x10] ({ S0 with regs := { S0.regs with cx := 0x2 } })
    (fun t => t.ip == 0x112 && t.regs.cx == 0x1) = true := by decide

/-- spec/95_test_vectors.md V462. -/
theorem test_int : after [0xCD, 0x21] ({ S0 with flags := Flags.ofWord 0xFD5, mem := [(0x85, 0x2), (0x87, 0xC0)] })
    (fun t => t.ip == 0x200 && t.regs.sp == 0x1FA && t.segs.cs == 0xC000 && t.flags.TF == false &&
        t.flags.IF == false && t.byteAt 0x301FA == 0x2 && t.byteAt 0x301FB == 0x1 && t.byteAt 0x301FE == 0xD7 &&
        t.byteAt 0x301FF == 0xFF) = true := by decide

/-- spec/95_test_vectors.md V463. -/
theorem test_int3 : after [0xCC] ({ S0 with flags := { S0.flags with IF := true }, mem := [(0xD, 0x2), (0xF, 0xC0)] })
    (fun t => t.ip == 0x200 && t.regs.sp == 0x1FA && t.segs.cs == 0xC000 && t.flags.IF == false &&
        t.byteAt 0x301FA == 0x1 && t.byteAt 0x301FB == 0x1 && t.byteAt 0x301FE == 0x2 &&
        t.byteAt 0x301FF == 0xF2) = true := by decide

/-- spec/95_test_vectors.md V465. -/
theorem test_into : after [0xCE] ({ S0 with flags := { S0.flags with OF := true }, mem := [(0x11, 0x2), (0x13, 0xC0)] })
    (fun t => t.ip == 0x200 && t.regs.sp == 0x1FA && t.segs.cs == 0xC000 && t.byteAt 0x301FA == 0x1 &&
        t.byteAt 0x301FB == 0x1 && t.byteAt 0x301FE == 0x2 && t.byteAt 0x301FF == 0xF8) = true := by decide

/-- spec/95_test_vectors.md V466. -/
theorem test_iret : after [0xCF]
    ({ S0 with mem := [(0x30200, 0x2), (0x30201, 0x1), (0x30203, 0x8), (0x30204, 0xD7), (0x30205, 0xFF)] })
    (fun t => t.ip == 0x102 && t.regs.sp == 0x206 && t.segs.cs == 0x800 && t.flags.CF == true &&
        t.flags.PF == true && t.flags.AF == true && t.flags.ZF == true && t.flags.SF == true &&
        t.flags.TF == true && t.flags.IF == true && t.flags.DF == true && t.flags.OF == true) = true := by decide

/-- spec/95_test_vectors.md V500. -/
theorem test_clc : after [0xF8] ({ S0 with flags := Flags.ofWord 0xFD5 })
    (fun t => t.ip == 0x101 && t.flags.CF == false) = true := by decide

/-- spec/95_test_vectors.md V502. -/
theorem test_cmc : after [0xF5] ({ S0 with flags := { S0.flags with CF := true } })
    (fun t => t.ip == 0x101 && t.flags.CF == false) = true := by decide

/-- spec/95_test_vectors.md V501. -/
theorem test_stc : after [0xF9] S0
    (fun t => t.ip == 0x101 && t.flags.CF == true) = true := by decide

/-- spec/95_test_vectors.md V504. -/
theorem test_cld : after [0xFC] ({ S0 with flags := { S0.flags with DF := true } })
    (fun t => t.ip == 0x101 && t.flags.DF == false) = true := by decide

/-- spec/95_test_vectors.md V505. -/
theorem test_std : after [0xFD] S0
    (fun t => t.ip == 0x101 && t.flags.DF == true) = true := by decide

/-- spec/95_test_vectors.md V506. -/
theorem test_cli : after [0xFA] ({ S0 with flags := { S0.flags with IF := true } })
    (fun t => t.ip == 0x101 && t.flags.IF == false) = true := by decide

/-- spec/95_test_vectors.md V507. -/
theorem test_sti : after [0xFB] S0
    (fun t => t.ip == 0x101 && t.flags.IF == true && t.inhibit == true) = true := by decide

/-- spec/95_test_vectors.md V509. -/
theorem test_hlt : after [0xF4] S0
    (fun t => t.ip == 0x101 && t.halted == true) = true := by decide

/-- spec/95_test_vectors.md V510. -/
theorem test_wait : after [0x9B] S0
    (fun t => t.ip == 0x101) = true := by decide

/-- spec/95_test_vectors.md V511. -/
theorem test_esc : after [0xD9, 0x06, 0x00, 0x10] ({ S0 with mem := [(0x11000, 0xAA), (0x11001, 0xBB)] })
    (fun t => t.ip == 0x104) = true := by decide

/-- spec/41_arithmetic.md R245: 1 + FFFFh + CF. -/
theorem test_adcRmImm : after [0x83, 0xD3, 0xFF] { S0 with regs := { S0.regs with bx := 1 }, flags := { S0.flags with CF := true } }
    (fun t => t.regs.bx == 1 && t.flags.CF == true && t.flags.AF == true && t.flags.ZF == false) = true := by decide

/-- spec/41_arithmetic.md R252: 0 - 1 borrows. -/
theorem test_subRmImm : after [0x80, 0xEB, 0x01] S0
    (fun t => t.regs.bx == 0xFF && t.flags.CF == true && t.flags.SF == true && t.flags.OF == false) = true := by decide

/-- spec/41_arithmetic.md R255: 8000h - 0 - CF overflows. -/
theorem test_sbbRmImm : after [0x81, 0xDB, 0x00, 0x00]
    { S0 with regs := { S0.regs with bx := 0x8000 }, flags := { S0.flags with CF := true } }
    (fun t => t.regs.bx == 0x7FFF && t.flags.OF == true && t.flags.CF == false) = true := by decide

/-- spec/43_string.md R321, R328: one iteration of three, IP back at the prefix. -/
theorem test_rep : after [0xF3, 0xA4] { S0 with regs := { S0.regs with cx := 3, si := 0xFFFF }, mem := [(0x1FFFF, 0x5A)] }
    (fun t => t.regs.cx == 2 && t.ip == 0x100 && t.inRepeat && t.regs.si == 0 && t.byteAt 0x20000 == 0x5A) = true := by decide

/-- spec/43_string.md R322, R328: REPNE SCASB stops on the byte it looks for. -/
theorem test_repne : after [0xF2, 0xAE] { S0 with regs := { S0.regs with ax := 0x41, cx := 3 }, mem := [(0x20000, 0x41)] }
    (fun t => t.regs.cx == 2 && t.ip == 0x102 && !t.inRepeat && t.flags.ZF && t.regs.di == 1) = true := by decide

/-- spec/45_processor_control.md R411. -/
theorem test_lock : after [0xF0, 0x86, 0x07] { S0 with regs := { S0.regs with ax := 0x12 }, mem := [(0x10000, 0x34)] }
    (fun t => t.regs.ax == 0x34 && t.byteAt 0x10000 == 0x12 && t.ip == 0x103 && t.lock) = true := by decide

/-- spec/45_processor_control.md R412: `36 8B 09` reads from SS. -/
theorem test_segment : after [0x36, 0x8B, 0x09] { S0 with mem := [(0x30000, 0x34), (0x30001, 0x12)] }
    (fun t => t.regs.cx == 0x1234 && t.ip == 0x103) = true := by decide

/-! ## Single steps -/

/-- The next state has the property. -/
def steps (s : State) (p : State → Bool) : Bool := match step s with | .next t => p t | _ => false

/-- The refusal, if the outcome is one. -/
def refusal (o : Out State) : Option Refusal := match o with | .refused r => some r | _ => none

/-- The fault, if the outcome is one. -/
def fault (o : Out State) : Option Fault := match o with | .fault r => some r | _ => none

/-- The host's question: the first instruction after reset is the one placed (spec/70_reset_and_hazards.md R540). -/
theorem test_step_after_reset :
    steps (State.reset.withFetchWord 16 0xB034) (fun t => t.regs.ax == 0x0034 && t.ip == 2 && t.segs.cs == 0xFFFF) = true := by
  decide

/-- STI's shadow lasts one instruction: INTR waits (spec/60_exceptions.md R508, R509). -/
theorem test_step_sti_shadow :
    steps { S0 with mem := [(0x100, 0xFB)], intr := some 0x21 } (fun t => t.ip == 0x101 && t.flags.IF && !t.inhibit) = true := by
  decide

/-- INTR is taken after the instruction when IF = 1 (spec/60_exceptions.md R506, R508). -/
theorem test_step_intr :
    steps { S0 with mem := [(0x85, 0x10), (0x87, 0xF0), (0x100, 0x90)], intr := some 0x21, flags := { S0.flags with IF := true } }
      (fun t => t.ip == 0x1000 && t.segs.cs == 0xF000 && t.regs.sp == 0x1FA && !t.flags.IF && t.byteAt 0x301FA == 0x01 &&
        t.byteAt 0x301FB == 0x01 && t.byteAt 0x301FE == 0x02 && t.byteAt 0x301FF == 0xF2) = true := by decide

/-- An instruction that begins with TF = 1 is followed by type 1 (spec/60_exceptions.md R505). -/
theorem test_step_single_step :
    steps { S0 with mem := [(0x5, 0x20), (0x100, 0x90)], flags := { S0.flags with TF := true } }
      (fun t => t.ip == 0x2000 && !t.flags.TF && t.regs.sp == 0x1FA && t.byteAt 0x301FF == 0xF1) = true := by decide

/-- NMI wakes a halted CPU (spec/45_processor_control.md R408, spec/60_exceptions.md R504). -/
theorem test_step_nmi_while_halted :
    steps { S0 with halted := true, mem := [(0x9, 0x30)], inputs := [⟨false, true, none, true, [], []⟩] }
      (fun t => t.ip == 0x3000 && !t.halted && !t.nmiPending) = true := by decide

/-- Between two iterations the saved IP is the last prefix byte's (spec/43_string.md R329). -/
theorem test_step_interrupted_repeat :
    steps { S0 with
        mem := [(0x100, 0xF3), (0x101, 0x26), (0x102, 0xA4)], regs := { S0.regs with cx := 2 }, intr := some 0x21,
        flags := { S0.flags with IF := true } }
      (fun t => t.byteAt 0x301FA == 0x01 && t.byteAt 0x301FB == 0x01 && t.regs.cx == 1 && !t.inRepeat) = true := by decide

/-- The queue after NOP: the byte already queued stays as it was, six more lie after the instruction; the next step meets
the stale byte (spec/70_reset_and_hazards.md R545, U14). -/
theorem test_step_prefetch_race :
    steps { S0 with mem := [(0x100, 0x90), (0x101, 0xF4)], queue := [⟨0x101, 0xF5, false⟩] }
      (fun t => queued t.queue 0x101 == some ⟨0x101, 0xF5, false⟩ && queued t.queue 0x106 == some ⟨0x106, 0, false⟩ &&
        t.queue.length == 7) = true ∧
    refusal (step { S0 with ip := 0x101, mem := [(0x101, 0xF4)], queue := [⟨0x101, 0xF5, false⟩] }) = some .prefetchRace := by
  decide

/-- `MOV [0105h],90h` where 90h stands already, in the next six bytes: a race all the same (spec/20_memory.md R78). -/
theorem test_step_prefetch_race_same_value :
    steps { S0 with
        segs := ⟨0, 0, 0, 0⟩
        mem := [(0x100, 0xC6), (0x101, 0x06), (0x102, 0x05), (0x103, 0x01), (0x104, 0x90), (0x105, 0x90)] }
      (fun t => t.ip == 0x105 && refusal (step t) == some .prefetchRace) = true := by decide

/-- `FE 06 00 00` is INC [0000h]. Another master's write before the read is counted up, between read and write it is lost,
under LOCK it waits (spec/20_memory.md R68, R77). -/
theorem test_step_other_masters :
    let s := { S0 with mem := [(0x100, 0xFE), (0x101, 0x06), (0x10000, 5)] }
    let l := { S0 with mem := [(0x100, 0xF0), (0x101, 0xFE), (0x102, 0x06), (0x10000, 5)] }
    let dma : Burst := [(0x10000, 0x40)]
    steps { s with inputs := [⟨false, false, none, true, dma, []⟩] } (fun t => t.byteAt 0x10000 == 0x41) = true ∧
    steps { s with inputs := [⟨false, false, none, true, [], [dma]⟩] } (fun t => t.byteAt 0x10000 == 0x41) = true ∧
    steps { s with inputs := [⟨false, false, none, true, [], [[], dma]⟩] } (fun t => t.byteAt 0x10000 == 6) = true ∧
    steps { l with inputs := [⟨false, false, none, true, [], [dma]⟩] }
      (fun t => t.byteAt 0x10000 == 0x40 && t.due.isEmpty) = true := by decide

/-- A repeat before an instruction that is not a string primitive (spec/30_encoding.md R115, U10). -/
theorem test_step_refused :
    refusal (step { S0 with mem := [(0x100, 0xF3), (0x101, 0x90)] }) = some .repNonString := by decide

/-- Memory that is not there has no step (spec/20_memory.md R80). -/
theorem test_step_unmapped :
    fault (step { S0 with mem := [(0x100, 0x50)], unmapped := [⟨0x30000, 0x301FF⟩] }) = some (.unmappedWrite 0x301FE) := by
  decide

/-! ## Witnesses: states and operands that meet the premises of each statement together, at the ends of their ranges -/

/-- A platform with a hole, a ROM and undriven ports beside the RAM. -/
def S1 : State :=
  { S0 with unmapped := [⟨0xA0000, 0xAFFFF⟩], rom := [⟨0xF0000, 0xFFFFF⟩], undriven := [⟨0x0100, 0xFFFF⟩] }

/-- S1 with these bytes at CS:IP. -/
def code (ip : Word) (bs : List Byte) : State :=
  { S1 with ip := ip, mem := S1.store ip bs [], rom := [⟨0xF0000, 0xFFFFF⟩] }

/-- The outcome is a next state. -/
def isNext {α : Type} (o : Out α) : Bool := match o with | .next _ => true | _ => false

theorem witness_DecodeOfEncode :
    (Instr.addRmImm true .word (.disp16 .bp 0xFFFF) 0xFF80).wf = true ∧ (Instr.movRegImm .byte .di 0x00FF).wf = true := by
  decide

theorem witness_EncodeOfDecode :
    decodeOne [0x83, 0x86, 0xFF, 0xFF, 0x80, 0x55] = .ok (.addRmImm true .word (.disp16 .bp 0xFFFF) 0xFF80, [0x55]) := by
  decide

theorem witness_PrefixedInstructionsDecode :
    (∀ p ∈ [Instr.rep, .segment .es], p.isPrefix = true) ∧ prefixesAllowed [.rep, .segment .es] = true ∧
    (Instr.movs .byte).isPrefix = false ∧ (Instr.movs .byte).wf = true ∧
    prefixesFit [.rep, .segment .es] (.movs .byte) = true := by decide

theorem witness_MisusedPrefixesRefused :
    Instr.isPrefix .rep = true ∧ Instr.isPrefix .lock = true ∧ Instr.isSegment .rep = false ∧
    Instr.isSegment .lock = false ∧ Instr.isRepeat .repne = true ∧ Instr.isPrefix .hlt = false ∧
    Instr.isString .hlt = false ∧ Instr.wf .hlt = true := by decide

theorem witness_StepRunsDecodedInstruction :
    let s := { code 0x100 [0xF3, 0x26, 0xA5] with inputs := [⟨false, false, none, true, [(0x102, 0xA4)], [[(0, 1)]]⟩] }
    s.resetNow = false ∧ s.halted = false ∧
    decode (s.sample.codeBytes maxLength s.ip) = .ok ⟨[.rep, .segment .es], .movs .byte, 3⟩ ∧
    s.sample.raced 3 = false := by decide

/-- The queue holds the instruction's bytes, and a marked byte beyond them. -/
theorem witness_StepRunsEncodedInstruction :
    let s := { code 0xFFFF [0xB8, 0x34, 0x12] with
      queue := [⟨0x0FFFF, 0xB8, false⟩, ⟨0x00000, 0x34, false⟩, ⟨0x00001, 0x12, false⟩, ⟨0x00002, 0, true⟩] }
    let i := Instr.movRegImm .word .ax 0x1234
    s.resetNow = false ∧ s.halted = false ∧ i.wf = true ∧ i.isPrefix = false ∧
    s.sample.raced (encode i).length = false ∧
    ∀ k, ∀ h : k < (encode i).length,
      canReadByte (s.codeAddr s.ip k) s = true ∧ s.sample.byteAt (s.codeAddr s.ip k) = (encode i)[k] := by decide

/-- First and last byte of the queue; an instruction that answers; a byte that differs, and a byte that is marked. -/
theorem witness_PrefetchQueueAndRace :
    let s := { code 0x100 [0xB8, 0x34, 0x12] with queue := [⟨0x00102, 0x99, false⟩] }
    let m := { s with queue := [⟨0x00100, 0xB8, true⟩] }
    (0 < 3 + Config.prefetchDepth ∧ 8 < 3 + Config.prefetchDepth ∧ queued s.queue (s.codeAddr s.ip 8) = none ∧
      queued s.queue (s.codeAddr s.ip 2) = some ⟨0x00102, 0x99, false⟩) ∧
    (s.alone = true ∧ isNext (exec (.pushReg .ax) s) = true ∧ isNext (exec (.divRm .byte (.reg .cx)) s) = true ∧
      isNext (writeMem .word 0x0010 0x0001 0x9934 s) = true ∧ s.storedBy (.movMemAcc .byte 2) ≠ []) ∧
    (s.resetNow = false ∧ s.halted = false ∧
      decode (s.sample.codeBytes maxLength s.ip) = .ok ⟨[], .movRegImm .word .ax 0x1234, 3⟩ ∧
      queued s.sample.queue (s.codeAddr s.ip 2) = some ⟨0x00102, 0x99, false⟩ ∧
      (0x99 : Byte) ≠ s.sample.byteAt (s.codeAddr s.ip 2) ∧
      queued m.sample.queue (m.codeAddr m.ip 0) = some ⟨0x00100, 0xB8, true⟩) ∧
    (code 0x100 [0xF4]).queue = [] ∧ decode ((code 0x100 [0xF4]).codeBytes maxLength 0x100) = .ok ⟨[], .hlt, 1⟩ := by
  decide

theorem witness_HaltedCpu :
    let h := { S1 with halted := true }
    let e := { h with flags := { h.flags with IF := true } }
    let n := { h with inputs := [⟨false, true, none, true, [], []⟩] }
    let i := { e with inputs := [⟨false, false, some 0xFF, true, [], []⟩] }
    let q := { h with inputs := [⟨false, false, none, true, [], []⟩] }
    (n.resetNow = false ∧ n.inhibit = false ∧ n.sample.nmiPending = true) ∧
    (i.resetNow = false ∧ i.sample.nmiPending = false ∧ i.flags.IF = true ∧ i.sample.intr = some 0xFF) ∧
    (e.sample.nmiPending = false ∧ e.flags.IF = true ∧ e.sample.intr = none) ∧
    (q.resetNow = false ∧ q.sample.nmiPending = false ∧ q.flags.IF = false ∧ q.inputs ≠ []) ∧
    (h.resetNow = false ∧ h.nmiPending = false ∧ h.flags.IF = false ∧ h.inputs = []) := by decide

theorem witness_InputsOfAStep :
    let l : Lines := ⟨true, true, some 0xFF, false, [(0x00000, 1), (0xFFFFF, 2)], [[(0x12345, 3)]]⟩
    (({ S1 with inputs := [l] } : State).inputs = l :: [] ∧ S1.mem.wf = true) ∧ S1.inputs = [] ∧
    isNext (exec (.movMemAcc .word 0xFFFF) S1) = true ∧ isNext (recognise true 0x100 S1) = true := by decide

/-- Quiet, busy and locked; a word at an even and at an odd offset, FFFFh included. -/
theorem witness_AccessesAmongOtherMasters :
    let b := { S1 with due := [[(0x10000, 1)], []] }
    let l := { b with lock := true }
    S1.mem.wf = true ∧ S1.due = [] ∧ (b.lock = false ∧ b.due = [(0x10000, 1)] :: [[]]) ∧ l.lock = true ∧
    (admitsRead .byte 0x1000 0xFFFF b = true ∧ admitsWrite .byte 0x1000 0xFFFF b = true ∧
      b.place (.direct 0xFFFF) = .mem 0x1000 0xFFFF) ∧
    (admitsRead .word 0x1000 0xFFFF b = true ∧ admitsWrite .word 0x1000 0xFFFF b = true ∧
      (0xFFFF : Word).getLsbD 0 = true) ∧
    (admitsRead .word 0x1000 0xFFFE b = true ∧ admitsWrite .word 0x1000 0xFFFE b = true ∧
      (0xFFFE : Word).getLsbD 0 = false) ∧
    isNext (exec (.incRm .byte (.direct 0xFFFF)) l) = true := by decide

/-- The second byte of a word in the hole and in ROM, a vector's last byte, DIV, an instruction's second byte. -/
theorem witness_AccessesOutsideTheMap :
    let s := { S1 with segs := ⟨0, 0x9FFF, 0x9FFF, 0x9FFF⟩, regs := { S1.regs with sp := 0x000F } }
    let r := { S1 with segs := { S1.segs with ss := 0xEFFF, ds := 0xEFFF }, regs := { S1.regs with sp := 0x0011 } }
    let v := { S1 with unmapped := [⟨0x3FF, 0x3FF⟩] }
    let q := { s with ip := 0x000F, mem := [(0x9FFFF, 0xB0)] }
    let i := Instr.movRegImm .byte .ax 0
    (s.faultAmong (s.operandCells .word (.direct 0x000F)) [] = some (.unmappedRead 0xA0000) ∧
      s.faultAmong (s.popCells 0) [] = some (.unmappedRead 0xA0000) ∧
      s.faultAmong [] (s.operandCells .word (.direct 0x000F)) = some (.unmappedWrite 0xA0000)) ∧
    (r.faultAmong [] (r.operandCells .word (.direct 0x000F)) = some (.romWrite 0xF0000) ∧
      r.faultAmong [] (r.pushCells 0) = some (.romWrite 0xF0000)) ∧
    v.faultAmong (vectorCells 0xFF) [] = some (.unmappedRead 0x3FF) ∧
    (s.alone = true ∧ s.faultAmong (s.readBy (.divRm .word (.direct 0x000F))) (s.storedBy (.divRm .word (.direct 0x000F))) =
      some (.unmappedRead 0xA0000)) ∧
    (i.wf = true ∧ i.isPrefix = false ∧ 1 < (encode i).length ∧ canReadByte (q.codeAddr q.ip 0) q = true ∧
      (encode i)[0]? = some (q.byteAt (q.codeAddr q.ip 0)) ∧ canReadByte (q.codeAddr q.ip 1) q = false) := by decide

theorem witness_ResetLineAtAnyTime :
    let s := { S1 with halted := true, inputs := [⟨true, false, none, true, [], []⟩] }
    s.resetNow = true ∧ s.inputs = ⟨true, false, none, true, [], []⟩ :: [] := by decide

theorem witness_InvariantKeptByEveryStep :
    let s := { code 0x100 [0xF3, 0xA4] with
      regs := { S0.regs with cx := 1 }, inRepeat := true, queue := List.replicate 14 ⟨0x90000, 0, false⟩ }
    s.Inv ∧ isNext (step s) = true := ⟨⟨by decide, rfl, rfl, rfl, rfl, fun _ => by decide, by decide⟩, by decide⟩

theorem witness_PlatformKeptByEveryStep :
    isNext (step (code 0x100 [0x50])) = true ∧
    inSpans (code 0x100 [0x50]).rom (0xF0000 : PAddr).toNat = true ∧
    inSpans (code 0x100 [0x50]).rom (0xFFFFF : PAddr).toNat = true := by decide

theorem witness_RegisterWritesAndHalves : RegCode.sp ≠ .ax ∧ RegCode.ax ≠ .sp := by decide

theorem witness_WordWriteReadBack :
    let m : Memory := [(0, 1), (0xFFFFF, 0xFF)]
    (S1.mem.wf = true ∧ canWrite .word 0x3000 0xFFFF S1 = true ∧ canWrite .word 0x9000 0xFFFE S1 = true) ∧
    (m.wf = true ∧ ∀ a : PAddr, m.read a.toNat = m.read a.toNat) := ⟨by decide, by decide, fun _ => rfl⟩

theorem witness_EffectiveAddressAndSegment :
    AddrBase.bpDi ≠ .bp ∧ S0.place (.base .bpDi) = .mem 0x3000 0 := by decide

theorem witness_MovForms :
    S1.mem.wf = true ∧ canReadRM .word (.direct 0xFFFF) S1 = true ∧ canWriteRM .word (.direct 0xFFFF) S1 = true ∧
    canRead .byte (S1.segOr .ds) 0xFFFF S1 = true ∧ canWrite .word (S1.segOr .ds) 0xFFFF S1 = true := by decide

theorem witness_SegmentRegisterMoves :
    SegReg.ss ≠ .cs ∧ canReadRM .word (.direct 0xFFFF) S1 = true ∧ S1.mem.wf = true ∧
    canWriteRM .word (.direct 0xFFFF) S1 = true ∧ canPop 0 { S1 with regs := { S1.regs with sp := 0xFFFF } } = true := by
  decide

theorem witness_PushForms :
    ([0, 1, 2, 0xFFFF].all fun sp => let s := { S1 with regs := { S1.regs with sp := sp } }
      s.mem.wf && canPush 0 s && canReadRM .word (.reg .sp) s && canReadRM .word (.direct 0xFFFF) s) = true := by decide

theorem witness_PopForms :
    ([0, 0xFFFE, 0xFFFF].all fun sp => let s := { S1 with regs := { S1.regs with sp := sp } }
      canPop 0 s && s.mem.wf && canWriteRM .word (.reg .sp) s && canWriteRM .word (.direct 0xFFFF) s) = true := by decide

theorem witness_XchgForms :
    S1.mem.wf = true ∧ canReadRM .byte (.direct 0xFFFF) S1 = true ∧ canWriteRM .byte (.direct 0xFFFF) S1 = true := by decide

theorem witness_PortForms :
    let s := { S1 with regs := { S1.regs with dx := 0x00FE }, ioIn := [(0x00FF, 0x12), (0x00FE, 0x34)] }
    driven .byte (zext16 0xFF) s = true ∧ driven .word (zext16 0xFE) s = true ∧ driven .word s.regs.dx s = true ∧
    driven .byte s.regs.dx s = true ∧ takePort (zext16 0xFF) s.ioIn = some (0x12, [(0x00FE, 0x34)]) ∧
    takePort s.regs.dx s.ioIn = some (0x34, [(0x00FF, 0x12)]) ∧
    takePort (s.regs.dx + 1) [(0x00FF, 0x12)] = some (0x12, []) ∧
    (let u := { s with undriven := [], ioIn := [(0x0100, 0x56), (0x00FF, 0x12)] };
      driven .word (zext16 0xFF) u = true ∧ takePort (zext16 0xFF) u.ioIn = some (0x12, [(0x0100, 0x56)]) ∧
      takePort (zext16 (0xFF : Byte) + 1) [(0x0100, 0x56)] = some (0x56, [])) := by decide

theorem witness_AddressAndFlagTransfers :
    let s := { S1 with regs := { S1.regs with bx := 0xFFFF, ax := 0x00FF } }
    canRead .byte (s.segOr .ds) (s.regs.bx + zext16 (lowByte s.regs.ax)) s = true ∧
    s.place (.direct 0xFFFF) = .mem 0x1000 0xFFFF ∧ canReadPointer (.direct 0xFFFD) s = true := by decide

theorem witness_RefusedOperands :
    inSpans { S1 with undriven := [⟨0xFF, 0xFFFF⟩] : State }.undriven (zext16 0xFF).toNat = true ∧
    inSpans S1.undriven { S1.regs with dx := 0x0100 : Regs }.dx.toNat = true ∧
    inSpans S1.undriven { S1.regs with dx := 0xFFFF : Regs }.dx.toNat = true := by decide

theorem witness_AddSubtractForms :
    S1.mem.wf = true ∧ canReadRM .word (.direct 0xFFFF) S1 = true ∧ canWriteRM .word (.direct 0xFFFF) S1 = true := by decide

theorem witness_CompareAndTestForms : canReadRM .word (.direct 0xFFFF) S1 = true ∧ canReadRM .byte (.reg .sp) S1 = true := by
  decide

theorem witness_LogicForms :
    S1.mem.wf = true ∧ canReadRM .byte (.direct 0xFFFF) S1 = true ∧ canWriteRM .byte (.direct 0xFFFF) S1 = true := by decide

theorem witness_OneOperandForms :
    S1.mem.wf = true ∧ canReadRM .word (.direct 0xFFFF) S1 = true ∧ canWriteRM .word (.direct 0xFFFF) S1 = true := by decide

theorem witness_Products : canReadRM .word (.direct 0xFFFF) S1 = true ∧ canReadRM .byte (.reg .di) S1 = true := by decide

theorem witness_AsciiMultiplyDivideAndExtensions : (0x0B : Byte) ≠ 0x0A := by decide

/-- The greatest quotients, and the least that IDIV admits: 65535 / 257 and 65535 * 65536 / 65535; -127 and -32767. -/
theorem witness_Quotients :
    let s := { S1 with regs := { S1.regs with ax := 0xFFFF, dx := 0xFFFE, bx := 0x00FF, cx := 0xFFFF } }
    let n := { S1 with regs := { S1.regs with ax := 0xFF81, bx := 0x0001 } }
    let m := { S1 with regs := { S1.regs with ax := 0x8001, dx := 0xFFFF, bx := 0x0001 } }
    let u := { S1 with regs := { S1.regs with ax := 0xFEFF, bx := 0x00FF } }
    (canReadRM .byte (.reg .bx) u = true ∧ u.operand .byte (.reg .bx) ≠ 0 ∧
      u.regs.ax.toNat = (0xFF : Byte).toNat * (u.operand .byte (.reg .bx)).toNat + (0xFE : Byte).toNat ∧
      (0xFE : Byte).toNat < (u.operand .byte (.reg .bx)).toNat) ∧
    (canReadRM .byte (.reg .bx) n = true ∧ (lowByte (n.operand .byte (.reg .bx))).toInt ≠ 0 ∧ -127 ≤ (0x81 : Byte).toInt ∧
      (0x81 : Byte).toInt = n.regs.ax.toInt.tdiv (lowByte (n.operand .byte (.reg .bx))).toInt ∧
      (0 : Byte).toInt = n.regs.ax.toInt.tmod (lowByte (n.operand .byte (.reg .bx))).toInt) ∧
    (canReadRM .word (.reg .cx) s = true ∧ s.operand .word (.reg .cx) ≠ 0 ∧
      s.regs.dx.toNat * 2 ^ 16 + s.regs.ax.toNat =
        (0xFFFF : Word).toNat * (s.operand .word (.reg .cx)).toNat + (0xFFFE : Word).toNat ∧
      (0xFFFE : Word).toNat < (s.operand .word (.reg .cx)).toNat) ∧
    (canReadRM .word (.reg .bx) m = true ∧ (m.operand .word (.reg .bx)).toInt ≠ 0 ∧ -32767 ≤ (0x8001 : Word).toInt ∧
      (0x8001 : Word).toInt = (m.regs.dx.toInt * 2 ^ 16 + m.regs.ax.toNat).tdiv (m.operand .word (.reg .bx)).toInt ∧
      (0 : Word).toInt = (m.regs.dx.toInt * 2 ^ 16 + m.regs.ax.toNat).tmod (m.operand .word (.reg .bx)).toInt) := by decide

/-- A divisor of 0, and the least quotients that do not fit. -/
theorem witness_DivideErrorTaken :
    let z := { S1 with regs := { S1.regs with ax := 0x0100, bx := 1, sp := 6 } }
    let w := { S1 with regs := { S1.regs with dx := 1, bx := 1 } }
    let p := { S1 with regs := { S1.regs with ax := 0x0080, bx := 1 } }
    let n := { S1 with regs := { S1.regs with ax := 0x8000, dx := 0xFFFF, bx := 1 } }
    z.mem.wf = true ∧ canInterrupt 0 z = true ∧ canReadRM .byte (.reg .bx) z = true ∧ z.operand .byte (.reg .cx) = 0 ∧
    2 ^ 8 ≤ z.regs.ax.toNat / (z.operand .byte (.reg .bx)).toNat ∧ canInterrupt 0 w = true ∧
    2 ^ 16 ≤ (w.regs.dx.toNat * 2 ^ 16 + w.regs.ax.toNat) / (w.operand .word (.reg .bx)).toNat ∧ canInterrupt 0 p = true ∧
    127 < p.regs.ax.toInt.tdiv (lowByte (p.operand .byte (.reg .bx))).toInt ∧ canInterrupt 0 n = true ∧
    (n.regs.dx.toInt * 2 ^ 16 + n.regs.ax.toNat).tdiv (n.operand .word (.reg .bx)).toInt < -32767 := by decide

theorem witness_SumsAndDifferencesExact :
    (0xFF : Word).toNat < 2 ^ bitsOf .byte ∧ (0xFFFF : Word).toNat < 2 ^ bitsOf .word := by decide

theorem witness_ShiftAndRotateForms :
    S1.mem.wf = true ∧ canReadRM .word (.direct 0xFFFF) S1 = true ∧ canWriteRM .word (.direct 0xFFFF) S1 = true := by decide

theorem witness_ShiftAndRotateResults :
    (0xFF : Word).toNat < 2 ^ bitsOf .byte ∧ (0xFFFF : Word).toNat < 2 ^ bitsOf .word ∧ 1 ≠ 0 ∧ 255 ≠ 0 := by decide

theorem witness_StringPrimitives :
    let s := { S1 with regs := { S1.regs with si := 0xFFFF, di := 0 }, flags := { S1.flags with DF := true } }
    s.cur.rep = none ∧ s.mem.wf = true ∧ canRead .word (s.segOr .ds) s.regs.si s = true ∧
    canWrite .word s.segs.es s.regs.di s = true ∧ canRead .word s.segs.es s.regs.di s = true := by decide

theorem witness_RepeatLoop :
    let s := { S1 with cur := ⟨0x100, 1, none, some true⟩ }
    let t := { s with regs := { s.regs with cx := 1 } }
    Instr.isString (.cmps .byte) = true ∧ s.cur.rep = some true ∧ s.regs.cx = 0 ∧ t.regs.cx ≠ 0 ∧
    isNext (exec (.cmps .byte) { t with cur := { t.cur with rep := none } }) = true := by decide

theorem witness_PrefixesWithoutEffect :
    isNext (exec (.pushReg .sp) S1) = true ∧ Instr.pushReg .sp ≠ .lock ∧ S1.due = [] ∧
    isNext (exec (.jnle 0x80) S1) = true ∧ isNext (exec (.callRm (.reg .sp)) S1) = true := by decide

theorem witness_CallForms :
    let s := { S1 with regs := { S1.regs with sp := 3 } }
    s.mem.wf = true ∧ canPush 0 s = true ∧ canPush 2 s = true ∧ canReadRM .word (.direct 0xFFFF) s = true ∧
    canReadPointer (.direct 0xFFFD) s = true := by decide

theorem witness_ReturnForms :
    let s := { S1 with regs := { S1.regs with sp := 0xFFFD } }
    canPop 0 s = true ∧ canPop 2 s = true := by decide

theorem witness_JumpAndLoopForms :
    canReadRM .word (.direct 0xFFFF) S1 = true ∧ canReadPointer (.direct 0xFFFD) S1 = true := by decide

theorem witness_SoftwareInterrupts :
    let s := { S1 with flags := { S1.flags with OF := true } }
    s.mem.wf = true ∧ canInterrupt 0 s = true ∧ canInterrupt 0xFF s = true ∧ canInterrupt 3 s = true ∧
    s.flags.OF = true ∧ canInterrupt 4 s = true ∧ S1.flags.OF = false := by decide

theorem witness_InterruptSequenceLeaves :
    ([0, 3, 5, 0x200].all fun sp => let s := { S1 with regs := { S1.regs with sp := sp } }
      s.mem.wf && canInterrupt 0xFF s && canInterrupt 0 s) = true := by decide

theorem witness_InterruptReturn :
    let s := { S1 with regs := { S1.regs with sp := 0xFFFB } }
    (canPop 0 s = true ∧ canPop 2 s = true ∧ canPop 4 s = true) ∧ S1.mem.wf = true ∧ canInterrupt 0xFF S1 = true := by
  decide

theorem witness_RecognitionOrder :
    let n := { S1 with nmiPending := true }
    let i := { S1 with flags := { S1.flags with IF := true }, intr := some 0xFF }
    let r := { S1 with inRepeat := true, cur := ⟨0x100, 1, none, some true⟩ }
    { S1 with inhibit := true : State }.inhibit = true ∧ (n.inhibit = false ∧ n.nmiPending = true) ∧
    (i.inhibit = false ∧ i.nmiPending = false ∧ i.flags.IF = true ∧ i.intr = some 0xFF) ∧
    (S1.inhibit = false ∧ S1.nmiPending = false ∧ S1.flags.IF = false) ∧
    (r.inRepeat = true ∧ 1 ≤ r.cur.nPrefix) ∧ S1.inRepeat = false := by decide

theorem witness_ControlFlagWriters : isNext (exec .popf S1) = true ∧ isNext (exec (.divRm .byte (.reg .bx)) S1) = true := by
  decide

theorem witness_SegmentRegisterWriters :
    isNext (exec (.movSregRm .ss (.reg .ax)) S1) = true ∧ isNext (exec (.idivRm .word (.reg .bx)) S1) = true := by decide

theorem witness_InstructionsThatTouchNoFlag : isNext (exec (.notRm .word (.direct 0xFFFF)) S1) = true := by decide

theorem witness_FlagInstructions :
    S1.flags.IF = false ∧ { S1.flags with IF := true : Flags }.IF = true := by decide

theorem witness_HaltWaitEscape :
    S1.test = true ∧ { S1 with test := false : State }.test = false ∧ canReadRM .word (.direct 0xFFFF) S1 = true := by decide

end Sys2Proof.Tests
end

section
/-! Exactness of the flag computations of spec/00_scope.md R9 (O40). Values, sign and flags are first stated as numbers,
then the results and flags of `AddFlags`, `SubFlags` and `LogicFlags` follow by linear arithmetic at each width. -/

namespace Sys2Proof.Machine

/-! ## Values at a width as numbers -/

theorem clip_toNat (w : Width) (n : Int) : ((clip w n).toNat : Int) = n % 2 ^ bitsOf w := by
  cases w <;> simp only [clip, bitsOf, BitVec.toNat_ofInt] <;> omega

theorem clip_toNat_lt (w : Width) (n : Int) : (clip w n).toNat < 2 ^ bitsOf w := by
  have h := clip_toNat w n
  cases w <;> simp only [bitsOf] at h ⊢ <;> omega

theorem msb_eq_decide {w : Width} {v : Word} (hv : v.toNat < 2 ^ bitsOf w) :
    msb w v = decide (2 ^ (bitsOf w - 1) ≤ v.toNat) := by
  rw [msb, BitVec.getLsbD, Nat.testBit_eq_decide_div_mod_eq, decide_eq_decide]
  cases w <;> simp only [bitsOf] at hv ⊢ <;> omega

theorem signedOf_eq {w : Width} {v : Word} (hv : v.toNat < 2 ^ bitsOf w) :
    signedOf w v = if 2 ^ (bitsOf w - 1) ≤ v.toNat then (v.toNat : Int) - 2 ^ bitsOf w else v.toNat := by
  cases w with
  | byte =>
    simp only [signedOf, bitsOf, lowByte, BitVec.toInt_eq_toNat_cond, BitVec.toNat_setWidth] at hv ⊢
    omega
  | word =>
    simp only [signedOf, bitsOf, BitVec.toInt_eq_toNat_cond] at hv ⊢
    omega

theorem msb_eq_signedOf_neg {w : Width} {v : Word} (hv : v.toNat < 2 ^ bitsOf w) :
    msb w v = decide (signedOf w v < 0) := by
  rw [msb_eq_decide hv, signedOf_eq hv, decide_eq_decide]
  cases w <;> simp only [bitsOf] at hv ⊢ <;> omega

/-! ## Parity as a count of 1 bits -/

/-- The exclusive or over a list says whether an odd number of its members meet the test. -/
theorem foldr_xor_eq_odd_count {α : Type} (p : α → Bool) (l : List α) :
    l.foldr (fun x odd => p x ^^ odd) false = decide ((l.filter p).length % 2 = 1) := by
  induction l with
  | nil => rfl
  | cons x l ih =>
    rw [List.foldr_cons, ih]
    cases hx : p x with
    | false => simp [hx]
    | true =>
      rw [List.filter_cons_of_pos hx, List.length_cons, Bool.true_xor, ← decide_not, decide_eq_decide]
      omega

theorem parity8_eq_foldr (v : Word) :
    parity8 v = !(List.range 8).foldr (fun k odd => v.getLsbD k ^^ odd) false := by
  have bits : List.range 8 = [0, 1, 2, 3, 4, 5, 6, 7] := rfl
  simp only [parity8, bits, List.foldr_cons, List.foldr_nil, Bool.xor_false, Bool.xor_assoc]

theorem parity8_eq_even_count (v : Word) :
    parity8 v = decide (((List.range 8).filter fun k => v.toNat / 2 ^ k % 2 = 1).length % 2 = 0) := by
  have bit : v.getLsbD = fun k => decide (v.toNat / 2 ^ k % 2 = 1) :=
    funext fun k => Nat.testBit_eq_decide_div_mod_eq
  rw [parity8_eq_foldr, foldr_xor_eq_odd_count, bit, ← decide_not, decide_eq_decide]
  omega

/-! ## SF, ZF and PF of a result -/

/-- SF, ZF and PF of `g` tell of the result `r`, and TF, IF and DF are those of `f`. -/
def FlagsOfResult (w : Width) (f g : Flags) (r : Word) : Prop :=
  g.SF = decide (signedOf w r < 0) ∧ g.ZF = decide (r = 0) ∧
  g.PF = decide (((List.range 8).filter fun k => r.toNat / 2 ^ k % 2 = 1).length % 2 = 0) ∧
  g.TF = f.TF ∧ g.IF = f.IF ∧ g.DF = f.DF

theorem zero_test_eq {w : Width} {r : Word} (hr : r.toNat < 2 ^ bitsOf w) :
    (r.toNat % 2 ^ bitsOf w == 0) = decide (r = 0) := by
  rw [Nat.mod_eq_of_lt hr, beq_eq_decide, decide_eq_decide]
  exact BitVec.toNat_inj (y := 0#16)

theorem flagsOfResult_setSZP {w : Width} {r : Word} (hr : r.toNat < 2 ^ bitsOf w) {f g : Flags}
    (tf : g.TF = f.TF) (intf : g.IF = f.IF) (df : g.DF = f.DF) : FlagsOfResult w f (setSZP w r g) r :=
  ⟨msb_eq_signedOf_neg hr, zero_test_eq hr, parity8_eq_even_count r, tf, intf, df⟩

/-! ## Addition and subtraction -/

section
variable {w : Width} {a b : Word} (c : Bool) (f : Flags)

theorem carry_and_addResult (ha : a.toNat < 2 ^ bitsOf w) (hb : b.toNat < 2 ^ bitsOf w) :
    (addFlags w a b c f).CF.toNat * 2 ^ bitsOf w + (addResult w a b c).toNat = a.toNat + b.toNat + c.toNat := by
  have hr : ((addResult w a b c).toNat : Int) = _ := clip_toNat w (addSum a b c)
  have hc := c.toNat_le
  have carry : (addFlags w a b c f).CF = decide (2 ^ bitsOf w ≤ addSum a b c) := rfl
  rw [carry]
  by_cases h : 2 ^ bitsOf w ≤ addSum a b c
  · rw [decide_eq_true h, Bool.toNat_true]
    cases w <;> simp only [bitsOf, addSum] at * <;> omega
  · rw [decide_eq_false h, Bool.toNat_false]
    cases w <;> simp only [bitsOf, addSum] at * <;> omega

theorem borrow_and_subResult (ha : a.toNat < 2 ^ bitsOf w) (hb : b.toNat < 2 ^ bitsOf w) :
    ((subResult w a b c).toNat : Int) - (subFlags w a b c f).CF.toNat * 2 ^ bitsOf w =
      (a.toNat : Int) - b.toNat - c.toNat := by
  have hr : ((subResult w a b c).toNat : Int) = _ := clip_toNat w (a.toNat - b.toNat - c.toNat)
  have hc := c.toNat_le
  have borrow : (subFlags w a b c f).CF = decide (a.toNat < b.toNat + c.toNat) := rfl
  rw [borrow]
  by_cases h : a.toNat < b.toNat + c.toNat
  · rw [decide_eq_true h, Bool.toNat_true]
    cases w <;> simp only [bitsOf] at * <;> omega
  · rw [decide_eq_false h, Bool.toNat_false]
    cases w <;> simp only [bitsOf] at * <;> omega

/-- The sum overflows exactly when both operands have one sign and the result the other. -/
theorem addFlags_OF (ha : a.toNat < 2 ^ bitsOf w) (hb : b.toNat < 2 ^ bitsOf w) :
    (addFlags w a b c f).OF = decide (signedOf w (addResult w a b c) ≠ signedOf w a + signedOf w b + c.toNat) := by
  have hr : ((addResult w a b c).toNat : Int) = _ := clip_toNat w (addSum a b c)
  have hlt : (addResult w a b c).toNat < 2 ^ bitsOf w := clip_toNat_lt w _
  have hc := c.toNat_le
  have signs : (addFlags w a b c f).OF = ((msb w a == msb w b) && (msb w (addResult w a b c) != msb w a)) := rfl
  rw [signs, msb_eq_decide ha, msb_eq_decide hb, msb_eq_decide hlt, signedOf_eq ha, signedOf_eq hb, signedOf_eq hlt,
    Bool.eq_iff_iff]
  simp only [Bool.and_eq_true, beq_iff_eq, bne_iff_ne, decide_eq_decide, ne_eq, decide_eq_true_eq]
  cases w <;> simp only [bitsOf, addSum] at * <;> omega

/-- The difference overflows exactly when the operands' signs differ and the result's is not the minuend's. -/
theorem subFlags_OF (ha : a.toNat < 2 ^ bitsOf w) (hb : b.toNat < 2 ^ bitsOf w) :
    (subFlags w a b c f).OF = decide (signedOf w (subResult w a b c) ≠ signedOf w a - signedOf w b - c.toNat) := by
  have hr : ((subResult w a b c).toNat : Int) = _ := clip_toNat w (a.toNat - b.toNat - c.toNat)
  have hlt : (subResult w a b c).toNat < 2 ^ bitsOf w := clip_toNat_lt w _
  have hc := c.toNat_le
  have signs : (subFlags w a b c f).OF = ((msb w a != msb w b) && (msb w (subResult w a b c) != msb w a)) := rfl
  rw [signs, msb_eq_decide ha, msb_eq_decide hb, msb_eq_decide hlt, signedOf_eq ha, signedOf_eq hb, signedOf_eq hlt,
    Bool.eq_iff_iff]
  simp only [Bool.and_eq_true, bne_iff_ne, decide_eq_decide, ne_eq, decide_eq_true_eq]
  cases w <;> simp only [bitsOf] at * <;> omega

variable (w a b)

theorem addFlags_AF : (addFlags w a b c f).AF = decide (15 < a.toNat % 16 + b.toNat % 16 + c.toNat) := rfl

theorem subFlags_AF :
    (subFlags w a b c f).AF = decide ((a.toNat % 16 : Int) - b.toNat % 16 - c.toNat < 0) := by
  have borrow : (subFlags w a b c f).AF = decide (a.toNat % 16 < b.toNat % 16 + c.toNat) := rfl
  rw [borrow, decide_eq_decide]
  omega

theorem flagsOfResult_addFlags : FlagsOfResult w f (addFlags w a b c f) (addResult w a b c) :=
  flagsOfResult_setSZP (clip_toNat_lt w _) rfl rfl rfl

theorem flagsOfResult_subFlags : FlagsOfResult w f (subFlags w a b c f) (subResult w a b c) :=
  flagsOfResult_setSZP (clip_toNat_lt w _) rfl rfl rfl

end

theorem flagsOfResult_logicFlags {w : Width} {r : Word} (hr : r.toNat < 2 ^ bitsOf w) (f : Flags) :
    FlagsOfResult w f (logicFlags w r f) r :=
  flagsOfResult_setSZP hr rfl rfl rfl

/-- Settles O40: each flag is compared, as a number, with the sum or difference of the operands. -/
theorem sumsAndDifferencesExact : Obligations.SumsAndDifferencesExact := by
  intro w a b c f ha hb
  exact ⟨carry_and_addResult c f ha hb, borrow_and_subResult c f ha hb, addFlags_OF c f ha hb, subFlags_OF c f ha hb,
    addFlags_AF w a b c f, subFlags_AF w a b c f, flagsOfResult_addFlags w a b c f, flagsOfResult_subFlags w a b c f,
    flagsOfResult_logicFlags ha f, rfl, rfl⟩

end Sys2Proof.Machine
end

section
/-! Registers, FLAGS as a word and the state after reset (O19, O20, O14, O16), and what one step is made of (O7). -/

namespace Sys2Proof.Machine

/-! ## Byte registers as halves (spec/10_state.md R22) -/

@[simp] theorem reg_setReg_word (s : State) (c : RegCode) (v : Word) : (s.setReg .word c v).reg .word c = v :=
  get_set_same s.regs c v

@[simp] theorem getByte_setByte_same (g : Regs) (c : RegCode) (v : Byte) : (g.setByte c v).getByte c = v := by
  unfold Regs.setByte Regs.getByte
  cases h : RegCode.isHigh c <;> simp

/-- Two byte registers in one word register are its two halves. -/
theorem isHigh_of_host_eq {c d : RegCode} (h : RegCode.host d = RegCode.host c) (hd : d ≠ c) :
    RegCode.isHigh d = !RegCode.isHigh c := by
  cases c <;> cases d <;> simp_all [RegCode.host, RegCode.isHigh]

theorem getByte_setByte_other (g : Regs) {c d : RegCode} (v : Byte) (h : d ≠ c) :
    (g.setByte c v).getByte d = g.getByte d := by
  unfold Regs.setByte Regs.getByte
  by_cases hh : RegCode.host d = RegCode.host c
  · have other := isHigh_of_host_eq hh h
    cases hc : RegCode.isHigh c <;> simp [hh, other, hc]
  · simp only [get_set_other g _ hh]

/-- No byte register lies in SP, BP, SI or DI. -/
theorem get_setByte_pointer (g : Regs) (c : RegCode) {d : RegCode} (v : Byte)
    (h : d = .sp ∨ d = .bp ∨ d = .si ∨ d = .di) : (g.setByte c v).get d = g.get d := by
  refine get_set_other g _ ?_
  rcases h with rfl | rfl | rfl | rfl <;> cases c <;> decide

/-- A register write changes the registers only. -/
theorem setReg_eq (s : State) (w : Width) (c : RegCode) (v : Word) :
    s.setReg w c v = { s with regs := (s.setReg w c v).regs } := by cases w <;> rfl

/-- Settles O19: a write to a byte register is a write to the word register that holds it, one half kept. -/
theorem registerWritesAndHalves : Obligations.RegisterWritesAndHalves := by
  intro s c v
  refine ⟨rfl, ⟨rfl, rfl, rfl, rfl, rfl, rfl, rfl, rfl⟩, ⟨reg_setReg_word s c v, ?_⟩, fun d hd => ⟨?_, ?_⟩,
    fun d hd => get_setByte_pointer s.regs c _ hd, fun w => setReg_eq s w c v⟩
  · exact congrArg zext16 (getByte_setByte_same s.regs c _)
  · exact get_set_other s.regs v hd
  · exact congrArg zext16 (getByte_setByte_other s.regs _ hd)

/-! ## FLAGS as a word (spec/10_state.md R30, R32) -/

/-- Each bit of FLAGS as it is read: the nine flags at their places, 1 at bits 1 and 12 to 15, 0 at bits 3 and 5. -/
theorem getElem_toWord (f : Flags) (k : Nat) (hk : k < 16) :
    f.toWord[k] = [f.CF, true, f.PF, false, f.AF, false, f.ZF, f.SF, f.TF, f.IF, f.DF, f.OF, true, true, true, true][k] := by
  obtain ⟨c, p, a, z, sf, t, i, d, o⟩ := f
  interval_cases k <;> simp [Flags.toWord, Flags.bits, Config.flagsFixedOnes, Config.flagsFixedZeros]

theorem toWord_flags (f : Flags) :
    f.toWord.getLsbD 0 = f.CF ∧ f.toWord.getLsbD 2 = f.PF ∧ f.toWord.getLsbD 4 = f.AF ∧ f.toWord.getLsbD 6 = f.ZF ∧
    f.toWord.getLsbD 7 = f.SF ∧ f.toWord.getLsbD 8 = f.TF ∧ f.toWord.getLsbD 9 = f.IF ∧ f.toWord.getLsbD 10 = f.DF ∧
    f.toWord.getLsbD 11 = f.OF :=
  ⟨getElem_toWord f 0 (by decide), getElem_toWord f 2 (by decide), getElem_toWord f 4 (by decide),
   getElem_toWord f 6 (by decide), getElem_toWord f 7 (by decide), getElem_toWord f 8 (by decide),
   getElem_toWord f 9 (by decide), getElem_toWord f 10 (by decide), getElem_toWord f 11 (by decide)⟩

@[simp] theorem ofWord_toWord (f : Flags) : Flags.ofWord f.toWord = f := by
  obtain ⟨c, p, a, z, sf, t, i, d, o⟩ := toWord_flags f
  simp only [Flags.ofWord, c, p, a, z, sf, t, i, d, o]

theorem toWord_ofWord (v : Word) : (Flags.ofWord v).toWord = (v &&& 0x0FD5) ||| 0xF002 := by
  ext k hk
  rw [getElem_toWord]
  interval_cases k <;> simp [Flags.ofWord]

/-- Settles O20, bit by bit. -/
theorem flagsWord : Obligations.FlagsWord := ⟨ofWord_toWord, toWord_ofWord, toWord_flags⟩

/-! ## Reset (spec/10_state.md R45) -/

/-- Settles O14: the values are those of `State.reset`, and FLAGS reads F002h by computation. -/
theorem resetStateValues : Obligations.ResetStateValues := by
  unfold Obligations.ResetStateValues
  decide

/-- Settles O16. -/
theorem invariantAtReset : Obligations.InvariantAtReset where
  mem := reset_wf
  cur := rfl
  lock := rfl
  inhibit := rfl
  due := rfl
  rep := fun h => nomatch h
  queue := Nat.zero_le _

/-! ## One step (spec/10_state.md R28, spec/60_exceptions.md R508) -/

theorem andThen_assoc {α β γ : Type} (o : Out α) (f : α → Out β) (g : β → Out γ) :
    andThen (andThen o f) g = andThen o fun a => andThen (f a) g := by cases o <;> rfl

/-- A step outside reset and halt: fetch, run, and what other masters have left to write. -/
theorem step_running {s : State} (hr : s.resetNow = false) (hh : s.halted = false) :
    step s = andThen (fetch s.sample) fun d => andThen (runDecoded exec d s.sample) fun v => .next v.settle := by
  have halted : s.sample.halted = false := (sample_halted s).trans hh
  simp only [step, stepWith, act, hr, halted, Bool.false_eq_true, if_false, andThen_assoc]

theorem fetch_decoded {s : State} {d : Decoded} (hd : decode (s.codeBytes maxLength s.ip) = .ok d) :
    fetch s = if s.raced d.length then .refused .prefetchRace else .next d := by
  simp only [fetch, hd]

/-- Settles O7: `step` unfolded for a decoded instruction that no store raced. -/
theorem stepRunsDecodedInstruction : Obligations.StepRunsDecodedInstruction := by
  intro s d hr hh hd hrace
  have hd' : decode (s.sample.codeBytes maxLength s.sample.ip) = .ok d := by rw [sample_ip]; exact hd
  rw [step_running hr hh, fetch_decoded hd', hrace, if_neg Bool.false_ne_true, andThen_next]
  simp only [runDecoded, andThen_assoc, sample_flags]
  rfl

end Sys2Proof.Machine
end

section
/-! What an instruction leaves alone, said once. `Effect` collects it for everything that happens inside an instruction:
nothing untoward (`Tame`), the part of FLAGS and of the segment registers that is kept (`Keeps`), and which queued bytes
are marked (`Marks`). Here it is shown of every shared operation. -/

namespace Sys2Proof.Machine

/-! ## The relation -/

/-- TF, IF and DF, without the status flags. -/
def Flags.control (f : Flags) : Flags := { Flags.clear with TF := f.TF, IF := f.IF, DF := f.DF }

/-- Another bus master may store to the byte before the instruction is over (spec/20_memory.md R76, R77; log 17). -/
def State.othersStore (s : State) (a : PAddr) : Prop :=
  s.lock = false ∧ ∃ b ∈ s.due, ∃ c ∈ b, c.1 = a ∧ canWriteByte a s = true

/-- The part `kf` of FLAGS and the part `ks` of the segment registers are in `t` as in `s`. -/
structure Keeps (kf : Flags → Flags) (ks : Segs → Segs) (s t : State) : Prop where
  flags : kf t.flags = kf s.flags
  segs : ks t.segs = ks s.segs

/-- From `s` to `t` the CPU stores to the bytes `own`, and other bus masters to some that are due: those are marked in
the queue, and nothing else happens to it. -/
structure Marks (own : List PAddr) (s t : State) : Prop where
  marked : ∃ as, t.queue = markStored as s.queue ∧ (∀ a ∈ own, a ∈ as) ∧ ∀ a ∈ as, a ∈ own ∨ s.othersStore a
  due : ∀ b ∈ t.due, b ∈ s.due

/-- What happens from `s` to `t` inside an instruction. -/
structure Effect (kf : Flags → Flags) (ks : Segs → Segs) (own : List PAddr) (s t : State) : Prop
    extends Tame s t, Keeps kf ks s t, Marks own s t

/-- The queue and what is due stay as they are. -/
theorem marks_of_eq {s t : State} (hq : t.queue = s.queue) (hd : t.due = s.due) : Marks [] s t :=
  ⟨⟨[], by simp [hq], by simp, by simp⟩, fun _ hb => hd ▸ hb⟩

/-- What other masters store to later they were already due to store to. -/
theorem othersStore_of_tame {s t : State} (h : Tame s t) (hd : ∀ b ∈ t.due, b ∈ s.due) {a : PAddr}
    (k : t.othersStore a) : s.othersStore a := by
  obtain ⟨hl, b, hb, c, hc, ha, hw⟩ := k
  refine ⟨h.lock ▸ hl, b, hd b hb, c, hc, ha, ?_⟩
  simpa only [canWriteByte, h.unmapped, h.rom] using hw

section
variable {kf : Flags → Flags} {ks : Segs → Segs} {own own' : List PAddr} {s t u : State}

theorem Effect.refl (s : State) : Effect kf ks [] s s := ⟨.refl s, ⟨rfl, rfl⟩, marks_of_eq rfl rfl⟩

theorem Effect.trans (h : Effect kf ks own s t) (k : Effect kf ks own' t u) : Effect kf ks (own ++ own') s u := by
  obtain ⟨as, e, own_as, as_own⟩ := h.marked
  obtain ⟨bs, f, own_bs, bs_own⟩ := k.marked
  refine ⟨h.toTame.trans k.toTame, ⟨k.flags.trans h.flags, k.segs.trans h.segs⟩,
    ⟨⟨as ++ bs, by rw [f, e, markStored_append], fun a ha => ?_, fun a ha => ?_⟩, fun b hb => h.due b (k.due b hb)⟩⟩
  · rw [List.mem_append] at ha ⊢
    exact ha.imp (own_as a) (own_bs a)
  · rw [List.mem_append] at ha ⊢
    rcases ha with ha | ha
    · exact (as_own a ha).imp_left .inl
    · exact (bs_own a ha).imp .inr (othersStore_of_tame h.toTame h.due)

/-- First something that stores nothing. -/
theorem Effect.nil_trans (h : Effect kf ks [] s t) (k : Effect kf ks own t u) : Effect kf ks own s u := h.trans k

/-- Then something that stores nothing. -/
theorem Effect.trans_nil (h : Effect kf ks own s t) (k : Effect kf ks [] t u) : Effect kf ks own s u := by
  simpa using h.trans k

/-- An update of registers, segment registers, IP, flags, shadow, ports and draws. -/
theorem effect_core (hf : kf t.flags = kf s.flags) (hs : ks t.segs = ks s.segs) (h : t = { s with
    regs := t.regs, segs := t.segs, ip := t.ip, flags := t.flags, inhibit := t.inhibit, ioIn := t.ioIn,
    ioOut := t.ioOut, draws := t.draws }) : Effect kf ks [] s t :=
  ⟨tame_of_core h, ⟨hf, hs⟩, marks_of_eq (by rw [h]) (by rw [h])⟩

theorem effect_setReg (s : State) (w : Width) (c : RegCode) (v : Word) : Effect kf ks [] s (s.setReg w c v) :=
  effect_core (by simp) (by simp) (by cases w <;> rfl)

/-! ## Memory -/

theorem effect_put {a : PAddr} (h : canWriteByte a s = true) (v : Byte) : Effect kf ks [a] s (s.put a v) := by
  refine ⟨tame_put ?_ v, ⟨rfl, rfl⟩, ⟨⟨[a], rfl, fun _ => id, fun _ => .inl⟩, fun _ => id⟩⟩
  simp only [canWriteByte, Bool.and_eq_true, Bool.not_eq_true'] at h
  exact h.2

/-- Other masters' writes mark what the map admits, and nothing else. -/
theorem putOthers_queue (l : Burst) (s : State) :
    (State.putOthers l s).queue = markStored ((l.filter fun c => canWriteByte c.1 s).map Prod.fst) s.queue := by
  induction l generalizing s with
  | nil => simp [State.putOthers]
  | cons c l ih =>
    have e : (inSpans s.unmapped c.1.toNat || inSpans s.rom c.1.toNat) = !canWriteByte c.1 s := by simp [canWriteByte]
    rw [State.putOthers, e, List.filter_cons, ih]
    cases canWriteByte c.1 s
    · rfl
    · exact markStored_append ..

theorem marks_busCycle (s : State) : Marks [] s s.busCycle := by
  unfold State.busCycle
  split
  · next b bs hl hd =>
    refine ⟨⟨_, putOthers_queue b _, by simp, fun a ha => .inr ?_⟩, fun x hx => ?_⟩
    · obtain ⟨c, hc, rfl⟩ := List.mem_map.1 ha
      obtain ⟨hcb, hw⟩ := List.mem_filter.1 hc
      exact ⟨hl, b, by simp [hd], c, hcb, rfl, hw⟩
    · rw [putOthers_due] at hx
      exact hd ▸ List.mem_cons_of_mem _ hx
  · exact marks_of_eq rfl rfl

theorem effect_busCycle (s : State) : Effect kf ks [] s s.busCycle :=
  ⟨tame_busCycle s, ⟨by simp, by simp⟩, marks_busCycle s⟩

theorem effect_highCycle (s : State) (a : PAddr) : Effect kf ks [] s (s.highCycle a) := by
  unfold State.highCycle
  split
  · exact .refl s
  · exact effect_busCycle s

theorem effect_memWrite {a : PAddr} {v : Byte} (h : memWrite a v s = .next t) : Effect kf ks [a] s t := by
  obtain ⟨k, rfl⟩ := memWrite_eq_next.1 h
  exact effect_put k v

theorem effect_readPair {lo hi : PAddr} {p : Word × State} (h : readPair lo hi s = .next p) : Effect kf ks [] s p.2 := by
  obtain ⟨_, _, h⟩ := andThen_eq_next.1 h
  obtain ⟨_, _, h⟩ := andThen_eq_next.1 h
  injection h with h
  exact h ▸ (effect_busCycle s).nil_trans (effect_highCycle ..)

theorem effect_readMem {w : Width} {seg off : Word} {p : Word × State} (h : readMem w seg off s = .next p) :
    Effect kf ks [] s p.2 := by
  cases w with
  | byte =>
    obtain ⟨_, _, h⟩ := andThen_eq_next.1 h
    injection h with h
    exact h ▸ effect_busCycle s
  | word => exact effect_readPair h

theorem effect_writeMem {w : Width} {seg off v : Word} (h : writeMem w seg off v s = .next t) :
    Effect kf ks (cellsOf w seg off) s t := by
  cases w with
  | byte => exact (effect_busCycle s).nil_trans (effect_memWrite h)
  | word =>
    obtain ⟨u, h1, h2⟩ := andThen_eq_next.1 h
    have low : Effect kf ks [phys seg off] s (u.highCycle (phys seg off)) :=
      ((effect_busCycle s).nil_trans (effect_memWrite h1)).trans_nil (effect_highCycle ..)
    exact low.trans (effect_memWrite h2)

/-! ## r/m operands -/

theorem effect_readRM {w : Width} {rm : RM} {p : Word × State} (h : readRM w rm s = .next p) :
    Effect kf ks [] s p.2 := by
  unfold readRM at h
  split at h
  · injection h with h; exact h ▸ .refl s
  · exact effect_readMem h

/-- Where an operand is depends on the registers, the segment registers and the override. -/
theorem place_congr (hr : t.regs = s.regs) (hg : t.segs = s.segs) (hc : t.cur = s.cur) (rm : RM) :
    t.place rm = s.place rm := by
  cases rm <;> simp only [State.place, State.segOr, hr, hg, hc]

theorem place_of_only (h : OnlyMemory s t) (rm : RM) : t.place rm = s.place rm :=
  place_congr (by rw [h]) (by rw [h]) (by rw [h]) rm

/-- No effective address takes SP. -/
theorem place_setSp (s : State) (v : Word) (rm : RM) : (s.setReg .word .sp v).place rm = s.place rm := by
  have base (b : AddrBase) : (s.regs.set .sp v).base b = s.regs.base b := by cases b <;> rfl
  cases rm <;> simp only [State.place, State.segOr, setReg_word_regs, setReg_segs, setReg_cur, base]

/-- A write to an r/m operand stores to the bytes of the place that the operand names. -/
theorem effect_writeRM {w : Width} {rm : RM} {v : Word} (hp : u.place rm = s.place rm)
    (h : writeRM w rm v u = .next t) : Effect kf ks (s.operandCells w rm) u t := by
  unfold writeRM at h
  unfold State.operandCells
  rw [← hp]
  cases hu : u.place rm with
  | reg c => simp only [hu] at h ⊢; injection h with h; exact h ▸ effect_setReg ..
  | mem seg off => simp only [hu] at h ⊢; exact effect_writeMem h

theorem effect_readPointer {rm : RM} {p : Word × Word × State} (h : readPointer rm s = .next p) :
    Effect kf ks [] s p.2.2 := by
  obtain ⟨_, _, h⟩ := andThen_eq_next.1 h
  obtain ⟨_, h1, h⟩ := andThen_eq_next.1 h
  obtain ⟨_, h2, h⟩ := andThen_eq_next.1 h
  injection h with h
  exact h ▸ (effect_readMem h1).nil_trans (effect_readMem h2)

/-! ## The stack and the ports -/

theorem pushCells_zero (s : State) : s.pushCells 0 = cellsOf .word s.segs.ss (s.regs.sp - 2) := by
  unfold State.pushCells
  rw [show s.regs.sp - 0 = s.regs.sp from BitVec.sub_zero _]

theorem effect_push16 {v : Word} (h : push16 v s = .next t) : Effect kf ks (s.pushCells 0) s t := by
  have h' : writeMem .word s.segs.ss (s.regs.sp - 2) v (s.setReg .word .sp (s.regs.sp - 2)) = .next t := h
  rw [pushCells_zero]
  exact (effect_setReg ..).nil_trans (effect_writeMem h')

theorem effect_pop16 {p : Word × State} (h : pop16 s = .next p) : Effect kf ks [] s p.2 := by
  obtain ⟨q, h1, h⟩ := andThen_eq_next.1 h
  injection h with h
  exact h ▸ (effect_readMem h1).nil_trans (effect_setReg q.2 .word .sp _)

/-- A pop moves no r/m operand. -/
theorem place_pop16 {p : Word × State} (h : pop16 s = .next p) (rm : RM) : p.2.place rm = s.place rm :=
  (place_of_only (pop16_next h) rm).trans (place_setSp s _ rm)

theorem effect_ioReadByte {p : Word} {r : Byte × State} (h : ioReadByte p s = .next r) : Effect kf ks [] s r.2 := by
  unfold ioReadByte at h
  split at h
  · cases h
  · split at h <;> (injection h with h; exact h ▸ effect_core rfl rfl rfl)

theorem effect_ioRead {w : Width} {p : Word} {r : Word × State} (h : ioRead w p s = .next r) : Effect kf ks [] s r.2 := by
  cases w with
  | byte =>
    obtain ⟨x, hx, e⟩ := andThen_eq_next.1 h
    injection e with e
    exact e ▸ effect_ioReadByte hx
  | word =>
    obtain ⟨x, hx, e⟩ := andThen_eq_next.1 h
    obtain ⟨y, hy, e⟩ := andThen_eq_next.1 e
    injection e with e
    exact e ▸ (effect_ioReadByte hx).nil_trans (effect_ioReadByte hy)

theorem effect_ioWriteByte {p : Word} {v : Byte} (h : ioWriteByte p v s = .next t) : Effect kf ks [] s t := by
  unfold ioWriteByte at h
  split at h
  · cases h
  · injection h with h; exact h ▸ effect_core rfl rfl rfl

theorem effect_ioWrite {w : Width} {p v : Word} (h : ioWrite w p v s = .next t) : Effect kf ks [] s t := by
  cases w with
  | byte => exact effect_ioWriteByte h
  | word =>
    obtain ⟨u, h1, h2⟩ := andThen_eq_next.1 h
    exact (effect_ioWriteByte h1).nil_trans (effect_ioWriteByte h2)

/-! ## Operations on operands (spec/41_arithmetic.md R240) -/

/-- `t` is `s` but for flags, of which `kf` is kept, and draws: what a computation can change. -/
def OnlyFlags (kf : Flags → Flags) (s t : State) : Prop :=
  t = { s with flags := t.flags, draws := t.draws } ∧ kf t.flags = kf s.flags

theorem OnlyFlags.effect (h : OnlyFlags kf s t) : Effect kf ks [] s t :=
  effect_core h.2 (by rw [h.1]) (by rw [h.1])

theorem OnlyFlags.place (h : OnlyFlags kf s t) (rm : RM) : t.place rm = s.place rm :=
  place_congr (by rw [h.1]) (by rw [h.1]) (by rw [h.1]) rm

/-- A two-operand operation that changes flags outside `kf` and draws only. -/
def BinOp.OnlyFlags (kf : Flags → Flags) (op : BinOp) : Prop := ∀ w a b s, Machine.OnlyFlags kf s (op w a b s).2

/-- A one-operand operation that changes flags outside `kf` and draws only. -/
def UnOp.OnlyFlags (kf : Flags → Flags) (op : UnOp) : Prop := ∀ w a s, Machine.OnlyFlags kf s (op w a s).2

theorem setFlags_onlyFlags (op : Shifter) (w : Width) (n : Nat) (x r : Word) (c : Bool) (s : State) :
    OnlyFlags Flags.control s (op.setFlags w n x r c s) := by
  unfold Shifter.setFlags Shifter.setResult Shifter.setOverflow
  split_ifs <;> exact ⟨rfl, rfl⟩

variable {d : Dir} {w : Width} {rm : RM} {r : RegCode} {imm : Word} {bin : BinOp} {un : UnOp}

/-- An operand read, a computation, the same operand written. -/
theorem effect_writeBack {p : Word × State} {v : Word} (hr : readRM w rm s = .next p) (ho : OnlyFlags kf p.2 u)
    (hw : writeRM w rm v u = .next t) : Effect kf ks (s.operandCells w rm) s t :=
  ((effect_readRM hr).nil_trans ho.effect).nil_trans
    (effect_writeRM ((ho.place rm).trans (place_of_only (readRM_next hr) rm)) hw)

theorem effect_binRmReg (h : binRmReg bin d w rm r s = .next t) (ho : bin.OnlyFlags kf) :
    Effect kf ks (if d = .toRm then s.operandCells w rm else []) s t := by
  obtain ⟨m, hm, h⟩ := andThen_eq_next.1 h
  cases d with
  | toReg =>
    injection h with h
    exact h ▸ (effect_readRM hm).nil_trans ((ho ..).effect.nil_trans (effect_setReg ..))
  | toRm => exact effect_writeBack hm (ho ..) h

theorem effect_flagsRmReg (h : flagsRmReg bin d w rm r s = .next t) (ho : bin.OnlyFlags kf) : Effect kf ks [] s t := by
  obtain ⟨m, hm, h⟩ := andThen_eq_next.1 h
  cases d <;> (injection h with h; exact h ▸ (effect_readRM hm).nil_trans (ho ..).effect)

theorem effect_binRmImm (h : binRmImm bin w rm imm s = .next t) (ho : bin.OnlyFlags kf) :
    Effect kf ks (s.operandCells w rm) s t := by
  obtain ⟨m, hm, h⟩ := andThen_eq_next.1 h
  exact effect_writeBack hm (ho ..) h

theorem effect_flagsRmImm (h : flagsRmImm bin w rm imm s = .next t) (ho : bin.OnlyFlags kf) : Effect kf ks [] s t := by
  obtain ⟨m, hm, h⟩ := andThen_eq_next.1 h
  injection h with h
  exact h ▸ (effect_readRM hm).nil_trans (ho ..).effect

theorem effect_binAccImm (h : binAccImm bin w imm s = .next t) (ho : bin.OnlyFlags kf) : Effect kf ks [] s t := by
  injection h with h
  exact h ▸ (ho ..).effect.nil_trans (effect_setReg ..)

theorem effect_flagsAccImm (h : flagsAccImm bin w imm s = .next t) (ho : bin.OnlyFlags kf) : Effect kf ks [] s t := by
  injection h with h
  exact h ▸ (ho ..).effect

theorem effect_unRm (h : unRm un w rm s = .next t) (ho : un.OnlyFlags kf) :
    Effect kf ks (s.operandCells w rm) s t := by
  obtain ⟨m, hm, h⟩ := andThen_eq_next.1 h
  exact effect_writeBack hm (ho ..) h

theorem effect_unReg (h : unReg un r s = .next t) (ho : un.OnlyFlags kf) : Effect kf ks [] s t := by
  injection h with h
  exact h ▸ (ho ..).effect.nil_trans (effect_setReg ..)

theorem effect_shiftRm {op : Shifter} {v : Count} (h : shiftRm op v w rm s = .next t) :
    Effect Flags.control ks (s.operandCells w rm) s t := by
  obtain ⟨m, hm, h⟩ := andThen_eq_next.1 h
  exact effect_writeBack hm (setFlags_onlyFlags ..) h

/-! ## String primitives (spec/43_string.md) -/

theorem diCells_of_only (h : OnlyMemory s t) (w : Width) : t.diCells w = s.diCells w := by rw [h]; rfl

theorem effect_moveString (h : moveString w s = .next t) : Effect kf ks (s.diCells w) s t := by
  obtain ⟨p, h1, h⟩ := andThen_eq_next.1 h
  obtain ⟨u, h2, h⟩ := andThen_eq_next.1 h
  injection h with h
  have store : Effect kf ks (p.2.diCells w) p.2 u := effect_writeMem h2
  rw [diCells_of_only (readMem_next h1).2] at store
  exact h ▸ ((effect_readMem h1).nil_trans store).trans_nil (effect_core rfl rfl rfl)

theorem effect_storeString (h : storeString w s = .next t) : Effect kf ks (s.diCells w) s t := by
  obtain ⟨u, h1, h⟩ := andThen_eq_next.1 h
  injection h with h
  have store : Effect kf ks (s.diCells w) s u := effect_writeMem h1
  exact h ▸ store.trans_nil (effect_setReg ..)

theorem effect_loadString (h : loadString w s = .next t) : Effect kf ks [] s t := by
  obtain ⟨p, h1, h⟩ := andThen_eq_next.1 h
  injection h with h
  exact h ▸ (effect_readMem h1).nil_trans ((effect_setReg ..).nil_trans (effect_setReg ..))

theorem effect_compareString (h : compareString w s = .next t) : Effect Flags.control ks [] s t := by
  obtain ⟨a, h1, h⟩ := andThen_eq_next.1 h
  obtain ⟨b, h2, h⟩ := andThen_eq_next.1 h
  injection h with h
  exact h ▸ (effect_readMem h1).nil_trans ((effect_readMem h2).nil_trans (effect_core rfl rfl rfl))

theorem effect_scanString (h : scanString w s = .next t) : Effect Flags.control ks [] s t := by
  obtain ⟨b, h1, h⟩ := andThen_eq_next.1 h
  injection h with h
  exact h ▸ (effect_readMem h1).nil_trans (effect_core rfl rfl rfl)

end

end Sys2Proof.Machine
end

section
/-! What each of the 135 instructions leaves alone, from the shared operations it is made of, and which instructions can
change which flags and segment registers (O56, O57, O58). -/

namespace Sys2Proof.Machine

/-! ## Kinds of instructions -/

/-- How an instruction can end: `ordinary` ones go on at the next instruction with the queue as it was but for marks,
`string` ones may be repeated, `transfer` ones may empty the queue, `interrupt` ones may take an interrupt, `latch` ones
only set a latch. -/
inductive Kind where
  | ordinary
  | string
  | transfer
  | interrupt
  | latch

/-- The kind of each instruction. -/
def kindOf : Instr → Kind
  | .movs _ | .cmps _ | .scas _ | .lods _ | .stos _ => .string
  | .callNear _ | .callRm _ | .callFar _ _ | .callMem _ | .retNear | .retNearImm _ | .retFar | .retFarImm _
  | .jmpNear _ | .jmpShort _ | .jmpRm _ | .jmpFar _ _ | .jmpMem _ | .loop _ | .loopz _ | .loopnz _ | .jcxz _
  | .je _ | .jl _ | .jle _ | .jb _ | .jbe _ | .jp _ | .jo _ | .js _ | .jne _ | .jnl _ | .jnle _ | .jnb _ | .jnbe _
  | .jnp _ | .jno _ | .jns _ | .iret => .transfer
  | .int _ | .int3 | .into | .divRm _ _ | .idivRm _ _ => .interrupt
  | .hlt | .rep | .repne | .lock | .segment _ => .latch
  | _ => .ordinary

/-- The part of FLAGS that an instruction leaves as it is (spec/10_state.md R31, spec/60_exceptions.md R505). -/
def keptFlags : Instr → Flags → Flags
  | .popf | .iret => fun _ => Flags.clear
  | .cli | .sti => fun f => { f with IF := false }
  | .cld | .std => fun f => { f with DF := false }
  | .int _ | .int3 | .into | .divRm _ _ | .idivRm _ _ => fun f => { Flags.clear with DF := f.DF }
  | .addRmReg _ _ _ _ | .addRmImm _ _ _ _ | .addAccImm _ _ | .adcRmReg _ _ _ _ | .adcRmImm _ _ _ _ | .adcAccImm _ _
  | .subRmReg _ _ _ _ | .subRmImm _ _ _ _ | .subAccImm _ _ | .sbbRmReg _ _ _ _ | .sbbRmImm _ _ _ _ | .sbbAccImm _ _
  | .cmpRmReg _ _ _ _ | .cmpRmImm _ _ _ _ | .cmpAccImm _ _ | .andRmReg _ _ _ _ | .andRmImm _ _ _ | .andAccImm _ _
  | .orRmReg _ _ _ _ | .orRmImm _ _ _ | .orAccImm _ _ | .xorRmReg _ _ _ _ | .xorRmImm _ _ _ | .xorAccImm _ _
  | .testRmReg _ _ _ | .testRmImm _ _ _ | .testAccImm _ _ | .incRm _ _ | .incReg _ | .decRm _ _ | .decReg _
  | .negRm _ _ | .shl _ _ _ | .shr _ _ _ | .sar _ _ _ | .rol _ _ _ | .ror _ _ _ | .rcl _ _ _ | .rcr _ _ _
  | .mulRm _ _ | .imulRm _ _ | .aaa | .aas | .daa | .das | .aam | .aad | .cmps _ | .scas _ | .sahf | .clc | .cmc
  | .stc => Flags.control
  | _ => id

/-- The part of the segment registers that an instruction leaves as it is (spec/10_state.md R27). -/
def keptSegs : Instr → Segs → Segs
  | .movSregRm .ss _ | .popSreg .ss => fun g => { g with ss := 0 }
  | .movSregRm .ds _ | .popSreg .ds | .lds _ _ => fun g => { g with ds := 0 }
  | .movSregRm .es _ | .popSreg .es | .les _ _ => fun g => { g with es := 0 }
  | .callFar _ _ | .callMem _ | .jmpFar _ _ | .jmpMem _ | .retFar | .retFarImm _ | .iret
  | .int _ | .int3 | .into | .divRm _ _ | .idivRm _ _ => fun g => { g with cs := 0 }
  | _ => id

/-! ## Ordinary instructions -/

section
variable {kf : Flags → Flags} {ks : Segs → Segs} {own : List PAddr} {s t u : State}

theorem effect_movRmReg {d : Dir} {w : Width} {rm : RM} {r : RegCode} (h : execMovRmReg d w rm r s = .next t) :
    Effect kf ks (if d = .toRm then s.operandCells w rm else []) s t := by
  cases d with
  | toReg =>
    obtain ⟨p, hp, h⟩ := andThen_eq_next.1 h
    injection h with h
    exact h ▸ (effect_readRM hp).nil_trans (effect_setReg ..)
  | toRm => exact effect_writeRM rfl h

theorem effect_movRegImm {w : Width} {r : RegCode} {imm : Word} (h : execMovRegImm w r imm s = .next t) :
    Effect kf ks [] s t := by
  injection h with h
  exact h ▸ effect_setReg ..

theorem effect_pushSp (h : pushSp s = .next t) : Effect kf ks (s.pushCells 0) s t := effect_push16 h

theorem pushCells_of_only (h : OnlyMemory s t) (n : Word) : t.pushCells n = s.pushCells n := by rw [h]; rfl

theorem effect_pushRm {rm : RM} (h : execPushRm rm s = .next t) : Effect kf ks (s.pushCells 0) s t := by
  unfold execPushRm at h
  split at h
  · exact effect_pushSp h
  · obtain ⟨p, hp, h⟩ := andThen_eq_next.1 h
    have push : Effect kf ks (p.2.pushCells 0) p.2 t := effect_push16 h
    rw [pushCells_of_only (readRM_next hp)] at push
    exact (effect_readRM hp).nil_trans push

theorem effect_pushReg {r : RegCode} (h : execPushReg r s = .next t) : Effect kf ks (s.pushCells 0) s t := by
  unfold execPushReg at h
  split at h
  · exact effect_pushSp h
  · exact effect_push16 h

theorem effect_popRm {rm : RM} (h : execPopRm rm s = .next t) : Effect kf ks (s.operandCells .word rm) s t := by
  obtain ⟨p, hp, h⟩ := andThen_eq_next.1 h
  exact (effect_pop16 hp).nil_trans (effect_writeRM (place_pop16 hp rm) h)

theorem effect_xchgRmReg {w : Width} {rm : RM} {r : RegCode} (h : execXchgRmReg w rm r s = .next t) :
    Effect kf ks (s.operandCells w rm) s t := by
  obtain ⟨p, hp, h⟩ := andThen_eq_next.1 h
  obtain ⟨u, hu, h⟩ := andThen_eq_next.1 h
  injection h with h
  have store : Effect kf ks (s.operandCells w rm) s u :=
    (effect_readRM hp).nil_trans (effect_writeRM (place_of_only (readRM_next hp) rm) hu)
  exact h ▸ store.trans_nil (effect_setReg ..)

/-- A segment register loaded and the shadow set; CS is refused (spec/10_state.md R27). -/
theorem effect_setSeg_inhibit {sr : SegReg} {v : Word} (hs : ks (u.segs.set sr v) = ks u.segs)
    (k : Effect kf ks [] s u) : Effect kf ks [] s { u.setSeg sr v with inhibit := true } :=
  k.nil_trans (effect_core rfl hs rfl)

theorem keptSegs_movSregRm {sr : SegReg} (h : sr ≠ .cs) (rm : RM) (g : Segs) (v : Word) :
    keptSegs (.movSregRm sr rm) (g.set sr v) = keptSegs (.movSregRm sr rm) g := by
  cases sr
  case cs => exact absurd rfl h
  all_goals rfl

theorem keptSegs_popSreg {sr : SegReg} (h : sr ≠ .cs) (g : Segs) (v : Word) :
    keptSegs (.popSreg sr) (g.set sr v) = keptSegs (.popSreg sr) g := by
  cases sr
  case cs => exact absurd rfl h
  all_goals rfl

theorem effect_movSregRm {sr : SegReg} {rm : RM} (h : execMovSregRm sr rm s = .next t) :
    Effect kf (keptSegs (.movSregRm sr rm)) [] s t := by
  unfold execMovSregRm at h
  split at h
  · cases h
  · next hcs =>
    obtain ⟨p, hp, h⟩ := andThen_eq_next.1 h
    injection h with h
    exact h ▸ effect_setSeg_inhibit (keptSegs_movSregRm hcs ..) (effect_readRM hp)

theorem effect_popSreg {sr : SegReg} (h : execPopSreg sr s = .next t) : Effect kf (keptSegs (.popSreg sr)) [] s t := by
  unfold execPopSreg at h
  split at h
  · cases h
  · next hcs =>
    obtain ⟨p, hp, h⟩ := andThen_eq_next.1 h
    injection h with h
    exact h ▸ effect_setSeg_inhibit (keptSegs_popSreg hcs ..) (effect_pop16 hp)

/-- A word or byte read and put into a register. -/
theorem effect_load {o : Out (Word × State)} {w : Width} {r : RegCode} (ho : ∀ p, o = .next p → Effect kf ks [] s p.2)
    (h : (andThen o fun p => .next (p.2.setReg w r p.1)) = .next t) : Effect kf ks [] s t := by
  obtain ⟨p, hp, h⟩ := andThen_eq_next.1 h
  injection h with h
  exact h ▸ (ho p hp).nil_trans (effect_setReg ..)

/-- A pointer read into a register and a segment register. -/
theorem effect_loadPointer {sr : SegReg} {r : RegCode} {rm : RM} (hs : ∀ g v, ks (Segs.set g sr v) = ks g)
    (h : (andThen (readPointer rm s) fun p => .next ((p.2.2.setReg .word r p.1).setSeg sr p.2.1)) = .next t) :
    Effect kf ks [] s t := by
  obtain ⟨p, hp, h⟩ := andThen_eq_next.1 h
  injection h with h
  exact h ▸ (effect_readPointer hp).nil_trans ((effect_setReg ..).nil_trans (effect_core rfl (hs ..) rfl))

theorem effect_popf (h : execPopf s = .next t) : Effect (keptFlags .popf) ks [] s t := by
  obtain ⟨p, hp, h⟩ := andThen_eq_next.1 h
  injection h with h
  exact h ▸ (effect_pop16 hp).nil_trans (effect_core rfl rfl rfl)

theorem effect_productFlags (wide : Bool) (w : Width) (p : Int) (s : State) :
    Effect Flags.control ks [] s (productFlags wide (s.setProduct w p)) := by
  cases w <;> exact effect_core rfl rfl rfl

theorem effect_mulRm {w : Width} {rm : RM} (h : execMulRm w rm s = .next t) : Effect Flags.control ks [] s t := by
  obtain ⟨m, hm, h⟩ := andThen_eq_next.1 h
  injection h with h
  exact h ▸ (effect_readRM hm).nil_trans (effect_productFlags ..)

theorem effect_imulRm {w : Width} {rm : RM} (h : execImulRm w rm s = .next t) : Effect Flags.control ks [] s t := by
  obtain ⟨m, hm, h⟩ := andThen_eq_next.1 h
  injection h with h
  exact h ▸ (effect_readRM hm).nil_trans (effect_productFlags ..)

theorem effect_quotient (w : Width) (q r : Int) (s : State) :
    Effect Flags.control ks [] s (State.undef allStatus (s.setQuotient w q r)) := by
  cases w <;> exact effect_core rfl rfl rfl

theorem effect_lea {r : RegCode} {rm : RM} (h : execLea r rm s = .next t) : Effect kf ks [] s t := by
  obtain ⟨p, _, h⟩ := andThen_eq_next.1 h
  injection h with h
  exact h ▸ effect_setReg ..

theorem effect_wait (h : execWait s = .next t) : Effect kf ks [] s t := by
  injection h with h
  subst h
  split
  · exact .refl s
  · exact effect_core rfl rfl rfl

theorem effect_esc (x y : BitVec 3) {rm : RM} (h : execEsc x y rm s = .next t) : Effect kf ks [] s t := by
  unfold execEsc at h
  split at h
  · injection h with h; exact h ▸ .refl s
  · obtain ⟨p, hp, h⟩ := andThen_eq_next.1 h
    injection h with h
    exact h ▸ effect_readMem hp

/-- An instruction that only computes. -/
theorem effect_next (h : Host.Outcome.next (φ := Fault) (ρ := Refusal) u = .next t) (hf : kf u.flags = kf s.flags)
    (hs : ks u.segs = ks s.segs) (hu : u = { s with
      regs := u.regs, segs := u.segs, ip := u.ip, flags := u.flags, inhibit := u.inhibit, ioIn := u.ioIn,
      ioOut := u.ioOut, draws := u.draws }) : Effect kf ks [] s t := by
  injection h with h
  exact h ▸ effect_core hf hs hu

/-- An ordinary instruction stores to its operands, keeps the flags and segment registers it has no business with, and
marks in the queue what it stores to. -/
theorem exec_ordinary {i : Instr} (hk : kindOf i = .ordinary) (h : exec i s = .next t) :
    Effect (keptFlags i) (keptSegs i) (s.operandsStoredBy i) s t := by
  cases i
  case movRmReg => exact effect_movRmReg h
  case movRmImm | movRmSreg => exact effect_writeRM rfl h
  case movMemAcc => exact effect_writeMem h
  case movAccMem | xlat => exact effect_load (fun _ => effect_readMem) h
  case inPort | inDx => exact effect_load (fun _ => effect_ioRead) h
  case outPort | outDx => exact effect_ioWrite h
  case movSregRm => exact effect_movSregRm h
  case popSreg => exact effect_popSreg h
  case pushRm => exact effect_pushRm h
  case pushReg => exact effect_pushReg h
  case pushSreg | pushf => exact effect_push16 h
  case popRm => exact effect_popRm h
  case popReg => exact effect_load (fun _ => effect_pop16) h
  case popf => exact effect_popf h
  case xchgRmReg => exact effect_xchgRmReg h
  case lea => exact effect_lea h
  case lds | les => exact effect_loadPointer (fun _ _ => rfl) h
  case addRmReg | adcRmReg | subRmReg | sbbRmReg | andRmReg | orRmReg | xorRmReg =>
    exact effect_binRmReg h fun _ _ _ _ => ⟨rfl, rfl⟩
  case addRmImm | adcRmImm | subRmImm | sbbRmImm | andRmImm | orRmImm | xorRmImm =>
    exact effect_binRmImm h fun _ _ _ _ => ⟨rfl, rfl⟩
  case addAccImm | adcAccImm | subAccImm | sbbAccImm | andAccImm | orAccImm | xorAccImm =>
    exact effect_binAccImm h fun _ _ _ _ => ⟨rfl, rfl⟩
  case cmpRmReg => exact effect_flagsRmReg h fun _ _ _ _ => ⟨rfl, rfl⟩
  case testRmReg => exact effect_flagsRmReg (d := .toRm) (bin := aluAnd) h fun _ _ _ _ => ⟨rfl, rfl⟩
  case cmpRmImm | testRmImm => exact effect_flagsRmImm h fun _ _ _ _ => ⟨rfl, rfl⟩
  case cmpAccImm | testAccImm => exact effect_flagsAccImm h fun _ _ _ _ => ⟨rfl, rfl⟩
  case incRm | decRm | negRm | notRm => exact effect_unRm h fun _ _ _ => ⟨rfl, rfl⟩
  case incReg | decReg => exact effect_unReg h fun _ _ _ => ⟨rfl, rfl⟩
  case shl | shr | sar | rol | ror | rcl | rcr => exact effect_shiftRm h
  case mulRm => exact effect_mulRm h
  case imulRm => exact effect_imulRm h
  case wait => exact effect_wait h
  case esc x y rm => exact effect_esc x y h
  case movRegImm => exact effect_movRegImm h
  case xchgAxReg | lahf | cbw | cwd => exact effect_next h rfl rfl rfl
  case aaa | daa | aas | das | aam | aad => exact effect_next h rfl rfl rfl
  case sahf | clc | cmc | stc | cld | std | cli | sti => exact effect_next h rfl rfl rfl
  all_goals cases hk

/-! ## Control transfer and interrupts -/

/-- What a control transfer does: as any instruction, but that it may empty the queue. -/
structure Transfer (kf : Flags → Flags) (ks : Segs → Segs) (own : List PAddr) (s t : State) : Prop
    extends Tame s t, Keeps kf ks s t where
  taken : t.queue = [] ∨ Marks own s t

/-- A transfer that is not taken. -/
theorem Effect.transfer (h : Effect kf ks own s t) : Transfer kf ks own s t := ⟨h.toTame, h.toKeeps, .inr h.toMarks⟩

theorem Effect.jump (h : Effect kf ks own' s u) (v : Word) : Transfer kf ks own s (u.jump v) :=
  ⟨h.toTame.trans (tame_jump ..), ⟨h.flags, h.segs⟩, .inl rfl⟩

theorem Effect.jumpFar (hs : ∀ g c, ks { g with cs := c } = ks g) (h : Effect kf ks own' s u) (g v : Word) :
    Transfer kf ks own s (u.jumpFar g v) :=
  ⟨h.toTame.trans (tame_jumpFar ..), ⟨h.flags, (hs ..).trans h.segs⟩, .inl rfl⟩

/-- SP adjusted after the transfer. -/
theorem Transfer.addSp (h : Transfer kf ks own s u) (ht : u.queue = []) (n : Word) : Transfer kf ks own s (u.addSp n) :=
  ⟨h.toTame.trans (tame_setReg ..), ⟨h.flags, h.segs⟩, .inl ht⟩

theorem transfer_branch {c : Bool} {inc : Byte} (h : branch c inc s = .next t) : Transfer kf ks [] s t := by
  injection h with h
  cases c with
  | false => exact h ▸ (Effect.refl s).transfer
  | true => exact h ▸ (Effect.refl s).jump _

theorem transfer_loopWhile {c : Bool} {inc : Byte} (h : loopWhile c inc s = .next t) : Transfer kf ks [] s t := by
  injection h with h
  have count : Effect kf ks [] s (s.setReg .word .cx (s.regs.cx - 1)) := effect_setReg ..
  cases hc : s.regs.cx - 1 != 0 && c with
  | false => rw [hc] at h; exact h ▸ count.transfer
  | true => rw [hc] at h; exact h ▸ count.jump _

theorem transfer_callNear {inc : Word} (h : execCallNear inc s = .next t) : Transfer kf ks own s t := by
  obtain ⟨u, hu, h⟩ := andThen_eq_next.1 h
  injection h with h
  exact h ▸ (effect_push16 hu).jump _

theorem transfer_callRm {rm : RM} (h : execCallRm rm s = .next t) : Transfer kf ks own s t := by
  obtain ⟨p, hp, h⟩ := andThen_eq_next.1 h
  obtain ⟨u, hu, h⟩ := andThen_eq_next.1 h
  injection h with h
  exact h ▸ ((effect_readRM hp).nil_trans (effect_push16 hu)).jump _

theorem transfer_jmpRm {rm : RM} (h : execJmpRm rm s = .next t) : Transfer kf ks own s t := by
  obtain ⟨p, hp, h⟩ := andThen_eq_next.1 h
  injection h with h
  exact h ▸ (effect_readRM hp).jump _

theorem transfer_retNear (h : execRetNear s = .next t) : Transfer kf ks own s t := by
  obtain ⟨p, hp, h⟩ := andThen_eq_next.1 h
  injection h with h
  exact h ▸ (effect_pop16 hp).jump _

theorem transfer_retNearImm {n : Word} (h : execRetNearImm n s = .next t) : Transfer kf ks own s t := by
  obtain ⟨p, hp, h⟩ := andThen_eq_next.1 h
  injection h with h
  exact h ▸ ((effect_pop16 hp).jump _).addSp rfl n

/-! Transfers to another segment keep every segment register but CS. -/

variable (hs : ∀ g c, ks { g with cs := c } = ks g)
include hs

theorem transfer_callTo {g v : Word} (k : Effect kf ks [] s u) (h : callTo g v u = .next t) : Transfer kf ks own s t := by
  obtain ⟨x, h1, h⟩ := andThen_eq_next.1 h
  obtain ⟨y, h2, h⟩ := andThen_eq_next.1 h
  injection h with h
  exact h ▸ Effect.jumpFar hs ((k.nil_trans (effect_push16 h1)).trans (effect_push16 h2)) g v

theorem transfer_callMem {rm : RM} (h : execCallMem rm s = .next t) : Transfer kf ks own s t := by
  obtain ⟨p, hp, h⟩ := andThen_eq_next.1 h
  exact transfer_callTo hs (effect_readPointer hp) h

theorem transfer_jmpMem {rm : RM} (h : execJmpMem rm s = .next t) : Transfer kf ks own s t := by
  obtain ⟨p, hp, h⟩ := andThen_eq_next.1 h
  injection h with h
  exact h ▸ Effect.jumpFar hs (effect_readPointer hp) _ _

theorem transfer_jmpFar {newIp newCs : Word} (h : execJmpFar newIp newCs s = .next t) : Transfer kf ks own s t := by
  injection h with h
  exact h ▸ Effect.jumpFar hs (.refl s) _ _

theorem transfer_popFar (h : popFar s = .next t) : Transfer kf ks own s t ∧ t.queue = [] := by
  obtain ⟨p, h1, h⟩ := andThen_eq_next.1 h
  obtain ⟨q, h2, h⟩ := andThen_eq_next.1 h
  injection h with h
  exact h ▸ ⟨Effect.jumpFar hs ((effect_pop16 h1).nil_trans (effect_pop16 h2)) _ _, rfl⟩

theorem transfer_retFarImm {n : Word} (h : execRetFarImm n s = .next t) : Transfer kf ks own s t := by
  obtain ⟨u, hu, h⟩ := andThen_eq_next.1 h
  injection h with h
  obtain ⟨far, empty⟩ := transfer_popFar hs hu
  exact h ▸ far.addSp empty n

theorem transfer_iret (h : execIret s = .next t) : Transfer (keptFlags .iret) ks own s t := by
  have e := interruptReturn_next h
  refine ⟨tame_interruptReturn h, ⟨rfl, ?_⟩, .inl (by rw [e])⟩
  rw [e]
  exact hs ..

omit hs

/-- A control transfer keeps the flags, IRET excepted, and may change CS where it leaves the segment. -/
theorem exec_transfer {i : Instr} (hk : kindOf i = .transfer) (h : exec i s = .next t) :
    Transfer (keptFlags i) (keptSegs i) (s.operandsStoredBy i) s t := by
  cases i
  case callNear => exact transfer_callNear h
  case callRm => exact transfer_callRm h
  case callFar => exact transfer_callTo (fun _ _ => rfl) (.refl s) h
  case callMem => exact transfer_callMem (fun _ _ => rfl) h
  case retNear => exact transfer_retNear h
  case retNearImm => exact transfer_retNearImm h
  case retFar => exact (transfer_popFar (fun _ _ => rfl) h).1
  case retFarImm => exact transfer_retFarImm (fun _ _ => rfl) h
  case je | jl | jle | jb | jbe | jp | jo | js | jne | jnl | jnle | jnb | jnbe | jnp | jno | jns | jcxz | jmpShort =>
    exact transfer_branch h
  case jmpNear => injection h with h; exact h ▸ (Effect.refl s).jump _
  case jmpRm => exact transfer_jmpRm h
  case jmpFar => exact transfer_jmpFar (fun _ _ => rfl) h
  case jmpMem => exact transfer_jmpMem (fun _ _ => rfl) h
  case loop | loopz | loopnz => exact transfer_loopWhile h
  case iret => exact transfer_iret (fun _ _ => rfl) h
  all_goals cases hk

/-- The interrupt sequence clears IF and TF, changes CS and empties the queue. -/
theorem transfer_interruptSequence {n : Byte} {saved : Word} (k : Effect id id [] s u)
    (h : interruptSequence n saved u = .next t) :
    Transfer (fun f => { f with IF := false, TF := false }) (fun g => { g with cs := 0 }) [] s t ∧
      t.queue = [] ∧ t.flags.IF = false ∧ t.flags.TF = false := by
  have e := interruptSequence_next h
  have flags : t.flags = { s.flags with IF := false, TF := false } := by rw [e, ← show _ = s.flags from k.flags]; rfl
  have segs : t.segs = { s.segs with cs := t.segs.cs } := by
    rw [← show _ = s.segs from k.segs]
    exact congrArg State.segs e
  refine ⟨⟨k.toTame.trans (tame_interruptSequence h), ⟨by rw [flags], by rw [segs]⟩, .inl (by rw [e])⟩, by rw [e], ?_, ?_⟩ <;>
    rw [flags]

/-- An instruction that may take an interrupt either does so, at once or after reading its operand, or only computes. -/
theorem exec_interrupt {i : Instr} (hk : kindOf i = .interrupt) (h : exec i s = .next t) :
    Effect Flags.control id [] s t ∨ ∃ n saved u, Effect id id [] s u ∧ interruptSequence n saved u = .next t := by
  cases i
  case int n => exact .inr ⟨n, s.ip, s, .refl s, h⟩
  case int3 => exact .inr ⟨3, s.ip, s, .refl s, h⟩
  case into =>
    have h : execInto s = .next t := h
    unfold execInto at h
    split at h
    · exact .inr ⟨4, s.ip, s, .refl s, h⟩
    · injection h with h; exact .inl (h ▸ .refl s)
  case divRm w rm =>
    obtain ⟨m, hm, h⟩ := andThen_eq_next.1 (show execDivRm w rm s = .next t from h)
    dsimp only at h
    split at h
    · exact .inr ⟨0, m.2.divideErrorIp, m.2, effect_readRM hm, h⟩
    · injection h with h; exact .inl (h ▸ (effect_readRM hm).nil_trans (effect_quotient ..))
  case idivRm w rm =>
    obtain ⟨m, hm, h⟩ := andThen_eq_next.1 (show execIdivRm w rm s = .next t from h)
    dsimp only at h
    split at h
    · exact .inr ⟨0, m.2.divideErrorIp, m.2, effect_readRM hm, h⟩
    · injection h with h; exact .inl (h ▸ (effect_readRM hm).nil_trans (effect_quotient ..))
  all_goals cases hk

/-! ## Strings and latches -/

theorem effect_leaveRepeat (s : State) : Effect kf ks [] s { s with inRepeat := false } :=
  ⟨⟨id, fun _ _ => rfl, .inl ⟨[], by simp⟩, fun e => (nomatch e), id, rfl, rfl, rfl, rfl, rfl, rfl, rfl, rfl, rfl⟩,
    ⟨rfl, rfl⟩, marks_of_eq rfl rfl⟩

/-- One step of a string instruction: the primitive where there is an iteration to run, and then perhaps the end of the
iteration (spec/43_string.md R328). -/
theorem effect_repeatStep {tests : Bool} {prim : State → Out State} (hp : ∀ u, prim s = .next u → Effect kf ks own s u)
    (h : repeatStep tests prim s = .next t) :
    ∃ u, Effect kf ks (if s.iterates then own else []) s u ∧ (t = u ∨ ∃ b, t = endIteration b u) := by
  rcases repeatStep_next h with ⟨hr, h⟩ | ⟨z, hr, hc, rfl⟩ | ⟨z, u, hr, hc, hu, rfl⟩
  · have iterates : s.iterates = true := by simp [State.iterates, hr]
    rw [if_pos iterates]
    exact ⟨t, hp t h, .inl rfl⟩
  · have ended : s.iterates = false := by simp [State.iterates, hr, hc]
    rw [ended]
    exact ⟨_, effect_leaveRepeat s, .inl rfl⟩
  · have iterates : s.iterates = true := by simpa [State.iterates, hr] using hc
    rw [if_pos iterates]
    exact ⟨u, hp u hu, .inr ⟨_, rfl⟩⟩

/-- The same for a primitive that stores nothing. -/
theorem effect_repeatStep_nil {tests : Bool} {prim : State → Out State} (hp : ∀ u, prim s = .next u → Effect kf ks [] s u)
    (h : repeatStep tests prim s = .next t) : ∃ u, Effect kf ks [] s u ∧ (t = u ∨ ∃ b, t = endIteration b u) := by
  simpa only [ite_self] using effect_repeatStep hp h

/-- A string instruction: its primitive, if there is an iteration to run, and perhaps the end of the iteration. -/
theorem exec_string {i : Instr} (hk : kindOf i = .string) (h : exec i s = .next t) :
    ∃ u, Effect (keptFlags i) (keptSegs i) (s.operandsStoredBy i) s u ∧ (t = u ∨ ∃ b, t = endIteration b u) := by
  cases i
  case movs => exact effect_repeatStep (fun _ => effect_moveString) h
  case stos => exact effect_repeatStep (fun _ => effect_storeString) h
  case lods => exact effect_repeatStep_nil (fun _ => effect_loadString) h
  case cmps => exact effect_repeatStep_nil (fun _ => effect_compareString) h
  case scas => exact effect_repeatStep_nil (fun _ => effect_scanString) h
  all_goals cases hk

/-- HLT and the prefixes set a latch and nothing else (log 8). -/
theorem exec_latch {i : Instr} (hk : kindOf i = .latch) (h : exec i s = .next t) :
    t = { s with halted := t.halted, lock := t.lock, cur := t.cur } := by
  cases i
  case hlt | rep | repne | lock | segment => injection h with h; exact h ▸ rfl
  all_goals cases hk

/-- The prefixes latch nothing but LOCK and what `cur` holds. -/
theorem exec_prefix {i : Instr} (hp : i.isPrefix = true) (h : exec i s = .next t) :
    t = { s with lock := t.lock, cur := t.cur } := by
  cases i
  case rep | repne | lock | segment => injection h with h; exact h ▸ rfl
  all_goals cases hp

/-! ## Flags and segment registers (spec/10_state.md R27, R31) -/

/-- Every instruction keeps its part of FLAGS and of the segment registers. -/
theorem exec_keeps {i : Instr} (h : exec i s = .next t) : Keeps (keptFlags i) (keptSegs i) s t := by
  cases hk : kindOf i with
  | ordinary => exact (exec_ordinary hk h).toKeeps
  | transfer => exact (exec_transfer hk h).toKeeps
  | string =>
    obtain ⟨u, hu, rfl | ⟨b, rfl⟩⟩ := exec_string hk h
    · exact hu.toKeeps
    · exact ⟨by rw [endIteration_flags]; exact hu.flags, by rw [endIteration_segs]; exact hu.segs⟩
  | latch =>
    rw [exec_latch hk h]
    exact ⟨rfl, rfl⟩
  | interrupt =>
    have df_cs : Keeps (fun f => { Flags.clear with DF := f.DF }) (fun g => { g with cs := 0 }) s t := by
      rcases exec_interrupt hk h with k | ⟨n, saved, u, k, hi⟩
      · have df := congrArg Flags.DF k.flags
        exact ⟨congrArg (fun b => { Flags.clear with DF := b }) df, congrArg (fun g : Segs => { g with cs := 0 }) k.segs⟩
      · have taken := (transfer_interruptSequence k hi).1
        have df := congrArg Flags.DF taken.flags
        exact ⟨congrArg (fun b => { Flags.clear with DF := b }) df, taken.segs⟩
    cases i
    case int | int3 | into | divRm | idivRm => exact df_cs
    all_goals cases hk

/-- Where an instruction may take an interrupt, TF and IF are as before or clear. -/
theorem exec_interrupt_flags {i : Instr} (hk : kindOf i = .interrupt) (h : exec i s = .next t) :
    (t.flags.TF = s.flags.TF ∨ t.flags.TF = false) ∧ (t.flags.IF = s.flags.IF ∨ t.flags.IF = false) := by
  rcases exec_interrupt hk h with k | ⟨n, saved, u, k, hi⟩
  · have tf := congrArg Flags.TF k.flags
    have intf := congrArg Flags.IF k.flags
    exact ⟨.inl tf, .inl intf⟩
  · obtain ⟨-, -, clearIF, clearTF⟩ := transfer_interruptSequence k hi
    exact ⟨.inr clearTF, .inr clearIF⟩

end

/-- Settles O58: the instructions listed are among those that keep all of FLAGS. -/
theorem instructionsThatTouchNoFlag : Obligations.InstructionsThatTouchNoFlag := by
  intro i s t h listed
  have all : keptFlags i = id := by
    revert listed
    cases i <;> simp [keptFlags]
  simpa only [all, id] using (exec_keeps h).flags

/-- Settles O56: what is kept of FLAGS is kept flag by flag; an interrupt clears TF and IF. -/
theorem controlFlagWriters : Obligations.ControlFlagWriters := by
  intro i s t h
  have kept := (exec_keeps h).flags
  have tf := congrArg Flags.TF kept
  have intf := congrArg Flags.IF kept
  have df := congrArg Flags.DF kept
  cases i
  case int | int3 | into | divRm | idivRm =>
    obtain ⟨tf', intf'⟩ := exec_interrupt_flags rfl h
    exact ⟨tf', intf', df⟩
  case popf | iret => exact ⟨trivial, trivial, trivial⟩
  case cli | sti => exact ⟨tf, trivial, df⟩
  case cld | std => exact ⟨tf, intf, trivial⟩
  all_goals exact ⟨tf, intf, df⟩

/-- Settles O57: what is kept of the segment registers is kept register by register. -/
theorem segmentRegisterWriters : Obligations.SegmentRegisterWriters := by
  intro i s t h
  have kept := (exec_keeps h).segs
  have ss := congrArg Segs.ss kept
  have ds := congrArg Segs.ds kept
  have es := congrArg Segs.es kept
  have cs := congrArg Segs.cs kept
  cases i
  case movSregRm sr _ | popSreg sr =>
    cases sr
    case ss => exact ⟨trivial, ds, es, cs⟩
    case ds => exact ⟨ss, trivial, es, cs⟩
    case es => exact ⟨ss, ds, trivial, cs⟩
    case cs => exact ⟨ss, ds, es, cs⟩
  case lds => exact ⟨ss, trivial, es, cs⟩
  case les => exact ⟨ss, ds, trivial, cs⟩
  case callFar | callMem | jmpFar | jmpMem | retFar | retFarImm | int | int3 | into | iret | divRm | idivRm =>
    exact ⟨ss, ds, es, trivial⟩
  all_goals exact ⟨ss, ds, es, cs⟩

end Sys2Proof.Machine
end

section
/-! Every step keeps the invariant of Safety.lean (O17). Inside a step two weaker predicates hold: `Sound` while the
instruction runs, with prefixes latched, and `Settling` from its end to the end of the step. -/

namespace Sys2Proof.Machine

/-! ## What holds inside a step -/

/-- What of the invariant holds at every point of a step. -/
structure Sound (s : State) : Prop where
  mem : s.mem.wf = true
  rep : s.inRepeat = true → s.regs.cx ≠ 0 ∧ s.halted = false
  queue : s.queue.length ≤ maxLength + Config.prefetchDepth

/-- The invariant but for the shadow and the writes of other masters that are due. -/
structure Settling (s : State) : Prop extends Sound s where
  cur : s.cur = Current.idle
  lock : s.lock = false

theorem State.Inv.settling {s : State} (h : s.Inv) : Settling s := ⟨⟨h.mem, h.rep, h.queue⟩, h.cur, h.lock⟩

/-- Marks and an emptied queue do not lengthen it. -/
theorem Tame.queue_length {s t : State} (h : Tame s t) : t.queue.length ≤ s.queue.length := by
  rcases h.queue with ⟨as, e⟩ | e <;> simp [e]

theorem Sound.of_tame {s t : State} (h : Sound s) (k : Tame s t) (hr : t.inRepeat = false) : Sound t :=
  ⟨k.wf h.mem, fun e => absurd e (by simp [hr]), k.queue_length.trans h.queue⟩

theorem Tame.inRepeat_false {s t : State} (h : Tame s t) (hr : s.inRepeat = false) : t.inRepeat = false := by
  cases ht : t.inRepeat with
  | false => rfl
  | true => exact absurd (h.inRepeat ht) (by simp [hr])

theorem Tame.halted_false {s t : State} (h : Tame s t) (hh : s.halted = false) : t.halted = false := by
  cases ht : t.halted with
  | false => rfl
  | true => exact absurd (h.halted ht) (by simp [hh])

/-! ## The beginning and the end of a step -/

theorem Sound.putOthers {s : State} (h : Sound s) (l : Burst) : Sound (State.putOthers l s) := by
  have k := tame_putOthers l s
  refine ⟨k.wf h.mem, fun e => ?_, k.queue_length.trans h.queue⟩
  rw [putOthers_regs, putOthers_halted]
  exact h.rep (k.inRepeat e)

theorem Settling.sample {s : State} (h : Settling s) : Settling s.sample := by
  refine ⟨?_, (sample_cur s).trans h.cur, (sample_lock s).trans h.lock⟩
  unfold State.sample
  split
  · exact h.toSound
  · refine Sound.putOthers ?_ _
    exact ⟨h.mem, h.rep, h.queue⟩

/-- Once other masters' writes have landed, the invariant holds again. -/
theorem Settling.settle {s : State} (h : Settling s) (hi : s.inhibit = false) : s.settle.Inv where
  mem := (tame_settle s).wf h.mem
  cur := (settle_cur s).trans h.cur
  lock := (settle_lock s).trans h.lock
  inhibit := (settle_inhibit s).trans hi
  due := settle_due s
  rep := by simpa using h.rep
  queue := (tame_settle s).queue_length.trans h.queue

theorem settling_resetSequence {s : State} (h : Sound s) : Settling s.resetSequence :=
  ⟨⟨h.mem, fun e => (nomatch e), Nat.zero_le _⟩, rfl, rfl⟩

/-! ## The recognition point (spec/60_exceptions.md R508) -/

/-- An interrupt ends a repeat and leaves the shadow alone. -/
theorem Settling.interrupt {n : Byte} {saved : Word} {s t : State} (h : Settling s)
    (hi : interruptSequence n saved s = .next t) : Settling t ∧ t.inhibit = s.inhibit := by
  have e := interruptSequence_next hi
  have k := tame_interruptSequence hi
  exact ⟨⟨h.toSound.of_tame k (by rw [e]), k.cur.trans h.cur, k.lock.trans h.lock⟩, by rw [e]⟩

theorem Settling.external {saved : Word} {s : State} {r : State × Bool} (h : Settling s)
    (hr : takeExternal saved s = .next r) : Settling r.1 ∧ r.1.inhibit = s.inhibit := by
  rcases takeExternal_next hr with ⟨-, -, nmi⟩ | ⟨n, -, -, -, -, intr⟩ | ⟨-, -, rfl⟩
  · have cleared : Settling { s with nmiPending := false } := ⟨⟨h.mem, h.rep, h.queue⟩, h.cur, h.lock⟩
    exact cleared.interrupt nmi
  · exact h.interrupt intr
  · exact ⟨h, rfl⟩

/-- After the recognition point the shadow is over. -/
theorem Settling.recognise {tf0 : Bool} {saved : Word} {s t : State} (h : Settling s)
    (hr : recognise tf0 saved s = .next t) : Settling t ∧ t.inhibit = false := by
  rcases recognise_next hr with ⟨-, rfl⟩ | ⟨shadow, r, hext, step⟩
  · exact ⟨⟨⟨h.mem, h.rep, h.queue⟩, h.cur, h.lock⟩, rfl⟩
  · obtain ⟨k, inhibit⟩ := h.external hext
    rcases step with ⟨-, rfl⟩ | ⟨-, single⟩
    · exact ⟨k, inhibit.trans shadow⟩
    · obtain ⟨k', inhibit'⟩ := k.interrupt single
      exact ⟨k', inhibit'.trans (inhibit.trans shadow)⟩

/-! ## The instruction -/

/-- Every instruction is tame but the latches and the repeats. -/
theorem exec_tame {i : Instr} (hl : kindOf i ≠ .latch) (hs : kindOf i ≠ .string) {s t : State}
    (h : exec i s = .next t) : Tame s t := by
  cases hk : kindOf i with
  | ordinary => exact (exec_ordinary hk h).toTame
  | transfer => exact (exec_transfer hk h).toTame
  | interrupt =>
    rcases exec_interrupt hk h with k | ⟨n, saved, u, k, hi⟩
    · exact k.toTame
    · exact k.toTame.trans (tame_interruptSequence hi)
  | latch => exact absurd hk hl
  | string => exact absurd hk hs

/-- The end of an iteration goes on with the loop only while CX is not 0. -/
theorem Sound.endIteration {s : State} (h : Sound s) (hh : s.halted = false) (stop : Bool) :
    Sound (endIteration stop s) :=
  ⟨by rw [endIteration_mem]; exact h.mem, fun e => ⟨endIteration_inRepeat e, by rw [endIteration_halted]; exact hh⟩,
    by rw [endIteration_queue]; exact h.queue⟩

/-- An instruction leaves a repeat in progress only where it is a string instruction with iterations left. -/
theorem Sound.exec {i : Instr} {s t : State} (h : Sound s) (hr : s.inRepeat = false) (hh : s.halted = false)
    (he : exec i s = .next t) : Sound t := by
  by_cases hl : kindOf i = .latch
  · rw [exec_latch hl he]
    exact ⟨h.mem, fun e => absurd e (by simp [hr]), h.queue⟩
  by_cases hs : kindOf i = .string
  · obtain ⟨u, k, eq⟩ := exec_string hs he
    have hu : Sound u := h.of_tame k.toTame (k.toTame.inRepeat_false hr)
    rcases eq with rfl | ⟨stop, rfl⟩
    · exact hu
    · exact hu.endIteration (k.toTame.halted_false hh) stop
  · have k := exec_tame hl hs he
    exact h.of_tame k (k.inRepeat_false hr)

/-- Prefixes only latch. -/
theorem runPrefixes_latches {ps : List Instr} (hp : ∀ p ∈ ps, p.isPrefix = true) {s t : State}
    (h : runPrefixes exec ps s = .next t) : t = { s with lock := t.lock, cur := t.cur } := by
  induction ps generalizing s with
  | nil => injection h with h; exact h ▸ rfl
  | cons p ps ih =>
    obtain ⟨u, hu, h⟩ := andThen_eq_next.1 h
    rw [ih (fun q hq => hp q (List.mem_cons_of_mem p hq)) h, exec_prefix (hp p List.mem_cons_self) hu]

/-! ## Fetching -/

theorem codeBytes_length (s : State) (n : Nat) (ip : Word) : (s.codeBytes n ip).length ≤ n := by
  induction n generalizing ip with
  | zero => exact Nat.le_refl 0
  | succ n ih =>
    unfold State.codeBytes
    dsimp only
    split
    · exact Nat.zero_le _
    · exact Nat.succ_le_succ (ih _)

theorem decodeFrom_prefixes {fuel : Nat} {seen ps : List Instr} {bs rest : List Byte} {i : Instr}
    (hs : ∀ p ∈ seen, p.isPrefix = true) (h : decodeFrom fuel seen bs = .ok (ps, i, rest)) :
    ∀ p ∈ ps, p.isPrefix = true := by
  induction fuel generalizing seen bs with
  | zero =>
    unfold decodeFrom at h
    split at h
    · cases h
    · split_ifs at h
      injection h with h
      injection h with h
      exact h ▸ hs
  | succ fuel ih =>
    unfold decodeFrom at h
    split at h
    · cases h
    · next j rest' hj =>
      split_ifs at h with hpre
      · refine ih (fun p hp => ?_) h
        rcases List.mem_append.1 hp with hp | hp
        · exact hs p hp
        · rw [List.mem_singleton.1 hp]; exact hpre
      · injection h with h
        injection h with h
        exact h ▸ hs

/-- A decoded instruction has prefixes before it only, and no more bytes than it was decoded from. -/
theorem decode_ok {bs : List Byte} {d : Decoded} (h : decode bs = .ok d) :
    (∀ p ∈ d.prefixes, p.isPrefix = true) ∧ d.length ≤ bs.length := by
  unfold decode at h
  split at h
  · cases h
  · next ps i rest hd =>
    injection h with h
    subst h
    exact ⟨decodeFrom_prefixes (by simp) hd, Nat.sub_le ..⟩

/-- A fetched instruction is what memory at CS:IP decodes to, and no byte of it is stale. -/
theorem fetch_next {s : State} {d : Decoded} (h : fetch s = .next d) :
    decode (s.codeBytes maxLength s.ip) = .ok d ∧ s.raced d.length = false := by
  cases hd : decode (s.codeBytes maxLength s.ip) with
  | error e => cases e <;> simp [fetch, hd] at h
  | ok d' =>
    rw [fetch_decoded hd] at h
    split at h
    · cases h
    · next hrace =>
      injection h with h
      subst h
      exact ⟨rfl, by simpa using hrace⟩

theorem window_length (s : State) (len : Nat) : (s.window len).length = len + Config.prefetchDepth := by
  simp [State.window]

theorem Sound.start {s : State} (h : Sound s) {len : Nat} (hl : len ≤ maxLength) : Sound (s.start len) :=
  ⟨h.mem, fun e => (nomatch e), by rw [start_queue, window_length]; exact Nat.add_le_add_right hl _⟩

/-! ## The step -/

theorem Settling.runDecoded {d : Decoded} {s t : State} (h : Settling s) (hh : s.halted = false)
    (hp : ∀ p ∈ d.prefixes, p.isPrefix = true) (hl : d.length ≤ maxLength) (hr : runDecoded exec d s = .next t) :
    Settling t ∧ t.inhibit = false := by
  obtain ⟨p, hprefix, hr⟩ := andThen_eq_next.1 hr
  obtain ⟨u, hbody, hr⟩ := andThen_eq_next.1 hr
  have latched := runPrefixes_latches hp hprefix
  have start := h.toSound.start hl
  have before : Sound p := by rw [latched]; exact ⟨start.mem, start.rep, start.queue⟩
  have after : Sound u := before.exec (by rw [latched]; rfl) (by rw [latched]; exact hh) hbody
  have finished : Settling u.finish := ⟨⟨after.mem, after.rep, after.queue⟩, rfl, rfl⟩
  exact finished.recognise hr

theorem Settling.act {reset more : Bool} {s t : State} (h : Settling s) (ha : act exec reset more s = .next t) :
    Settling t ∧ t.inhibit = false := by
  unfold Machine.act at ha
  split at ha
  · injection ha with ha
    exact ha ▸ ⟨settling_resetSequence h.toSound, rfl⟩
  · split at ha
    · unfold idle at ha
      split at ha
      · cases ha
      · exact h.recognise ha
    · next hh =>
      obtain ⟨d, hd, hr⟩ := andThen_eq_next.1 ha
      obtain ⟨prefixes, length⟩ := decode_ok (fetch_next hd).1
      exact h.runDecoded (by simpa using hh) prefixes (length.trans (codeBytes_length ..)) hr

/-- Settles O17: the invariant weakens to `Settling` when the environment is sampled and is whole again once the writes
of other masters have landed. -/
theorem invariantKeptByEveryStep : Obligations.InvariantKeptByEveryStep := by
  intro s t hs h
  obtain ⟨u, hu, h⟩ := andThen_eq_next.1 h
  injection h with h
  obtain ⟨settling, shadow⟩ := hs.settling.sample.act hu
  exact h ▸ settling.settle shadow

end Sys2Proof.Machine
end

section
/-! The prefetch queue (O9; spec/20_memory.md R78, spec/70_reset_and_hazards.md R545; log 9): what it holds while an
instruction executes, what marks a queued byte, and that a marked byte is not executed. -/

namespace Sys2Proof.Machine

/-! ## The window -/

theorem window_getElem? (s : State) {len k : Nat} (hk : k < len + Config.prefetchDepth) :
    (s.window len)[k]? = some ((queued s.queue (s.codeAddr s.ip k)).getD
      ⟨s.codeAddr s.ip k, s.byteAt (s.codeAddr s.ip k), false⟩) := by
  simp [State.window, List.getElem?_range hk]

/-- While an instruction executes the queue holds its bytes and the PREFETCH_DEPTH bytes after it, each as it was when
it could first be fetched. -/
theorem start_queue_holds (s : State) {len k : Nat} (hk : k < len + Config.prefetchDepth) :
    (s.start len).queue.length = len + Config.prefetchDepth ∧
    (queued s.queue (s.codeAddr s.ip k) = none →
      (s.start len).queue[k]? = some ⟨s.codeAddr s.ip k, s.byteAt (s.codeAddr s.ip k), false⟩) ∧
    (∀ c, queued s.queue (s.codeAddr s.ip k) = some c → (s.start len).queue[k]? = some c) := by
  rw [start_queue, window_getElem? s hk]
  exact ⟨window_length s len, fun h => by rw [h]; rfl, fun c h => by rw [h]; rfl⟩

/-! ## Marks -/

theorem queued_markStored (as : List PAddr) (q : List Queued) (a : PAddr) :
    queued (markStored as q) a = (queued q a).map fun c => { c with stored := c.stored || decide (a ∈ as) } := by
  induction q with
  | nil => rfl
  | cons c q ih =>
    simp only [queued, markStored, List.map_cons, List.find?_cons] at ih ⊢
    by_cases h : c.addr = a
    · subst h; simp
    · rw [beq_false_of_ne h]
      exact ih

/-- An undisturbed store marks its own bytes and no other. -/
theorem writeMem_queue {w : Width} {seg off v : Word} {s t : State} (ha : s.alone = true)
    (h : writeMem w seg off v s = .next t) : t.queue = markStored (cellsOf w seg off) s.queue := by
  cases w with
  | byte =>
    obtain ⟨-, rfl⟩ := memWrite_eq_next.1 h
    rw [busCycle_of_alone ha]
    rfl
  | word =>
    obtain ⟨u, h1, h2⟩ := andThen_eq_next.1 h
    obtain ⟨-, rfl⟩ := memWrite_eq_next.1 h1
    obtain ⟨-, rfl⟩ := memWrite_eq_next.1 h2
    rw [busCycle_of_alone ha, highCycle_of_alone _ (show (s.put _ _).alone = true from ha)]
    exact markStored_append ..

/-! ## What an instruction leaves in the queue -/

theorem raises_of_kind {i : Instr} (hk : kindOf i ≠ .interrupt) (s : State) : s.raises i = none := by
  cases i
  case int | int3 | into | divRm | idivRm => exact absurd rfl hk
  all_goals rfl

theorem storedBy_of_raises {s : State} {i : Instr} (h : s.raises i = none) : s.storedBy i = s.operandsStoredBy i := by
  simp only [State.storedBy, h]

/-- DIV and IDIV raise interrupt 0 on the operand they read, where no other master writes in between; so these
instructions either took their interrupt, which empties the queue, or raise none. -/
theorem exec_interrupt_queue {i : Instr} (hk : kindOf i = .interrupt) {s t : State}
    (ha : ∀ w rm, i = .divRm w rm ∨ i = .idivRm w rm → s.alone = true) (h : exec i s = .next t) :
    t.queue = [] ∨ (s.raises i = none ∧ t.queue = s.queue) := by
  cases i
  case int | int3 => exact .inl (by rw [interruptSequence_next h])
  case into =>
    cases overflow : s.flags.OF with
    | true =>
      have h : interruptSequence 4 s.ip s = .next t := by simpa [exec, execInto, overflow] using h
      exact .inl (by rw [interruptSequence_next h])
    | false =>
      have h : s = t := by simpa [exec, execInto, overflow] using h
      exact .inr ⟨by simp [State.raises, overflow], by rw [h]⟩
  case divRm w rm =>
    obtain ⟨m, hm, h⟩ := andThen_eq_next.1 (show execDivRm w rm s = .next t from h)
    obtain ⟨-, rfl⟩ := (readRM_eq_next (ha w rm (.inl rfl))).1 hm
    dsimp only at h
    split at h
    · exact .inl (by rw [interruptSequence_next h])
    · next fits =>
      injection h with h
      exact .inr ⟨if_neg fits, by rw [← h]; cases w <;> rfl⟩
  case idivRm w rm =>
    obtain ⟨m, hm, h⟩ := andThen_eq_next.1 (show execIdivRm w rm s = .next t from h)
    obtain ⟨-, rfl⟩ := (readRM_eq_next (ha w rm (.inr rfl))).1 hm
    dsimp only at h
    split at h
    · exact .inl (by rw [interruptSequence_next h])
    · next fits =>
      injection h with h
      exact .inr ⟨if_neg fits, by rw [← h]; cases w <;> rfl⟩
  all_goals cases hk

/-- An instruction marks in the queue exactly the bytes it stores to, and those that other masters write to meanwhile,
or else it can transfer control and empties the queue. -/
theorem exec_queue {i : Instr} {s t : State}
    (ha : ∀ w rm, i = .divRm w rm ∨ i = .idivRm w rm → s.alone = true) (h : exec i s = .next t) :
    ((kindOf i = .transfer ∨ kindOf i = .interrupt) ∧ t.queue = []) ∨
    ∃ as, t.queue = markStored as s.queue ∧ (∀ a ∈ s.storedBy i, a ∈ as) ∧ ∀ a ∈ as, a ∈ s.storedBy i ∨ s.othersStore a := by
  cases hk : kindOf i with
  | ordinary =>
    rw [storedBy_of_raises (raises_of_kind (by simp [hk]) s)]
    exact .inr (exec_ordinary hk h).marked
  | string =>
    rw [storedBy_of_raises (raises_of_kind (by simp [hk]) s)]
    obtain ⟨u, k, rfl | ⟨stop, rfl⟩⟩ := exec_string hk h
    · exact .inr k.marked
    · rw [endIteration_queue]
      exact .inr k.marked
  | transfer =>
    rw [storedBy_of_raises (raises_of_kind (by simp [hk]) s)]
    exact (exec_transfer hk h).taken.imp (fun empty => ⟨.inl rfl, empty⟩) Marks.marked
  | latch =>
    rw [storedBy_of_raises (raises_of_kind (by simp [hk]) s)]
    have none_stored : s.operandsStoredBy i = [] := by
      cases i
      case hlt | rep | repne | lock | segment => rfl
      all_goals cases hk
    rw [exec_latch hk h, none_stored]
    exact .inr (marks_of_eq (s := s) (t := s) rfl rfl).marked
  | interrupt =>
    rcases exec_interrupt_queue hk ha h with empty | ⟨none_raised, same⟩
    · exact .inl ⟨.inr rfl, empty⟩
    · have none_stored : s.operandsStoredBy i = [] := by
        cases i
        case int | int3 | into | divRm | idivRm => rfl
        all_goals cases hk
      rw [storedBy_of_raises none_raised, none_stored, same]
      exact .inr (marks_of_eq (s := s) (t := s) rfl rfl).marked

/-! ## The race (spec/93_implementation_defined.md U14) -/

/-- A stale byte of an instruction refuses the step. -/
theorem step_raced {s : State} {d : Decoded} (hr : s.resetNow = false) (hh : s.halted = false)
    (hd : decode (s.sample.codeBytes maxLength s.ip) = .ok d) (hrace : s.sample.raced d.length = true) :
    step s = .refused .prefetchRace := by
  have hd' : decode (s.sample.codeBytes maxLength s.sample.ip) = .ok d := by rw [sample_ip]; exact hd
  rw [step_running hr hh, fetch_decoded hd', if_pos hrace]
  rfl

/-- A queued copy that is marked or differs from memory is stale. -/
theorem staleAt_of_queued {s : State} {a : PAddr} {c : Queued} (hc : queued s.queue a = some c)
    (h : c.stored = true ∨ c.byte ≠ s.byteAt a) : s.staleAt a = true := by
  unfold State.staleAt
  simpa [hc] using h

theorem raced_of_staleAt {s : State} {len k : Nat} (hk : k < len) (h : s.staleAt (s.codeAddr s.ip k) = true) :
    s.raced len = true := List.any_eq_true.2 ⟨k, List.mem_range.2 hk, h⟩

/-- Nothing is stale while the queue is empty. -/
theorem raced_of_empty {s : State} (h : s.queue = []) (len : Nat) : s.raced len = false := by
  simp [State.raced, State.staleAt, queued, h]

/-- Settles O9. -/
theorem prefetchQueueAndRace : Obligations.PrefetchQueueAndRace := by
  refine ⟨fun s len k hk => start_queue_holds s hk, put_queue, fun s l => putOthers_queue l s,
    fun s w seg off v t => writeMem_queue, fun i s t ha h => ?_, queued_markStored, ?_, ?_⟩
  · have undisturbed : ∀ w rm, i = .divRm w rm ∨ i = .idivRm w rm → s.alone = true := by
      rintro w rm (rfl | rfl) <;> exact ha
    rcases exec_queue undisturbed h with ⟨hk, empty⟩ | marked
    · refine .inl ⟨?_, empty⟩
      cases i
      all_goals first | exact True.intro | exact hk.elim (fun e => nomatch e) (fun e => nomatch e)
    · exact .inr marked
  · intro s d k c hr hh hd hk hc hstale
    have codeAddr : s.sample.codeAddr s.sample.ip k = s.codeAddr s.ip k := by simp [State.codeAddr]
    refine step_raced hr hh hd (raced_of_staleAt hk ?_)
    rw [codeAddr]
    exact staleAt_of_queued hc hstale
  · intro s d hq hd
    rw [fetch_decoded hd, raced_of_empty hq]
    rfl

end Sys2Proof.Machine
end

section
/-! The decoder reads back what the encoder writes, and a step runs the instruction whose encoding stands at CS:IP (O8).
No two rows of the table match the same two bytes, so the row an encoding was written from is the one that is found. -/

namespace Sys2Proof

/-! ## The table (spec/30_encoding.md R136) -/

/-- Any two rows differ in a bit that both look at: some 9000 pairs of numbers, for the kernel to compare. -/
theorem opcodeRows_disjoint :
    opcodeRows.Pairwise fun r r' => (r.value ^^^ r'.value) &&& (r.mask &&& r'.mask) ≠ 0 := by
  decide +kernel

/-- Rows that match the same bytes agree in every bit that both look at. -/
theorem agree_of_hits {r r' : Row} {b1 b2 : Byte} (h : r.hits b1 b2 = true) (h' : r'.hits b1 b2 = true) :
    (r.value ^^^ r'.value) &&& (r.mask &&& r'.mask) = 0 := by
  rw [← eq_of_beq h, ← eq_of_beq h']
  apply Nat.eq_of_testBit_eq
  intro k
  simp only [Nat.testBit_and, Nat.testBit_xor, Nat.zero_testBit]
  grind

theorem find?_of_pairwise {α : Type} {p : α → Bool} {l : List α} (hl : l.Pairwise fun x y => ¬(p x = true ∧ p y = true))
    {a : α} (ha : a ∈ l) (hp : p a = true) : l.find? p = some a := by
  induction l with
  | nil => cases ha
  | cons x l ih =>
    obtain ⟨hx, hl⟩ := List.pairwise_cons.1 hl
    rcases List.mem_cons.1 ha with rfl | ha
    · exact List.find?_cons_of_pos hp
    · rw [List.find?_cons_of_neg fun h => hx a ha ⟨h, hp⟩]
      exact ih hl ha

/-- The row that matches is the one that is found. -/
theorem findRow_of_hits {r : Row} {b1 b2 : Byte} (hr : r ∈ opcodeRows) (h : r.hits b1 b2 = true) :
    findRow b1 b2 = some r :=
  find?_of_pairwise (opcodeRows_disjoint.imp fun hne ⟨h1, h2⟩ => hne (agree_of_hits h1 h2)) hr h

/-- A row of the table, found by its value and mask. -/
theorem row_mem {v m : Nat} {read : RowReader}
    (h : opcodeRows.find? (fun r => r.value == v && r.mask == m) = some ⟨v, m, read⟩) : ⟨v, m, read⟩ ∈ opcodeRows :=
  List.mem_of_find?_eq_some h

/-- Masking two bytes masks each. -/
theorem and_bytes (a c : Nat) {b d : Nat} (hb : b < 256) (hd : d < 256) :
    (a * 256 + b) &&& (c * 256 + d) = (a &&& c) * 256 + (b &&& d) := by
  have high : ((a * 256 + b) &&& (c * 256 + d)) / 2 ^ 8 = (a * 256 + b) / 2 ^ 8 &&& (c * 256 + d) / 2 ^ 8 :=
    Nat.and_div_two_pow
  have low : ((a * 256 + b) &&& (c * 256 + d)) % 2 ^ 8 = (a * 256 + b) % 2 ^ 8 &&& (c * 256 + d) % 2 ^ 8 :=
    Nat.and_mod_two_pow
  rw [show (a * 256 + b) / 2 ^ 8 = a by omega, show (c * 256 + d) / 2 ^ 8 = c by omega] at high
  rw [show (a * 256 + b) % 2 ^ 8 = b by omega, show (c * 256 + d) % 2 ^ 8 = d by omega] at low
  omega

/-- The row whose mask picks its value from the first two bytes reads the instruction. -/
theorem decodeOne_of_row {v1 v2 m1 m2 : Nat} {read : RowReader} {b : Byte} {bs : List Byte}
    (hr : ⟨v1 * 256 + v2, m1 * 256 + m2, read⟩ ∈ opcodeRows) (hm : m2 < 256) (h1 : b.toNat &&& m1 = v1)
    (h2 : (bs.headD 0#8).toNat &&& m2 = v2) : decodeOne (b :: bs) = read b bs := by
  have hits : Row.hits ⟨v1 * 256 + v2, m1 * 256 + m2, read⟩ b (bs.headD 0#8) = true := by
    rw [Row.hits, and_bytes _ _ (bs.headD 0#8).isLt hm, h1, h2, beq_self_eq_true]
  simp only [decodeOne, findRow_of_hits hr hits]

/-- A row that looks at the first byte only. -/
theorem decodeOne_of_first {v m : Nat} {read : RowReader} {b : Byte} {bs : List Byte}
    (hr : ⟨v * 256, m * 256, read⟩ ∈ opcodeRows) (h : b.toNat &&& m = v) : decodeOne (b :: bs) = read b bs :=
  decodeOne_of_row (v2 := 0) (m2 := 0) (by rwa [Nat.add_zero, Nat.add_zero]) (by decide) h (Nat.and_zero _)

/-! ## Fields of a byte (spec/30_encoding.md R93 to R98) -/

/-! What the masks of the table pick from a byte. -/

theorem and_0xFF (b : Byte) : b.toNat &&& 0xFF = b.toNat :=
  (by decide +kernel : ∀ n < 256, n &&& 0xFF = n) b.toNat b.isLt

theorem and_0xFE (b : Byte) : b.toNat &&& 0xFE = b.toNat / 2 * 2 :=
  (by decide +kernel : ∀ n < 256, n &&& 0xFE = n / 2 * 2) b.toNat b.isLt

theorem and_0xFC (b : Byte) : b.toNat &&& 0xFC = b.toNat / 4 * 4 :=
  (by decide +kernel : ∀ n < 256, n &&& 0xFC = n / 4 * 4) b.toNat b.isLt

theorem and_0xF8 (b : Byte) : b.toNat &&& 0xF8 = b.toNat / 8 * 8 :=
  (by decide +kernel : ∀ n < 256, n &&& 0xF8 = n / 8 * 8) b.toNat b.isLt

theorem and_0xF0 (b : Byte) : b.toNat &&& 0xF0 = b.toNat / 16 * 16 :=
  (by decide +kernel : ∀ n < 256, n &&& 0xF0 = n / 16 * 16) b.toNat b.isLt

theorem and_0xE7 (b : Byte) : b.toNat &&& 0xE7 = b.toNat - b.toNat / 8 % 4 * 8 :=
  (by decide +kernel : ∀ n < 256, n &&& 0xE7 = n - n / 8 % 4 * 8) b.toNat b.isLt

theorem and_0x38 (b : Byte) : b.toNat &&& 0x38 = b.toNat / 8 % 8 * 8 :=
  (by decide +kernel : ∀ n < 256, n &&& 0x38 = n / 8 % 8 * 8) b.toNat b.isLt

theorem and_0x20 (b : Byte) : b.toNat &&& 0x20 = b.toNat / 32 % 2 * 32 :=
  (by decide +kernel : ∀ n < 256, n &&& 0x20 = n / 32 % 2 * 32) b.toNat b.isLt

theorem opByte_toNat {n : Nat} (h : n < 256) : (opByte n).toNat = n := Nat.mod_eq_of_lt h

theorem RegCode.code_lt (r : RegCode) : r.code < 8 := by cases r <;> decide
theorem SegReg.code_lt (r : SegReg) : r.code < 4 := by cases r <;> decide
theorem AddrBase.code_lt (b : AddrBase) : b.code < 8 := by cases b <;> decide
theorem Width.bit_lt (w : Width) : w.bit < 2 := by cases w <;> decide
theorem Dir.bit_lt (d : Dir) : d.bit < 2 := by cases d <;> decide
theorem Count.bit_lt (v : Count) : v.bit < 2 := by cases v <;> decide

@[simp] theorem RegCode.ofCode_code (r : RegCode) : RegCode.ofCode r.code = r := by cases r <;> rfl
@[simp] theorem SegReg.ofCode_code (r : SegReg) : SegReg.ofCode r.code = r := by cases r <;> rfl
@[simp] theorem AddrBase.ofCode_code (b : AddrBase) : AddrBase.ofCode b.code = b := by cases b <;> rfl

theorem wBit_eq {b : Byte} {w : Width} (h : b.toNat % 2 = w.bit) : wBit b = w := by
  cases w <;> simp [wBit, h, Width.bit]

theorem wBit3_eq {b : Byte} {w : Width} (h : b.toNat / 8 % 2 = w.bit) : wBit3 b = w := by
  cases w <;> simp [wBit3, h, Width.bit]

theorem dBit_eq {b : Byte} {d : Dir} (h : b.toNat / 2 % 2 = d.bit) : dBit b = d := by
  cases d <;> simp [dBit, h, Dir.bit]

theorem vBit_eq {b : Byte} {v : Count} (h : b.toNat / 2 % 2 = v.bit) : vBit b = v := by
  cases v <;> simp [vBit, h, Count.bit]

theorem sBit_eq {b : Byte} {s : Bool} (h : b.toNat / 2 % 2 = s.toNat) : sBit b = s := by
  cases s <;> simp [sBit, h]

/-! ## What follows the first byte -/

theorem takeWord_encodeWord (v : Word) (rest : List Byte) : takeWord (encodeWord v ++ rest) = .ok (v, rest) := by
  simp [encodeWord, takeWord]

/-- A word whose high byte is 0 is its low byte. -/
theorem zext16_lowByte {v : Word} (h : (highByte v == 0#8) = true) : zext16 (lowByte v) = v := by
  have halves := Machine.wordOf_halves v
  rw [eq_of_beq h] at halves
  conv_rhs => rw [← halves]
  apply BitVec.eq_of_toNat_eq
  rw [Machine.wordOf_toNat]
  simp only [zext16, BitVec.toNat_setWidth, BitVec.toNat_ofNat]
  omega

theorem takeImm_encodeImm {w : Width} {imm : Word} (h : immFits w imm = true) (rest : List Byte) :
    takeImm w (encodeImm w imm ++ rest) = .ok (imm, rest) := by
  cases w with
  | byte => simp [takeImm, encodeImm, takeByte, bind, Except.bind, pure, Except.pure, zext16_lowByte h]
  | word => exact takeWord_encodeWord imm rest

theorem takeImmS_encodeImmS {s : Bool} {w : Width} {imm : Word} (h : immFitsS s w imm = true) (rest : List Byte) :
    takeImmS s w (encodeImmS s w imm ++ rest) = .ok (imm, rest) := by
  cases w with
  | byte => simp [takeImmS, encodeImmS, takeByte, bind, Except.bind, pure, Except.pure, zext16_lowByte h]
  | word =>
    cases s with
    | true =>
      have extended : sext16 (lowByte imm) = imm := (eq_of_beq h).symm
      simp [takeImmS, encodeImmS, takeByte, bind, Except.bind, pure, Except.pure, extended]
    | false => exact takeWord_encodeWord imm rest

/-- The fields of the second byte. -/
theorem modrmByte_fields {mod reg rm : Nat} (hm : mod < 4) (hr : reg < 8) (hb : rm < 8) :
    (modrmByte mod reg rm).toNat / 64 = mod ∧ (modrmByte mod reg rm).toNat / 8 % 8 = reg ∧
      (modrmByte mod reg rm).toNat % 8 = rm := by
  rw [modrmByte, opByte_toNat (by omega)]
  omega

theorem takeModRM_encode {rm : RM} (h : rm.wf = true) {reg : Nat} (hr : reg < 8) (rest : List Byte) :
    takeModRM (rm.encode reg ++ rest) = .ok ((reg, rm), rest) := by
  cases rm with
  | reg c =>
    obtain ⟨h1, h2, h3⟩ := modrmByte_fields (mod := 3) (by decide) hr c.code_lt
    simp [RM.encode, takeModRM, h1, h2, h3]
  | direct a =>
    obtain ⟨h1, h2, h3⟩ := modrmByte_fields (mod := 0) (rm := 6) (by decide) hr (by decide)
    simp [RM.encode, takeModRM, h1, h2, h3, takeWord_encodeWord, bind, Except.bind, pure, Except.pure]
  | base b =>
    obtain ⟨h1, h2, h3⟩ := modrmByte_fields (mod := 0) (by decide) hr b.code_lt
    have not_direct : b.code ≠ 6 := by cases b <;> simp [RM.wf, AddrBase.code] at h ⊢
    simp [RM.encode, takeModRM, h1, h2, h3, not_direct]
  | disp8 b d =>
    obtain ⟨h1, h2, h3⟩ := modrmByte_fields (mod := 1) (by decide) hr b.code_lt
    simp [RM.encode, takeModRM, h1, h2, h3, takeByte, bind, Except.bind, pure, Except.pure]
  | disp16 b d =>
    obtain ⟨h1, h2, h3⟩ := modrmByte_fields (mod := 2) (by decide) hr b.code_lt
    simp [RM.encode, takeModRM, h1, h2, h3, takeWord_encodeWord, bind, Except.bind, pure, Except.pure]

/-- The REG field stands in bits 5:3 of the second byte. -/
theorem reg_of_encode (rm : RM) {reg : Nat} (hr : reg < 8) (rest : List Byte) :
    ((rm.encode reg ++ rest).headD 0#8).toNat / 8 % 8 = reg := by
  cases rm with
  | reg c => exact (modrmByte_fields (by decide) hr c.code_lt).2.1
  | direct a => exact (modrmByte_fields (by decide) hr (by decide)).2.1
  | base b => exact (modrmByte_fields (by decide) hr b.code_lt).2.1
  | disp8 b d => exact (modrmByte_fields (by decide) hr b.code_lt).2.1
  | disp16 b d => exact (modrmByte_fields (by decide) hr b.code_lt).2.1

/-! ## One lemma for each reader of a row

`c` is the first byte with its fields 0, `n` an opcode extension in REG. -/

section
variable {c n : Nat} {d : Dir} {w : Width} {v : Count} {sx : Bool} {rm : RM} {r : RegCode} {sr : SegReg} {imm : Word}
  {x y : Byte} {rest : List Byte}

theorem decodeOne_rowOne {i : Instr} (hr : ⟨c * 256, 0xFF * 256, rowOne i⟩ ∈ opcodeRows) (hc : c < 256) :
    decodeOne ([opByte c] ++ rest) = .ok (i, rest) :=
  decodeOne_of_first hr (by rw [and_0xFF, opByte_toNat hc])

/-- The second byte of AAM and AAD is fixed (spec/30_encoding.md R128). -/
theorem decodeOne_rowTwo {i : Instr} (hr : ⟨c * 256 + 0x0A, 0xFF * 256 + 0xFF, rowTwo i⟩ ∈ opcodeRows) (hc : c < 256) :
    decodeOne ([opByte c, 0x0A#8] ++ rest) = .ok (i, rest) :=
  decodeOne_of_row (bs := 0x0A#8 :: rest) hr (by decide) (by rw [and_0xFF, opByte_toNat hc]) (and_0xFF 0x0A#8)

theorem decodeOne_rowRel8 {mk : Byte → Instr} (hr : ⟨c * 256, 0xFF * 256, rowRel8 mk⟩ ∈ opcodeRows) (hc : c < 256) :
    decodeOne ([opByte c, x] ++ rest) = .ok (mk x, rest) :=
  decodeOne_of_first hr (by rw [and_0xFF, opByte_toNat hc])

theorem decodeOne_rowRel16 {mk : Word → Instr} (hr : ⟨c * 256, 0xFF * 256, rowRel16 mk⟩ ∈ opcodeRows) (hc : c < 256) :
    decodeOne (opByte c :: encodeWord imm ++ rest) = .ok (mk imm, rest) := by
  rw [List.cons_append, decodeOne_of_first hr (by rw [and_0xFF, opByte_toNat hc])]
  simp [rowRel16, takeWord_encodeWord, bind, Except.bind, pure, Except.pure]

theorem decodeOne_rowFar {mk : Word → Word → Instr} {ip cs : Word} (hr : ⟨c * 256, 0xFF * 256, rowFar mk⟩ ∈ opcodeRows)
    (hc : c < 256) : decodeOne (opByte c :: (encodeWord ip ++ encodeWord cs) ++ rest) = .ok (mk ip cs, rest) := by
  rw [List.cons_append, decodeOne_of_first hr (by rw [and_0xFF, opByte_toNat hc])]
  simp [rowFar, takeWord_encodeWord, bind, Except.bind, pure, Except.pure, List.append_assoc]

theorem opByte_w (hc : c % 2 = 0 ∧ c < 256) (w : Width) : (opByte (c + w.bit)).toNat = c + w.bit :=
  opByte_toNat (by have := w.bit_lt; omega)

theorem and_opByte_w (hc : c % 2 = 0 ∧ c < 256) (w : Width) : (opByte (c + w.bit)).toNat &&& 0xFE = c := by
  have := w.bit_lt
  rw [and_0xFE, opByte_w hc]
  omega

theorem wBit_opByte_w (hc : c % 2 = 0 ∧ c < 256) (w : Width) : wBit (opByte (c + w.bit)) = w :=
  wBit_eq (by have := w.bit_lt; rw [opByte_w hc]; omega)

theorem decodeOne_rowW {mk : Width → Instr} (hr : ⟨c * 256, 0xFE * 256, rowW mk⟩ ∈ opcodeRows) (hc : c % 2 = 0 ∧ c < 256) :
    decodeOne ([opByte (c + w.bit)] ++ rest) = .ok (mk w, rest) := by
  rw [List.cons_append, decodeOne_of_first hr (and_opByte_w hc w), rowW, wBit_opByte_w hc]
  rfl

theorem decodeOne_rowPort {mk : Width → Byte → Instr} (hr : ⟨c * 256, 0xFE * 256, rowPort mk⟩ ∈ opcodeRows)
    (hc : c % 2 = 0 ∧ c < 256) : decodeOne ([opByte (c + w.bit), x] ++ rest) = .ok (mk w x, rest) := by
  rw [List.cons_append, decodeOne_of_first hr (and_opByte_w hc w), rowPort, wBit_opByte_w hc]
  rfl

theorem decodeOne_rowAccMem {mk : Width → Word → Instr} (hr : ⟨c * 256, 0xFE * 256, rowAccMem mk⟩ ∈ opcodeRows)
    (hc : c % 2 = 0 ∧ c < 256) : decodeOne (opByte (c + w.bit) :: encodeWord imm ++ rest) = .ok (mk w imm, rest) := by
  rw [List.cons_append, decodeOne_of_first hr (and_opByte_w hc w), rowAccMem, wBit_opByte_w hc, takeWord_encodeWord]
  rfl

theorem decodeOne_rowAccImm {mk : Width → Word → Instr} (hr : ⟨c * 256, 0xFE * 256, rowAccImm mk⟩ ∈ opcodeRows)
    (hc : c % 2 = 0 ∧ c < 256) (hi : immFits w imm = true) :
    decodeOne (opByte (c + w.bit) :: encodeImm w imm ++ rest) = .ok (mk w imm, rest) := by
  rw [List.cons_append, decodeOne_of_first hr (and_opByte_w hc w), rowAccImm, wBit_opByte_w hc, takeImm_encodeImm hi]
  rfl

theorem decodeOne_rowReg {mk : RegCode → Instr} (hr : ⟨c * 256, 0xF8 * 256, rowReg mk⟩ ∈ opcodeRows)
    (hc : c % 8 = 0 ∧ c < 256) : decodeOne ([opByte (c + r.code)] ++ rest) = .ok (mk r, rest) := by
  have hlt := r.code_lt
  have hb : (opByte (c + r.code)).toNat = c + r.code := opByte_toNat (by omega)
  rw [List.cons_append, decodeOne_of_first hr (by rw [and_0xF8, hb]; omega), rowReg, hb,
    show (c + r.code) % 8 = r.code by omega, RegCode.ofCode_code]
  rfl

theorem decodeOne_rowSreg {mk : SegReg → Instr} (hr : ⟨c * 256, 0xE7 * 256, rowSreg mk⟩ ∈ opcodeRows)
    (hc : c / 8 % 4 = 0 ∧ c < 256) : decodeOne ([opByte (c + sr.code * 8)] ++ rest) = .ok (mk sr, rest) := by
  have hlt := sr.code_lt
  have hb : (opByte (c + sr.code * 8)).toNat = c + sr.code * 8 := opByte_toNat (by omega)
  rw [List.cons_append, decodeOne_of_first hr (by rw [and_0xE7, hb]; omega), rowSreg, hb,
    show (c + sr.code * 8) / 8 % 4 = sr.code by omega, SegReg.ofCode_code]
  rfl

theorem decodeOne_rowRegImm {mk : Width → RegCode → Word → Instr}
    (hr : ⟨c * 256, 0xF0 * 256, rowRegImm mk⟩ ∈ opcodeRows) (hc : c % 16 = 0 ∧ c < 256) (hi : immFits w imm = true) :
    decodeOne (opByte (c + w.bit * 8 + r.code) :: encodeImm w imm ++ rest) = .ok (mk w r imm, rest) := by
  have hw := w.bit_lt
  have hlt := r.code_lt
  have hb : (opByte (c + w.bit * 8 + r.code)).toNat = c + w.bit * 8 + r.code := opByte_toNat (by omega)
  rw [List.cons_append, decodeOne_of_first hr (by rw [and_0xF0, hb]; omega), rowRegImm, wBit3_eq (w := w) (by omega),
    takeImm_encodeImm hi, hb, show (c + w.bit * 8 + r.code) % 8 = r.code by omega, RegCode.ofCode_code]
  rfl

/-- A second byte with an opcode extension in REG. -/
theorem and_ext (hn : n < 8) (rm : RM) (l : List Byte) : ((rm.encode n ++ l).headD 0#8).toNat &&& 0x38 = n * 8 := by
  rw [and_0x38, reg_of_encode rm hn]

theorem decodeOne_rowRm {mk : RM → Instr} (hr : ⟨c * 256 + n * 8, 0xFF * 256 + 0x38, rowRm mk⟩ ∈ opcodeRows)
    (hc : c < 256) (hn : n < 8) (h : rm.wf = true) :
    decodeOne (opByte c :: rm.encode n ++ rest) = .ok (mk rm, rest) := by
  rw [List.cons_append, decodeOne_of_row hr (by decide) (by rw [and_0xFF, opByte_toNat hc]) (and_ext hn rm rest), rowRm,
    takeModRM_encode h hn]
  rfl

theorem decodeOne_rowRmW {mk : Width → RM → Instr} (hr : ⟨c * 256 + n * 8, 0xFE * 256 + 0x38, rowRmW mk⟩ ∈ opcodeRows)
    (hc : c % 2 = 0 ∧ c < 256) (hn : n < 8) (h : rm.wf = true) :
    decodeOne (opByte (c + w.bit) :: rm.encode n ++ rest) = .ok (mk w rm, rest) := by
  rw [List.cons_append, decodeOne_of_row hr (by decide) (and_opByte_w hc w) (and_ext hn rm rest), rowRmW,
    wBit_opByte_w hc, takeModRM_encode h hn]
  rfl

theorem decodeOne_rowRmImm {mk : Width → RM → Word → Instr}
    (hr : ⟨c * 256 + n * 8, 0xFE * 256 + 0x38, rowRmImm mk⟩ ∈ opcodeRows) (hc : c % 2 = 0 ∧ c < 256) (hn : n < 8)
    (h : (rm.wf && immFits w imm) = true) :
    decodeOne (opByte (c + w.bit) :: (rm.encode n ++ encodeImm w imm) ++ rest) = .ok (mk w rm imm, rest) := by
  obtain ⟨hrm, hi⟩ := Bool.and_eq_true_iff.1 h
  rw [List.cons_append, List.append_assoc, decodeOne_of_row hr (by decide) (and_opByte_w hc w) (and_ext hn rm _), rowRmImm,
    wBit_opByte_w hc, takeModRM_encode hrm hn]
  simp [takeImm_encodeImm hi, bind, Except.bind, pure, Except.pure]

theorem decodeOne_rowRmReg {mk : Width → RM → RegCode → Instr} (hr : ⟨c * 256, 0xFE * 256, rowRmReg mk⟩ ∈ opcodeRows)
    (hc : c % 2 = 0 ∧ c < 256) (h : rm.wf = true) :
    decodeOne (opByte (c + w.bit) :: rm.encode r.code ++ rest) = .ok (mk w rm r, rest) := by
  rw [List.cons_append, decodeOne_of_first hr (and_opByte_w hc w), rowRmReg, wBit_opByte_w hc,
    takeModRM_encode h r.code_lt]
  simp [bind, Except.bind, pure, Except.pure]

theorem decodeOne_rowRegRm {mk : RegCode → RM → Instr} (hr : ⟨c * 256, 0xFF * 256, rowRegRm mk⟩ ∈ opcodeRows)
    (hc : c < 256) (h : rm.wf = true) : decodeOne (opByte c :: rm.encode r.code ++ rest) = .ok (mk r rm, rest) := by
  rw [List.cons_append, decodeOne_of_first hr (by rw [and_0xFF, opByte_toNat hc]), rowRegRm, takeModRM_encode h r.code_lt]
  simp [bind, Except.bind, pure, Except.pure]

/-- A segment register code in REG leaves bit 5 of the second byte 0 (spec/30_encoding.md R106). -/
theorem and_sreg (sr : SegReg) (rm : RM) (l : List Byte) : ((rm.encode sr.code ++ l).headD 0#8).toNat &&& 0x20 = 0 := by
  have hlt := sr.code_lt
  have hreg := reg_of_encode rm (show sr.code < 8 by omega) l
  rw [and_0x20]
  omega

theorem decodeOne_rowSregRm {mk : SegReg → RM → Instr} (hr : ⟨c * 256 + 0, 0xFF * 256 + 0x20, rowSregRm mk⟩ ∈ opcodeRows)
    (hc : c < 256) (h : rm.wf = true) : decodeOne (opByte c :: rm.encode sr.code ++ rest) = .ok (mk sr rm, rest) := by
  have hlt := sr.code_lt
  rw [List.cons_append, decodeOne_of_row hr (by decide) (by rw [and_0xFF, opByte_toNat hc])
    (and_sreg sr rm rest), rowSregRm, takeModRM_encode h (by omega)]
  simp [bind, Except.bind, pure, Except.pure, Nat.mod_eq_of_lt hlt]

theorem decodeOne_rowRmSreg {mk : RM → SegReg → Instr} (hr : ⟨c * 256 + 0, 0xFF * 256 + 0x20, rowRmSreg mk⟩ ∈ opcodeRows)
    (hc : c < 256) (h : rm.wf = true) : decodeOne (opByte c :: rm.encode sr.code ++ rest) = .ok (mk rm sr, rest) := by
  have hlt := sr.code_lt
  rw [List.cons_append, decodeOne_of_row hr (by decide) (by rw [and_0xFF, opByte_toNat hc])
    (and_sreg sr rm rest), rowRmSreg, takeModRM_encode h (by omega)]
  simp [bind, Except.bind, pure, Except.pure, Nat.mod_eq_of_lt hlt]

/-- A first byte with W in bit 0 and another field in bit 1. -/
theorem opByte_two (hc : c % 4 = 0 ∧ c < 256) (hn : n < 2) (w : Width) :
    (opByte (c + n * 2 + w.bit)).toNat &&& 0xFC = c ∧ (opByte (c + n * 2 + w.bit)).toNat / 2 % 2 = n ∧
      wBit (opByte (c + n * 2 + w.bit)) = w := by
  have hw := w.bit_lt
  have hb : (opByte (c + n * 2 + w.bit)).toNat = c + n * 2 + w.bit := opByte_toNat (by omega)
  rw [and_0xFC, hb]
  exact ⟨by omega, by omega, wBit_eq (by omega)⟩

theorem decodeOne_rowRmRegD {mk : Dir → Width → RM → RegCode → Instr}
    (hr : ⟨c * 256, 0xFC * 256, rowRmRegD mk⟩ ∈ opcodeRows) (hc : c % 4 = 0 ∧ c < 256) (h : rm.wf = true) :
    decodeOne (opByte (c + d.bit * 2 + w.bit) :: rm.encode r.code ++ rest) = .ok (mk d w rm r, rest) := by
  obtain ⟨hmask, hd, hw⟩ := opByte_two hc d.bit_lt w
  rw [List.cons_append, decodeOne_of_first hr hmask, rowRmRegD, dBit_eq hd, hw, takeModRM_encode h r.code_lt]
  simp [bind, Except.bind, pure, Except.pure]

theorem decodeOne_rowShift {mk : Count → Width → RM → Instr}
    (hr : ⟨c * 256 + n * 8, 0xFC * 256 + 0x38, rowShift mk⟩ ∈ opcodeRows) (hc : c % 4 = 0 ∧ c < 256) (hn : n < 8)
    (h : rm.wf = true) : decodeOne (opByte (c + v.bit * 2 + w.bit) :: rm.encode n ++ rest) = .ok (mk v w rm, rest) := by
  obtain ⟨hmask, hv, hw⟩ := opByte_two hc v.bit_lt w
  rw [List.cons_append, decodeOne_of_row hr (by decide) hmask (and_ext hn rm rest), rowShift, vBit_eq hv, hw,
    takeModRM_encode h hn]
  rfl

theorem decodeOne_rowRmImmS {mk : Bool → Width → RM → Word → Instr}
    (hr : ⟨c * 256 + n * 8, 0xFC * 256 + 0x38, rowRmImmS mk⟩ ∈ opcodeRows) (hc : c % 4 = 0 ∧ c < 256) (hn : n < 8)
    (h : (rm.wf && immFitsS sx w imm) = true) :
    decodeOne (opByte (c + sx.toNat * 2 + w.bit) :: (rm.encode n ++ encodeImmS sx w imm) ++ rest) =
      .ok (mk sx w rm imm, rest) := by
  obtain ⟨hrm, hi⟩ := Bool.and_eq_true_iff.1 h
  obtain ⟨hmask, hs, hw⟩ := opByte_two hc (Bool.toNat_lt sx) w
  rw [List.cons_append, List.append_assoc, decodeOne_of_row hr (by decide) hmask (and_ext hn rm _), rowRmImmS, sBit_eq hs, hw,
    takeModRM_encode hrm hn]
  simp [takeImmS_encodeImmS hi, bind, Except.bind, pure, Except.pure]

theorem decodeOne_rowEsc {mk : BitVec 3 → BitVec 3 → RM → Instr} {p q : BitVec 3}
    (hr : ⟨c * 256, 0xF8 * 256, rowEsc mk⟩ ∈ opcodeRows) (hc : c % 8 = 0 ∧ c < 256) (h : rm.wf = true) :
    decodeOne (opByte (c + p.toNat) :: rm.encode q.toNat ++ rest) = .ok (mk p q rm, rest) := by
  have hp := p.isLt
  have hb : (opByte (c + p.toNat)).toNat = c + p.toNat := opByte_toNat (by omega)
  have hx : BitVec.ofNat 3 (c + p.toNat) = p := BitVec.eq_of_toNat_eq (by rw [BitVec.toNat_ofNat]; omega)
  rw [List.cons_append, decodeOne_of_first hr (by rw [and_0xF8, hb]; omega), rowEsc, hb, hx, takeModRM_encode h q.isLt]
  simp [bind, Except.bind, pure, Except.pure]

end

/-! ## Every instruction -/

/-- Decoding an encoding gives the instruction back, whatever bytes follow; the four prefixes count as instructions here. -/
theorem decodeOne_encode {i : Instr} (h : i.wf = true) (rest : List Byte) : decodeOne (encode i ++ rest) = .ok (i, rest) := by
  cases i
  case xlat | lahf | sahf | pushf | popf | aaa | daa | aas | das | cbw | cwd | rep | repne | retNear | retFar | int3
      | into | iret | clc | cmc | stc | cld | std | cli | sti | hlt | wait | lock =>
    exact decodeOne_rowOne (row_mem rfl) (by decide)
  case aam | aad => exact decodeOne_rowTwo (row_mem rfl) (by decide)
  case je | jl | jle | jb | jbe | jp | jo | js | jne | jnl | jnle | jnb | jnbe | jnp | jno | jns | jcxz | jmpShort
      | loop | loopz | loopnz | int =>
    exact decodeOne_rowRel8 (row_mem rfl) (by decide)
  case callNear | jmpNear | retNearImm | retFarImm => exact decodeOne_rowRel16 (row_mem rfl) (by decide)
  case callFar | jmpFar => exact decodeOne_rowFar (row_mem rfl) (by decide)
  case inDx | outDx | movs | cmps | scas | lods | stos => exact decodeOne_rowW (row_mem rfl) (by decide)
  case inPort | outPort => exact decodeOne_rowPort (row_mem rfl) (by decide)
  case movAccMem | movMemAcc => exact decodeOne_rowAccMem (row_mem rfl) (by decide)
  case addAccImm | adcAccImm | subAccImm | sbbAccImm | cmpAccImm | andAccImm | testAccImm | orAccImm | xorAccImm =>
    exact decodeOne_rowAccImm (row_mem rfl) (by decide) h
  case pushReg | popReg | xchgAxReg | incReg | decReg => exact decodeOne_rowReg (row_mem rfl) (by decide)
  case pushSreg | popSreg | segment => exact decodeOne_rowSreg (row_mem rfl) (by decide)
  case movRegImm => exact decodeOne_rowRegImm (row_mem rfl) (by decide) h
  case pushRm | popRm | callRm | callMem | jmpRm | jmpMem => exact decodeOne_rowRm (row_mem rfl) (by decide) (by decide) h
  case incRm | decRm | negRm | notRm | mulRm | imulRm | divRm | idivRm =>
    exact decodeOne_rowRmW (row_mem rfl) (by decide) (by decide) h
  case movRmImm | andRmImm | testRmImm | orRmImm | xorRmImm =>
    exact decodeOne_rowRmImm (row_mem rfl) (by decide) (by decide) h
  case xchgRmReg | testRmReg => exact decodeOne_rowRmReg (row_mem rfl) (by decide) h
  case lea | lds | les => exact decodeOne_rowRegRm (row_mem rfl) (by decide) h
  case movSregRm => exact decodeOne_rowSregRm (row_mem rfl) (by decide) h
  case movRmSreg => exact decodeOne_rowRmSreg (row_mem rfl) (by decide) h
  case movRmReg | addRmReg | adcRmReg | subRmReg | sbbRmReg | cmpRmReg | andRmReg | orRmReg | xorRmReg =>
    exact decodeOne_rowRmRegD (row_mem rfl) (by decide) h
  case shl | shr | sar | rol | ror | rcl | rcr => exact decodeOne_rowShift (row_mem rfl) (by decide) (by decide) h
  case addRmImm | adcRmImm | subRmImm | sbbRmImm | cmpRmImm =>
    exact decodeOne_rowRmImmS (row_mem rfl) (by decide) (by decide) h
  case esc => exact decodeOne_rowEsc (row_mem rfl) (by decide) h

/-- An encoding is one to six bytes long (spec/30_encoding.md R114, R129). -/
theorem encodedLength (i : Instr) : Laws.EncodedLength.Statement i := by
  cases i
  case addRmImm | adcRmImm | subRmImm | sbbRmImm | cmpRmImm => exact length_cons_rm_imm _ _ _ (length_encodeImmS ..)
  case movRmImm | andRmImm | testRmImm | orRmImm | xorRmImm => exact length_cons_rm_imm _ _ _ (length_encodeImm ..)
  case movRegImm | addAccImm | adcAccImm | subAccImm | sbbAccImm | cmpAccImm | andAccImm | testAccImm | orAccImm
      | xorAccImm =>
    exact length_cons_five _ ((length_encodeImm ..).trans (by decide))
  case movRmReg | movSregRm | movRmSreg | pushRm | popRm | xchgRmReg | lea | lds | les | addRmReg | adcRmReg | incRm
      | subRmReg | sbbRmReg | decRm | negRm | cmpRmReg | mulRm | imulRm | divRm | idivRm | notRm | shl | shr | sar | rol
      | ror | rcl | rcr | andRmReg | testRmReg | orRmReg | xorRmReg | callRm | callMem | jmpRm | jmpMem | esc =>
    exact length_cons_rm ..
  all_goals exact length_cons_five _ (by simp [encodeWord])

/-- An instruction without prefixes decodes alone, and its length is that of its encoding. -/
theorem decode_encode {i : Instr} (h : i.wf = true) (hp : i.isPrefix = false) (rest : List Byte) :
    decode (encode i ++ rest) = .ok ⟨[], i, (encode i).length⟩ := by
  have alone : decodeFrom Config.maxPrefixes [] (encode i ++ rest) = .ok ([], i, rest) := by
    unfold decodeFrom
    simp [decodeOne_encode h, hp, prefixesFit]
  simp [decode, alone]

end Sys2Proof

namespace Sys2Proof.Machine

/-! ## The instruction at CS:IP -/

/-- Code bytes that the map admits and that hold `l` are read first. -/
theorem codeBytes_eq_append {s : State} {l : List Byte} {ip : Word} {n : Nat} (hn : l.length ≤ n)
    (hl : ∀ k, ∀ h : k < l.length, canReadByte (s.codeAddr ip k) s = true ∧ s.byteAt (s.codeAddr ip k) = l[k]) :
    ∃ rest, s.codeBytes n ip = l ++ rest := by
  induction l generalizing ip n with
  | nil => exact ⟨_, rfl⟩
  | cons b l ih =>
    obtain ⟨n, rfl⟩ : ∃ m, n = m + 1 := ⟨n - 1, by rw [List.length_cons] at hn; omega⟩
    have first : s.codeAddr ip 0 = phys s.segs.cs ip := congrArg (phys s.segs.cs) (BitVec.add_zero ip)
    have next (k : Nat) : s.codeAddr (ip + 1) k = s.codeAddr ip (k + 1) := by
      refine congrArg (phys s.segs.cs) ?_
      rw [BitVec.ofNat_add, BitVec.add_assoc, BitVec.add_comm (BitVec.ofNat 16 k)]
      rfl
    obtain ⟨mapped, value⟩ := hl 0 (by simp)
    obtain ⟨rest, hrest⟩ := ih (ip := ip + 1) (n := n) (Nat.le_of_succ_le_succ hn) fun k h => by
      rw [next]
      exact hl (k + 1) (Nat.succ_lt_succ h)
    rw [first, canReadByte, Bool.not_eq_true'] at mapped
    rw [first] at value
    refine ⟨rest, ?_⟩
    simp only [State.codeBytes, mapped, value, hrest, Bool.false_eq_true, if_false]
    rfl

/-- Settles O8: the bytes at CS:IP decode to the instruction they encode, and the step runs it. -/
theorem stepRunsEncodedInstruction : Obligations.StepRunsEncodedInstruction := by
  intro s i hr hh hwf hp hrace hbytes
  have codeAddr (k : Nat) : s.sample.codeAddr s.ip k = s.codeAddr s.ip k := by simp [State.codeAddr]
  obtain ⟨rest, hrest⟩ : ∃ rest, s.sample.codeBytes maxLength s.ip = encode i ++ rest := by
    refine codeBytes_eq_append ((encodedLength i).2.trans (by decide)) fun k h => ?_
    rw [codeAddr]
    refine ⟨?_, (hbytes k h).2⟩
    simpa [canReadByte] using (hbytes k h).1
  have hd : decode (s.sample.codeBytes maxLength s.ip) = .ok ⟨[], i, (encode i).length⟩ := by
    rw [hrest]
    exact decode_encode hwf hp rest
  exact stepRunsDecodedInstruction s _ hr hh hd hrace

end Sys2Proof.Machine
end

section
/-! The platform that no step changes (O18; spec/20_memory.md R71, R80; logs 3 and 5), and what reading a written word
back gives (O21; R65, R66; log 2). -/

namespace Sys2Proof.Machine

/-! ## The platform -/

/-- The memory map, the driven ports and every byte of ROM are in `t` as in `s`. -/
structure SamePlatform (s t : State) : Prop where
  unmapped : t.unmapped = s.unmapped
  rom : t.rom = s.rom
  undriven : t.undriven = s.undriven
  rom_bytes : ∀ a : PAddr, inSpans s.rom a.toNat = true → t.byteAt a = s.byteAt a

theorem SamePlatform.trans {s t u : State} (h : SamePlatform s t) (k : SamePlatform t u) : SamePlatform s u where
  unmapped := k.unmapped.trans h.unmapped
  rom := k.rom.trans h.rom
  undriven := k.undriven.trans h.undriven
  rom_bytes a ha := (k.rom_bytes a (h.rom ▸ ha)).trans (h.rom_bytes a ha)

theorem Tame.platform {s t : State} (h : Tame s t) : SamePlatform s t := ⟨h.unmapped, h.rom, h.undriven, h.rom_bytes⟩

/-- An update that leaves memory and the platform's fields alone. -/
theorem samePlatform_of_eq {s t : State} (hm : t.mem = s.mem) (hu : t.unmapped = s.unmapped) (hr : t.rom = s.rom)
    (hd : t.undriven = s.undriven) : SamePlatform s t := ⟨hu, hr, hd, fun a _ => congrArg (Memory.read · a.toNat) hm⟩

theorem samePlatform_sample (s : State) : SamePlatform s s.sample := by
  unfold State.sample
  split
  · exact samePlatform_of_eq rfl rfl rfl rfl
  · refine SamePlatform.trans ?_ (tame_putOthers ..).platform
    exact samePlatform_of_eq rfl rfl rfl rfl

theorem samePlatform_exec {i : Instr} {s t : State} (h : exec i s = .next t) : SamePlatform s t := by
  by_cases hl : kindOf i = .latch
  · rw [exec_latch hl h]
    exact samePlatform_of_eq rfl rfl rfl rfl
  by_cases hs : kindOf i = .string
  · obtain ⟨u, k, rfl | ⟨stop, rfl⟩⟩ := exec_string hs h
    · exact k.toTame.platform
    · exact k.toTame.platform.trans (samePlatform_of_eq (by simp) (by simp) (by simp) (by simp))
  · exact (exec_tame hl hs h).platform

theorem samePlatform_runPrefixes {ps : List Instr} {s t : State} (h : runPrefixes exec ps s = .next t) :
    SamePlatform s t := by
  induction ps generalizing s with
  | nil => injection h with h; exact h ▸ samePlatform_of_eq rfl rfl rfl rfl
  | cons p ps ih =>
    obtain ⟨u, hu, h⟩ := andThen_eq_next.1 h
    exact (samePlatform_exec hu).trans (ih h)

theorem samePlatform_takeExternal {saved : Word} {s : State} {r : State × Bool} (h : takeExternal saved s = .next r) :
    SamePlatform s r.1 := by
  rcases takeExternal_next h with ⟨-, -, nmi⟩ | ⟨n, -, -, -, -, intr⟩ | ⟨-, -, rfl⟩
  · refine SamePlatform.trans ?_ (tame_interruptSequence nmi).platform
    exact samePlatform_of_eq rfl rfl rfl rfl
  · exact (tame_interruptSequence intr).platform
  · exact samePlatform_of_eq rfl rfl rfl rfl

theorem samePlatform_recognise {tf0 : Bool} {saved : Word} {s t : State} (h : recognise tf0 saved s = .next t) :
    SamePlatform s t := by
  rcases recognise_next h with ⟨-, rfl⟩ | ⟨-, r, hext, ⟨-, rfl⟩ | ⟨-, single⟩⟩
  · exact samePlatform_of_eq rfl rfl rfl rfl
  · exact samePlatform_takeExternal hext
  · exact (samePlatform_takeExternal hext).trans (tame_interruptSequence single).platform

theorem samePlatform_runDecoded {d : Decoded} {s t : State} (h : runDecoded exec d s = .next t) : SamePlatform s t := by
  obtain ⟨p, hprefix, h⟩ := andThen_eq_next.1 h
  obtain ⟨u, hbody, h⟩ := andThen_eq_next.1 h
  have start : SamePlatform s (s.start d.length) := samePlatform_of_eq rfl rfl rfl rfl
  have finish : SamePlatform u u.finish := samePlatform_of_eq rfl rfl rfl rfl
  exact (start.trans (samePlatform_runPrefixes hprefix)).trans
    ((samePlatform_exec hbody).trans (finish.trans (samePlatform_recognise h)))

theorem samePlatform_act {reset more : Bool} {s t : State} (h : act exec reset more s = .next t) : SamePlatform s t := by
  unfold act at h
  split at h
  · injection h with h
    exact h ▸ samePlatform_of_eq rfl rfl rfl rfl
  · split at h
    · unfold idle at h
      split at h
      · cases h
      · exact samePlatform_recognise h
    · obtain ⟨d, -, h⟩ := andThen_eq_next.1 h
      exact samePlatform_runDecoded h

/-- Settles O18: sampling, what the CPU does and the writes left over each keep the platform. -/
theorem platformKeptByEveryStep : Obligations.PlatformKeptByEveryStep := by
  intro s t h
  obtain ⟨u, hu, h⟩ := andThen_eq_next.1 h
  injection h with h
  subst h
  have same := (samePlatform_sample s).trans ((samePlatform_act hu).trans (tame_settle u).platform)
  exact ⟨same.unmapped, same.rom, same.undriven, same.rom_bytes⟩

/-! ## Reading back -/

/-- The two bytes of a word are different bytes of memory, also where the offset wraps. -/
theorem phys_succ_ne (seg off : Word) : phys seg off ≠ phys seg (off + 1) := by
  intro h
  have h := congrArg BitVec.toNat h
  simp only [phys, BitVec.toNat_ofNat, BitVec.toNat_add, show (1 : Word).toNat = 1 from rfl] at h
  omega

theorem canReadByte_of_canWriteByte {a : PAddr} {s : State} (h : canWriteByte a s = true) : canReadByte a s = true :=
  (Bool.and_eq_true_iff.1 h).1

/-- An address that memory lists does not lie below the first that it lists. -/
theorem head_le_of_read {a k : Nat} {b : Byte} {m : Memory} (hw : Memory.wf ((k, b) :: m) = true)
    (h : Memory.read ((k, b) :: m) a ≠ Memory.unlisted) : k ≤ a :=
  Nat.le_of_not_lt fun ha => h (read_of_above (decide_eq_true ha) hw le_rfl)

theorem read_head (k : Nat) (b : Byte) (m : Memory) : Memory.read ((k, b) :: m) k = b := if_pos rfl

theorem wf_cons_iff {k : Nat} {b : Byte} {m : Memory} : Memory.wf ((k, b) :: m) = true ↔
    k < 2 ^ 20 ∧ b ≠ Memory.unlisted ∧ m.above k = true ∧ m.wf = true := by
  simp only [Memory.wf, Bool.and_eq_true, decide_eq_true_eq, and_assoc]

/-- Canonical memories that read alike list the same bytes. -/
theorem memory_ext {m n : Memory} (hm : m.wf = true) (hn : n.wf = true) (h : ∀ a < 2 ^ 20, m.read a = n.read a) :
    m = n := by
  induction m generalizing n with
  | nil =>
    cases n with
    | nil => rfl
    | cons d n =>
      obtain ⟨k', b'⟩ := d
      obtain ⟨hk, hb, -, -⟩ := wf_cons_iff.1 hn
      exact absurd ((read_head ..).symm.trans (h k' hk).symm) hb
  | cons c m ih =>
    obtain ⟨k, b⟩ := c
    obtain ⟨hk, hb, above, wf⟩ := wf_cons_iff.1 hm
    have listed : n.read k ≠ Memory.unlisted := by rwa [← h k hk, read_head]
    cases n with
    | nil => exact absurd rfl listed
    | cons d n =>
      obtain ⟨k', b'⟩ := d
      obtain ⟨hk', hb', above', wf'⟩ := wf_cons_iff.1 hn
      have listed' : Memory.read ((k, b) :: m) k' ≠ Memory.unlisted := by rwa [h k' hk', read_head]
      obtain rfl : k' = k := Nat.le_antisymm (head_le_of_read hn listed) (head_le_of_read hm listed')
      have same_byte : b = b' := by simpa only [read_head] using h k' hk
      have same_rest : ∀ a < 2 ^ 20, Memory.read m a = Memory.read n a := by
        intro a ha
        by_cases hle : a ≤ k'
        · rw [read_of_above above wf hle, read_of_above above' wf' hle]
        · simpa only [Memory.read, if_neg (show k' ≠ a by omega)] using h a ha
      rw [same_byte, ih wf wf' same_rest]

/-- A word stored is read back whole and byte by byte, and no other byte changed. -/
theorem word_read_back {seg off v : Word} {s t : State} (hc : canWrite .word seg off s = true)
    (h : Stores (cells .word seg off v) s t) :
    readMem .word seg off t = .next (v, t) ∧ readMem .byte seg off t = .next (zext16 (lowByte v), t) ∧
      readMem .byte seg (off + 1) t = .next (zext16 (highByte v), t) ∧
      ∀ a : PAddr, a ≠ phys seg off → a ≠ phys seg (off + 1) → t.byteAt a = s.byteAt a := by
  obtain ⟨alone, admits⟩ := canWrite_iff.1 hc
  rw [admitsWrite_word, Bool.and_eq_true] at admits
  have alone' : t.alone = true := by rw [h.same]; exact alone
  have readable (a : PAddr) (ha : canWriteByte a s = true) : canReadByte a t = true := by
    rw [canReadByte_of_only h.only]
    exact canReadByte_of_canWriteByte ha
  have low : t.byteAt (phys seg off) = lowByte v := by
    rw [h.2]; simp only [cells, storedAt, if_neg (phys_succ_ne seg off).symm, if_pos]; rfl
  have high : t.byteAt (phys seg (off + 1)) = highByte v := by
    rw [h.2]; simp [cells, storedAt]
  have read (w : Width) (o : Word) (ha : admitsRead w seg o t = true) : readMem w seg o t = .next (t.load w seg o, t) :=
    readMem_of (canRead_iff.2 ⟨alone', ha⟩)
  have low_readable := readable _ admits.1
  have high_readable := readable _ admits.2
  refine ⟨?_, ?_, ?_, fun a lo hi => ?_⟩
  · rw [read .word off (by rw [admitsRead_word, low_readable, high_readable]; rfl), State.load, low, high, wordOf_halves]
  · rw [read .byte off (by rw [admitsRead_byte, low_readable]), State.load, low]
  · rw [read .byte (off + 1) (by rw [admitsRead_byte, high_readable]), State.load, high]
  · rw [h.2]; simp only [cells, storedAt, if_neg lo.symm, if_neg hi.symm]; rfl

/-- Settles O21: the bytes stored are the bytes loaded, and what canonical memory lists is decided by how it reads. -/
theorem wordWriteReadBack : Obligations.WordWriteReadBack := by
  refine ⟨fun s seg off v hw hc => ?_, fun m n hm hn h => memory_ext hm hn fun a ha => ?_⟩
  · obtain ⟨t, ht, stores, -⟩ := writeMem_of v hc hw
    exact ⟨t, ht, word_read_back hc stores⟩
  · simpa only [BitVec.toNat_ofNat, Nat.mod_eq_of_lt ha] using h (BitVec.ofNat 20 a)

end Sys2Proof.Machine
end

section
/-! Accesses outside the memory map (O13; spec/20_memory.md R80, U12; logs 3 and 19). `State.Ends` says how
an operation that is not refused ends: with the fault of the first of its bytes that is not admitted, or with an answer.
It is shown of every shared operation; those of an instruction then follow one another. -/

namespace Sys2Proof.Machine

/-! ## The first byte that is not admitted -/

section
variable {s : State} {reads stores : List PAddr}

theorem faultAmong_nil (s : State) : s.faultAmong [] [] = none := rfl

/-- The fault of the first read that is not admitted, else of the first store. -/
theorem faultAmong_eq_or (s : State) (reads stores : List PAddr) :
    s.faultAmong reads stores = (s.faultAmong reads []).or (s.faultAmong [] stores) := by
  unfold State.faultAmong
  cases reads.find? fun a => !canReadByte a s <;> rfl

theorem faultAmong_reads_append (s : State) (reads reads' : List PAddr) :
    s.faultAmong (reads ++ reads') [] = (s.faultAmong reads []).or (s.faultAmong reads' []) := by
  unfold State.faultAmong
  rw [List.find?_append]
  cases reads.find? fun a => !canReadByte a s <;> rfl

theorem faultAmong_stores_append (s : State) (stores stores' : List PAddr) :
    s.faultAmong [] (stores ++ stores') = (s.faultAmong [] stores).or (s.faultAmong [] stores') := by
  simp only [State.faultAmong, List.find?_nil, List.find?_append]
  cases stores.find? fun a => !canWriteByte a s <;> rfl

theorem faultAmong_eq_none : s.faultAmong reads stores = none ↔
    (∀ a ∈ reads, canReadByte a s = true) ∧ (∀ a ∈ stores, canWriteByte a s = true) := by
  unfold State.faultAmong
  cases hr : reads.find? fun a => !canReadByte a s with
  | some a =>
    have ha := List.find?_some hr
    simp only [reduceCtorEq, false_iff, not_and]
    exact fun readable => absurd (readable a (List.mem_of_find?_eq_some hr)) (by simpa using ha)
  | none =>
    have readable : ∀ a ∈ reads, canReadByte a s = true := by simpa using List.find?_eq_none.1 hr
    simp only [Option.map_eq_none_iff, List.find?_eq_none, Bool.not_eq_true', Bool.not_eq_false]
    exact ⟨fun h => ⟨readable, h⟩, And.right⟩

/-- What the fault says: the address is that of a read which is not mapped, or of a store which is not mapped or goes to
ROM. -/
def State.refuses (s : State) (reads stores : List PAddr) : Fault → Prop
  | .unmappedRead a => ∃ b ∈ reads, b.toNat = a ∧ inSpans s.unmapped a = true
  | .unmappedWrite a => ∃ b ∈ stores, b.toNat = a ∧ inSpans s.unmapped a = true
  | .romWrite a => ∃ b ∈ stores, b.toNat = a ∧ inSpans s.unmapped a = false ∧ inSpans s.rom a = true
  | .haltedForEver => False

theorem faultAmong_eq_some {f : Fault} (h : s.faultAmong reads stores = some f) : s.refuses reads stores f := by
  unfold State.faultAmong at h
  split at h
  · next b hb =>
    cases h
    have refused := List.find?_some hb
    exact ⟨b, List.mem_of_find?_eq_some hb, rfl, by simpa [canReadByte] using refused⟩
  · obtain ⟨b, hb, h⟩ := Option.map_eq_some_iff.1 h
    have refused := List.find?_some hb
    have member := List.mem_of_find?_eq_some hb
    split at h
    · next unmapped =>
      cases h
      exact ⟨b, member, rfl, unmapped⟩
    · next mapped =>
      cases h
      have mapped : inSpans s.unmapped b.toNat = false := by simpa using mapped
      exact ⟨b, member, rfl, mapped, by simpa [canWriteByte, mapped] using refused⟩

end

/-! ## How an operation ends -/

/-- The operation reads these bytes and then stores to those, as far as the memory map of `s` admits them, and is not
refused. -/
def State.Ends {α : Type} (s : State) (reads stores : List PAddr) : Out α → Prop
  | .next _ => s.faultAmong reads stores = none
  | .fault r => s.faultAmong reads stores = some r
  | .refused _ => False

section
variable {α β : Type} {s u t : State} {o : Out α} {f : α → Out β} {reads reads' stores stores' : List PAddr}

theorem State.Ends.faultOf (h : s.Ends reads stores o) : faultOf o = s.faultAmong reads stores := by
  cases o with
  | next a => exact Eq.symm h
  | fault r => exact Eq.symm h
  | refused r => exact False.elim h

theorem ends_next (a : α) : s.Ends [] [] (.next a : Out α) := faultAmong_nil s

/-- One operation after another: the fault of the first, else that of the second. -/
theorem State.Ends.andThen {all_reads all_stores : List PAddr} (h : s.Ends reads stores o)
    (k : ∀ a, o = .next a → s.Ends reads' stores' (f a))
    (hor : s.faultAmong all_reads all_stores = (s.faultAmong reads stores).or (s.faultAmong reads' stores')) :
    s.Ends all_reads all_stores (andThen o f) := by
  cases o with
  | next a =>
    have first : s.faultAmong reads stores = none := h
    have second := k a rfl
    rw [first, Option.none_or] at hor
    rw [andThen_next]
    cases hf : f a <;> rw [hf] at second
    · exact hor.trans second
    · exact hor.trans second
    · exact second
  | fault r =>
    have first : s.faultAmong reads stores = some r := h
    rw [first, Option.some_or] at hor
    exact hor
  | refused r => exact False.elim h

theorem State.Ends.read_read (h : s.Ends reads [] o) (k : ∀ a, o = .next a → s.Ends reads' [] (f a)) :
    s.Ends (reads ++ reads') [] (Machine.andThen o f) := h.andThen k (faultAmong_reads_append ..)

theorem State.Ends.read_store (h : s.Ends reads [] o) (k : ∀ a, o = .next a → s.Ends [] stores (f a)) :
    s.Ends reads stores (Machine.andThen o f) := h.andThen k (faultAmong_eq_or ..)

theorem State.Ends.store_store (h : s.Ends [] stores o) (k : ∀ a, o = .next a → s.Ends [] stores' (f a)) :
    s.Ends [] (stores ++ stores') (Machine.andThen o f) := h.andThen k (faultAmong_stores_append ..)

/-- Reads before an operation that reads and stores. -/
theorem State.Ends.read_then (h : s.Ends reads [] o) (k : ∀ a, o = .next a → s.Ends reads' stores (f a)) :
    s.Ends (reads ++ reads') stores (Machine.andThen o f) :=
  h.andThen k (by
    rw [faultAmong_eq_or, faultAmong_reads_append, Option.or_assoc, ← faultAmong_eq_or])

/-- What follows accesses nothing. -/
theorem State.Ends.next {g : α → β} (h : s.Ends reads stores o) :
    s.Ends reads stores (Machine.andThen o fun a => .next (g a)) :=
  h.andThen (fun a _ => ends_next (g a)) (by rw [faultAmong_nil, Option.or_none])

/-! ## Memory

`u` is a state that the instruction begun in `s` has come to: the memory map is as it was. -/

theorem ends_memRead (h : Tame s u) (a : PAddr) : s.Ends [a] [] (memRead a u) := by
  unfold memRead
  rw [h.unmapped]
  cases mapped : inSpans s.unmapped a.toNat <;> simp [State.Ends, State.faultAmong, canReadByte, mapped]

theorem ends_memWrite (h : Tame s u) (a : PAddr) (v : Byte) : s.Ends [] [a] (memWrite a v u) := by
  unfold memWrite
  rw [h.unmapped, h.rom]
  cases mapped : inSpans s.unmapped a.toNat <;> cases rom : inSpans s.rom a.toNat <;>
    simp [State.Ends, State.faultAmong, canWriteByte, mapped, rom]

theorem ends_readPair (h : Tame s u) (lo hi : PAddr) : s.Ends [lo, hi] [] (readPair lo hi u) := by
  have low := h.trans (tame_busCycle u)
  have high := low.trans (tame_highCycle u.busCycle lo)
  exact (ends_memRead low lo).read_read fun _ _ => (ends_memRead high hi).next

theorem ends_readMem (h : Tame s u) (w : Width) (seg off : Word) : s.Ends (cellsOf w seg off) [] (readMem w seg off u) := by
  cases w with
  | byte => exact (ends_memRead (h.trans (tame_busCycle u)) _).next
  | word => exact ends_readPair h ..

theorem ends_writeMem (h : Tame s u) (w : Width) (seg off v : Word) :
    s.Ends [] (cellsOf w seg off) (writeMem w seg off v u) := by
  have low := h.trans (tame_busCycle u)
  cases w with
  | byte => exact ends_memWrite low ..
  | word =>
    exact (ends_memWrite low ..).store_store fun x hx =>
      ends_memWrite (low.trans ((tame_memWrite hx).trans (tame_highCycle x _))) ..

/-! ## r/m operands -/

variable {w : Width} {rm : RM}

theorem ends_readRM (h : Tame s u) (hp : u.place rm = s.place rm) : s.Ends (s.operandCells w rm) [] (readRM w rm u) := by
  unfold readRM State.operandCells
  rw [hp]
  cases s.place rm with
  | reg c => exact ends_next _
  | mem seg off => exact ends_readMem h ..

theorem ends_writeRM (h : Tame s u) (hp : u.place rm = s.place rm) (v : Word) :
    s.Ends [] (s.operandCells w rm) (writeRM w rm v u) := by
  unfold writeRM State.operandCells
  rw [hp]
  cases s.place rm with
  | reg c => exact ends_next _
  | mem seg off => exact ends_writeMem h ..

/-- An operand read, a computation, the same operand written. -/
theorem ends_writeBack {p : Word × State} {v : Word} (hr : readRM w rm s = .next p) (ho : OnlyFlags Flags.control p.2 u) :
    s.Ends [] (s.operandCells w rm) (writeRM w rm v u) :=
  ends_writeRM ((tame_readRM hr).trans (ho.effect (ks := id)).toTame)
    ((ho.place rm).trans (place_of_only (readRM_next hr) rm)) v

theorem ends_readPointer {seg off : Word} (hp : s.place rm = .mem seg off) :
    s.Ends (s.pointerCells rm) [] (readPointer rm s) := by
  unfold readPointer eaOrRefuse State.pointerCells
  rw [hp]
  exact (ends_readMem (.refl s) ..).read_read fun p hp => (ends_readMem (tame_readMem hp) ..).next

/-- A register operand is refused, and nothing is accessed then. -/
theorem faultOf_readPointer (rm : RM) (s : State) : faultOf (readPointer rm s) = s.faultAmong (s.pointerCells rm) [] := by
  cases hp : s.place rm with
  | reg c => simp only [readPointer, eaOrRefuse, State.pointerCells, hp]; rfl
  | mem seg off => exact (ends_readPointer hp).faultOf

/-- A pointer read and what follows, which stores nothing where the operand is a register. -/
theorem faultOf_pointer {f : Word × Word × State → Out β} (hreg : ∀ c, s.place rm = .reg c → stores = [])
    (k : ∀ p seg off, s.place rm = .mem seg off → readPointer rm s = .next p → s.Ends [] stores (f p)) :
    faultOf (Machine.andThen (readPointer rm s) f) = s.faultAmong (s.pointerCells rm) stores := by
  cases hp : s.place rm with
  | reg c => simp only [readPointer, eaOrRefuse, State.pointerCells, hp, hreg c hp]; rfl
  | mem seg off => exact ((ends_readPointer hp).read_store fun p => k p seg off hp).faultOf

/-! ## The stack -/

/-- The instruction begun in `s` has come to `u`, with SP at `sp` and the stack segment as it was. -/
structure OnStack (sp : Word) (s u : State) : Prop extends Tame s u where
  ss : u.segs.ss = s.segs.ss
  sp_eq : u.regs.sp = sp

variable {sp v n : Word}

theorem OnStack.refl (s : State) : OnStack s.regs.sp s s := ⟨.refl s, rfl, rfl⟩

theorem onStack_of_only (h : Tame s u) (k : OnlyMemory s u) : OnStack s.regs.sp s u :=
  ⟨h, by rw [k], by rw [k]⟩

theorem OnStack.push (h : OnStack sp s u) (hp : push16 v u = .next t) : OnStack (sp - 2) s t := by
  have e : t = _ := (push16_next hp).2.1
  exact ⟨h.toTame.trans (tame_push16 hp), by rw [e]; exact h.ss, by rw [e, ← h.sp_eq]⟩

theorem OnStack.pop {p : Word × State} (h : OnStack sp s u) (hp : pop16 u = .next p) : OnStack (sp + 2) s p.2 := by
  have e : p.2 = _ := pop16_next hp
  exact ⟨h.toTame.trans (tame_pop16 hp), by rw [e]; exact h.ss, by rw [e, ← h.sp_eq]⟩

theorem OnStack.flags (h : OnStack sp s u) (f : Flags) : OnStack sp s { u with flags := f } :=
  ⟨h.toTame.trans (tame_of_core rfl), h.ss, h.sp_eq⟩

theorem OnStack.ends_push (h : OnStack sp s u) (v : Word) (hn : sp = s.regs.sp - n := by bv_omega) :
    s.Ends [] (s.pushCells n) (push16 v u) := by
  have slot : s.pushCells n = cellsOf .word u.segs.ss (u.regs.sp - 2) := by
    rw [State.pushCells, h.ss, h.sp_eq, hn]
  rw [slot]
  exact ends_writeMem (h.toTame.trans (tame_setReg u .word .sp _)) ..

theorem OnStack.ends_pop (h : OnStack sp s u) (hn : sp = s.regs.sp + n := by bv_omega) :
    s.Ends (s.popCells n) [] (pop16 u) := by
  have slot : s.popCells n = cellsOf .word u.segs.ss u.regs.sp := by
    rw [State.popCells, h.ss, h.sp_eq, hn]
  rw [slot]
  exact (ends_readMem h.toTame ..).next

theorem ends_push16 (s : State) (v : Word) : s.Ends [] (s.pushCells 0) (push16 v s) := (OnStack.refl s).ends_push v

theorem ends_pop16 (s : State) : s.Ends (s.popCells 0) [] (pop16 s) := (OnStack.refl s).ends_pop

/-- CS and IP pushed, and a transfer. -/
theorem ends_callTo (h : OnStack s.regs.sp s u) (g v : Word) :
    s.Ends [] (s.pushCells 0 ++ s.pushCells 2) (callTo g v u) :=
  (h.ends_push _).store_store fun _ hx => ((h.push hx).ends_push _).next

theorem ends_popFar (s : State) : s.Ends (s.popCells 0 ++ s.popCells 2) [] (popFar s) :=
  (ends_pop16 s).read_read fun _ hp => ((OnStack.refl s).pop hp).ends_pop.next

theorem ends_interruptReturn (s : State) :
    s.Ends (s.popCells 0 ++ s.popCells 2 ++ s.popCells 4) [] (interruptReturn s) := by
  rw [List.append_assoc]
  refine (ends_pop16 s).read_read fun p hp => ?_
  have one := (OnStack.refl s).pop hp
  exact one.ends_pop.read_read fun q hq => (one.pop hq).ends_pop.next

theorem ends_readVector (n : Byte) (s : State) : s.Ends (vectorCells n) [] (readVector n s) := by
  have second : vectorAddr n 1 = vectorAddr n 0 + 1 := vectorAddr_succ n 0
  have fourth : vectorAddr n 3 = vectorAddr n 2 + 1 := vectorAddr_succ n 2
  rw [vectorCells, second, fourth]
  exact (ends_readPair (.refl s) (vectorAddr n 0) _).read_read fun p hp =>
    (ends_readPair (tame_readPair hp) (vectorAddr n 2) _).next

/-- An interrupt reads its vector and pushes three words (spec/60_exceptions.md R506). -/
theorem ends_interruptSequence (n : Byte) (saved : Word) (s : State) :
    s.Ends (vectorCells n) (s.pushCells 0 ++ s.pushCells 2 ++ s.pushCells 4) (interruptSequence n saved s) := by
  rw [List.append_assoc]
  refine (ends_readVector n s).read_store fun p hp => ?_
  have none_pushed := onStack_of_only (tame_readVector hp) (readVector_next hp)
  refine (none_pushed.ends_push _).store_store fun x hx => ?_
  have one_pushed := (none_pushed.push hx).flags { x.flags with IF := false, TF := false }
  refine (one_pushed.ends_push _).store_store fun y hy => ?_
  exact ((one_pushed.push hy).ends_push _).next

/-! ## Operations on operands (spec/41_arithmetic.md R240) -/

variable {d : Dir} {r : RegCode} {imm : Word} {bin : BinOp} {un : UnOp}

theorem ends_binRmReg (ho : bin.OnlyFlags Flags.control) :
    s.Ends (s.operandCells w rm) (if d = .toRm then s.operandCells w rm else []) (binRmReg bin d w rm r s) := by
  cases d with
  | toReg => exact (ends_readRM (.refl s) rfl).next
  | toRm => exact (ends_readRM (.refl s) rfl).read_store fun m hm => ends_writeBack hm (ho ..)

theorem ends_flagsRmReg : s.Ends (s.operandCells w rm) [] (flagsRmReg bin d w rm r s) := by
  cases d <;> exact (ends_readRM (.refl s) rfl).next

theorem ends_binRmImm (ho : bin.OnlyFlags Flags.control) :
    s.Ends (s.operandCells w rm) (s.operandCells w rm) (binRmImm bin w rm imm s) :=
  (ends_readRM (.refl s) rfl).read_store fun _ hm => ends_writeBack hm (ho ..)

theorem ends_unRm (ho : un.OnlyFlags Flags.control) :
    s.Ends (s.operandCells w rm) (s.operandCells w rm) (unRm un w rm s) :=
  (ends_readRM (.refl s) rfl).read_store fun _ hm => ends_writeBack hm (ho ..)

theorem ends_shiftRm {op : Shifter} {c : Count} :
    s.Ends (s.operandCells w rm) (s.operandCells w rm) (shiftRm op c w rm s) :=
  (ends_readRM (.refl s) rfl).read_store fun _ hm => ends_writeBack hm (setFlags_onlyFlags ..)

/-! ## String primitives (spec/43_string.md) -/

theorem ends_moveString : s.Ends (s.siCells w) (s.diCells w) (moveString w s) := by
  refine (ends_readMem (.refl s) ..).read_store fun p hp => ?_
  rw [← diCells_of_only (readMem_next hp).2]
  exact (ends_writeMem (tame_readMem hp) ..).next

theorem ends_storeString : s.Ends [] (s.diCells w) (storeString w s) := (ends_writeMem (.refl s) ..).next

theorem ends_loadString : s.Ends (s.siCells w) [] (loadString w s) := (ends_readMem (.refl s) ..).next

theorem ends_scanString : s.Ends (s.diCells w) [] (scanString w s) := (ends_readMem (.refl s) ..).next

theorem ends_compareString : s.Ends (s.siCells w ++ s.diCells w) [] (compareString w s) := by
  refine (ends_readMem (.refl s) ..).read_read fun p hp => ?_
  rw [← diCells_of_only (readMem_next hp).2]
  exact (ends_readMem (tame_readMem hp) ..).next

/-- One step of a string instruction accesses what its primitive does, where there is an iteration to run. -/
theorem ends_repeatStep {tests : Bool} {prim : State → Out State} (h : s.Ends reads stores (prim s)) :
    s.Ends (if s.iterates then reads else []) (if s.iterates then stores else []) (repeatStep tests prim s) := by
  unfold repeatStep State.iterates
  cases hr : s.cur.rep with
  | none => exact h
  | some z =>
    by_cases hc : s.regs.cx = 0
    · simp only [hc, if_true]
      exact ends_next _
    · simp only [hc, if_false, Option.isNone_some, Bool.false_or, bne_iff_ne, ne_eq, not_false_eq_true, if_true]
      exact h.next

theorem ends_repeatStep_reads {tests : Bool} {prim : State → Out State} (h : s.Ends reads [] (prim s)) :
    s.Ends (if s.iterates then reads else []) [] (repeatStep tests prim s) := by
  simpa only [ite_self] using ends_repeatStep (tests := tests) h

theorem ends_repeatStep_stores {tests : Bool} {prim : State → Out State} (h : s.Ends [] stores (prim s)) :
    s.Ends [] (if s.iterates then stores else []) (repeatStep tests prim s) := by
  simpa only [ite_self] using ends_repeatStep (tests := tests) h

/-! ## Ports -/

theorem faultOf_andThen_none (h : faultOf o = none) (k : ∀ a, faultOf (f a) = none) :
    faultOf (Machine.andThen o f) = none := by
  cases o with
  | next a => exact k a
  | fault r => cases h
  | refused r => rfl

theorem faultOf_ioReadByte (p : Word) (s : State) : faultOf (ioReadByte p s) = none := by
  unfold ioReadByte
  split
  · rfl
  · split <;> rfl

theorem faultOf_ioRead (w : Width) (p : Word) (s : State) : faultOf (ioRead w p s) = none := by
  cases w with
  | byte => exact faultOf_andThen_none (faultOf_ioReadByte ..) fun _ => rfl
  | word =>
    exact faultOf_andThen_none (faultOf_ioReadByte ..) fun _ =>
      faultOf_andThen_none (faultOf_ioReadByte ..) fun _ => rfl

theorem faultOf_ioWriteByte (p : Word) (b : Byte) (s : State) : faultOf (ioWriteByte p b s) = none := by
  unfold ioWriteByte
  split <;> rfl

theorem faultOf_ioWrite (w : Width) (p v : Word) (s : State) : faultOf (ioWrite w p v s) = none := by
  cases w with
  | byte => exact faultOf_ioWriteByte ..
  | word => exact faultOf_andThen_none (faultOf_ioWriteByte ..) fun _ => faultOf_ioWriteByte ..

/-! ## Instructions -/

theorem ends_movRmReg : s.Ends (if d = .toReg then s.operandCells w rm else [])
    (if d = .toRm then s.operandCells w rm else []) (execMovRmReg d w rm r s) := by
  cases d with
  | toReg => exact (ends_readRM (.refl s) rfl).next
  | toRm => exact ends_writeRM (.refl s) rfl _

/-- PUSH r/m, where SP as the operand is in a register. -/
theorem ends_pushRm : s.Ends (s.operandCells .word rm) (s.pushCells 0) (execPushRm rm s) := by
  unfold execPushRm
  split
  · next hsp =>
    subst hsp
    exact ends_push16 ..
  · exact (ends_readRM (.refl s) rfl).read_store fun p hp =>
      (onStack_of_only (tame_readRM hp) (readRM_next hp)).ends_push _

theorem ends_pushReg : s.Ends [] (s.pushCells 0) (execPushReg r s) := by
  unfold execPushReg
  split <;> exact ends_push16 ..

theorem ends_popRm : s.Ends (s.popCells 0) (s.operandCells .word rm) (execPopRm rm s) :=
  (ends_pop16 s).read_store fun _ hp => ends_writeRM (tame_pop16 hp) (place_pop16 hp rm) _

theorem ends_xchgRmReg : s.Ends (s.operandCells w rm) (s.operandCells w rm) (execXchgRmReg w rm r s) :=
  (ends_readRM (.refl s) rfl).read_store fun _ hp =>
    (ends_writeRM (tame_readRM hp) (place_of_only (readRM_next hp) rm) _).next

theorem ends_callRm : s.Ends (s.operandCells .word rm) (s.pushCells 0) (execCallRm rm s) :=
  (ends_readRM (.refl s) rfl).read_store fun _ hp =>
    ((onStack_of_only (tame_readRM hp) (readRM_next hp)).ends_push _).next

theorem ends_esc (x y : BitVec 3) : s.Ends (s.operandCells .word rm) [] (execEsc x y rm s) := by
  unfold execEsc State.operandCells
  cases s.place rm with
  | reg c => exact ends_next _
  | mem seg off => exact (ends_readMem (.refl s) ..).next

/-- CS is refused before anything is read. -/
theorem faultOf_movSregRm {sr : SegReg} :
    faultOf (execMovSregRm sr rm s) = s.faultAmong (if sr = .cs then [] else s.operandCells .word rm) [] := by
  unfold execMovSregRm
  split
  · rfl
  · exact (ends_readRM (.refl s) rfl).next.faultOf

theorem faultOf_popSreg {sr : SegReg} :
    faultOf (execPopSreg sr s) = s.faultAmong (if sr = .cs then [] else s.popCells 0) [] := by
  unfold execPopSreg
  split
  · rfl
  · exact (ends_pop16 s).next.faultOf

theorem faultOf_lea : faultOf (execLea r rm s) = none := by
  unfold execLea eaOrRefuse
  cases s.place rm <;> rfl

theorem faultOf_callMem : faultOf (execCallMem rm s) =
    s.faultAmong (s.pointerCells rm) (if s.pointerCells rm = [] then [] else s.pushCells 0 ++ s.pushCells 2) := by
  refine faultOf_pointer (fun c hp => ?_) fun p seg off hp hr => ?_
  · simp [State.pointerCells, hp]
  · rw [if_neg (by simp [State.pointerCells, hp, cellsOf])]
    exact ends_callTo (onStack_of_only (tame_readPointer hr) (readPointer_next hr)) ..

/-- Instructions that take no interrupt themselves stop at the first byte of their operands that is not admitted. -/
theorem faultOf_exec_operands {i : Instr} (hk : kindOf i ≠ .interrupt) :
    faultOf (exec i s) = s.faultAmong (s.operandsReadBy i) (s.operandsStoredBy i) := by
  cases i
  case movRmReg => exact ends_movRmReg.faultOf
  case movRmImm | movRmSreg => exact (ends_writeRM (.refl s) rfl _).faultOf
  case movAccMem | xlat => exact (ends_readMem (.refl s) ..).next.faultOf
  case movMemAcc => exact (ends_writeMem (.refl s) ..).faultOf
  case movSregRm => exact faultOf_movSregRm
  case pushRm => exact ends_pushRm.faultOf
  case pushReg => exact ends_pushReg.faultOf
  case pushSreg | pushf => exact (ends_push16 s _).faultOf
  case popRm => exact ends_popRm.faultOf
  case popReg | popf | retNear | retNearImm => exact (ends_pop16 s).next.faultOf
  case popSreg => exact faultOf_popSreg
  case xchgRmReg => exact ends_xchgRmReg.faultOf
  case inPort | inDx => exact faultOf_andThen_none (faultOf_ioRead ..) fun _ => rfl
  case outPort | outDx => exact faultOf_ioWrite ..
  case lea => exact faultOf_lea
  case lds | les | jmpMem => exact faultOf_pointer (fun _ _ => rfl) fun _ _ _ _ _ => ends_next _
  case addRmReg | adcRmReg | subRmReg | sbbRmReg | andRmReg | orRmReg | xorRmReg =>
    exact (ends_binRmReg fun _ _ _ _ => ⟨rfl, rfl⟩).faultOf
  case addRmImm | adcRmImm | subRmImm | sbbRmImm | andRmImm | orRmImm | xorRmImm =>
    exact (ends_binRmImm fun _ _ _ _ => ⟨rfl, rfl⟩).faultOf
  case cmpRmReg => exact ends_flagsRmReg.faultOf
  case testRmReg => exact (ends_flagsRmReg (d := .toRm)).faultOf
  case cmpRmImm | testRmImm | mulRm | imulRm | jmpRm => exact (ends_readRM (.refl s) rfl).next.faultOf
  case incRm | decRm | negRm | notRm => exact (ends_unRm fun _ _ _ => ⟨rfl, rfl⟩).faultOf
  case shl | shr | sar | rol | ror | rcl | rcr => exact ends_shiftRm.faultOf
  case movs => exact (ends_repeatStep ends_moveString).faultOf
  case cmps => exact (ends_repeatStep_reads ends_compareString).faultOf
  case scas => exact (ends_repeatStep_reads ends_scanString).faultOf
  case lods => exact (ends_repeatStep_reads ends_loadString).faultOf
  case stos => exact (ends_repeatStep_stores ends_storeString).faultOf
  case callNear => exact (ends_push16 s _).next.faultOf
  case callRm => exact ends_callRm.faultOf
  case callFar => exact (ends_callTo (.refl s) ..).faultOf
  case callMem => exact faultOf_callMem
  case retFar => exact (ends_popFar s).faultOf
  case retFarImm => exact (ends_popFar s).next.faultOf
  case iret => exact (ends_interruptReturn s).faultOf
  case esc x y rm => exact (ends_esc x y).faultOf
  case int | int3 | into | divRm | idivRm => exact absurd rfl hk
  all_goals rfl

/-- DIV and IDIV read the operand, and then take interrupt 0 where `P` says so of it. -/
theorem ends_divide {i : Instr} {P : Word → Prop} [DecidablePred P] {g : Word × State → State} (ha : s.alone = true)
    (hraises : s.raises i = if P (s.operand w rm) then some 0 else none)
    (hreads : s.operandsReadBy i = s.operandCells w rm) (hstores : s.operandsStoredBy i = []) :
    s.Ends (s.readBy i) (s.storedBy i)
      (Machine.andThen (readRM w rm s) fun m => if P m.1 then divideError m.2 else .next (g m)) := by
  by_cases hP : P (s.operand w rm)
  · rw [if_pos hP] at hraises
    simp only [State.readBy, State.storedBy, hraises, hreads]
    refine (ends_readRM (.refl s) rfl).read_then fun m hm => ?_
    obtain ⟨-, rfl⟩ := (readRM_eq_next ha).1 hm
    rw [if_pos hP]
    exact ends_interruptSequence ..
  · rw [if_neg hP] at hraises
    simp only [State.readBy, State.storedBy, hraises, hreads, hstores]
    refine (ends_readRM (.refl s) rfl).read_store fun m hm => ?_
    obtain ⟨-, rfl⟩ := (readRM_eq_next ha).1 hm
    rw [if_neg hP]
    exact ends_next _

/-- Every instruction stops at the first byte that is not admitted, of those it reads and then of those it stores to. -/
theorem faultOf_exec {i : Instr} (ha : ∀ w rm, i = .divRm w rm ∨ i = .idivRm w rm → s.alone = true) :
    faultOf (exec i s) = s.faultAmong (s.readBy i) (s.storedBy i) := by
  by_cases hk : kindOf i = .interrupt
  · cases i
    case int | int3 => exact (ends_interruptSequence ..).faultOf
    case into =>
      simp only [exec, execInto, State.readBy, State.storedBy, State.raises]
      cases s.flags.OF
      · rfl
      · exact (ends_interruptSequence ..).faultOf
    case divRm w rm =>
      exact (ends_divide (P := fun d => d.toNat = 0 ∨ 2 ^ bitsOf w ≤ s.dividend w / d.toNat) (ha w rm (.inl rfl)) rfl rfl
        rfl).faultOf
    case idivRm w rm =>
      exact (ends_divide (P := fun d => signedOf w d = 0 ∨ quotientMax w < (s.signedDividend w).tdiv (signedOf w d) ∨
        (s.signedDividend w).tdiv (signedOf w d) < quotientMin w) (ha w rm (.inr rfl)) rfl rfl rfl).faultOf
    all_goals cases hk
  · have none_raised := raises_of_kind hk s
    simp only [State.readBy, State.storedBy, none_raised]
    exact faultOf_exec_operands hk

end

end Sys2Proof.Machine
end

section
/-! A fetch whose next byte the memory map does not hold (O13; spec/20_memory.md R80). A reader of the decoder answers the
same whatever bytes follow those it takes, and stops with nothing but `truncated`: so the beginning of an encoding is
truncated. -/

namespace Sys2Proof

/-! ## Readers -/

/-- The reader stops only where the bytes end, and does not look at the bytes that it leaves. -/
def Streams {α : Type} (p : List Byte → Reading (α × List Byte)) : Prop :=
  ∀ bs more : List Byte, p bs = .error .truncated ∨ ∃ a rest, p bs = .ok (a, rest) ∧ p (bs ++ more) = .ok (a, rest ++ more)

theorem Streams.bind {α β : Type} {p : List Byte → Reading (α × List Byte)} {f : α × List Byte → Reading (β × List Byte)}
    (hp : Streams p) (hf : ∀ a, Streams fun bs => f (a, bs)) : Streams fun bs => p bs >>= f := by
  intro bs more
  rcases hp bs more with stop | ⟨a, rest, first, first'⟩
  · exact .inl (by simp only [stop]; rfl)
  · simp only [first, first']
    exact hf a rest more

theorem streams_takeByte : Streams takeByte
  | [], _ => .inl rfl
  | _ :: _, _ => .inr ⟨_, _, rfl, rfl⟩

theorem streams_takeWord : Streams takeWord
  | [], _ => .inl rfl
  | [_], _ => .inl rfl
  | _ :: _ :: _, _ => .inr ⟨_, _, rfl, rfl⟩

theorem streams_takeImm (w : Width) : Streams (takeImm w) := by
  cases w with
  | byte => exact streams_takeByte.bind fun _ _ _ => .inr ⟨_, _, rfl, rfl⟩
  | word => exact streams_takeWord

theorem streams_takeImmS (s : Bool) (w : Width) : Streams (takeImmS s w) := by
  cases w with
  | byte => exact streams_takeByte.bind fun _ _ _ => .inr ⟨_, _, rfl, rfl⟩
  | word =>
    cases s with
    | true => exact streams_takeByte.bind fun _ _ _ => .inr ⟨_, _, rfl, rfl⟩
    | false => exact streams_takeWord

/-- A reader that goes on by its first byte. -/
theorem streams_cons {α : Type} {p : List Byte → Reading (α × List Byte)} (hnil : p [] = .error .truncated)
    (hcons : ∀ m, Streams fun bs => p (m :: bs)) : Streams p
  | [], _ => .inl hnil
  | m :: bs, more => hcons m bs more

theorem streams_takeModRM : Streams takeModRM := by
  refine streams_cons rfl fun m => ?_
  unfold takeModRM
  dsimp only
  split
  · split
    · exact streams_takeWord.bind fun _ _ _ => .inr ⟨_, _, rfl, rfl⟩
    · exact fun _ _ => .inr ⟨_, _, rfl, rfl⟩
  · exact streams_takeByte.bind fun _ _ _ => .inr ⟨_, _, rfl, rfl⟩
  · exact streams_takeWord.bind fun _ _ _ => .inr ⟨_, _, rfl, rfl⟩
  · exact fun _ _ => .inr ⟨_, _, rfl, rfl⟩

/-- A row whose mask looks at the second byte takes that byte. -/
structure Row.Reads (r : Row) : Prop where
  streams : ∀ b, Streams (r.read b)
  second : r.mask % 256 = 0 ∨ ∀ b, r.read b [] = .error .truncated

section
variable {v m : Nat}

@[simp] theorem reads_rowOne {i : Instr} (hm : m % 256 = 0) : Row.Reads ⟨v, m, rowOne i⟩ :=
  ⟨fun _ _ _ => .inr ⟨_, _, rfl, rfl⟩, .inl hm⟩

@[simp] theorem reads_rowW {mk : Width → Instr} (hm : m % 256 = 0) : Row.Reads ⟨v, m, rowW mk⟩ :=
  ⟨fun _ _ _ => .inr ⟨_, _, rfl, rfl⟩, .inl hm⟩

@[simp] theorem reads_rowReg {mk : RegCode → Instr} (hm : m % 256 = 0) : Row.Reads ⟨v, m, rowReg mk⟩ :=
  ⟨fun _ _ _ => .inr ⟨_, _, rfl, rfl⟩, .inl hm⟩

@[simp] theorem reads_rowSreg {mk : SegReg → Instr} (hm : m % 256 = 0) : Row.Reads ⟨v, m, rowSreg mk⟩ :=
  ⟨fun _ _ _ => .inr ⟨_, _, rfl, rfl⟩, .inl hm⟩

@[simp] theorem reads_rowTwo {i : Instr} : Row.Reads ⟨v, m, rowTwo i⟩ :=
  ⟨fun _ => streams_takeByte.bind fun _ _ _ => .inr ⟨_, _, rfl, rfl⟩, .inr fun _ => rfl⟩

@[simp] theorem reads_rowPort {mk : Width → Byte → Instr} : Row.Reads ⟨v, m, rowPort mk⟩ :=
  ⟨fun _ => streams_takeByte.bind fun _ _ _ => .inr ⟨_, _, rfl, rfl⟩, .inr fun _ => rfl⟩

@[simp] theorem reads_rowRel8 {mk : Byte → Instr} : Row.Reads ⟨v, m, rowRel8 mk⟩ :=
  ⟨fun _ => streams_takeByte.bind fun _ _ _ => .inr ⟨_, _, rfl, rfl⟩, .inr fun _ => rfl⟩

@[simp] theorem reads_rowRel16 {mk : Word → Instr} : Row.Reads ⟨v, m, rowRel16 mk⟩ :=
  ⟨fun _ => streams_takeWord.bind fun _ _ _ => .inr ⟨_, _, rfl, rfl⟩, .inr fun _ => rfl⟩

@[simp] theorem reads_rowAccMem {mk : Width → Word → Instr} : Row.Reads ⟨v, m, rowAccMem mk⟩ :=
  ⟨fun _ => streams_takeWord.bind fun _ _ _ => .inr ⟨_, _, rfl, rfl⟩, .inr fun _ => rfl⟩

@[simp] theorem reads_rowFar {mk : Word → Word → Instr} : Row.Reads ⟨v, m, rowFar mk⟩ :=
  ⟨fun _ => streams_takeWord.bind fun _ => streams_takeWord.bind fun _ _ _ => .inr ⟨_, _, rfl, rfl⟩, .inr fun _ => rfl⟩

@[simp] theorem reads_rowRegImm {mk : Width → RegCode → Word → Instr} (hm : m % 256 = 0) : Row.Reads ⟨v, m, rowRegImm mk⟩ :=
  ⟨fun _ => (streams_takeImm _).bind fun _ _ _ => .inr ⟨_, _, rfl, rfl⟩, .inl hm⟩

@[simp] theorem reads_rowAccImm {mk : Width → Word → Instr} (hm : m % 256 = 0) : Row.Reads ⟨v, m, rowAccImm mk⟩ :=
  ⟨fun _ => (streams_takeImm _).bind fun _ _ _ => .inr ⟨_, _, rfl, rfl⟩, .inl hm⟩

/-- The rows with a second byte of MOD, REG and R/M and nothing after its displacement. -/
theorem reads_of_modRM {read : RowReader} {g : Byte → Nat × RM → Instr}
    (h : ∀ b bs, read b bs = takeModRM bs >>= fun x => .ok (g b x.1, x.2)) : Row.Reads ⟨v, m, read⟩ :=
  ⟨fun b => by
    show Streams (read b)
    rw [show read b = _ from funext (h b)]
    exact streams_takeModRM.bind fun _ _ _ => .inr ⟨_, _, rfl, rfl⟩, .inr fun b => h b []⟩

@[simp] theorem reads_rowRm {mk : RM → Instr} : Row.Reads ⟨v, m, rowRm mk⟩ :=
  reads_of_modRM (g := fun _ x => mk x.2) fun _ _ => rfl

@[simp] theorem reads_rowRmW {mk : Width → RM → Instr} : Row.Reads ⟨v, m, rowRmW mk⟩ :=
  reads_of_modRM (g := fun b x => mk (wBit b) x.2) fun _ _ => rfl

@[simp] theorem reads_rowShift {mk : Count → Width → RM → Instr} : Row.Reads ⟨v, m, rowShift mk⟩ :=
  reads_of_modRM (g := fun b x => mk (vBit b) (wBit b) x.2) fun _ _ => rfl

@[simp] theorem reads_rowRmRegD {mk : Dir → Width → RM → RegCode → Instr} : Row.Reads ⟨v, m, rowRmRegD mk⟩ :=
  reads_of_modRM (g := fun b x => mk (dBit b) (wBit b) x.2 (.ofCode x.1)) fun _ _ => rfl

@[simp] theorem reads_rowRmReg {mk : Width → RM → RegCode → Instr} : Row.Reads ⟨v, m, rowRmReg mk⟩ :=
  reads_of_modRM (g := fun b x => mk (wBit b) x.2 (.ofCode x.1)) fun _ _ => rfl

@[simp] theorem reads_rowRegRm {mk : RegCode → RM → Instr} : Row.Reads ⟨v, m, rowRegRm mk⟩ :=
  reads_of_modRM (g := fun _ x => mk (.ofCode x.1) x.2) fun _ _ => rfl

@[simp] theorem reads_rowSregRm {mk : SegReg → RM → Instr} : Row.Reads ⟨v, m, rowSregRm mk⟩ :=
  reads_of_modRM (g := fun _ x => mk (.ofCode (x.1 % 4)) x.2) fun _ _ => rfl

@[simp] theorem reads_rowRmSreg {mk : RM → SegReg → Instr} : Row.Reads ⟨v, m, rowRmSreg mk⟩ :=
  reads_of_modRM (g := fun _ x => mk x.2 (.ofCode (x.1 % 4))) fun _ _ => rfl

@[simp] theorem reads_rowEsc {mk : BitVec 3 → BitVec 3 → RM → Instr} : Row.Reads ⟨v, m, rowEsc mk⟩ :=
  reads_of_modRM (g := fun b x => mk (BitVec.ofNat 3 b.toNat) (BitVec.ofNat 3 x.1) x.2) fun _ _ => rfl

@[simp] theorem reads_rowRmImm {mk : Width → RM → Word → Instr} : Row.Reads ⟨v, m, rowRmImm mk⟩ :=
  ⟨fun _ => streams_takeModRM.bind fun _ => (streams_takeImm _).bind fun _ _ _ => .inr ⟨_, _, rfl, rfl⟩,
    .inr fun _ => rfl⟩

@[simp] theorem reads_rowRmImmS {mk : Bool → Width → RM → Word → Instr} : Row.Reads ⟨v, m, rowRmImmS mk⟩ :=
  ⟨fun _ => streams_takeModRM.bind fun _ => (streams_takeImmS _ _).bind fun _ _ _ => .inr ⟨_, _, rfl, rfl⟩,
    .inr fun _ => rfl⟩

end

/-- Every row of the table reads so. -/
theorem reads_of_mem : ∀ r ∈ opcodeRows, r.Reads := by
  simp only [opcodeRows, List.forall_mem_append, rowsTransfer, rowsArithmetic, rowsLogic, rowsString, rowsControl,
    rowsProcessor, List.forall_mem_cons]
  simp

/-! ## The beginning of an encoding -/

theorem findRow_spec {b1 b2 : Byte} {r : Row} (h : findRow b1 b2 = some r) : r ∈ opcodeRows ∧ r.hits b1 b2 = true :=
  ⟨List.mem_of_find?_eq_some h, List.find?_some (p := fun r : Row => r.hits b1 b2) h⟩

theorem decodeOne_of_findRow {b : Byte} {bs : List Byte} {r : Row} (h : findRow b (bs.headD 0#8) = some r) :
    decodeOne (b :: bs) = r.read b bs := by
  simp only [decodeOne, h]

theorem decodeOne_of_none {b : Byte} {bs : List Byte} (h : findRow b (bs.headD 0#8) = none) :
    decodeOne (b :: bs) = .error (if bs.isEmpty && firstByteAssigned b then .truncated else .unassigned) := by
  simp only [decodeOne, h]

/-- A row that reads its first byte alone matches whatever the second byte is. -/
theorem hits_of_first {r : Row} (hm : r.mask % 256 = 0) {b1 b2 b2' : Byte} (h : r.hits b1 b2 = true) :
    r.hits b1 b2' = true := by
  have split (b : Byte) : (b1.toNat * 256 + b.toNat) &&& r.mask = (b1.toNat &&& r.mask / 256) * 256 := by
    have mask : r.mask = r.mask / 256 * 256 + 0 := by omega
    rw [mask, and_bytes _ _ b.isLt (by decide), Nat.and_zero, Nat.add_zero, Nat.add_zero, Nat.mul_div_cancel _ (by decide)]
  rw [Row.hits, split] at h ⊢
  exact h

/-- The first byte of a row that matches is assigned. -/
theorem firstByteAssigned_of_hits {r : Row} {b1 b2 : Byte} (hr : r ∈ opcodeRows) (h : r.hits b1 b2 = true) :
    firstByteAssigned b1 = true := by
  refine List.any_eq_true.2 ⟨r, hr, beq_iff_eq.2 ?_⟩
  rw [← eq_of_beq h, Nat.shiftRight_and_distrib, Nat.shiftRight_eq_div_pow (b1.toNat * 256 + b2.toNat)]
  congr 1
  omega

/-- Where a row needs bytes after the first, the first byte alone is truncated. -/
theorem decodeOne_first_byte {b1 b2 : Byte} {r : Row} (hf : findRow b1 b2 = some r)
    (hr : r.read b1 [] = .error .truncated) : decodeOne [b1] = .error .truncated := by
  obtain ⟨mem, hits⟩ := findRow_spec hf
  cases hz : findRow b1 ([].headD 0#8) with
  | none => rw [decodeOne_of_none hz, firstByteAssigned_of_hits mem hits]; rfl
  | some r' =>
    rw [decodeOne_of_findRow hz]
    obtain ⟨mem', hits'⟩ := findRow_spec hz
    rcases (reads_of_mem r' mem').second with first | short
    · obtain rfl : r = r' := Option.some.inj (hf.symm.trans (findRow_of_hits mem' (hits_of_first first hits')))
      exact hr
    · exact short b1

/-- Fewer bytes than a reader takes are truncated. -/
theorem Streams.truncated {α : Type} {p : List Byte → Reading (α × List Byte)} (hp : Streams p) {bs : List Byte} {a : α}
    (h : p bs = .ok (a, [])) {k : Nat} (hk : k < bs.length) : p (bs.take k) = .error .truncated := by
  rcases hp (bs.take k) (bs.drop k) with stop | ⟨a', rest, -, all⟩
  · exact stop
  · rw [List.take_append_drop, h] at all
    have left : bs.drop k = [] := by
      have := congrArg Prod.snd (Except.ok.inj all)
      exact (List.append_eq_nil_iff.1 this.symm).2
    exact absurd (List.drop_eq_nil_iff.1 left) (by omega)

/-- The beginning of bytes that are one instruction is no instruction, and more bytes may make it one. -/
theorem decodeOne_take {bs : List Byte} {i : Instr} (h : decodeOne bs = .ok (i, [])) {k : Nat} (hk : k < bs.length) :
    decodeOne (bs.take k) = .error .truncated := by
  match bs, k with
  | [], _ => exact absurd hk (Nat.not_lt_zero _)
  | _, 0 => rfl
  | b1 :: bs, k + 1 =>
    have hk : k < bs.length := Nat.lt_of_succ_lt_succ hk
    cases hf : findRow b1 (bs.headD 0#8) with
    | none => rw [decodeOne_of_none hf] at h; cases h
    | some r =>
      rw [decodeOne_of_findRow hf] at h
      have short := ((reads_of_mem r (findRow_spec hf).1).streams b1).truncated h hk
      cases k with
      | zero => exact decodeOne_first_byte hf short
      | succ k =>
        obtain ⟨b2, bs, rfl⟩ := List.exists_cons_of_length_pos (Nat.zero_lt_of_lt hk)
        exact (decodeOne_of_findRow (bs := (b2 :: bs).take (k + 1)) hf).trans short

theorem decode_take_encode {i : Instr} (h : i.wf = true) {k : Nat} (hk : k < (encode i).length) :
    decode ((encode i).take k) = .error .truncated := by
  have whole : decodeOne (encode i) = .ok (i, []) := by simpa using decodeOne_encode h []
  have short := decodeOne_take whole hk
  have stop : decodeFrom Config.maxPrefixes [] ((encode i).take k) = .error .truncated := by
    unfold decodeFrom
    rw [short]
  simp only [decode, stop]

end Sys2Proof

namespace Sys2Proof.Machine

/-! ## The fetch -/

theorem codeAddr_zero (s : State) (ip : Word) : s.codeAddr ip 0 = phys s.segs.cs ip :=
  congrArg (phys s.segs.cs) (BitVec.add_zero ip)

theorem codeAddr_succ (s : State) (ip : Word) (k : Nat) : s.codeAddr (ip + 1) k = s.codeAddr ip (k + 1) := by
  refine congrArg (phys s.segs.cs) ?_
  rw [BitVec.ofNat_add, BitVec.add_assoc, BitVec.add_comm (BitVec.ofNat 16 k)]
  rfl

/-- Every code byte fetched is one that the map holds. -/
theorem canReadByte_of_codeBytes {s : State} {n k : Nat} {ip : Word} (hk : k < (s.codeBytes n ip).length) :
    canReadByte (s.codeAddr ip k) s = true := by
  induction n generalizing ip k with
  | zero => exact absurd hk (Nat.not_lt_zero _)
  | succ n ih =>
    unfold State.codeBytes at hk
    dsimp only at hk
    split at hk
    · exact absurd hk (Nat.not_lt_zero _)
    · next mapped =>
      cases k with
      | zero => rw [codeAddr_zero]; simpa [canReadByte] using mapped
      | succ k => rw [← codeAddr_succ]; exact ih (Nat.lt_of_succ_lt_succ hk)

/-- The bytes before the first that the map does not hold are all that is fetched. -/
theorem codeBytes_eq {s : State} {l : List Byte} {ip : Word} {n : Nat} (hn : l.length ≤ n)
    (hl : ∀ k, ∀ h : k < l.length, canReadByte (s.codeAddr ip k) s = true ∧ s.byteAt (s.codeAddr ip k) = l[k])
    (hend : canReadByte (s.codeAddr ip l.length) s = false) : s.codeBytes n ip = l := by
  obtain ⟨rest, all⟩ := codeBytes_eq_append hn hl
  have none_left : rest = [] := by
    by_contra left
    have := List.length_pos_iff.2 left
    have beyond := canReadByte_of_codeBytes (s := s) (n := n) (ip := ip) (k := l.length) (by
      rw [all, List.length_append]; omega)
    rw [hend] at beyond
    cases beyond
  rw [all, none_left, List.append_nil]

/-- An instruction whose next byte the map does not hold is not fetched: the fetch stops with that byte's address. -/
theorem fetch_outside {s : State} {i : Instr} {k : Nat} (hwf : i.wf = true) (hk : k < (encode i).length)
    (hbytes : ∀ j, j < k → canReadByte (s.codeAddr s.ip j) s = true ∧ (encode i)[j]? = some (s.byteAt (s.codeAddr s.ip j)))
    (hend : canReadByte (s.codeAddr s.ip k) s = false) :
    fetch s = .fault (.unmappedRead (s.codeAddr s.ip k).toNat) := by
  have len : ((encode i).take k).length = k := List.length_take_of_le hk.le
  have bytes : s.codeBytes maxLength s.ip = (encode i).take k := by
    refine codeBytes_eq ?_ (fun j hj => ?_) (by rw [len]; exact hend)
    · have short := (encodedLength i).2
      rw [len]
      exact hk.le.trans (short.trans (by decide))
    · obtain ⟨mapped, value⟩ := hbytes j (by omega)
      refine ⟨mapped, ?_⟩
      rw [List.getElem_take]
      exact (List.getElem?_eq_some_iff.1 value).2.symm
  simp only [fetch, bytes, decode_take_encode hwf hk, len]

/-- Settles O13: how each operation and instruction ends, and the fetch that finds the beginning of an encoding only. -/
theorem accessesOutsideTheMap : Obligations.AccessesOutsideTheMap := by
  intro s
  refine ⟨fun reads stores => ⟨faultAmong_eq_none, fun _ => faultAmong_eq_some, fun _ => faultAmong_eq_some,
    fun _ => faultAmong_eq_some⟩, fun w seg off v => ?_, fun w rm v => ?_,
    fun n saved => (ends_interruptSequence n saved s).faultOf, fun i ha => faultOf_exec ?_,
    fun i k hwf _ hk => fetch_outside hwf hk⟩
  · exact ⟨(ends_readMem (.refl s) ..).faultOf, (ends_writeMem (.refl s) ..).faultOf⟩
  · exact ⟨(ends_readRM (.refl s) rfl).faultOf, (ends_writeRM (.refl s) rfl v).faultOf, faultOf_readPointer rm s,
      (ends_readMem (.refl s) ..).faultOf, (ends_readMem (.refl s) ..).faultOf, (ends_writeMem (.refl s) ..).faultOf,
      (ends_push16 s v).faultOf, (ends_pop16 s).faultOf⟩
  · rintro w rm (rfl | rfl) <;> exact ha

end Sys2Proof.Machine
end

section
/-! Other bus masters among the accesses of an instruction (O12; spec/20_memory.md R68, R76, R77; logs 17 and 18). Where
LOCK holds the bus an operation does the same whatever is due: this is shown of every shared operation, as an equation
between a run with `d` due and the run as it is. -/

namespace Sys2Proof.Machine

/-! ## Bursts between the accesses (spec/20_memory.md R68, R76) -/

section
variable {s t : State} {seg off v : Word} {rm : RM}

theorem busCycle_wf (hw : s.mem.wf = true) : s.busCycle.mem.wf = true := (tame_busCycle s).wf hw

/-- A bus cycle begins with the next burst that is due. -/
theorem busCycle_due {b : Burst} {bs : List Burst} (hl : s.lock = false) (hd : s.due = b :: bs) :
    s.busCycle = State.putOthers b { s with due := bs } := by
  unfold State.busCycle
  split
  · next b' bs' _ hd' =>
    cases hd.symm.trans hd'
    rfl
  · next none_due => exact absurd hd (none_due _ _ hl)

theorem busCycle_stores {b : Burst} {bs : List Burst} (hw : s.mem.wf = true) (hl : s.lock = false) (hd : s.due = b :: bs) :
    Stores (b.filter fun c => canWriteByte c.1 s) { s with due := bs } s.busCycle := by
  rw [busCycle_due hl hd]
  exact (putOthers_stores b (s := { s with due := bs }) hw).1

/-- A word at an even address is one bus cycle. -/
theorem highCycle_even (h : off.getLsbD 0 = false) (s : State) : s.highCycle (phys seg off) = s :=
  if_pos ⟨rfl, (phys_even seg off).trans h⟩

/-- A word at an odd address is two bus cycles. -/
theorem highCycle_odd (h : off.getLsbD 0 = true) (s : State) : s.highCycle (phys seg off) = s.busCycle :=
  if_neg fun even => Bool.false_ne_true (even.2.symm.trans ((phys_even seg off).trans h))

theorem readMem_byte_bursts (h : admitsRead .byte seg off s = true) :
    readMem .byte seg off s = .next (zext16 (s.busCycle.byteAt (phys seg off)), s.busCycle) := by
  rw [admitsRead_byte, ← canReadByte_of_only (busCycle_only s)] at h
  simp only [readMem, memRead_of h, andThen_next]

theorem readMem_word_bursts (h : admitsRead .word seg off s = true) :
    readMem .word seg off s = .next (wordOf ((s.busCycle.highCycle (phys seg off)).byteAt (phys seg (off + 1)))
      (s.busCycle.byteAt (phys seg off)), s.busCycle.highCycle (phys seg off)) := by
  have first := busCycle_only s
  have second := first.trans (highCycle_only s.busCycle (phys seg off))
  rw [admitsRead_word, Bool.and_eq_true, ← canReadByte_of_only first, ← canReadByte_of_only second] at h
  obtain ⟨lo, hi⟩ := h
  simp only [readMem, readPair, memRead_of lo, memRead_of hi, andThen_next]

theorem memWrite_of {a : PAddr} (v : Byte) (h : canWriteByte a s = true) : memWrite a v s = .next (s.put a v) :=
  memWrite_eq_next.2 ⟨h, rfl⟩

theorem writeMem_byte_bursts (v : Word) (hw : s.mem.wf = true) (h : admitsWrite .byte seg off s = true) :
    ∃ x, writeMem .byte seg off v s = .next x ∧ Stores [(phys seg off, lowByte v)] s.busCycle x := by
  rw [admitsWrite_byte, ← canWriteByte_of_only (busCycle_only s)] at h
  exact ⟨_, memWrite_of _ h, stores_put (busCycle_wf hw) ..⟩

/-- A word stored is its low byte, then perhaps a bus cycle, then its high byte. -/
theorem writeMem_word_bursts (v : Word) (hw : s.mem.wf = true) (h : admitsWrite .word seg off s = true) :
    ∃ x y, writeMem .word seg off v s = .next y ∧ Stores [(phys seg off, lowByte v)] s.busCycle x ∧
      Stores [(phys seg (off + 1), highByte v)] (x.highCycle (phys seg off)) y := by
  have first := busCycle_only s
  have wf := busCycle_wf hw
  have second := (first.trans (put_only _ (phys seg off) (lowByte v))).trans (highCycle_only _ (phys seg off))
  rw [admitsWrite_word, Bool.and_eq_true, ← canWriteByte_of_only first, ← canWriteByte_of_only second] at h
  obtain ⟨lo, hi⟩ := h
  refine ⟨_, _, ?_, stores_put wf .., stores_put ?_ ..⟩
  · simp only [writeMem, memWrite_of _ lo, memWrite_of _ hi, andThen_next]
  · exact (tame_highCycle ..).wf (wf_write wf (by omega) _)

/-! INC of a byte in memory: a read and a write, each with a bus cycle of its own. -/

theorem putOthers_flags_comm (l : Burst) (f : Flags) (s : State) :
    State.putOthers l { s with flags := f } = { State.putOthers l s with flags := f } := by
  induction l generalizing s with
  | nil => rfl
  | cons c l ih =>
    simp only [State.putOthers]
    split
    · exact ih s
    · exact ih (s.put c.1 c.2)

theorem busCycle_flags_comm (f : Flags) (s : State) :
    State.busCycle { s with flags := f } = { s.busCycle with flags := f } := by
  cases ha : s.alone with
  | true => rw [busCycle_of_alone ha]; exact busCycle_of_alone ha
  | false =>
    simp only [State.alone, Bool.or_eq_false_iff, List.isEmpty_eq_false_iff] at ha
    obtain ⟨hl, hd⟩ := ha
    obtain ⟨b, bs, hd⟩ := List.exists_cons_of_ne_nil hd
    rw [busCycle_due hl hd, busCycle_due (s := { s with flags := f }) hl hd]
    exact putOthers_flags_comm b f { s with due := bs }

/-- The result of INC at byte width. -/
theorem lowByte_addResult_one (b : Byte) : lowByte (addResult .byte (zext16 b) 1 false) = b + 1 := by
  have sum : (addSum (zext16 b) 1 false : Nat) = b.toNat + 1 := by
    simp only [addSum, zext16, BitVec.toNat_setWidth, Bool.toNat_false, show (1 : Word).toNat = 1 from rfl]
    omega
  have result : ((addResult .byte (zext16 b) 1 false).toNat : Int) = _ := clip_toNat .byte _
  apply BitVec.eq_of_toNat_eq
  rw [sum] at result
  simp only [lowByte, BitVec.toNat_setWidth, BitVec.toNat_add, bitsOf, show (1 : Byte).toNat = 1 from rfl] at result ⊢
  omega

theorem incRm_bursts (hw : s.mem.wf = true) (hp : s.place rm = .mem seg off) (hread : admitsRead .byte seg off s = true)
    (hwrite : admitsWrite .byte seg off s = true) :
    ∃ x, exec (.incRm .byte rm) s = .next x ∧ Stores [(phys seg off, s.busCycle.byteAt (phys seg off) + 1)]
      { s.busCycle.busCycle with
        flags := { addFlags .byte (zext16 (s.busCycle.byteAt (phys seg off))) 1 false s.flags with CF := s.flags.CF } } x := by
  let b := s.busCycle.byteAt (phys seg off)
  let inc := aluInc .byte (zext16 b) s.busCycle
  have operand : readRM .byte rm s = .next (zext16 b, s.busCycle) := by
    unfold readRM
    rw [hp]
    exact readMem_byte_bursts hread
  have only := busCycle_only s
  have place : inc.2.place rm = .mem seg off :=
    (place_congr (s := s.busCycle) rfl rfl rfl rm).trans ((place_of_only only rm).trans hp)
  have admits : admitsWrite .byte seg off inc.2 = true := (admitsWrite_of_only only ..).trans hwrite
  obtain ⟨x, hx, stores⟩ := writeMem_byte_bursts inc.1 (s := inc.2) (busCycle_wf hw) admits
  refine ⟨x, ?_, ?_⟩
  · show unRm aluInc .byte rm s = .next x
    unfold unRm writeRM
    rw [operand, andThen_next]
    dsimp only
    rw [place]
    exact hx
  · rw [show lowByte inc.1 = b + 1 from lowByte_addResult_one b, show inc.2.busCycle = _ from busCycle_flags_comm ..,
      busCycle_flags] at stores
    exact stores

end

/-! ## LOCK holds the bus (spec/20_memory.md R77, spec/45_processor_control.md R411) -/

/-- The state with other writes due. -/
def State.withDue (s : State) (d : List Burst) : State := { s with due := d }

/-- An answer that comes with a state, with other writes due. -/
def pairDue {β : Type} (d : List Burst) (p : β × State) : β × State := (p.1, p.2.withDue d)

/-- A pointer that comes with a state, with other writes due. -/
def pointerDue (d : List Burst) (p : Word × Word × State) : Word × Word × State := (p.1, p.2.1, p.2.2.withDue d)

/-- `f` of what an operation answers. -/
def mapNext {α β : Type} (f : α → β) : Out α → Out β
  | .next a => .next (f a)
  | .fault r => .fault r
  | .refused r => .refused r

/-- One operation after another, where both do the same whatever is due. -/
theorem andThen_held {α β : Type} {o o' : Out α} {f f' : α → Out β} {m : α → α} {n : β → β} (h : o' = mapNext m o)
    (k : ∀ a, o = .next a → f' (m a) = mapNext n (f a)) : andThen o' f' = mapNext n (andThen o f) := by
  subst h
  cases o with
  | next a => exact k a rfl
  | fault r => rfl
  | refused r => rfl

section
variable {s : State} {d : List Burst}

@[simp] theorem withDue_unmapped (s : State) (d : List Burst) : (s.withDue d).unmapped = s.unmapped := rfl
@[simp] theorem withDue_rom (s : State) (d : List Burst) : (s.withDue d).rom = s.rom := rfl
@[simp] theorem withDue_undriven (s : State) (d : List Burst) : (s.withDue d).undriven = s.undriven := rfl
@[simp] theorem withDue_ioIn (s : State) (d : List Burst) : (s.withDue d).ioIn = s.ioIn := rfl
@[simp] theorem withDue_regs (s : State) (d : List Burst) : (s.withDue d).regs = s.regs := rfl
@[simp] theorem withDue_flags (s : State) (d : List Burst) : (s.withDue d).flags = s.flags := rfl
@[simp] theorem withDue_cur (s : State) (d : List Burst) : (s.withDue d).cur = s.cur := rfl
@[simp] theorem withDue_test (s : State) (d : List Burst) : (s.withDue d).test = s.test := rfl

theorem memRead_withDue (a : PAddr) (s : State) (d : List Burst) : memRead a (s.withDue d) = memRead a s := rfl

theorem setReg_withDue (s : State) (d : List Burst) (w : Width) (c : RegCode) (v : Word) :
    (s.withDue d).setReg w c v = (s.setReg w c v).withDue d := by cases w <;> rfl

theorem place_withDue (s : State) (d : List Burst) (rm : RM) : (s.withDue d).place rm = s.place rm :=
  place_congr rfl rfl rfl rm

theorem busCycle_held (hl : s.lock = true) : s.busCycle = s :=
  busCycle_of_alone (by rw [State.alone, hl]; rfl)

theorem highCycle_held (hl : s.lock = true) (a : PAddr) : s.highCycle a = s :=
  highCycle_of_alone a (by rw [State.alone, hl]; rfl)

variable (hl : s.lock = true)
include hl

/-! ### Memory -/

theorem held_readPair (lo hi : PAddr) : readPair lo hi (s.withDue d) = mapNext (pairDue d) (readPair lo hi s) := by
  have hl' : (s.withDue d).lock = true := hl
  simp only [readPair, busCycle_held hl, busCycle_held hl', highCycle_held hl, highCycle_held hl', memRead_withDue]
  cases memRead lo s with
  | next l =>
    simp only [andThen_next]
    cases memRead hi s <;> rfl
  | fault r => rfl
  | refused r => rfl

theorem held_readMem (w : Width) (seg off : Word) :
    readMem w seg off (s.withDue d) = mapNext (pairDue d) (readMem w seg off s) := by
  cases w with
  | byte =>
    have hl' : (s.withDue d).lock = true := hl
    simp only [readMem, busCycle_held hl, busCycle_held hl', memRead_withDue]
    cases memRead (phys seg off) s <;> rfl
  | word => exact held_readPair hl ..

omit hl in
theorem held_memWrite (a : PAddr) (v : Byte) : memWrite a v (s.withDue d) = mapNext (·.withDue d) (memWrite a v s) := by
  by_cases unmapped : inSpans s.unmapped a.toNat = true
  · simp only [memWrite, withDue_unmapped, unmapped, if_true]
    rfl
  by_cases rom : inSpans s.rom a.toNat = true
  · simp only [memWrite, withDue_unmapped, withDue_rom, unmapped, rom, if_true]
    rfl
  · simp only [memWrite, withDue_unmapped, withDue_rom, unmapped, rom]
    rfl

theorem held_writeMem (w : Width) (seg off v : Word) :
    writeMem w seg off v (s.withDue d) = mapNext (·.withDue d) (writeMem w seg off v s) := by
  have hl' : (s.withDue d).lock = true := hl
  cases w with
  | byte =>
    simp only [writeMem, busCycle_held hl, busCycle_held hl']
    exact held_memWrite ..
  | word =>
    simp only [writeMem, busCycle_held hl, busCycle_held hl']
    refine andThen_held (held_memWrite ..) fun t ht => ?_
    have lock : t.lock = true := (tame_memWrite ht).lock.trans hl
    have lock' : (t.withDue d).lock = true := lock
    simp only [highCycle_held lock, highCycle_held lock']
    exact held_memWrite ..

/-! ### r/m operands, the stack, ports -/

variable {w : Width} {rm : RM} {v : Word}

theorem held_readRM : readRM w rm (s.withDue d) = mapNext (pairDue d) (readRM w rm s) := by
  unfold readRM
  rw [place_withDue]
  cases s.place rm with
  | reg c => rfl
  | mem seg off => exact held_readMem hl ..

theorem held_writeRM : writeRM w rm v (s.withDue d) = mapNext (·.withDue d) (writeRM w rm v s) := by
  unfold writeRM
  rw [place_withDue]
  cases s.place rm with
  | reg c => exact congrArg Host.Outcome.next (setReg_withDue ..)
  | mem seg off => exact held_writeMem hl ..

theorem held_readPointer : readPointer rm (s.withDue d) = mapNext (pointerDue d) (readPointer rm s) := by
  unfold readPointer eaOrRefuse
  rw [place_withDue]
  cases s.place rm with
  | reg c => rfl
  | mem seg off =>
    simp only [andThen_next]
    refine andThen_held (held_readMem hl ..) fun p hp => ?_
    exact andThen_held (held_readMem ((tame_readMem hp).lock.trans hl) ..) fun _ _ => rfl

theorem held_push16 : push16 v (s.withDue d) = mapNext (·.withDue d) (push16 v s) := by
  have lock : (s.setReg .word .sp (s.regs.sp - 2)).lock = true := (setReg_lock ..).trans hl
  exact held_writeMem lock .word s.segs.ss (s.regs.sp - 2) v

theorem held_pop16 : pop16 (s.withDue d) = mapNext (pairDue d) (pop16 s) :=
  andThen_held (held_readMem hl ..) fun _ _ => rfl

omit hl in
theorem held_ioReadByte (p : Word) : ioReadByte p (s.withDue d) = mapNext (pairDue d) (ioReadByte p s) := by
  by_cases undriven : inSpans s.undriven p.toNat = true
  · simp only [ioReadByte, withDue_undriven, undriven, if_true]
    rfl
  · simp only [ioReadByte, withDue_undriven, withDue_ioIn, undriven]
    cases takePort p s.ioIn <;> rfl

omit hl in
theorem held_ioRead (p : Word) : ioRead w p (s.withDue d) = mapNext (pairDue d) (ioRead w p s) := by
  cases w with
  | byte => exact andThen_held (held_ioReadByte p) fun _ _ => rfl
  | word =>
    exact andThen_held (held_ioReadByte p) fun _ _ => andThen_held (held_ioReadByte _) fun _ _ => rfl

omit hl in
theorem held_ioWriteByte (p : Word) (b : Byte) :
    ioWriteByte p b (s.withDue d) = mapNext (·.withDue d) (ioWriteByte p b s) := by
  by_cases undriven : inSpans s.undriven p.toNat = true
  · simp only [ioWriteByte, withDue_undriven, undriven, if_true]
    rfl
  · simp only [ioWriteByte, withDue_undriven, undriven]
    rfl

omit hl in
theorem held_ioWrite (p : Word) : ioWrite w p v (s.withDue d) = mapNext (·.withDue d) (ioWrite w p v s) := by
  cases w with
  | byte => exact held_ioWriteByte ..
  | word => exact andThen_held (held_ioWriteByte ..) fun _ _ => held_ioWriteByte ..

/-! ### Control transfer and interrupts -/

theorem held_callTo (g : Word) : callTo g v (s.withDue d) = mapNext (·.withDue d) (callTo g v s) :=
  andThen_held (held_push16 hl) fun _ ht => andThen_held (held_push16 ((tame_push16 ht).lock.trans hl)) fun _ _ => rfl

theorem held_popFar : popFar (s.withDue d) = mapNext (·.withDue d) (popFar s) :=
  andThen_held (held_pop16 hl) fun _ hp => andThen_held (held_pop16 ((tame_pop16 hp).lock.trans hl)) fun _ _ => rfl

theorem held_readVector (n : Byte) : readVector n (s.withDue d) = mapNext (pointerDue d) (readVector n s) :=
  andThen_held (held_readPair hl ..) fun _ hp =>
    andThen_held (held_readPair ((tame_readPair hp).lock.trans hl) ..) fun _ _ => rfl

theorem held_interruptSequence (n : Byte) (saved : Word) :
    interruptSequence n saved (s.withDue d) = mapNext (·.withDue d) (interruptSequence n saved s) := by
  refine andThen_held (held_readVector hl n) fun p hp => ?_
  have lock : p.2.2.lock = true := (tame_readVector hp).lock.trans hl
  refine andThen_held (held_push16 lock) fun t ht => ?_
  have lock : t.lock = true := (tame_push16 ht).lock.trans lock
  refine andThen_held (held_push16 (s := { t with flags := { t.flags with IF := false, TF := false } }) lock) fun u hu => ?_
  have lock : u.lock = true := (tame_push16 hu).lock.trans lock
  exact andThen_held (held_push16 lock) fun _ _ => rfl

theorem held_interruptReturn : interruptReturn (s.withDue d) = mapNext (·.withDue d) (interruptReturn s) := by
  refine andThen_held (held_pop16 hl) fun p hp => ?_
  have lock : p.2.lock = true := (tame_pop16 hp).lock.trans hl
  refine andThen_held (held_pop16 lock) fun q hq => ?_
  exact andThen_held (held_pop16 ((tame_pop16 hq).lock.trans lock)) fun _ _ => rfl

omit hl in
theorem held_branch (c : Bool) (inc : Byte) : branch c inc (s.withDue d) = mapNext (·.withDue d) (branch c inc s) := by
  cases c <;> rfl

/-! ### Operations on operands (spec/41_arithmetic.md R240) -/

/-- A two-operand operation that does the same whatever is due, and leaves LOCK alone. -/
def BinOp.Held (op : BinOp) : Prop :=
  ∀ w a b s d, op w a b (s.withDue d) = pairDue d (op w a b s) ∧ (op w a b s).2.lock = s.lock

/-- A one-operand operation that does the same whatever is due, and leaves LOCK alone. -/
def UnOp.Held (op : UnOp) : Prop :=
  ∀ w a s d, op w a (s.withDue d) = pairDue d (op w a s) ∧ (op w a s).2.lock = s.lock

variable {x : Dir} {r : RegCode} {imm : Word} {bin : BinOp} {un : UnOp}

omit hl in
/-- A word or byte read and put into a register. -/
theorem held_load {o o' : Out (Word × State)} (h : o' = mapNext (pairDue d) o) :
    (andThen o' fun p => .next (p.2.setReg w r p.1)) =
      mapNext (·.withDue d) (andThen o fun p => .next (p.2.setReg w r p.1)) :=
  andThen_held h fun _ _ => congrArg Host.Outcome.next (setReg_withDue ..)

omit hl in
/-- A result put into a register. -/
theorem setReg_of_pairDue {p p' : Word × State} (h : p' = pairDue d p) :
    p'.2.setReg w r p'.1 = (p.2.setReg w r p.1).withDue d := by
  subst h
  exact setReg_withDue ..

omit hl in
/-- A result written back. -/
theorem held_writeBack {p p' : Word × State} (h : p' = pairDue d p) (lock : p.2.lock = true) :
    writeRM w rm p'.1 p'.2 = mapNext (·.withDue d) (writeRM w rm p.1 p.2) := by
  subst h
  exact held_writeRM lock

theorem held_binRmReg (ho : bin.Held) :
    binRmReg bin x w rm r (s.withDue d) = mapNext (·.withDue d) (binRmReg bin x w rm r s) := by
  refine andThen_held (held_readRM hl) fun m hm => ?_
  have lock : m.2.lock = true := (tame_readRM hm).lock.trans hl
  cases x with
  | toReg => exact congrArg Host.Outcome.next (setReg_of_pairDue (ho w (s.reg w r) m.1 m.2 d).1)
  | toRm =>
    obtain ⟨same, kept⟩ := ho w m.1 (s.reg w r) m.2 d
    exact held_writeBack same (kept.trans lock)

theorem held_flagsRmReg (ho : bin.Held) :
    flagsRmReg bin x w rm r (s.withDue d) = mapNext (·.withDue d) (flagsRmReg bin x w rm r s) := by
  refine andThen_held (held_readRM hl) fun m _ => ?_
  cases x with
  | toReg => exact congrArg (fun p : Word × State => (.next p.2 : Out State)) (ho w (s.reg w r) m.1 m.2 d).1
  | toRm => exact congrArg (fun p : Word × State => (.next p.2 : Out State)) (ho w m.1 (s.reg w r) m.2 d).1

theorem held_binRmImm (ho : bin.Held) :
    binRmImm bin w rm imm (s.withDue d) = mapNext (·.withDue d) (binRmImm bin w rm imm s) := by
  refine andThen_held (held_readRM hl) fun m hm => ?_
  obtain ⟨same, kept⟩ := ho w m.1 imm m.2 d
  exact held_writeBack same (kept.trans ((tame_readRM hm).lock.trans hl))

theorem held_flagsRmImm (ho : bin.Held) :
    flagsRmImm bin w rm imm (s.withDue d) = mapNext (·.withDue d) (flagsRmImm bin w rm imm s) :=
  andThen_held (held_readRM hl) fun m _ => congrArg (fun p : Word × State => (.next p.2 : Out State)) (ho w m.1 imm m.2 d).1

omit hl in
theorem held_binAccImm (ho : bin.Held) :
    binAccImm bin w imm (s.withDue d) = mapNext (·.withDue d) (binAccImm bin w imm s) :=
  congrArg Host.Outcome.next (setReg_of_pairDue (ho w (s.acc w) imm s d).1)

omit hl in
theorem held_flagsAccImm (ho : bin.Held) :
    flagsAccImm bin w imm (s.withDue d) = mapNext (·.withDue d) (flagsAccImm bin w imm s) :=
  congrArg (fun p : Word × State => (.next p.2 : Out State)) (ho w (s.acc w) imm s d).1

theorem held_unRm (ho : un.Held) : unRm un w rm (s.withDue d) = mapNext (·.withDue d) (unRm un w rm s) := by
  refine andThen_held (held_readRM hl) fun m hm => ?_
  obtain ⟨same, kept⟩ := ho w m.1 m.2 d
  exact held_writeBack same (kept.trans ((tame_readRM hm).lock.trans hl))

omit hl in
theorem held_unReg (ho : un.Held) : unReg un r (s.withDue d) = mapNext (·.withDue d) (unReg un r s) :=
  congrArg Host.Outcome.next (setReg_of_pairDue (ho .word (s.reg .word r) s d).1)

omit hl in
theorem setFlags_withDue (op : Shifter) (w : Width) (n : Nat) (before after : Word) (c : Bool) (s : State) :
    op.setFlags w n before after c (s.withDue d) = (op.setFlags w n before after c s).withDue d := by
  unfold Shifter.setFlags Shifter.setResult Shifter.setOverflow
  split_ifs <;> rfl

theorem held_shiftRm {op : Shifter} {c : Count} :
    shiftRm op c w rm (s.withDue d) = mapNext (·.withDue d) (shiftRm op c w rm s) := by
  refine andThen_held (held_readRM hl) fun m hm => ?_
  have lock : m.2.lock = true := (tame_readRM hm).lock.trans hl
  have flags := setFlags_withDue (d := d) op w (s.shiftCount c) m.1 (op.run w (s.shiftCount c) m.1 s.flags.CF).1
    (op.run w (s.shiftCount c) m.1 s.flags.CF).2 m.2
  exact held_writeBack (p' := (_, _)) (p := (_, _)) (Prod.ext rfl flags) ((tame_setFlags ..).lock.trans lock)

omit hl in
theorem setProduct_withDue (s : State) (n : Int) :
    (s.withDue d).setProduct w n = (s.setProduct w n).withDue d := by cases w <;> rfl

omit hl in
theorem undef_withDue (l : List StatusFlag) (s : State) : State.undef l (s.withDue d) = (State.undef l s).withDue d := by
  induction l generalizing s with
  | nil => rfl
  | cons a l ih => exact ih { s with flags := _, draws := _ }

omit hl in
theorem setQuotient_withDue (s : State) (q n : Int) :
    (s.withDue d).setQuotient w q n = (s.setQuotient w q n).withDue d := by cases w <;> rfl

theorem held_mulRm : execMulRm w rm (s.withDue d) = mapNext (·.withDue d) (execMulRm w rm s) := by
  refine andThen_held (held_readRM hl) fun m _ => ?_
  exact congrArg (fun u => Host.Outcome.next (productFlags _ u)) (setProduct_withDue m.2 _)

theorem held_imulRm : execImulRm w rm (s.withDue d) = mapNext (·.withDue d) (execImulRm w rm s) := by
  refine andThen_held (held_readRM hl) fun m _ => ?_
  exact congrArg (fun u => Host.Outcome.next (productFlags _ u)) (setProduct_withDue m.2 _)

/-- DIV and IDIV take interrupt 0 where `P` says so of the operand read. -/
theorem held_divide {P : Word → Prop} [DecidablePred P] {g g' : Word × State → State}
    (hg : ∀ m, g' (pairDue d m) = (g m).withDue d) :
    (andThen (readRM w rm (s.withDue d)) fun m => if P m.1 then divideError m.2 else .next (g' m)) =
      mapNext (·.withDue d) (andThen (readRM w rm s) fun m => if P m.1 then divideError m.2 else .next (g m)) := by
  refine andThen_held (held_readRM hl) fun m hm => ?_
  by_cases hP : P m.1
  · rw [if_pos hP, if_pos (show P (pairDue d m).1 from hP)]
    exact held_interruptSequence ((tame_readRM hm).lock.trans hl) ..
  · rw [if_neg hP, if_neg (show ¬P (pairDue d m).1 from hP)]
    exact congrArg Host.Outcome.next (hg m)

theorem held_divRm : execDivRm w rm (s.withDue d) = mapNext (·.withDue d) (execDivRm w rm s) :=
  held_divide (P := fun a => a.toNat = 0 ∨ 2 ^ bitsOf w ≤ s.dividend w / a.toNat) hl fun m =>
    (congrArg (State.undef allStatus) (setQuotient_withDue m.2 ..)).trans (undef_withDue ..)

theorem held_idivRm : execIdivRm w rm (s.withDue d) = mapNext (·.withDue d) (execIdivRm w rm s) :=
  held_divide (P := fun a => signedOf w a = 0 ∨ quotientMax w < (s.signedDividend w).tdiv (signedOf w a) ∨
    (s.signedDividend w).tdiv (signedOf w a) < quotientMin w) hl fun m =>
    (congrArg (State.undef allStatus) (setQuotient_withDue m.2 ..)).trans (undef_withDue ..)

/-! ### String primitives (spec/43_string.md) -/

theorem held_moveString : moveString w (s.withDue d) = mapNext (·.withDue d) (moveString w s) := by
  refine andThen_held (held_readMem hl ..) fun p hp => ?_
  exact andThen_held (held_writeMem ((tame_readMem hp).lock.trans hl) ..) fun _ _ => rfl

theorem held_storeString : storeString w (s.withDue d) = mapNext (·.withDue d) (storeString w s) :=
  andThen_held (held_writeMem hl ..) fun _ _ => rfl

theorem held_loadString : loadString w (s.withDue d) = mapNext (·.withDue d) (loadString w s) :=
  andThen_held (held_readMem hl ..) fun p _ =>
    congrArg (fun u : State => Host.Outcome.next (u.advanceSi w)) (setReg_withDue p.2 d w .ax p.1)

theorem held_compareString : compareString w (s.withDue d) = mapNext (·.withDue d) (compareString w s) := by
  refine andThen_held (held_readMem hl ..) fun p hp => ?_
  exact andThen_held (held_readMem ((tame_readMem hp).lock.trans hl) ..) fun _ _ => rfl

theorem held_scanString : scanString w (s.withDue d) = mapNext (·.withDue d) (scanString w s) :=
  andThen_held (held_readMem hl ..) fun _ _ => rfl

omit hl in
theorem endIteration_withDue (stop : Bool) (s : State) :
    endIteration stop (s.withDue d) = (endIteration stop s).withDue d := by
  unfold endIteration
  dsimp only
  rw [withDue_regs, setReg_withDue, withDue_regs]
  split <;> rfl

omit hl in
theorem held_repeatStep {tests : Bool} {prim : State → Out State}
    (h : prim (s.withDue d) = mapNext (·.withDue d) (prim s)) :
    repeatStep tests prim (s.withDue d) = mapNext (·.withDue d) (repeatStep tests prim s) := by
  simp only [repeatStep, withDue_cur, withDue_regs]
  cases s.cur.rep with
  | none => exact h
  | some z =>
    by_cases ended : s.regs.cx = 0
    · simp only [ended, if_true]
      rfl
    · simp only [ended, if_false]
      exact andThen_held h fun t _ => congrArg Host.Outcome.next (endIteration_withDue _ t)

/-! ### Instructions -/

theorem held_movRmReg : execMovRmReg x w rm r (s.withDue d) = mapNext (·.withDue d) (execMovRmReg x w rm r s) := by
  cases x with
  | toReg => exact held_load (held_readRM hl)
  | toRm => exact held_writeRM hl

theorem held_movSregRm {sr : SegReg} :
    execMovSregRm sr rm (s.withDue d) = mapNext (·.withDue d) (execMovSregRm sr rm s) := by
  unfold execMovSregRm
  split
  · rfl
  · exact andThen_held (held_readRM hl) fun _ _ => rfl

theorem held_popSreg {sr : SegReg} : execPopSreg sr (s.withDue d) = mapNext (·.withDue d) (execPopSreg sr s) := by
  unfold execPopSreg
  split
  · rfl
  · exact andThen_held (held_pop16 hl) fun _ _ => rfl

theorem held_pushRm : execPushRm rm (s.withDue d) = mapNext (·.withDue d) (execPushRm rm s) := by
  unfold execPushRm
  split
  · exact held_push16 hl
  · exact andThen_held (held_readRM hl) fun _ hp => held_push16 ((tame_readRM hp).lock.trans hl)

theorem held_pushReg : execPushReg r (s.withDue d) = mapNext (·.withDue d) (execPushReg r s) := by
  unfold execPushReg
  split <;> exact held_push16 hl

theorem held_popRm : execPopRm rm (s.withDue d) = mapNext (·.withDue d) (execPopRm rm s) :=
  andThen_held (held_pop16 hl) fun _ hp => held_writeRM ((tame_pop16 hp).lock.trans hl)

theorem held_xchgRmReg : execXchgRmReg w rm r (s.withDue d) = mapNext (·.withDue d) (execXchgRmReg w rm r s) :=
  andThen_held (held_readRM hl) fun _ hp =>
    andThen_held (held_writeRM ((tame_readRM hp).lock.trans hl)) fun t _ =>
      congrArg Host.Outcome.next (setReg_withDue t ..)

omit hl in
theorem held_lea : execLea r rm (s.withDue d) = mapNext (·.withDue d) (execLea r rm s) := by
  unfold execLea eaOrRefuse
  rw [place_withDue]
  cases s.place rm <;> rfl

theorem held_callNear {inc : Word} : execCallNear inc (s.withDue d) = mapNext (·.withDue d) (execCallNear inc s) :=
  andThen_held (held_push16 hl) fun _ _ => rfl

theorem held_callRm : execCallRm rm (s.withDue d) = mapNext (·.withDue d) (execCallRm rm s) :=
  andThen_held (held_readRM hl) fun _ hp => andThen_held (held_push16 ((tame_readRM hp).lock.trans hl)) fun _ _ => rfl

theorem held_callMem : execCallMem rm (s.withDue d) = mapNext (·.withDue d) (execCallMem rm s) :=
  andThen_held (held_readPointer hl) fun _ hp => held_callTo ((tame_readPointer hp).lock.trans hl) _

theorem held_into : execInto (s.withDue d) = mapNext (·.withDue d) (execInto s) := by
  by_cases overflow : s.flags.OF = true
  · simp only [execInto, withDue_flags, overflow, if_true]
    exact held_interruptSequence hl ..
  · simp only [execInto, withDue_flags, overflow]
    rfl

omit hl in
theorem held_wait : execWait (s.withDue d) = mapNext (·.withDue d) (execWait s) := by
  by_cases active : s.test = true
  · simp only [execWait, withDue_test, active, if_true]
    rfl
  · simp only [execWait, withDue_test, active]
    rfl

theorem held_esc (p q : BitVec 3) : execEsc p q rm (s.withDue d) = mapNext (·.withDue d) (execEsc p q rm s) := by
  unfold execEsc
  rw [place_withDue]
  cases s.place rm with
  | reg c => rfl
  | mem seg off => exact andThen_held (held_readMem hl ..) fun _ _ => rfl

/-- A LOCKed instruction does the same whatever is due. -/
theorem held_exec (i : Instr) : exec i (s.withDue d) = mapNext (·.withDue d) (exec i s) := by
  cases i
  case movRmReg => exact held_movRmReg hl
  case movRmImm | movRmSreg => exact held_writeRM hl
  case movRegImm w _ _ => cases w <;> rfl
  case movAccMem | xlat => exact held_load (held_readMem hl ..)
  case movMemAcc => exact held_writeMem hl ..
  case movSregRm => exact held_movSregRm hl
  case pushRm => exact held_pushRm hl
  case pushReg => exact held_pushReg hl
  case pushSreg | pushf => exact held_push16 hl
  case popRm => exact held_popRm hl
  case popReg => exact held_load (held_pop16 hl)
  case popSreg => exact held_popSreg hl
  case popf | retNear | retNearImm => exact andThen_held (held_pop16 hl) fun _ _ => rfl
  case xchgRmReg => exact held_xchgRmReg hl
  case inPort | inDx => exact held_load (held_ioRead _)
  case outPort | outDx => exact held_ioWrite _
  case lea => exact held_lea
  case lds | les | jmpMem => exact andThen_held (held_readPointer hl) fun _ _ => rfl
  case addRmReg | adcRmReg | subRmReg | sbbRmReg | andRmReg | orRmReg | xorRmReg =>
    exact held_binRmReg hl fun _ _ _ _ _ => ⟨rfl, rfl⟩
  case addRmImm | adcRmImm | subRmImm | sbbRmImm | andRmImm | orRmImm | xorRmImm =>
    exact held_binRmImm hl fun _ _ _ _ _ => ⟨rfl, rfl⟩
  case addAccImm | adcAccImm | subAccImm | sbbAccImm | andAccImm | orAccImm | xorAccImm =>
    exact held_binAccImm fun _ _ _ _ _ => ⟨rfl, rfl⟩
  case cmpRmReg => exact held_flagsRmReg hl fun _ _ _ _ _ => ⟨rfl, rfl⟩
  case testRmReg => exact held_flagsRmReg (x := .toRm) (bin := aluAnd) hl fun _ _ _ _ _ => ⟨rfl, rfl⟩
  case cmpRmImm | testRmImm => exact held_flagsRmImm hl fun _ _ _ _ _ => ⟨rfl, rfl⟩
  case cmpAccImm | testAccImm => exact held_flagsAccImm fun _ _ _ _ _ => ⟨rfl, rfl⟩
  case incRm | decRm | negRm | notRm => exact held_unRm hl fun _ _ _ _ => ⟨rfl, rfl⟩
  case incReg | decReg => exact held_unReg fun _ _ _ _ => ⟨rfl, rfl⟩
  case shl | shr | sar | rol | ror | rcl | rcr => exact held_shiftRm hl
  case mulRm => exact held_mulRm hl
  case imulRm => exact held_imulRm hl
  case divRm => exact held_divRm hl
  case idivRm => exact held_idivRm hl
  case movs => exact held_repeatStep (held_moveString hl)
  case cmps => exact held_repeatStep (held_compareString hl)
  case scas => exact held_repeatStep (held_scanString hl)
  case lods => exact held_repeatStep (held_loadString hl)
  case stos => exact held_repeatStep (held_storeString hl)
  case callNear => exact held_callNear hl
  case callRm => exact held_callRm hl
  case callFar => exact held_callTo hl _
  case callMem => exact held_callMem hl
  case retFar => exact held_popFar hl
  case retFarImm => exact andThen_held (held_popFar hl) fun _ _ => rfl
  case je | jl | jle | jb | jbe | jp | jo | js | jne | jnl | jnle | jnb | jnbe | jnp | jno | jns | jcxz | jmpShort =>
    exact held_branch ..
  case loop | loopz | loopnz => exact held_branch (s := s.setReg .word .cx (s.regs.cx - 1)) ..
  case jmpRm => exact andThen_held (held_readRM hl) fun _ _ => rfl
  case int | int3 => exact held_interruptSequence hl ..
  case into => exact held_into hl
  case iret => exact held_interruptReturn hl
  case wait => exact held_wait
  case esc p q rm => exact held_esc hl p q
  all_goals rfl

/-- A LOCKed instruction lets no write of another master land, and does the same whatever is due. -/
theorem exec_held {i : Instr} {t : State} (h : exec i s = .next t) :
    t.due = s.due ∧ exec i (s.withDue d) = .next (t.withDue d) := by
  have same (d : List Burst) : exec i (s.withDue d) = .next (t.withDue d) := by rw [held_exec hl, h]; rfl
  have unchanged : exec i s = .next (t.withDue s.due) := same s.due
  have kept : t = t.withDue s.due := Host.Outcome.next.inj (h.symm.trans unchanged)
  exact ⟨(congrArg State.due kept : t.due = (t.withDue s.due).due), same d⟩

end

/-- Settles O12: each access after its burst, and a LOCKed instruction as one equation for all that may be due. -/
theorem accessesAmongOtherMasters : Obligations.AccessesAmongOtherMasters := by
  refine ⟨fun s seg off v rm hw => ⟨fun alone => busCycle_of_alone ?_, fun b bs => busCycle_stores hw,
    readMem_byte_bursts, fun h => ⟨fun even => ?_, fun odd => ?_⟩, writeMem_byte_bursts v hw,
    fun h => ⟨fun even => ?_, fun odd => ?_⟩, incRm_bursts hw⟩, fun i s t due hl h => exec_held hl h⟩
  · simpa [State.alone] using alone
  · rw [readMem_word_bursts h, highCycle_even even]
  · rw [readMem_word_bursts h, highCycle_odd odd]
  · obtain ⟨x, y, hy, low, high⟩ := writeMem_word_bursts v hw h
    rw [highCycle_even even] at high
    exact ⟨y, hy, low.trans high⟩
  · obtain ⟨x, y, hy, low, high⟩ := writeMem_word_bursts v hw h
    rw [highCycle_odd odd] at high
    exact ⟨x, y, hy, low, high⟩

end Sys2Proof.Machine
end

section
/-! The encoding (spec/30_encoding.md): the decoder undoes the encoder and the encoder the decoder (O2, O3), which
encodings are unassigned (O5), what prefixes do (O4, O6), words of the spec (O1), and where an operand is (O22). -/

namespace Sys2Proof

/-- Settles O2: the row that an encoding was written from is the one that reads it. -/
theorem decodeOfEncode : Obligations.DecodeOfEncode := fun _ rest h => decodeOne_encode h rest

/-! ## What a reader answers -/

/-- What is read satisfies `P`. -/
def Yields {α : Type} (x : Reading α) (P : α → Prop) : Prop :=
  match x with
  | .ok a => P a
  | .error _ => True

section
variable {α β : Type} {x : Reading α} {P : α → Prop}

theorem Yields.bind {f : α → Reading β} {Q : β → Prop} (hx : Yields x P) (hf : ∀ a, P a → Yields (f a) Q) :
    Yields (x >>= f) Q := by
  cases x with
  | error e => trivial
  | ok a => exact hf a hx

theorem Yields.of_ok {a : α} (hx : Yields x P) (h : x = .ok a) : P a := by
  subst h
  exact hx

end

/-! ## Fields, from code to name and back (spec/30_encoding.md R93 to R106) -/

theorem RegCode.code_ofCode {n : Nat} (h : n < 8) : (RegCode.ofCode n).code = n :=
  (by decide : ∀ n < 8, (RegCode.ofCode n).code = n) n h

theorem SegReg.code_ofCode {n : Nat} (h : n < 4) : (SegReg.ofCode n).code = n :=
  (by decide : ∀ n < 4, (SegReg.ofCode n).code = n) n h

theorem AddrBase.code_ofCode {n : Nat} (h : n < 8) : (AddrBase.ofCode n).code = n :=
  (by decide : ∀ n < 8, (AddrBase.ofCode n).code = n) n h

/-- Only code 110 names `[BP]`, which has no encoding without displacement (spec/30_encoding.md R100, R101). -/
theorem wf_base_ofCode {n : Nat} (h : n < 8) (hn : n ≠ 6) : (RM.base (.ofCode n)).wf = true :=
  (by decide : ∀ n < 8, n ≠ 6 → (RM.base (.ofCode n)).wf = true) n h hn

theorem wBit_bit (b : Byte) : (wBit b).bit = b.toNat % 2 := by
  unfold wBit
  split <;> simp only [Width.bit] <;> omega

theorem wBit3_bit (b : Byte) : (wBit3 b).bit = b.toNat / 8 % 2 := by
  unfold wBit3
  split <;> simp only [Width.bit] <;> omega

theorem dBit_bit (b : Byte) : (dBit b).bit = b.toNat / 2 % 2 := by
  unfold dBit
  split <;> simp only [Dir.bit] <;> omega

theorem vBit_bit (b : Byte) : (vBit b).bit = b.toNat / 2 % 2 := by
  unfold vBit
  split <;> simp only [Count.bit] <;> omega

theorem sBit_toNat (b : Byte) : (sBit b).toNat = b.toNat / 2 % 2 := by
  unfold sBit
  rcases Nat.mod_two_eq_zero_or_one (b.toNat / 2) with h | h <;> rw [h] <;> rfl

theorem opByte_eq {b : Byte} {n : Nat} (h : n = b.toNat) : opByte n = b := by
  rw [h, opByte, BitVec.ofNat_toNat, BitVec.setWidth_eq]

/-! ## The bytes that follow -/

theorem lowByte_zext16 (b : Byte) : lowByte (zext16 b) = b := by
  simp [lowByte, zext16]

theorem highByte_zext16 (b : Byte) : highByte (zext16 b) = 0#8 := by
  apply BitVec.eq_of_toNat_eq
  simp only [highByte, zext16, BitVec.toNat_setWidth, BitVec.toNat_ushiftRight, Nat.shiftRight_eq_div_pow,
    BitVec.toNat_ofNat]
  omega

theorem lowByte_sext16 (b : Byte) : lowByte (sext16 b) = b := by
  apply BitVec.eq_of_getLsbD_eq
  intro k hk
  simp [lowByte, sext16, BitVec.getLsbD_signExtend, hk]
  omega

theorem takeByte_yields (bs : List Byte) : Yields (takeByte bs) fun x => bs = x.1 :: x.2 := by
  cases bs with
  | nil => trivial
  | cons b bs => rfl

theorem takeWord_yields (bs : List Byte) : Yields (takeWord bs) fun x => bs = encodeWord x.1 ++ x.2 := by
  match bs with
  | [] | [_] => trivial
  | lo :: hi :: bs => simp [takeWord, Yields, encodeWord]

theorem takeImm_yields (w : Width) (bs : List Byte) :
    Yields (takeImm w bs) fun x => immFits w x.1 = true ∧ bs = encodeImm w x.1 ++ x.2 := by
  cases w with
  | byte =>
    refine (takeByte_yields bs).bind fun (b, rest) h => ⟨beq_iff_eq.2 (highByte_zext16 b), ?_⟩
    simp only [encodeImm, lowByte_zext16]
    exact h
  | word => simpa [takeImm, immFits, encodeImm] using takeWord_yields bs

theorem takeImmS_yields (s : Bool) (w : Width) (bs : List Byte) :
    Yields (takeImmS s w bs) fun x => immFitsS s w x.1 = true ∧ bs = encodeImmS s w x.1 ++ x.2 := by
  match w, s with
  | .byte, _ =>
    refine (takeByte_yields bs).bind fun (b, rest) h => ⟨beq_iff_eq.2 (highByte_zext16 b), ?_⟩
    simp only [encodeImmS, lowByte_zext16]
    exact h
  | .word, true =>
    refine (takeByte_yields bs).bind fun (b, rest) h => ⟨?_, ?_⟩
    · simp only [immFitsS, lowByte_sext16, beq_self_eq_true]
    · simp only [encodeImmS, lowByte_sext16]
      exact h
  | .word, false => simpa [takeImmS, immFitsS, encodeImmS] using takeWord_yields bs

/-- The second byte is put together again from its three fields. -/
theorem modrmByte_eq {m : Byte} {mod : Nat} (h : m.toNat / 64 = mod) :
    modrmByte mod (m.toNat / 8 % 8) (m.toNat % 8) = m :=
  opByte_eq (by omega)

theorem takeModRM_yields (bs : List Byte) :
    Yields (takeModRM bs) fun x =>
      x.1.2.wf = true ∧ x.1.1 < 8 ∧ x.1.1 = (bs.headD 0#8).toNat / 8 % 8 ∧ bs = x.1.2.encode x.1.1 ++ x.2 := by
  cases bs with
  | nil => trivial
  | cons m bs =>
    have code : (AddrBase.ofCode (m.toNat % 8)).code = m.toNat % 8 := AddrBase.code_ofCode (by omega)
    have lt : m.toNat / 8 % 8 < 8 := Nat.mod_lt _ (by decide)
    have hm := m.isLt
    unfold takeModRM
    dsimp only
    split
    next h =>
      split
      next direct =>
        refine (takeWord_yields bs).bind fun (a, rest) hbs => ⟨rfl, lt, rfl, ?_⟩
        rw [RM.encode, ← direct, modrmByte_eq h, hbs]
        rfl
      next hbase =>
        refine ⟨wf_base_ofCode (by omega) hbase, lt, rfl, ?_⟩
        rw [RM.encode, code, modrmByte_eq h]
        rfl
    next h =>
      refine (takeByte_yields bs).bind fun (d, rest) hbs => ⟨rfl, lt, rfl, ?_⟩
      rw [RM.encode, code, modrmByte_eq h, hbs]
      rfl
    next h =>
      refine (takeWord_yields bs).bind fun (d, rest) hbs => ⟨rfl, lt, rfl, ?_⟩
      rw [RM.encode, code, modrmByte_eq h, hbs]
      rfl
    next h0 h1 h2 =>
      have hmod : m.toNat / 64 = 3 := by
        change m.toNat / 64 ≠ 0 at h0
        change m.toNat / 64 ≠ 1 at h1
        change m.toNat / 64 ≠ 2 at h2
        omega
      refine ⟨rfl, lt, rfl, ?_⟩
      rw [RM.encode, RegCode.code_ofCode (by omega), modrmByte_eq hmod]
      rfl

/-! ## What a row reads

`c` is the first byte with its fields 0, `n` an opcode extension in REG. The hypothesis of each lemma says how the row's
instruction is encoded, and which of its terms are well formed. -/

/-- Where the row matches, it reads nothing but the encodings of well-formed instructions. -/
def Row.Exact (r : Row) : Prop :=
  ∀ (b : Byte) (bs : List Byte), r.hits b (bs.headD 0#8) = true →
    Yields (r.read b bs) fun x => x.1.wf = true ∧ encode x.1 ++ x.2 = b :: bs

/-- A row matches when each of the two bytes matches its half. -/
theorem hits_fields {v1 v2 m1 m2 : Nat} {read : RowReader} {b1 b2 : Byte} (hv : v2 < 256) (hm : m2 < 256)
    (h : Row.hits ⟨v1 * 256 + v2, m1 * 256 + m2, read⟩ b1 b2 = true) :
    b1.toNat &&& m1 = v1 ∧ b2.toNat &&& m2 = v2 := by
  have sum := eq_of_beq h
  have low : b2.toNat &&& m2 ≤ m2 := Nat.and_le_right
  rw [and_bytes _ _ b2.isLt hm] at sum
  dsimp only at sum
  omega

section
variable {v m c : Nat} {b b2 : Byte} {read : RowReader}

/-- A row that looks at the first byte only. -/
theorem hits_first (h : Row.hits ⟨v * 256, m * 256, read⟩ b b2 = true) : b.toNat &&& m = v :=
  (hits_fields (v2 := 0) (m2 := 0) (by decide) (by decide) (by rwa [Nat.add_zero, Nat.add_zero])).1

/-- A row with an opcode extension in REG. -/
theorem hits_ext {n : Nat} (hn : n < 8) (h : Row.hits ⟨v * 256 + n * 8, m * 256 + 0x38, read⟩ b b2 = true) :
    b.toNat &&& m = v ∧ b2.toNat / 8 % 8 = n := by
  obtain ⟨first, second⟩ := hits_fields (by omega) (by decide) h
  rw [and_0x38] at second
  exact ⟨first, by omega⟩

/-- A row with a segment register in REG. -/
theorem hits_sreg (h : Row.hits ⟨v * 256 + 0, m * 256 + 0x20, read⟩ b b2 = true) :
    b.toNat &&& m = v ∧ b2.toNat / 8 % 8 < 4 := by
  obtain ⟨first, second⟩ := hits_fields (by decide) (by decide) h
  rw [and_0x20] at second
  exact ⟨first, by omega⟩

theorem opByte_of_0xFF (h : b.toNat &&& 0xFF = c) : opByte c = b :=
  opByte_eq (by rw [← h, and_0xFF])

theorem opByte_of_0xFE (h : b.toNat &&& 0xFE = c) : opByte (c + (wBit b).bit) = b :=
  opByte_eq (by rw [and_0xFE] at h; rw [wBit_bit]; omega)

theorem opByte_of_0xFC (h : b.toNat &&& 0xFC = c) : opByte (c + b.toNat / 2 % 2 * 2 + (wBit b).bit) = b :=
  opByte_eq (by rw [and_0xFC] at h; rw [wBit_bit]; omega)

theorem opByte_of_0xF8 (h : b.toNat &&& 0xF8 = c) : opByte (c + b.toNat % 8) = b :=
  opByte_eq (by rw [and_0xF8] at h; omega)

theorem opByte_of_0xF0 (h : b.toNat &&& 0xF0 = c) : opByte (c + (wBit3 b).bit * 8 + b.toNat % 8) = b :=
  opByte_eq (by rw [and_0xF0] at h; rw [wBit3_bit]; omega)

theorem opByte_of_0xE7 (h : b.toNat &&& 0xE7 = c) : opByte (c + b.toNat / 8 % 4 * 8) = b :=
  opByte_eq (by rw [and_0xE7] at h; omega)

end

section
variable (c n : Nat)

theorem rowOne_exact {i : Instr} (hi : i.wf = true ∧ encode i = [opByte c] := by exact ⟨rfl, rfl⟩) :
    Row.Exact ⟨c * 256, 0xFF * 256, rowOne i⟩ := by
  intro b bs hits
  refine ⟨hi.1, ?_⟩
  rw [hi.2, opByte_of_0xFF (hits_first hits)]
  rfl

/-- The second byte of AAM and AAD is 0Ah, so reading past it drops no bit (spec/30_encoding.md R128). -/
theorem rowTwo_exact {i : Instr} (hi : i.wf = true ∧ encode i = [opByte c, 0x0A#8] := by exact ⟨rfl, rfl⟩) :
    Row.Exact ⟨c * 256 + 0x0A, 0xFF * 256 + 0xFF, rowTwo i⟩ := by
  intro b bs hits
  obtain ⟨first, second⟩ := hits_fields (by decide) (by decide) hits
  refine (takeByte_yields bs).bind fun (x, rest) hbs => ⟨hi.1, ?_⟩
  subst hbs
  rw [hi.2, opByte_of_0xFF first, ← show opByte 0x0A = x from opByte_of_0xFF second]
  rfl

theorem rowRel8_exact {mk : Byte → Instr}
    (hi : ∀ x, (mk x).wf = true ∧ encode (mk x) = [opByte c, x] := by exact fun _ => ⟨rfl, rfl⟩) :
    Row.Exact ⟨c * 256, 0xFF * 256, rowRel8 mk⟩ := by
  intro b bs hits
  refine (takeByte_yields bs).bind fun (x, rest) hbs => ⟨(hi x).1, ?_⟩
  rw [(hi x).2, opByte_of_0xFF (hits_first hits), hbs]
  rfl

theorem rowRel16_exact {mk : Word → Instr}
    (hi : ∀ v, (mk v).wf = true ∧ encode (mk v) = opByte c :: encodeWord v := by exact fun _ => ⟨rfl, rfl⟩) :
    Row.Exact ⟨c * 256, 0xFF * 256, rowRel16 mk⟩ := by
  intro b bs hits
  refine (takeWord_yields bs).bind fun (v, rest) hbs => ⟨(hi v).1, ?_⟩
  rw [(hi v).2, opByte_of_0xFF (hits_first hits), hbs]
  rfl

theorem rowFar_exact {mk : Word → Word → Instr}
    (hi : ∀ ip cs, (mk ip cs).wf = true ∧ encode (mk ip cs) = opByte c :: (encodeWord ip ++ encodeWord cs) := by
      exact fun _ _ => ⟨rfl, rfl⟩) :
    Row.Exact ⟨c * 256, 0xFF * 256, rowFar mk⟩ := by
  intro b bs hits
  refine (takeWord_yields bs).bind fun (ip, bs') hip => (takeWord_yields bs').bind fun (cs, rest) hcs => ⟨(hi ip cs).1, ?_⟩
  rw [(hi ip cs).2, opByte_of_0xFF (hits_first hits), hip, hcs, List.cons_append, List.append_assoc]

theorem rowW_exact {mk : Width → Instr}
    (hi : ∀ w, (mk w).wf = true ∧ encode (mk w) = [opByte (c + w.bit)] := by exact fun _ => ⟨rfl, rfl⟩) :
    Row.Exact ⟨c * 256, 0xFE * 256, rowW mk⟩ := by
  intro b bs hits
  refine ⟨(hi _).1, ?_⟩
  rw [(hi _).2, opByte_of_0xFE (hits_first hits)]
  rfl

theorem rowPort_exact {mk : Width → Byte → Instr}
    (hi : ∀ w x, (mk w x).wf = true ∧ encode (mk w x) = [opByte (c + w.bit), x] := by exact fun _ _ => ⟨rfl, rfl⟩) :
    Row.Exact ⟨c * 256, 0xFE * 256, rowPort mk⟩ := by
  intro b bs hits
  refine (takeByte_yields bs).bind fun (x, rest) hbs => ⟨(hi _ x).1, ?_⟩
  rw [(hi _ x).2, opByte_of_0xFE (hits_first hits), hbs]
  rfl

theorem rowAccMem_exact {mk : Width → Word → Instr}
    (hi : ∀ w v, (mk w v).wf = true ∧ encode (mk w v) = opByte (c + w.bit) :: encodeWord v := by
      exact fun _ _ => ⟨rfl, rfl⟩) :
    Row.Exact ⟨c * 256, 0xFE * 256, rowAccMem mk⟩ := by
  intro b bs hits
  refine (takeWord_yields bs).bind fun (v, rest) hbs => ⟨(hi _ v).1, ?_⟩
  rw [(hi _ v).2, opByte_of_0xFE (hits_first hits), hbs]
  rfl

theorem rowAccImm_exact {mk : Width → Word → Instr}
    (hi : ∀ w v, (mk w v).wf = immFits w v ∧ encode (mk w v) = opByte (c + w.bit) :: encodeImm w v := by
      exact fun _ _ => ⟨rfl, rfl⟩) :
    Row.Exact ⟨c * 256, 0xFE * 256, rowAccImm mk⟩ := by
  intro b bs hits
  refine (takeImm_yields _ bs).bind fun (v, rest) ⟨fits, hbs⟩ => ⟨(hi _ v).1.trans fits, ?_⟩
  rw [(hi _ v).2, opByte_of_0xFE (hits_first hits), hbs]
  rfl

theorem rowReg_exact {mk : RegCode → Instr}
    (hi : ∀ r, (mk r).wf = true ∧ encode (mk r) = [opByte (c + r.code)] := by exact fun _ => ⟨rfl, rfl⟩) :
    Row.Exact ⟨c * 256, 0xF8 * 256, rowReg mk⟩ := by
  intro b bs hits
  refine ⟨(hi _).1, ?_⟩
  rw [(hi _).2, RegCode.code_ofCode (by omega), opByte_of_0xF8 (hits_first hits)]
  rfl

theorem rowSreg_exact {mk : SegReg → Instr}
    (hi : ∀ r, (mk r).wf = true ∧ encode (mk r) = [opByte (c + r.code * 8)] := by exact fun _ => ⟨rfl, rfl⟩) :
    Row.Exact ⟨c * 256, 0xE7 * 256, rowSreg mk⟩ := by
  intro b bs hits
  refine ⟨(hi _).1, ?_⟩
  rw [(hi _).2, SegReg.code_ofCode (by omega), opByte_of_0xE7 (hits_first hits)]
  rfl

theorem rowRegImm_exact {mk : Width → RegCode → Word → Instr}
    (hi : ∀ w r v, (mk w r v).wf = immFits w v ∧
      encode (mk w r v) = opByte (c + w.bit * 8 + r.code) :: encodeImm w v := by exact fun _ _ _ => ⟨rfl, rfl⟩) :
    Row.Exact ⟨c * 256, 0xF0 * 256, rowRegImm mk⟩ := by
  intro b bs hits
  refine (takeImm_yields _ bs).bind fun (v, rest) ⟨fits, hbs⟩ => ⟨(hi _ _ v).1.trans fits, ?_⟩
  rw [(hi _ _ v).2, RegCode.code_ofCode (by omega), opByte_of_0xF0 (hits_first hits), hbs]
  rfl

theorem rowRm_exact (hn : n < 8 := by decide) {mk : RM → Instr}
    (hi : ∀ rm, (mk rm).wf = rm.wf ∧ encode (mk rm) = opByte c :: rm.encode n := by exact fun _ => ⟨rfl, rfl⟩) :
    Row.Exact ⟨c * 256 + n * 8, 0xFF * 256 + 0x38, rowRm mk⟩ := by
  intro b bs hits
  obtain ⟨first, ext⟩ := hits_ext hn hits
  refine (takeModRM_yields bs).bind fun ((reg, rm), rest) ⟨wf, _, hreg, hbs⟩ => ⟨(hi rm).1.trans wf, ?_⟩
  rw [(hi rm).2, opByte_of_0xFF first, ← ext, ← hreg]
  exact congrArg (b :: ·) hbs.symm

theorem rowRmW_exact (hn : n < 8 := by decide) {mk : Width → RM → Instr}
    (hi : ∀ w rm, (mk w rm).wf = rm.wf ∧ encode (mk w rm) = opByte (c + w.bit) :: rm.encode n := by
      exact fun _ _ => ⟨rfl, rfl⟩) :
    Row.Exact ⟨c * 256 + n * 8, 0xFE * 256 + 0x38, rowRmW mk⟩ := by
  intro b bs hits
  obtain ⟨first, ext⟩ := hits_ext hn hits
  refine (takeModRM_yields bs).bind fun ((reg, rm), rest) ⟨wf, _, hreg, hbs⟩ => ⟨(hi _ rm).1.trans wf, ?_⟩
  rw [(hi _ rm).2, opByte_of_0xFE first, ← ext, ← hreg]
  exact congrArg (b :: ·) hbs.symm

theorem rowShift_exact (hn : n < 8 := by decide) {mk : Count → Width → RM → Instr}
    (hi : ∀ v w rm, (mk v w rm).wf = rm.wf ∧ encode (mk v w rm) = opByte (c + v.bit * 2 + w.bit) :: rm.encode n := by
      exact fun _ _ _ => ⟨rfl, rfl⟩) :
    Row.Exact ⟨c * 256 + n * 8, 0xFC * 256 + 0x38, rowShift mk⟩ := by
  intro b bs hits
  obtain ⟨first, ext⟩ := hits_ext hn hits
  refine (takeModRM_yields bs).bind fun ((reg, rm), rest) ⟨wf, _, hreg, hbs⟩ => ⟨(hi _ _ rm).1.trans wf, ?_⟩
  rw [(hi _ _ rm).2, vBit_bit, opByte_of_0xFC first, ← ext, ← hreg]
  exact congrArg (b :: ·) hbs.symm

theorem rowRmImm_exact (hn : n < 8 := by decide) {mk : Width → RM → Word → Instr}
    (hi : ∀ w rm v, (mk w rm v).wf = (rm.wf && immFits w v) ∧
      encode (mk w rm v) = opByte (c + w.bit) :: (rm.encode n ++ encodeImm w v) := by exact fun _ _ _ => ⟨rfl, rfl⟩) :
    Row.Exact ⟨c * 256 + n * 8, 0xFE * 256 + 0x38, rowRmImm mk⟩ := by
  intro b bs hits
  obtain ⟨first, ext⟩ := hits_ext hn hits
  refine (takeModRM_yields bs).bind fun ((reg, rm), bs') ⟨wf, _, hreg, hbs⟩ =>
    (takeImm_yields _ bs').bind fun (v, rest) ⟨fits, himm⟩ => ⟨?_, ?_⟩
  · rw [(hi _ rm v).1, wf, fits, Bool.and_self]
  · rw [(hi _ rm v).2, opByte_of_0xFE first, ← ext, ← hreg, List.cons_append, List.append_assoc, ← himm, ← hbs]

theorem rowRmImmS_exact (hn : n < 8 := by decide) {mk : Bool → Width → RM → Word → Instr}
    (hi : ∀ s w rm v, (mk s w rm v).wf = (rm.wf && immFitsS s w v) ∧
      encode (mk s w rm v) = opByte (c + s.toNat * 2 + w.bit) :: (rm.encode n ++ encodeImmS s w v) := by
        exact fun _ _ _ _ => ⟨rfl, rfl⟩) :
    Row.Exact ⟨c * 256 + n * 8, 0xFC * 256 + 0x38, rowRmImmS mk⟩ := by
  intro b bs hits
  obtain ⟨first, ext⟩ := hits_ext hn hits
  refine (takeModRM_yields bs).bind fun ((reg, rm), bs') ⟨wf, _, hreg, hbs⟩ =>
    (takeImmS_yields _ _ bs').bind fun (v, rest) ⟨fits, himm⟩ => ⟨?_, ?_⟩
  · rw [(hi _ _ rm v).1, wf, fits, Bool.and_self]
  · rw [(hi _ _ rm v).2, sBit_toNat, opByte_of_0xFC first, ← ext, ← hreg, List.cons_append, List.append_assoc, ← himm,
      ← hbs]

theorem rowRmRegD_exact {mk : Dir → Width → RM → RegCode → Instr}
    (hi : ∀ d w rm r, (mk d w rm r).wf = rm.wf ∧
      encode (mk d w rm r) = opByte (c + d.bit * 2 + w.bit) :: rm.encode r.code := by exact fun _ _ _ _ => ⟨rfl, rfl⟩) :
    Row.Exact ⟨c * 256, 0xFC * 256, rowRmRegD mk⟩ := by
  intro b bs hits
  refine (takeModRM_yields bs).bind fun ((reg, rm), rest) ⟨wf, lt, _, hbs⟩ => ⟨(hi _ _ rm _).1.trans wf, ?_⟩
  rw [(hi _ _ rm _).2, dBit_bit, opByte_of_0xFC (hits_first hits), RegCode.code_ofCode lt]
  exact congrArg (b :: ·) hbs.symm

theorem rowRmReg_exact {mk : Width → RM → RegCode → Instr}
    (hi : ∀ w rm r, (mk w rm r).wf = rm.wf ∧ encode (mk w rm r) = opByte (c + w.bit) :: rm.encode r.code := by
      exact fun _ _ _ => ⟨rfl, rfl⟩) :
    Row.Exact ⟨c * 256, 0xFE * 256, rowRmReg mk⟩ := by
  intro b bs hits
  refine (takeModRM_yields bs).bind fun ((reg, rm), rest) ⟨wf, lt, _, hbs⟩ => ⟨(hi _ rm _).1.trans wf, ?_⟩
  rw [(hi _ rm _).2, opByte_of_0xFE (hits_first hits), RegCode.code_ofCode lt]
  exact congrArg (b :: ·) hbs.symm

theorem rowRegRm_exact {mk : RegCode → RM → Instr}
    (hi : ∀ r rm, (mk r rm).wf = rm.wf ∧ encode (mk r rm) = opByte c :: rm.encode r.code := by
      exact fun _ _ => ⟨rfl, rfl⟩) :
    Row.Exact ⟨c * 256, 0xFF * 256, rowRegRm mk⟩ := by
  intro b bs hits
  refine (takeModRM_yields bs).bind fun ((reg, rm), rest) ⟨wf, lt, _, hbs⟩ => ⟨(hi _ rm).1.trans wf, ?_⟩
  rw [(hi _ rm).2, opByte_of_0xFF (hits_first hits), RegCode.code_ofCode lt]
  exact congrArg (b :: ·) hbs.symm

/-- Bit 5 of the second byte is 0, so taking the code from two bits of REG drops none (spec/30_encoding.md R106). -/
theorem rowSregRm_exact {mk : SegReg → RM → Instr}
    (hi : ∀ r rm, (mk r rm).wf = rm.wf ∧ encode (mk r rm) = opByte c :: rm.encode r.code := by
      exact fun _ _ => ⟨rfl, rfl⟩) :
    Row.Exact ⟨c * 256 + 0, 0xFF * 256 + 0x20, rowSregRm mk⟩ := by
  intro b bs hits
  obtain ⟨first, code⟩ := hits_sreg hits
  refine (takeModRM_yields bs).bind fun ((reg, rm), rest) ⟨wf, _, hreg, hbs⟩ => ⟨(hi _ rm).1.trans wf, ?_⟩
  rw [(hi _ rm).2, opByte_of_0xFF first, Nat.mod_eq_of_lt (hreg.trans_lt code),
    SegReg.code_ofCode (hreg.trans_lt code)]
  exact congrArg (b :: ·) hbs.symm

theorem rowRmSreg_exact {mk : RM → SegReg → Instr}
    (hi : ∀ rm r, (mk rm r).wf = rm.wf ∧ encode (mk rm r) = opByte c :: rm.encode r.code := by
      exact fun _ _ => ⟨rfl, rfl⟩) :
    Row.Exact ⟨c * 256 + 0, 0xFF * 256 + 0x20, rowRmSreg mk⟩ := by
  intro b bs hits
  obtain ⟨first, code⟩ := hits_sreg hits
  refine (takeModRM_yields bs).bind fun ((reg, rm), rest) ⟨wf, _, hreg, hbs⟩ => ⟨(hi rm _).1.trans wf, ?_⟩
  rw [(hi rm _).2, opByte_of_0xFF first, Nat.mod_eq_of_lt (hreg.trans_lt code),
    SegReg.code_ofCode (hreg.trans_lt code)]
  exact congrArg (b :: ·) hbs.symm

/-- ESC carries three bits in the first byte and three in REG (spec/30_encoding.md R124). -/
theorem rowEsc_exact {mk : BitVec 3 → BitVec 3 → RM → Instr}
    (hi : ∀ x y rm, (mk x y rm).wf = rm.wf ∧ encode (mk x y rm) = opByte (c + x.toNat) :: rm.encode y.toNat := by
      exact fun _ _ _ => ⟨rfl, rfl⟩) :
    Row.Exact ⟨c * 256, 0xF8 * 256, rowEsc mk⟩ := by
  intro b bs hits
  refine (takeModRM_yields bs).bind fun ((reg, rm), rest) ⟨wf, lt, _, hbs⟩ => ⟨(hi _ _ rm).1.trans wf, ?_⟩
  rw [(hi _ _ rm).2, BitVec.toNat_ofNat, BitVec.toNat_ofNat, opByte_of_0xF8 (hits_first hits),
    Nat.mod_eq_of_lt lt]
  exact congrArg (b :: ·) hbs.symm

end

/-! ## Every row of the table, in its order -/

theorem rowsTransfer_exact : rowsTransfer.Forall Row.Exact :=
  ⟨rowRmRegD_exact 0x88, rowRmImm_exact 0xC6 0, rowRegImm_exact 0xB0, rowAccMem_exact 0xA0, rowAccMem_exact 0xA2,
    rowSregRm_exact 0x8E, rowRmSreg_exact 0x8C, rowRm_exact 0xFF 6, rowReg_exact 0x50, rowSreg_exact 0x06,
    rowRm_exact 0x8F 0, rowReg_exact 0x58, rowSreg_exact 0x07, rowRmReg_exact 0x86, rowReg_exact 0x90,
    rowPort_exact 0xE4, rowW_exact 0xEC, rowPort_exact 0xE6, rowW_exact 0xEE, rowOne_exact 0xD7, rowRegRm_exact 0x8D,
    rowRegRm_exact 0xC5, rowRegRm_exact 0xC4, rowOne_exact 0x9F, rowOne_exact 0x9E, rowOne_exact 0x9C,
    rowOne_exact 0x9D⟩

theorem rowsArithmetic_exact : rowsArithmetic.Forall Row.Exact :=
  ⟨rowRmRegD_exact 0x00, rowRmImmS_exact 0x80 0, rowAccImm_exact 0x04, rowRmRegD_exact 0x10, rowRmImmS_exact 0x80 2,
    rowAccImm_exact 0x14, rowRmW_exact 0xFE 0, rowReg_exact 0x40, rowOne_exact 0x37, rowOne_exact 0x27,
    rowRmRegD_exact 0x28, rowRmImmS_exact 0x80 5, rowAccImm_exact 0x2C, rowRmRegD_exact 0x18, rowRmImmS_exact 0x80 3,
    rowAccImm_exact 0x1C, rowRmW_exact 0xFE 1, rowReg_exact 0x48, rowRmW_exact 0xF6 3, rowRmRegD_exact 0x38,
    rowRmImmS_exact 0x80 7, rowAccImm_exact 0x3C, rowOne_exact 0x3F, rowOne_exact 0x2F, rowRmW_exact 0xF6 4,
    rowRmW_exact 0xF6 5, rowTwo_exact 0xD4, rowRmW_exact 0xF6 6, rowRmW_exact 0xF6 7, rowTwo_exact 0xD5,
    rowOne_exact 0x98, rowOne_exact 0x99⟩

theorem rowsLogic_exact : rowsLogic.Forall Row.Exact :=
  ⟨rowRmW_exact 0xF6 2, rowShift_exact 0xD0 4, rowShift_exact 0xD0 5, rowShift_exact 0xD0 7, rowShift_exact 0xD0 0,
    rowShift_exact 0xD0 1, rowShift_exact 0xD0 2, rowShift_exact 0xD0 3, rowRmRegD_exact 0x20, rowRmImm_exact 0x80 4,
    rowAccImm_exact 0x24, rowRmReg_exact 0x84, rowRmImm_exact 0xF6 0, rowAccImm_exact 0xA8, rowRmRegD_exact 0x08,
    rowRmImm_exact 0x80 1, rowAccImm_exact 0x0C, rowRmRegD_exact 0x30, rowRmImm_exact 0x80 6, rowAccImm_exact 0x34⟩

theorem rowsString_exact : rowsString.Forall Row.Exact :=
  ⟨rowOne_exact 0xF3, rowOne_exact 0xF2, rowW_exact 0xA4, rowW_exact 0xA6, rowW_exact 0xAE, rowW_exact 0xAC,
    rowW_exact 0xAA⟩

theorem rowsControl_exact : rowsControl.Forall Row.Exact :=
  ⟨rowRel16_exact 0xE8, rowRm_exact 0xFF 2, rowFar_exact 0x9A, rowRm_exact 0xFF 3, rowOne_exact 0xC3,
    rowRel16_exact 0xC2, rowOne_exact 0xCB, rowRel16_exact 0xCA, rowRel8_exact 0x74, rowRel8_exact 0x7C,
    rowRel8_exact 0x7E, rowRel8_exact 0x72, rowRel8_exact 0x76, rowRel8_exact 0x7A, rowRel8_exact 0x70,
    rowRel8_exact 0x78, rowRel8_exact 0x75, rowRel8_exact 0x7D, rowRel8_exact 0x7F, rowRel8_exact 0x73,
    rowRel8_exact 0x77, rowRel8_exact 0x7B, rowRel8_exact 0x71, rowRel8_exact 0x79, rowRel8_exact 0xE3,
    rowRel16_exact 0xE9, rowRel8_exact 0xEB, rowRm_exact 0xFF 4, rowFar_exact 0xEA, rowRm_exact 0xFF 5,
    rowRel8_exact 0xE2, rowRel8_exact 0xE1, rowRel8_exact 0xE0, rowRel8_exact 0xCD, rowOne_exact 0xCC,
    rowOne_exact 0xCE, rowOne_exact 0xCF⟩

theorem rowsProcessor_exact : rowsProcessor.Forall Row.Exact :=
  ⟨rowOne_exact 0xF8, rowOne_exact 0xF5, rowOne_exact 0xF9, rowOne_exact 0xFC, rowOne_exact 0xFD, rowOne_exact 0xFA,
    rowOne_exact 0xFB, rowOne_exact 0xF4, rowOne_exact 0x9B, rowEsc_exact 0xD8, rowOne_exact 0xF0, rowSreg_exact 0x26⟩

theorem opcodeRows_exact {r : Row} (h : r ∈ opcodeRows) : r.Exact := by
  refine List.forall_iff_forall_mem.1 ?_ r h
  simp only [opcodeRows, List.forall_append]
  exact ⟨⟨⟨⟨⟨rowsTransfer_exact, rowsArithmetic_exact⟩, rowsLogic_exact⟩, rowsString_exact⟩, rowsControl_exact⟩,
    rowsProcessor_exact⟩

/-- Settles O3: the row that is found reads nothing but encodings of its own. -/
theorem encodeOfDecode : Obligations.EncodeOfDecode := by
  intro bs rest i h
  cases bs with
  | nil => cases h
  | cons b bs =>
    cases found : findRow b (bs.headD 0#8) with
    | none =>
      rw [decodeOne_of_none found] at h
      cases h
    | some r =>
      rw [decodeOne_of_findRow found] at h
      obtain ⟨mem, hits⟩ := findRow_spec found
      exact (opcodeRows_exact mem b bs hits).of_ok h

/-! ## The unassigned encodings (spec/30_encoding.md R150)

The table tells second bytes apart by REG and by being 0Ah or not, and for most first bytes not at all. So a few hundred
pairs of bytes stand for all of them, and these are compared with the list of R150 one by one. -/

/-- Does some row match these two bytes, taken as one number? (With `Nat.beq`, which the kernel computes quickly.) -/
def assigned (n : Nat) : Bool := opcodeRows.any fun r => Nat.beq (n &&& r.mask) r.value

theorem findRow_eq_none_iff (b1 b2 : Byte) : findRow b1 b2 = none ↔ assigned (b1.toNat * 256 + b2.toNat) = false := by
  simp only [findRow, assigned, Row.hits, List.find?_eq_none, List.any_eq_false, beq_iff_eq, Nat.beq_eq]

/-- Bytes that no row matches are unassigned, and no row answers so for bytes that it matches. -/
theorem decodeOne_unassigned_iff (b1 b2 : Byte) (rest : List Byte) :
    decodeOne (b1 :: b2 :: rest) = .error .unassigned ↔ findRow b1 b2 = none := by
  cases found : findRow b1 b2 with
  | none => simp [decodeOne_of_none (bs := b2 :: rest) found]
  | some r =>
    rw [decodeOne_of_findRow (bs := b2 :: rest) found]
    rcases (reads_of_mem r (findRow_spec found).1).streams b1 (b2 :: rest) [] with stop | ⟨i, left, read, -⟩
    · simp [stop]
    · simp [read]

/-- The first bytes for which some row looks at the second byte. -/
def looksFurther (n : Nat) : Bool :=
  decide (n = 0x80 ∨ n = 0x81 ∨ n = 0x82 ∨ n = 0x83 ∨ n = 0x8C ∨ n = 0x8E ∨ n = 0x8F ∨ n = 0xC6 ∨ n = 0xC7 ∨
    (0xD0 ≤ n ∧ n ≤ 0xD3) ∨ n = 0xD4 ∨ n = 0xD5 ∨ n = 0xF6 ∨ n = 0xF7 ∨ n = 0xFE ∨ n = 0xFF)

/-- The list of R150 in numbers: first byte `n`, second byte `k`. -/
def listedUnassigned (n k : Nat) : Bool :=
  decide ((0x60 ≤ n ∧ n ≤ 0x6F) ∨ n = 0xC0 ∨ n = 0xC1 ∨ n = 0xC8 ∨ n = 0xC9 ∨ n = 0xD6 ∨ n = 0xF1 ∨
    ((n = 0x82 ∨ n = 0x83) ∧ (k / 8 % 8 = 1 ∨ k / 8 % 8 = 4 ∨ k / 8 % 8 = 6)) ∨
    ((n = 0x8C ∨ n = 0x8E) ∧ 4 ≤ k / 8 % 8) ∨
    ((n = 0x8F ∨ n = 0xC6 ∨ n = 0xC7) ∧ k / 8 % 8 ≠ 0) ∨
    ((0xD0 ≤ n ∧ n ≤ 0xD3) ∧ k / 8 % 8 = 6) ∨
    ((n = 0xD4 ∨ n = 0xD5) ∧ k ≠ 0x0A) ∨
    ((n = 0xF6 ∨ n = 0xF7) ∧ k / 8 % 8 = 1) ∨
    (n = 0xFE ∧ 2 ≤ k / 8 % 8) ∨
    (n = 0xFF ∧ k / 8 % 8 = 7))

/-- A second byte of each kind that the rows with this first byte tell apart. -/
def secondBytes (n : Nat) : List Nat :=
  if looksFurther n then [0x00, 0x08, 0x10, 0x18, 0x20, 0x28, 0x30, 0x38, 0x0A] else [0]

/-- Some 400 pairs of bytes, for the kernel to compare with the list. -/
theorem assigned_secondBytes : ∀ n < 256, ∀ k ∈ secondBytes n, assigned (n * 256 + k) = !listedUnassigned n k := by
  decide +kernel

/-- What the rows look at in the second byte: nothing, bit 5, REG, or whether it is 0Ah. -/
theorem second_mask : ∀ r ∈ opcodeRows,
    r.mask % 256 = 0 ∨ r.mask % 256 = 0x20 ∨ r.mask % 256 = 0x38 ∨ (r.mask % 256 = 0xFF ∧ r.value % 256 = 0x0A) := by
  decide +kernel

theorem exists_byte {n : Nat} (h : n < 256) : ∃ b : Byte, b.toNat = n := ⟨opByte n, opByte_toNat h⟩

/-- A row cannot tell apart second bytes with the same REG that are both 0Ah or both not. -/
theorem and_second_mask_congr {j k m v : Nat} (hj : j < 256) (hk : k < 256) (reg : j / 8 % 8 = k / 8 % 8)
    (fixed : j = 0x0A ↔ k = 0x0A) (hm : m = 0 ∨ m = 0x20 ∨ m = 0x38 ∨ (m = 0xFF ∧ v = 0x0A)) :
    j &&& m = v ↔ k &&& m = v := by
  obtain ⟨b, rfl⟩ := exists_byte hj
  obtain ⟨b', rfl⟩ := exists_byte hk
  rcases hm with rfl | rfl | rfl | ⟨rfl, rfl⟩
  · rw [Nat.and_zero, Nat.and_zero]
  · rw [and_0x20, and_0x20]
    omega
  · rw [and_0x38, and_0x38, reg]
  · rw [and_0xFF, and_0xFF, fixed]

/-- A row that looks at the second byte ignores at most the two low bits of the first. -/
theorem first_mask : ∀ r ∈ opcodeRows, r.mask % 256 ≠ 0 →
    r.mask / 256 &&& 0xFC = 0xFC ∧
      ∀ j < 4, (r.value / 1024 * 4 + j) &&& r.mask / 256 = r.value / 256 → looksFurther (r.value / 1024 * 4 + j) = true := by
  decide +kernel

/-- `looksFurther` misses no row. -/
theorem looksFurther_of_row {r : Row} (hr : r ∈ opcodeRows) (hm : r.mask % 256 ≠ 0) {n : Nat} (hn : n < 256)
    (h : n &&& r.mask / 256 = r.value / 256) : looksFurther n = true := by
  obtain ⟨keeps, looks⟩ := first_mask r hr hm
  obtain ⟨b, rfl⟩ := exists_byte hn
  obtain ⟨b', value⟩ := exists_byte (show r.value / 256 < 256 from h ▸ Nat.and_le_left.trans_lt hn)
  have same : b.toNat &&& 0xFC = b'.toNat &&& 0xFC := by rw [value, ← h, Nat.and_assoc, keeps]
  rw [and_0xFC, and_0xFC] at same
  have := looks (b.toNat % 4) (Nat.mod_lt _ (by decide))
  rw [show r.value / 1024 * 4 + b.toNat % 4 = b.toNat by omega] at this
  exact this h

/-- The second byte of the list that stands for `k`. -/
def secondByteFor (n k : Nat) : Nat := if looksFurther n then if k = 0x0A then 0x0A else k / 8 % 8 * 8 else 0

section
variable {n k : Nat}

theorem secondByteFor_mem (hk : k < 256) : secondByteFor n k ∈ secondBytes n := by
  unfold secondByteFor secondBytes
  split
  · exact (by decide +kernel : ∀ k < 256, (if k = 0x0A then 0x0A else k / 8 % 8 * 8) ∈
      [0x00, 0x08, 0x10, 0x18, 0x20, 0x28, 0x30, 0x38, 0x0A]) k hk
  · exact List.mem_singleton.2 rfl

theorem secondByteFor_lt : secondByteFor n k < 256 := by
  unfold secondByteFor
  split_ifs <;> omega

/-- It agrees with `k` in what any row looks at. -/
theorem secondByteFor_fields (h : looksFurther n = true) :
    secondByteFor n k / 8 % 8 = k / 8 % 8 ∧ (secondByteFor n k = 0x0A ↔ k = 0x0A) := by
  unfold secondByteFor
  rw [if_pos h]
  split <;> omega

/-- Two bytes match a row when each matches its half. -/
theorem and_mask_iff (n : Nat) (hk : k < 256) (m v : Nat) :
    (n * 256 + k) &&& m = v ↔ n &&& m / 256 = v / 256 ∧ k &&& m % 256 = v % 256 := by
  have low : k &&& m % 256 ≤ k := Nat.and_le_left
  have halves := and_bytes n (m / 256) hk (Nat.mod_lt m (by decide : 0 < 256))
  rw [show m / 256 * 256 + m % 256 = m by omega] at halves
  rw [halves]
  omega

theorem assigned_secondByteFor (hn : n < 256) (hk : k < 256) :
    assigned (n * 256 + secondByteFor n k) = assigned (n * 256 + k) := by
  rw [Bool.eq_iff_iff, assigned, assigned, List.any_eq_true, List.any_eq_true]
  refine exists_congr fun r => and_congr_right fun hr => ?_
  rw [Nat.beq_eq, Nat.beq_eq, and_mask_iff n secondByteFor_lt, and_mask_iff n hk]
  refine and_congr_right fun first => ?_
  by_cases hm : r.mask % 256 = 0
  · rw [hm, Nat.and_zero, Nat.and_zero]
  · obtain ⟨reg, fixed⟩ := secondByteFor_fields (k := k) (looksFurther_of_row hr hm hn first)
    exact and_second_mask_congr secondByteFor_lt hk reg fixed (second_mask r hr)

theorem listedUnassigned_secondByteFor : listedUnassigned n (secondByteFor n k) = listedUnassigned n k := by
  by_cases h : looksFurther n = true
  · obtain ⟨reg, fixed⟩ := secondByteFor_fields (k := k) h
    simp only [listedUnassigned, reg, fixed, ne_eq]
  · simp only [looksFurther, decide_eq_true_iff, not_or] at h
    simp only [listedUnassigned, h, or_self, false_and]

end

/-- A pair of bytes is in no row exactly when R150 lists it. -/
theorem findRow_eq_none_iff_listed (b1 b2 : Byte) :
    findRow b1 b2 = none ↔ listedUnassigned b1.toNat b2.toNat = true := by
  rw [findRow_eq_none_iff, ← assigned_secondByteFor b1.isLt b2.isLt,
    assigned_secondBytes _ b1.isLt _ (secondByteFor_mem b2.isLt), Bool.not_eq_false',
    listedUnassigned_secondByteFor]

/-- Settles O5: the bytes that no row matches are those of the list, found by checking one pair of each kind. -/
theorem unassignedExactlyAsListed : Obligations.UnassignedExactlyAsListed := by
  intro b1 b2 rest
  rw [decodeOne_unassigned_iff, findRow_eq_none_iff_listed, listedUnassigned, decide_eq_true_iff]
  simp only [BitVec.le_def, ← BitVec.toNat_inj, BitVec.reduceToNat, ne_eq]

/-! ## Prefixes (spec/30_encoding.md R115) -/

theorem wf_of_isPrefix {p : Instr} (h : p.isPrefix = true) : p.wf = true := by
  cases p
  case rep | repne | lock | segment => rfl
  all_goals cases h

theorem isPrefix_of_isRepeat {p : Instr} (h : p.isRepeat = true) : p.isPrefix = true := by
  cases p
  case rep | repne => rfl
  all_goals cases h

theorem prefixesAllowed_iff {ps : List Instr} :
    prefixesAllowed ps = true ↔ ps.length ≤ Config.maxPrefixes ∧ (ps.filter Instr.isSegment).length ≤ 1 ∧
      (ps.filter fun p => p.isPrefix && !p.isSegment).length ≤ 1 := by
  simp only [prefixesAllowed, Bool.and_eq_true, decide_eq_true_eq, and_assoc]

/-- Fewer prefixes may stand together where more may. -/
theorem prefixesAllowed_of_sublist {ps qs : List Instr} (h : ps.Sublist qs) (hq : prefixesAllowed qs = true) :
    prefixesAllowed ps = true := by
  obtain ⟨total, segments, others⟩ := prefixesAllowed_iff.1 hq
  exact prefixesAllowed_iff.2
    ⟨h.length_le.trans total, (h.filter _).length_le.trans segments, (h.filter _).length_le.trans others⟩

theorem prefixesAllowed_singleton (p : Instr) : prefixesAllowed [p] = true :=
  prefixesAllowed_iff.2 ⟨(by decide : 1 ≤ Config.maxPrefixes), List.length_filter_le .., List.length_filter_le ..⟩

section
variable {fuel : Nat} {seen ps : List Instr} {p i : Instr} {rest : List Byte}

theorem decodeFrom_prefix (hp : p.isPrefix = true) (ha : prefixesAllowed (seen ++ [p]) = true) :
    decodeFrom (fuel + 1) seen (encode p ++ rest) = decodeFrom fuel (seen ++ [p]) rest := by
  rw [decodeFrom, decodeOne_encode (wf_of_isPrefix hp)]
  simp only [hp, ha, if_true]

theorem decodeFrom_prefix_zero (hp : p.isPrefix = true) :
    decodeFrom 0 seen (encode p ++ rest) = .error .badPrefixes := by
  rw [decodeFrom, decodeOne_encode (wf_of_isPrefix hp)]
  simp only [hp, if_true, ite_self]

theorem decodeFrom_prefix_misused (hp : p.isPrefix = true) (ha : prefixesAllowed (seen ++ [p]) = false) :
    decodeFrom fuel seen (encode p ++ rest) = .error .badPrefixes := by
  unfold decodeFrom
  rw [decodeOne_encode (wf_of_isPrefix hp)]
  simp only [hp, ha, if_true, Bool.false_eq_true, if_false]

theorem decodeFrom_body (hi : i.isPrefix = false) (hwf : i.wf = true) :
    decodeFrom fuel seen (encode i ++ rest) =
      if prefixesFit seen i then .ok (seen, i, rest) else .error .repNonString := by
  unfold decodeFrom
  rw [decodeOne_encode hwf]
  simp only [hi, Bool.false_eq_true, if_false]

/-- Allowed prefixes are read one after the other, up to the instruction. -/
theorem decodeFrom_encodeAll (hps : ∀ p ∈ ps, p.isPrefix = true) (ha : prefixesAllowed (seen ++ ps) = true)
    (hi : i.isPrefix = false) (hwf : i.wf = true) (hf : ps.length ≤ fuel) :
    decodeFrom fuel seen (encodeAll ps i ++ rest) =
      if prefixesFit (seen ++ ps) i then .ok (seen ++ ps, i, rest) else .error .repNonString := by
  induction ps generalizing fuel seen with
  | nil =>
    rw [List.append_nil]
    exact decodeFrom_body hi hwf
  | cons p ps ih =>
    obtain ⟨fuel, rfl⟩ : ∃ f, fuel = f + 1 := Nat.exists_eq_succ_of_ne_zero (by rw [List.length_cons] at hf; omega)
    obtain ⟨hp, hps⟩ := List.forall_mem_cons.1 hps
    have split : seen ++ p :: ps = seen ++ [p] ++ ps := by simp
    have bytes : encodeAll (p :: ps) i ++ rest = encode p ++ (encodeAll ps i ++ rest) := by simp [encodeAll]
    rw [split] at ha ⊢
    rw [bytes, decodeFrom_prefix hp (prefixesAllowed_of_sublist (List.sublist_append_left ..) ha)]
    exact ih hps ha (Nat.le_of_succ_le_succ hf)

/-- Prefixes that may not stand together are refused at the first that is too many, whatever follows. -/
theorem decodeFrom_misused (hps : ∀ p ∈ ps, p.isPrefix = true) (hs : prefixesAllowed seen = true)
    (ha : prefixesAllowed (seen ++ ps) = false) :
    decodeFrom fuel seen (ps.flatMap encode ++ rest) = .error .badPrefixes := by
  induction ps generalizing fuel seen with
  | nil =>
    rw [List.append_nil, hs] at ha
    cases ha
  | cons p ps ih =>
    obtain ⟨hp, hps⟩ := List.forall_mem_cons.1 hps
    rw [List.flatMap_cons, List.append_assoc]
    cases next : prefixesAllowed (seen ++ [p]) with
    | false => exact decodeFrom_prefix_misused hp next
    | true =>
      cases fuel with
      | zero => exact decodeFrom_prefix_zero hp
      | succ fuel =>
        rw [decodeFrom_prefix hp next]
        exact ih hps next (by rwa [List.append_assoc])

theorem decode_encodeAll (hps : ∀ p ∈ ps, p.isPrefix = true) (ha : prefixesAllowed ps = true)
    (hi : i.isPrefix = false) (hwf : i.wf = true) :
    decode (encodeAll ps i ++ rest) =
      if prefixesFit ps i then .ok ⟨ps, i, (encodeAll ps i).length⟩ else .error .repNonString := by
  obtain ⟨few, -⟩ := prefixesAllowed_iff.1 ha
  rw [decode, decodeFrom_encodeAll hps (by rwa [List.nil_append]) hi hwf few, List.nil_append]
  split_ifs <;> simp

theorem decode_misused (hps : ∀ p ∈ ps, p.isPrefix = true) (ha : prefixesAllowed ps = false) :
    decode (ps.flatMap encode ++ rest) = .error .badPrefixes := by
  rw [decode, decodeFrom_misused hps rfl (by rwa [List.nil_append])]

end

/-- Settles O4, by induction on the prefixes. -/
theorem prefixedInstructionsDecode : Obligations.PrefixedInstructionsDecode := by
  intro ps i rest hps ha hi hwf hfit
  rw [decode_encodeAll hps ha hi hwf, if_pos hfit]

/-- Prefixes with one more at the end, in the place of the instruction. -/
theorem encodeAll_eq_flatMap (ps : List Instr) (q : Instr) : encodeAll ps q = (ps ++ [q]).flatMap encode := by
  simp [encodeAll]

/-- Settles O6: three times prefixes that may not stand together, and once one that does not fit the instruction. -/
theorem misusedPrefixesRefused : Obligations.MisusedPrefixesRefused := by
  refine ⟨fun a b rest => ?_, fun p q rest hp hq hp' hq' => ?_, fun p q r rest hp hq hr => ?_,
    fun p i rest hp hi hs hwf => ?_⟩
  · rw [encodeAll_eq_flatMap]
    exact decode_misused (by simp [Instr.isPrefix]) rfl
  · rw [encodeAll_eq_flatMap]
    exact decode_misused (by simp [hp, hq]) (by simp [prefixesAllowed, hp, hq, hp', hq'])
  · rw [encodeAll_eq_flatMap]
    exact decode_misused (by simp [hp, hq, hr]) (by simp [prefixesAllowed, Config.maxPrefixes])
  · have unfit : prefixesFit [p] i = false := by simp [prefixesFit, hp, hs]
    rw [decode_encodeAll (by simp [isPrefix_of_isRepeat hp]) (prefixesAllowed_singleton p) hi hwf, unfit]
    rfl

/-! ## Words of the spec, and the place of an operand -/

/-- Settles O1: the decoder computes each. -/
theorem wordsOfTheSpecDecode : Obligations.WordsOfTheSpecDecode := by
  refine ⟨?_, ?_, ?_, ?_, ?_, ?_, ?_, ?_, ?_, ?_⟩ <;> decide

end Sys2Proof

namespace Sys2Proof.Machine

/-- The segment of an operand is the override's, or else the default (spec/30_encoding.md R112). -/
theorem segOr_eq (s : State) (dflt : SegReg) :
    s.segOr dflt = match s.cur.seg with | some r => s.segs.get r | none => s.segs.get dflt := by
  unfold State.segOr
  cases s.cur.seg <;> rfl

/-- A displacement moves the offset and leaves the segment (spec/30_encoding.md R102, R108). -/
theorem place_displaced {s : State} {b : AddrBase} {g o : Word} (h : s.place (.base b) = .mem g o) (d : Byte) (a : Word) :
    s.place (.disp8 b d) = .mem g (o + d.signExtend 16) ∧ s.place (.disp16 b a) = .mem g (o + a) := by
  cases h
  exact ⟨rfl, rfl⟩

/-- Settles O22: codes and addresses are the model's own tables, and the segment is the override's or the default. -/
theorem effectiveAddressAndSegment : Obligations.EffectiveAddressAndSegment := by
  intro s d a dsOr ssOr
  have hds : s.segOr .ds = dsOr := segOr_eq s .ds
  have hss : s.segOr .ss = ssOr := segOr_eq s .ss
  rw [← hds, ← hss]
  exact ⟨rfl, rfl, fun b => by simp [RM.encode, modrmByte, encodeWord], fun r => by simp [RM.encode, modrmByte],
    fun _ => rfl, rfl, rfl, rfl, rfl, rfl, rfl, rfl, rfl, rfl, rfl, fun b _ g o h => place_displaced h d a⟩

end Sys2Proof.Machine
end

section
/-! Data transfer (spec/40_data_transfer.md; O23 to O29): each instruction is a read of its source and a write of its
destination, and the shared operations say what these answer. -/

namespace Sys2Proof.Machine

/-! ## Destinations and sources -/

section
variable {w : Width} {rm : RM} {c : RegCode} {seg off : Word} {s u : State}

theorem writeRM_writes (v : Word) (hw : s.mem.wf = true) (h : canWriteRM w rm s = true) :
    ∃ t, writeRM w rm v s = .next t ∧ Writes w rm v s t := by
  obtain ⟨t, ht, writes, -⟩ := writeRM_of v h hw
  exact ⟨t, ht, writes⟩

theorem writeMem_stores (v : Word) (hw : s.mem.wf = true) (h : canWrite w seg off s = true) :
    ∃ t, writeMem w seg off v s = .next t ∧ Stores (cells w seg off v) s t := by
  obtain ⟨t, ht, stores, -⟩ := writeMem_of v h hw
  exact ⟨t, ht, stores⟩

theorem push16_pushes (v : Word) (hw : s.mem.wf = true) (h : canPush 0 s = true) :
    ∃ t, push16 v s = .next t ∧ Pushes v s t := by
  obtain ⟨t, ht, pushes, -⟩ := push16_of v h hw
  exact ⟨t, ht, pushes⟩

/-- What every load into a register is: an access, and its value written to the register. -/
theorem load_setReg {o : Out (Word × State)} {v : Word} (h : o = .next (v, u)) :
    (andThen o fun p => .next (p.2.setReg w c p.1)) = .next (u.setReg w c v) := by rw [h, andThen_next]

end

/-! ## MOV (spec/40_data_transfer.md R201 to R207) -/

/-- Settles O23: each form is one read of its source or one write to its destination. -/
theorem movForms : Obligations.MovForms := by
  intro s w rm r imm addr
  refine ⟨fun hr => ?toReg, fun hw hc => ⟨?toRm, ?immediate⟩, rfl, fun hr => ?fromDirect, fun hw hc => ?toDirect⟩
  case toReg => exact load_setReg (readRM_of hr)
  case toRm | immediate => exact writeRM_writes _ hw hc
  case fromDirect => exact load_setReg (readMem_of hr)
  case toDirect => exact writeMem_stores _ hw hc

/-- Settles O24. CS, which is refused as a destination, is excluded by the premise. -/
theorem segmentRegisterMoves : Obligations.SegmentRegisterMoves := by
  intro s sr rm
  refine ⟨fun hcs hr => ?mov, fun hw hc => writeRM_writes _ hw hc, fun hcs hp => ?pop⟩
  case mov =>
    show execMovSregRm sr rm s = _
    rw [execMovSregRm, if_neg hcs, readRM_of hr, andThen_next]
    rfl
  case pop =>
    show execPopSreg sr s = _
    rw [execPopSreg, if_neg hcs, pop16_of hp, andThen_next]
    rfl

/-! ## PUSH and POP (spec/40_data_transfer.md R208 to R213, R226, R227) -/

/-- PUSH SP stores the decremented SP (spec/40_data_transfer.md R209; log 12). -/
theorem pushSp_eq (s : State) : pushSp s = push16 (s.regs.sp - 2) s := rfl

theorem execPushReg_eq (r : RegCode) (s : State) :
    execPushReg r s = push16 (if r = .sp then s.regs.sp - 2 else s.regs.get r) s := by
  unfold execPushReg
  split
  · exact pushSp_eq s
  · rfl

theorem execPushRm_eq {rm : RM} {s : State} (hr : canReadRM .word rm s = true) :
    execPushRm rm s = push16 (if rm = .reg .sp then s.regs.sp - 2 else s.operand .word rm) s := by
  unfold execPushRm
  split
  · exact pushSp_eq s
  · rw [readRM_of hr, andThen_next]

/-- Settles O25: each form is one push of its operand. -/
theorem pushForms : Obligations.PushForms := by
  intro s rm r sr hw hp
  refine ⟨fun hr => ?rm, ?reg, push16_pushes _ hw hp, push16_pushes _ hw hp⟩
  case rm =>
    show ∃ t, execPushRm rm s = .next t ∧ _
    rw [execPushRm_eq hr]
    exact push16_pushes _ hw hp
  case reg =>
    show ∃ t, execPushReg r s = .next t ∧ _
    rw [execPushReg_eq]
    exact push16_pushes _ hw hp

/-- Whether an operand can be written does not depend on SP. -/
theorem canWriteRM_setSp (w : Width) (rm : RM) (s : State) (v : Word) :
    canWriteRM w rm (s.setReg .word .sp v) = canWriteRM w rm s := by
  unfold canWriteRM
  rw [place_setSp]
  rfl

/-- Settles O26: the pop raises SP first, and the popped word is written after it, to SP too. -/
theorem popForms : Obligations.PopForms := by
  intro s rm r hp
  refine ⟨load_setReg (pop16_of hp), ?popf, fun hw hc => ?popRm⟩
  case popf =>
    show execPopf s = _
    rw [execPopf, pop16_of hp, andThen_next]
    rfl
  case popRm =>
    show ∃ t, execPopRm rm s = .next t ∧ _
    rw [execPopRm, pop16_of hp, andThen_next]
    exact writeRM_writes (s := s.setReg .word .sp (s.regs.sp + 2)) _ hw ((canWriteRM_setSp ..).trans hc)

/-! ## XCHG (spec/40_data_transfer.md R214, R215) -/

/-- Settles O27: both operands are read before either is written. -/
theorem xchgForms : Obligations.XchgForms := by
  intro s w rm r
  refine ⟨fun hw hr hc => ?_, rfl⟩
  obtain ⟨t, ht, writes⟩ := writeRM_writes (s.reg w r) hw hc
  refine ⟨t, ?_, writes⟩
  show execXchgRmReg w rm r s = _
  rw [execXchgRmReg, readRM_of hr, andThen_next, ht, andThen_next]

/-! ## Ports (spec/40_data_transfer.md R216 to R219, spec/20_memory.md R70; log 5) -/

section
variable {w : Width} {s : State} {p : Word} {b lo hi : Byte} {l l' : List (Word × Byte)}

theorem driven_byte_iff : driven .byte p s = true ↔ inSpans s.undriven p.toNat = false :=
  Iff.of_eq (Bool.not_eq_true' _)

theorem driven_word_iff : driven .word p s = true ↔ driven .byte p s = true ∧ driven .byte (p + 1) s = true :=
  Bool.and_eq_true_iff

/-- A driven port supplies a byte, from the platform's queue or freely; only what it supplies later changes. -/
theorem ioReadByte_of_driven (h : driven .byte p s = true) :
    ∃ b l n, ioReadByte p s = .next (b, { s with ioIn := l, draws := n }) := by
  unfold ioReadByte
  rw [driven_byte_iff.1 h, if_neg Bool.false_ne_true]
  cases takePort p s.ioIn with
  | none => exact ⟨_, s.ioIn, _, rfl⟩
  | some r => exact ⟨r.1, r.2, s.draws, rfl⟩

theorem ioReadByte_queued (h : driven .byte p s = true) (hq : takePort p s.ioIn = some (b, l)) :
    ioReadByte p s = .next (b, { s with ioIn := l }) := by
  unfold ioReadByte
  rw [driven_byte_iff.1 h, if_neg Bool.false_ne_true, hq]

theorem ioRead_of_driven (h : driven w p s = true) :
    ∃ v l n, ioRead w p s = .next (v, { s with ioIn := l, draws := n }) := by
  cases w with
  | byte =>
    obtain ⟨b, l, n, hb⟩ := ioReadByte_of_driven h
    exact ⟨zext16 b, l, n, by simp only [ioRead, hb, andThen_next]⟩
  | word =>
    obtain ⟨low, high⟩ := driven_word_iff.1 h
    obtain ⟨lo, l, n, hlo⟩ := ioReadByte_of_driven low
    obtain ⟨hi, l', n', hhi⟩ := ioReadByte_of_driven (s := { s with ioIn := l, draws := n }) high
    exact ⟨wordOf hi lo, l', n', by simp only [ioRead, hlo, hhi, andThen_next]⟩

theorem ioRead_byte_queued (h : driven .byte p s = true) (hq : takePort p s.ioIn = some (b, l)) :
    ioRead .byte p s = .next (zext16 b, { s with ioIn := l }) := by
  simp only [ioRead, ioReadByte_queued h hq, andThen_next]

theorem ioRead_word_queued (h : driven .word p s = true) (hlo : takePort p s.ioIn = some (lo, l))
    (hhi : takePort (p + 1) l = some (hi, l')) : ioRead .word p s = .next (wordOf hi lo, { s with ioIn := l' }) := by
  obtain ⟨low, high⟩ := driven_word_iff.1 h
  have second := ioReadByte_queued (s := { s with ioIn := l }) high hhi
  simp only [ioRead, ioReadByte_queued low hlo, second, andThen_next]

theorem ioWriteByte_of_driven (v : Byte) (h : driven .byte p s = true) :
    ioWriteByte p v s = .next { s with ioOut := s.ioOut ++ [(p, v)] } := by
  unfold ioWriteByte
  rw [driven_byte_iff.1 h, if_neg Bool.false_ne_true]

theorem lowByte_acc (w : Width) (s : State) : lowByte (s.acc w) = lowByte s.regs.ax := by
  cases w with
  | byte => exact lowByte_zext16 _
  | word => rfl

theorem ioWrite_byte_acc (h : driven .byte p s = true) :
    ioWrite .byte p (s.acc .byte) s = .next { s with ioOut := s.ioOut ++ [(p, lowByte s.regs.ax)] } := by
  rw [ioWrite, ioWriteByte_of_driven _ h, lowByte_acc]

theorem ioWrite_word_of_driven (v : Word) (h : driven .word p s = true) :
    ioWrite .word p v s = .next { s with ioOut := s.ioOut ++ [(p, lowByte v), (p + 1, highByte v)] } := by
  obtain ⟨low, high⟩ := driven_word_iff.1 h
  have second := ioWriteByte_of_driven (s := { s with ioOut := s.ioOut ++ [(p, lowByte v)] }) (highByte v) high
  rw [ioWrite, ioWriteByte_of_driven _ low, andThen_next, second, List.append_assoc, List.singleton_append]

/-- IN from a driven port, of either form. -/
theorem in_of_driven (h : driven w p s = true) :
    ∃ v l n, (andThen (ioRead w p s) fun q => .next (q.2.setReg w .ax q.1) : Out State) =
      .next (({ s with ioIn := l, draws := n } : State).setReg w .ax v) := by
  obtain ⟨v, l, n, hv⟩ := ioRead_of_driven h
  exact ⟨v, l, n, load_setReg hv⟩

end

/-- Settles O28: the fixed and the variable forms differ in the port alone. -/
theorem portForms : Obligations.PortForms := by
  intro s w port
  refine ⟨in_of_driven, in_of_driven, ?inByte, ?inWord, rfl, ?inDxByte, ?inDxWord, ioWrite_byte_acc,
    ioWrite_word_of_driven _, ioWrite_byte_acc, ioWrite_word_of_driven _⟩
  case inByte | inDxByte => exact fun _ _ h hq => load_setReg (ioRead_byte_queued h hq)
  case inWord | inDxWord => exact fun _ _ _ _ h hlo hhi => load_setReg (ioRead_word_queued h hlo hhi)

/-! ## XLAT, LEA, LDS, LES, LAHF, SAHF (spec/40_data_transfer.md R220 to R225) -/

theorem execLea_of_mem {rm : RM} {s : State} {seg off : Word} (r : RegCode) (hp : s.place rm = .mem seg off) :
    execLea r rm s = .next (s.setReg .word r off) := by
  simp only [execLea, eaOrRefuse, hp, andThen_next]

/-- A pointer read, and its two words written to a register and a segment register. -/
theorem loadPointer_of {rm : RM} {s : State} (r : RegCode) (sr : SegReg) (h : canReadPointer rm s = true) :
    (andThen (readPointer rm s) fun p => .next ((p.2.2.setReg .word r p.1).setSeg sr p.2.1) : Out State) =
      .next { s with regs := s.regs.set r (s.pointer rm).1, segs := s.segs.set sr (s.pointer rm).2 } := by
  rw [readPointer_of h, andThen_next]
  rfl

/-- AH is byte register 100, the high half of AX (spec/10_state.md R22). -/
theorem setAh_eq (s : State) (v : Byte) :
    s.setReg .byte .sp (zext16 v) = { s with regs := { s.regs with ax := wordOf v (lowByte s.regs.ax) } } := by
  rw [State.setReg, lowByte_zext16]
  rfl

theorem execLahf_eq (s : State) : execLahf s =
    .next { s with regs := { s.regs with ax := wordOf (lowByte s.flags.toWord) (lowByte s.regs.ax) } } := by
  rw [execLahf, setAh_eq]

theorem getLsbD_lowByte (v : Word) {k : Nat} (hk : k < 8) : (lowByte v).getLsbD k = v.getLsbD k := by
  simp [lowByte, hk]

theorem getLsbD_ah (s : State) {k : Nat} (hk : k < 8) : (s.reg .byte .sp).getLsbD k = s.regs.ax.getLsbD (8 + k) := by
  show (zext16 (highByte s.regs.ax)).getLsbD k = _
  have : k < 16 := by omega
  simp [zext16, highByte, hk, this]

theorem execSahf_eq (s : State) : execSahf s = .next { s with flags := { s.flags with
    SF := s.regs.ax.getLsbD 15, ZF := s.regs.ax.getLsbD 14, AF := s.regs.ax.getLsbD 12, PF := s.regs.ax.getLsbD 10,
    CF := s.regs.ax.getLsbD 8 } } := by
  have bit (k : Nat) (hk : k < 8) := getLsbD_ah s hk
  simp only [execSahf, bit 7 (by decide), bit 6 (by decide), bit 4 (by decide), bit 2 (by decide), bit 0 (by decide)]

/-- Settles O29: loads through the memory operand, and AH as the low byte of FLAGS bit by bit. -/
theorem addressAndFlagTransfers : Obligations.AddressAndFlagTransfers := by
  intro s r rm
  refine ⟨rfl, rfl, rfl, fun hr => ?xlat, fun _ _ hp => execLea_of_mem r hp,
    fun hp => ⟨loadPointer_of r .ds hp, loadPointer_of r .es hp⟩, execLahf_eq s, ?ahBits, execSahf_eq s⟩
  case xlat => exact load_setReg (readMem_of hr)
  case ahBits =>
    have bit (k : Nat) (hk : k < 8) := (getLsbD_lowByte s.flags.toWord hk).trans (getElem_toWord s.flags k (by omega))
    exact ⟨bit 7 (by decide), bit 6 (by decide), bit 5 (by decide), bit 4 (by decide), bit 3 (by decide),
      bit 2 (by decide), bit 1 (by decide), bit 0 (by decide)⟩

end Sys2Proof.Machine
end

section
/-! Arithmetic and comparison in their operand forms (spec/41_arithmetic.md R240; O31, O32): an operation read off its
operands, whose result is written or discarded. -/

namespace Sys2Proof.Machine

/-! ## Where results go -/

section
variable {kf : Flags → Flags} {s u : State} {w : Width} {rm : RM}

/-- Flags and draws do not decide whether an operand can be written. -/
theorem OnlyFlags.canWriteRM_eq (h : OnlyFlags kf s u) : canWriteRM w rm u = canWriteRM w rm s := by
  unfold canWriteRM
  rw [h.place rm, h.1]
  rfl

/-- A result is written back after the flags are set. -/
theorem OnlyFlags.writes (h : OnlyFlags kf s u) (v : Word) (hw : s.mem.wf = true) (hc : canWriteRM w rm s = true) :
    ∃ t, writeRM w rm v u = .next t ∧ Writes w rm v u t :=
  writeRM_writes v (by rw [h.1]; exact hw) (h.canWriteRM_eq.trans hc)

end

/-! ## Two operands -/

/-- The operation answers the result `res`, and sets the flags as `after` says. -/
structure BinOp.Computes (op : BinOp) (res : Result) (after : FlagsAfter) : Prop where
  result : ∀ s w a b, (op w a b s).1 = res s w a b
  sets : ∀ s w a b, after s w a b (op w a b s).2
  only : op.OnlyFlags Flags.control

theorem aluAdd_computes : BinOp.Computes aluAdd (fun _ w a b => addResult w a b false) (AfterAdd fun _ => false) :=
  ⟨fun _ _ _ _ => rfl, fun _ _ _ _ => rfl, fun _ _ _ _ => ⟨rfl, rfl⟩⟩

theorem aluAdc_computes : BinOp.Computes aluAdc (fun s w a b => addResult w a b s.flags.CF) (AfterAdd (·.flags.CF)) :=
  ⟨fun _ _ _ _ => rfl, fun _ _ _ _ => rfl, fun _ _ _ _ => ⟨rfl, rfl⟩⟩

theorem aluSub_computes : BinOp.Computes aluSub (fun _ w a b => subResult w a b false) (AfterSub fun _ => false) :=
  ⟨fun _ _ _ _ => rfl, fun _ _ _ _ => rfl, fun _ _ _ _ => ⟨rfl, rfl⟩⟩

theorem aluSbb_computes : BinOp.Computes aluSbb (fun s w a b => subResult w a b s.flags.CF) (AfterSub (·.flags.CF)) :=
  ⟨fun _ _ _ _ => rfl, fun _ _ _ _ => rfl, fun _ _ _ _ => ⟨rfl, rfl⟩⟩

/-- The free value drawn for AF is the witness of `AfterLogic`. -/
theorem aluAnd_computes : BinOp.Computes aluAnd (fun _ _ a b => a &&& b) (AfterLogic (· &&& ·)) :=
  ⟨fun _ _ _ _ => rfl, fun _ _ _ _ => ⟨_, rfl⟩, fun _ _ _ _ => ⟨rfl, rfl⟩⟩

section
variable {op : BinOp} {res : Result} {after : FlagsAfter} {rmReg : Dir → Width → RM → RegCode → Instr}
  {rmImm : Width → RM → Word → Instr} {accImm : Width → Word → Instr} {s : State} {w : Width} {rm : RM}

theorem flagsRmReg_toReg_of (r : RegCode) (hr : canReadRM w rm s = true) :
    flagsRmReg op .toReg w rm r s = .next (op w (s.reg w r) (s.operand w rm) s).2 := by
  rw [flagsRmReg, readRM_of hr, andThen_next]

theorem flagsRmReg_toRm_of (r : RegCode) (hr : canReadRM w rm s = true) :
    flagsRmReg op .toRm w rm r s = .next (op w (s.operand w rm) (s.reg w r) s).2 := by
  rw [flagsRmReg, readRM_of hr, andThen_next]

theorem flagsRmImm_of (imm : Word) (hr : canReadRM w rm s = true) :
    flagsRmImm op w rm imm s = .next (op w (s.operand w rm) imm s).2 := by
  rw [flagsRmImm, readRM_of hr, andThen_next]

/-- The three forms of R240, for an operation that writes its result. -/
theorem BinOp.Computes.writesResult (h : op.Computes res after)
    (hreg : ∀ d w rm r s, exec (rmReg d w rm r) s = binRmReg op d w rm r s := by intros; rfl)
    (himm : ∀ w rm imm s, exec (rmImm w rm imm) s = binRmImm op w rm imm s := by intros; rfl)
    (hacc : ∀ w imm s, exec (accImm w imm) s = binAccImm op w imm s := by intros; rfl) :
    WritesResult rmReg rmImm accImm res after := by
  intro s w rm r imm
  refine ⟨fun hr => ⟨_, h.sets .., ?toReg⟩, fun hw hr hc => ?toRm, fun hw hr hc => ?immediate, _, h.sets .., ?acc⟩
  case toReg => rw [hreg, binRmReg, readRM_of hr, andThen_next, ← h.result]
  case toRm =>
    obtain ⟨t, ht, writes⟩ := (h.only ..).writes (op w (s.operand w rm) (s.reg w r) s).1 hw hc
    refine ⟨_, t, h.sets .., ?_, h.result .. ▸ writes⟩
    rw [hreg, binRmReg, readRM_of hr, andThen_next]
    exact ht
  case immediate =>
    obtain ⟨t, ht, writes⟩ := (h.only ..).writes (op w (s.operand w rm) imm s).1 hw hc
    refine ⟨_, t, h.sets .., ?_, h.result .. ▸ writes⟩
    rw [himm, binRmImm, readRM_of hr, andThen_next]
    exact ht
  case acc =>
    rw [hacc, ← h.result]
    rfl

/-- The forms with an immediate, for an operation whose result is discarded. -/
theorem BinOp.Computes.setsFlagsOnly (h : op.Computes res after)
    (himm : ∀ w rm imm s, exec (rmImm w rm imm) s = flagsRmImm op w rm imm s := by intros; rfl)
    (hacc : ∀ w imm s, exec (accImm w imm) s = flagsAccImm op w imm s := by intros; rfl) :
    SetsFlagsOnly rmImm accImm after := fun s w _ imm =>
  ⟨fun hr => ⟨_, h.sets .., (himm ..).trans (flagsRmImm_of imm hr)⟩, _, h.sets s w (s.reg w .ax) imm, hacc ..⟩

end

/-- Settles O31: the four operations differ in what they compute, and share their forms. -/
theorem addSubtractForms : Obligations.AddSubtractForms := fun _ =>
  ⟨aluAdd_computes.writesResult, aluAdc_computes.writesResult, aluSub_computes.writesResult,
    aluSbb_computes.writesResult⟩

/-- Settles O32: CMP is SUB and TEST is AND, with the result discarded. -/
theorem compareAndTestForms : Obligations.CompareAndTestForms := fun _ =>
  ⟨aluSub_computes.setsFlagsOnly, aluAnd_computes.setsFlagsOnly, fun _ _ _ r hr =>
    ⟨flagsRmReg_toReg_of r hr, flagsRmReg_toRm_of r hr, _, flagsRmReg_toRm_of r hr⟩⟩

end Sys2Proof.Machine
end

section
/-! One operand: INC, DEC, NEG and NOT (O34), and encodings of one operation (O41; spec/41_arithmetic.md R280). A
register read and written back leaves the registers as they were; the rest is arithmetic on the operand as a number. -/

namespace Sys2Proof.Machine

/-! ## Operands at a width as numbers -/

theorem lowByte_toNat (v : Word) : (lowByte v).toNat = v.toNat % 256 := BitVec.toNat_setWidth ..

theorem highByte_toNat (v : Word) : (highByte v).toNat = v.toNat / 256 := by
  rw [highByte, BitVec.toNat_setWidth, BitVec.toNat_ushiftRight, Nat.shiftRight_eq_div_pow]
  omega

theorem zext16_toNat (b : Byte) : (zext16 b).toNat = b.toNat := by
  rw [zext16, BitVec.toNat_setWidth]
  omega

/-- A byte value has a zero high byte. -/
theorem zext16_lowByte_of_lt {v : Word} (h : v.toNat < 2 ^ bitsOf .byte) : zext16 (lowByte v) = v := by
  apply BitVec.eq_of_toNat_eq
  rw [zext16_toNat, lowByte_toNat]
  exact Nat.mod_eq_of_lt h

theorem reg_toNat_lt (s : State) (w : Width) (c : RegCode) : (s.reg w c).toNat < 2 ^ bitsOf w := by
  cases w with
  | byte => exact (zext16_toNat _).trans_lt (BitVec.isLt _)
  | word => exact BitVec.isLt _

theorem load_toNat_lt (s : State) (w : Width) (seg off : Word) : (s.load w seg off).toNat < 2 ^ bitsOf w := by
  cases w with
  | byte => exact (zext16_toNat _).trans_lt (BitVec.isLt _)
  | word => exact BitVec.isLt _

theorem operand_toNat_lt (s : State) (w : Width) (rm : RM) : (s.operand w rm).toNat < 2 ^ bitsOf w := by
  unfold State.operand
  split
  · exact reg_toNat_lt ..
  · exact load_toNat_lt ..

/-! ## Results -/

theorem clip_word (n : Int) : clip .word n = BitVec.ofInt 16 n := by
  apply BitVec.eq_of_toNat_eq
  simp only [clip, bitsOf, BitVec.toNat_ofInt]
  omega

theorem addResult_word (a b : Word) : addResult .word a b false = a + b := by
  apply BitVec.eq_of_toNat_eq
  rw [addResult, clip_word, addSum, BitVec.toNat_ofInt, BitVec.toNat_add, Bool.toNat_false]
  omega

theorem subResult_word (a b : Word) : subResult .word a b false = a - b := by
  apply BitVec.eq_of_toNat_eq
  rw [subResult, clip_word, BitVec.toNat_ofInt, BitVec.toNat_sub, Bool.toNat_false]
  omega

theorem subResult_toNat_lt (w : Width) (a b : Word) (c : Bool) : (subResult w a b c).toNat < 2 ^ bitsOf w :=
  clip_toNat_lt w _

/-- 0 - (0 - a) = a at every width (spec/41_arithmetic.md R280). -/
theorem subResult_zero_subResult_zero {w : Width} {a : Word} (ha : a.toNat < 2 ^ bitsOf w) :
    subResult w 0 (subResult w 0 a false) false = a := by
  have once : ((subResult w 0 a false).toNat : Int) = _ := clip_toNat w _
  have twice : ((subResult w 0 (subResult w 0 a false) false).toNat : Int) = _ := clip_toNat w _
  have zero : (0 : Word).toNat = 0 := rfl
  have no_borrow : false.toNat = 0 := rfl
  apply BitVec.eq_of_toNat_eq
  rw [zero, no_borrow] at once twice
  cases w <;> simp only [bitsOf] at * <;> omega

/-- NOT of a byte inverts the low byte alone (spec/42_logic.md R291). -/
theorem aluNot_byte {a : Word} (s : State) (ha : a.toNat < 2 ^ bitsOf .byte) : (aluNot .byte a s).1 = a ^^^ 0x00FF := by
  have inverted : a ^^^ 0x00FF = zext16 (~~~lowByte a) := by
    conv_lhs => rw [← zext16_lowByte_of_lt ha, show (0x00FF : Word) = zext16 (BitVec.allOnes 8) from rfl]
    rw [← BitVec.xor_allOnes, zext16, zext16, zext16, BitVec.setWidth_xor]
  have clipped : (((aluNot .byte a s).1).toNat : Int) = (~~~a).toNat % 2 ^ bitsOf .byte := clip_toNat .byte _
  apply BitVec.eq_of_toNat_eq
  rw [inverted, zext16_toNat, BitVec.toNat_not, lowByte_toNat]
  rw [BitVec.toNat_not] at clipped
  simp only [bitsOf] at ha clipped
  omega

theorem aluNot_word (a : Word) (s : State) : (aluNot .word a s).1 = a ^^^ 0xFFFF := by
  have inverted : a ^^^ 0xFFFF = ~~~a := BitVec.xor_allOnes
  show clip .word (~~~a).toNat = _
  rw [inverted, clip_word, BitVec.ofInt_natCast, BitVec.ofNat_toNat, BitVec.setWidth_eq]

/-! ## The operand replaced -/

/-- An r/m operand is read, and written with the result that `op` computes from it. -/
theorem UnOp.OnlyFlags.replacesOperand {op : UnOp} {mk : Width → RM → Instr} {res : Width → Word → Word}
    {after : State → Width → Word → State → Prop} (only : op.OnlyFlags Flags.control)
    (result : ∀ w a s, a.toNat < 2 ^ bitsOf w → (op w a s).1 = res w a) (sets : ∀ s w a, after s w a (op w a s).2)
    (hexec : ∀ w rm s, exec (mk w rm) s = unRm op w rm s := by intros; rfl) : ReplacesOperand mk res after := by
  intro s w rm hw hr hc
  obtain ⟨t, ht, writes⟩ := (only w (s.operand w rm) s).writes (op w (s.operand w rm) s).1 hw hc
  refine ⟨_, t, sets .., ?_, result _ _ s (operand_toNat_lt ..) ▸ writes⟩
  rw [hexec, unRm, readRM_of hr, andThen_next]
  exact ht

theorem execIncReg_eq (r : RegCode) (s : State) : execIncReg r s = .next { s with
    regs := s.regs.set r (s.regs.get r + 1)
    flags := { addFlags .word (s.regs.get r) 1 false s.flags with CF := s.flags.CF } } := by
  rw [← addResult_word]
  rfl

theorem execDecReg_eq (r : RegCode) (s : State) : execDecReg r s = .next { s with
    regs := s.regs.set r (s.regs.get r - 1)
    flags := { subFlags .word (s.regs.get r) 1 false s.flags with CF := s.flags.CF } } := by
  rw [← subResult_word]
  rfl

/-- Settles O34: the four operations on an r/m operand share one form; the one-byte INC and DEC work on a word. -/
theorem oneOperandForms : Obligations.OneOperandForms := by
  refine ⟨?inc, ?dec, ?neg, ?not, fun s r => ⟨execIncReg_eq r s, execDecReg_eq r s⟩⟩
  case inc | dec | neg =>
    exact UnOp.OnlyFlags.replacesOperand (fun _ _ _ => ⟨rfl, rfl⟩) (fun _ _ _ _ => rfl) fun _ _ _ => rfl
  case not =>
    refine UnOp.OnlyFlags.replacesOperand (op := aluNot) (fun _ _ _ => ⟨rfl, rfl⟩) (fun w a s ha => ?_) fun _ _ _ => rfl
    cases w
    · exact aluNot_byte s ha
    · exact aluNot_word a s

/-! ## Registers written again -/

@[simp] theorem set_set (g : Regs) (c : RegCode) (u v : Word) : (g.set c u).set c v = g.set c v := by cases c <;> rfl

@[simp] theorem set_get (g : Regs) (c : RegCode) : g.set c (g.get c) = g := by cases c <;> rfl

@[simp] theorem setByte_getByte (g : Regs) (c : RegCode) : g.setByte c (g.getByte c) = g := by
  unfold Regs.setByte Regs.getByte
  cases RegCode.isHigh c <;> simp

@[simp] theorem setByte_setByte (g : Regs) (c : RegCode) (u v : Byte) :
    (g.setByte c u).setByte c v = g.setByte c v := by
  unfold Regs.setByte
  cases RegCode.isHigh c <;> simp

/-- A register read depends on the registers alone. -/
theorem reg_congr {s t : State} (h : t.regs = s.regs) (w : Width) (c : RegCode) : t.reg w c = s.reg w c := by
  cases w <;> simp only [State.reg, h]

theorem setReg_regs_congr {s t : State} (h : t.regs = s.regs) (w : Width) (c : RegCode) (v : Word) :
    (t.setReg w c v).regs = (s.setReg w c v).regs := by
  cases w <;> simp only [setReg_byte_regs, setReg_word_regs, h]

theorem reg_setReg {w : Width} {v : Word} (s : State) (c : RegCode) (hv : v.toNat < 2 ^ bitsOf w) :
    (s.setReg w c v).reg w c = v := by
  cases w with
  | byte => exact (congrArg zext16 (getByte_setByte_same ..)).trans (zext16_lowByte_of_lt hv)
  | word => exact reg_setReg_word s c v

/-- A register written, then written with what it held before. -/
theorem setReg_setReg_reg_regs (s : State) (w : Width) (c : RegCode) (v : Word) :
    ((s.setReg w c v).setReg w c (s.reg w c)).regs = s.regs := by
  cases w with
  | byte => simp [State.reg, lowByte_zext16]
  | word => simp [State.reg]

/-! ## Encodings that agree -/

theorem exec_negRm_reg (w : Width) (r : RegCode) (s : State) :
    ∃ t, exec (.negRm w (.reg r)) s = .next t ∧ t.regs = (s.setReg w r (subResult w 0 (s.reg w r) false)).regs :=
  ⟨_, rfl, setReg_regs_congr (s := s) (t := (aluNeg w (s.reg w r) s).2) rfl w r _⟩

theorem negTwice_restores (s : State) (w : Width) (r : RegCode) :
    ∃ t u, exec (.negRm w (.reg r)) s = .next t ∧ exec (.negRm w (.reg r)) t = .next u ∧ u.regs = s.regs := by
  obtain ⟨t, ht, once⟩ := exec_negRm_reg w r s
  obtain ⟨u, hu, twice⟩ := exec_negRm_reg w r t
  have back : subResult w 0 (t.reg w r) false = s.reg w r := by
    rw [reg_congr once, reg_setReg s r (subResult_toNat_lt ..), subResult_zero_subResult_zero (reg_toNat_lt s w r)]
  refine ⟨t, u, ht, hu, ?_⟩
  rw [twice, back, setReg_regs_congr once]
  exact setReg_setReg_reg_regs s w r _

/-- Settles O41: register forms read and write the same registers in the same order, whichever encoding names them. -/
theorem equivalentEncodings : Obligations.EquivalentEncodings := fun s w r _ _ _ =>
  ⟨rfl, rfl, rfl, rfl, rfl, rfl, rfl, rfl, ⟨_, _, rfl, rfl, rfl⟩, ⟨_, _, rfl, rfl, rfl⟩, negTwice_restores s w r⟩

end Sys2Proof.Machine
end

section
/-! Adjusts, AAM, AAD, CBW and CWD (spec/41_arithmetic.md R249, R250, R263, R264, R267, R270 to R272; O35, O37): the
accumulator and the flags that each shared ending leaves, with a free value for every flag left undefined. -/

namespace Sys2Proof.Machine

/-! ## Flags of a byte result -/

theorem msb_zext16 (b : Byte) : msb .byte (zext16 b) = b.msb := by
  rw [BitVec.msb_eq_getLsbD_last, msb, zext16, BitVec.getLsbD_setWidth]
  rfl

theorem zero_zext16 (b : Byte) : ((zext16 b).toNat % 2 ^ bitsOf .byte == 0) = (b == 0) := by
  rw [zext16_toNat, bitsOf, Nat.mod_eq_of_lt b.isLt, beq_eq_beq]
  exact BitVec.toNat_inj (y := 0#8)

theorem setSZP_byte (b : Byte) (f : Flags) :
    setSZP .byte (zext16 b) f = { f with SF := b.msb, ZF := b == 0, PF := parity8 (zext16 b) } := by
  rw [setSZP, msb_zext16, zero_zext16]

/-! ## How the adjusts end -/

theorem asciiDone_eq (adj : Bool) (ah al : Byte) (s : State) :
    ∃ f sf zf pf, asciiDone adj ah al s = { s with
      regs := { s.regs with ax := wordOf ah (al &&& 0x0F) }
      flags := { s.flags with AF := adj, CF := adj, OF := f, SF := sf, ZF := zf, PF := pf }
      draws := s.draws + 4 } := ⟨_, _, _, _, rfl⟩

/-- AL is written, and AH stays. -/
theorem setReg_al (s : State) (b : Byte) :
    s.setReg .byte .ax (zext16 b) = { s with regs := { s.regs with ax := wordOf (highByte s.regs.ax) b } } := by
  rw [State.setReg, lowByte_zext16]
  rfl

theorem decimalDone_eq (lo hi : Bool) (al : Byte) (s : State) :
    ∃ f, decimalDone lo hi al s = { s with
      regs := { s.regs with ax := wordOf (highByte s.regs.ax) al }
      flags := { s.flags with AF := lo, CF := hi, OF := f, SF := al.msb, ZF := al == 0, PF := parity8 (zext16 al) }
      draws := s.draws + 1 } := by
  rw [decimalDone, setReg_al, setSZP_byte]
  exact ⟨_, rfl⟩

theorem adjustFlags_eq (al : Byte) (s : State) :
    ∃ f af cf, adjustFlags al s = { s with
      flags := { s.flags with SF := al.msb, ZF := al == 0, PF := parity8 (zext16 al), OF := f, AF := af, CF := cf }
      draws := s.draws + 3 } := by
  rw [adjustFlags, setSZP_byte]
  exact ⟨_, _, _, rfl⟩

/-! ## AAA, AAS, DAA, DAS -/

/-- AX and AL have the same low digit. -/
theorem asciiAdjusts_eq (s : State) :
    asciiAdjusts s = (decide (9 < (lowByte s.regs.ax).toNat % 16) || s.flags.AF) := by
  rw [asciiAdjusts, lowByte_toNat, Nat.mod_mod_of_dvd _ (by decide)]

/-- AAA and AAS: the adjustment of AH and AL, made or not. -/
theorem asciiDone_adjusted {adj : Bool} {ah ah' al al' : Byte} (s : State) :
    ∃ f sf zf pf, asciiDone adj (if adj then ah' else ah) (if adj then al' else al) s = { s with
      regs := { s.regs with ax := if adj then wordOf ah' (al' &&& 0x0F) else wordOf ah (al &&& 0x0F) }
      flags := { s.flags with AF := adj, CF := adj, OF := f, SF := sf, ZF := zf, PF := pf }
      draws := s.draws + 4 } := by
  cases adj <;> exact asciiDone_eq ..

theorem add_if (c : Bool) (a b : Byte) : (if c then a + b else a) = a + if c then b else 0 := by
  cases c
  · exact (BitVec.add_zero a).symm
  · rfl

theorem sub_if (c : Bool) (a b : Byte) : (if c then a - b else a) = a - if c then b else 0 := by
  cases c
  · exact (BitVec.sub_zero a).symm
  · rfl

/-- DAA: AL takes the two corrections one after the other. -/
theorem execDaa_eq (s : State) : execDaa s = .next (decimalDone (asciiAdjusts s) (decimalAdjusts s)
    (lowByte s.regs.ax + (if asciiAdjusts s then 6 else 0) + (if decimalAdjusts s then 0x60 else 0)) s) := by
  rw [← add_if, ← add_if]
  rfl

theorem execDas_eq (s : State) : execDas s = .next (decimalDone (asciiAdjusts s) (decimalAdjusts s)
    (lowByte s.regs.ax - (if asciiAdjusts s then 6 else 0) - (if decimalAdjusts s then 0x60 else 0)) s) := by
  rw [← sub_if, ← sub_if]
  rfl

end Sys2Proof.Machine

namespace Sys2Proof
open Machine

/-- Settles O35: both tests use the state before; the adjustment is made or not, and the flags follow it. (`Machine` has
a `decimalAdjusts` of its own, the second of those tests.) -/
theorem decimalAdjusts : Obligations.DecimalAdjusts := by
  intro s
  dsimp only
  rw [← asciiAdjusts_eq]
  refine ⟨rfl, rfl, rfl, rfl, ?aaa, ?aas, ?daa, ?das⟩
  case aaa | aas =>
    obtain ⟨f, sf, zf, pf, h⟩ := asciiDone_adjusted s
    exact ⟨f, sf, zf, pf, congrArg Host.Outcome.next h⟩
  case daa =>
    obtain ⟨f, h⟩ := decimalDone_eq ..
    exact ⟨f, _, rfl, (execDaa_eq s).trans (congrArg Host.Outcome.next h)⟩
  case das =>
    obtain ⟨f, h⟩ := decimalDone_eq ..
    exact ⟨f, _, rfl, (execDas_eq s).trans (congrArg Host.Outcome.next h)⟩

end Sys2Proof

namespace Sys2Proof.Machine

/-! ## AAM, AAD, CBW, CWD -/

theorem div_ten (b : Byte) : b / 10 = BitVec.ofNat 8 (b.toNat / 10) := by
  apply BitVec.eq_of_toNat_eq
  have ten : (10 : Byte).toNat = 10 := rfl
  rw [BitVec.toNat_udiv, BitVec.toNat_ofNat, ten]
  omega

theorem mod_ten (b : Byte) : b % 10 = BitVec.ofNat 8 (b.toNat % 10) := by
  apply BitVec.eq_of_toNat_eq
  have ten : (10 : Byte).toNat = 10 := rfl
  rw [BitVec.toNat_umod, BitVec.toNat_ofNat, ten]
  omega

theorem mul_ten_add (a b : Byte) : a * 10 + b = BitVec.ofNat 8 (a.toNat * 10 + b.toNat) := by
  simp only [BitVec.ofNat_add, BitVec.ofNat_mul, BitVec.ofNat_toNat, BitVec.setWidth_eq]
  rfl

theorem wordOf_zero (b : Byte) : wordOf 0 b = zext16 b := by
  apply BitVec.eq_of_toNat_eq
  rw [wordOf_toNat, zext16_toNat]
  exact Nat.zero_add _

/-- The second byte of AAM and AAD is 0Ah and no other (spec/30_encoding.md R150). -/
theorem decodeOne_aam_aad_unassigned {b : Byte} (rest : List Byte) (hb : b ≠ 0x0A) :
    decodeOne (0xD4 :: b :: rest) = .error .unassigned ∧ decodeOne (0xD5 :: b :: rest) = .error .unassigned := by
  have other : b.toNat ≠ 0x0A := fun h => hb (BitVec.eq_of_toNat_eq h)
  constructor <;>
  · rw [decodeOne_unassigned_iff, findRow_eq_none_iff_listed]
    simp [listedUnassigned, other]

theorem execAam_eq (s : State) :
    execAam s = .next (adjustFlags (.ofNat 8 ((lowByte s.regs.ax).toNat % 10))
      (s.setReg .word .ax
        (wordOf (.ofNat 8 ((lowByte s.regs.ax).toNat / 10)) (.ofNat 8 ((lowByte s.regs.ax).toNat % 10))))) := by
  rw [← mod_ten, ← div_ten]
  rfl

theorem execAad_eq (s : State) :
    execAad s = .next (adjustFlags (.ofNat 8 ((highByte s.regs.ax).toNat * 10 + (lowByte s.regs.ax).toNat))
      (s.setReg .word .ax (zext16 (.ofNat 8 ((highByte s.regs.ax).toNat * 10 + (lowByte s.regs.ax).toNat))))) := by
  rw [← mul_ten_add, ← wordOf_zero]
  rfl

/-- Settles O37: the digits are quotient and remainder by 10, and their flags those of the byte left in AL. -/
theorem asciiMultiplyDivideAndExtensions : Obligations.AsciiMultiplyDivideAndExtensions := by
  refine ⟨rfl, rfl, rfl, rfl, fun _ rest hb => decodeOne_aam_aad_unassigned rest hb, fun s => ⟨?aam, ?aad, rfl, rfl⟩⟩
  case aam =>
    obtain ⟨f, af, cf, h⟩ := adjustFlags_eq _ (s.setReg .word .ax _)
    exact ⟨f, af, cf, (execAam_eq s).trans (congrArg Host.Outcome.next h)⟩
  case aad =>
    obtain ⟨f, af, cf, h⟩ := adjustFlags_eq _ (s.setReg .word .ax _)
    exact ⟨f, af, cf, (execAad_eq s).trans (congrArg Host.Outcome.next h)⟩

end Sys2Proof.Machine
end

section
/-! Products (spec/41_arithmetic.md R265, R266; O36): AX or DX:AX as a number is the product, since no product of two
operands overflows twice their width. -/

namespace Sys2Proof.Machine

/-! ## What MUL and IMUL answer -/

section
variable {s : State} {w : Width} {rm : RM}

theorem execMulRm_of (hr : canReadRM w rm s = true) : execMulRm w rm s =
    .next (productFlags (decide (2 ^ bitsOf w ≤ (s.acc w).toNat * (s.operand w rm).toNat))
      (s.setProduct w ((s.acc w).toNat * (s.operand w rm).toNat : Nat))) := by
  rw [execMulRm, readRM_of hr, andThen_next]

theorem execImulRm_of (hr : canReadRM w rm s = true) : execImulRm w rm s =
    .next (productFlags (decide (signedOf w (clip w (signedOf w (s.acc w) * signedOf w (s.operand w rm))) ≠
        signedOf w (s.acc w) * signedOf w (s.operand w rm)))
      (s.setProduct w (signedOf w (s.acc w) * signedOf w (s.operand w rm)))) := by
  rw [execImulRm, readRM_of hr, andThen_next]

/-- A product changes AX, DX, the status flags and the draws, and nothing else. -/
theorem productFlags_setProduct_frame (s : State) (w : Width) (wide : Bool) (p : Int) :
    productFlags wide (s.setProduct w p) = { s with
      regs := { s.regs with
        ax := (productFlags wide (s.setProduct w p)).regs.ax
        dx := (productFlags wide (s.setProduct w p)).regs.dx }
      flags := { (productFlags wide (s.setProduct w p)).flags with
        TF := s.flags.TF, IF := s.flags.IF, DF := s.flags.DF }
      draws := (productFlags wide (s.setProduct w p)).draws } := by
  cases w <;> rfl

end

/-! ## Factors -/

theorem signedOf_byte (v : Word) : signedOf .byte v = (lowByte v).toInt := rfl

theorem acc_byte_toNat (s : State) : (s.acc .byte).toNat = (lowByte s.regs.ax).toNat := zext16_toNat _

theorem signedOf_acc_byte (s : State) : signedOf .byte (s.acc .byte) = (lowByte s.regs.ax).toInt := by
  rw [signedOf_byte, lowByte_acc]

theorem signedOf_bounds (w : Width) (v : Word) :
    -2 ^ (bitsOf w - 1) ≤ signedOf w v ∧ signedOf w v < 2 ^ (bitsOf w - 1) := by
  cases w <;> exact ⟨BitVec.le_toInt _, BitVec.toInt_lt⟩

theorem mul_bounds {a b m : Int} (ha : -m ≤ a ∧ a < m) (hb : -m ≤ b ∧ b < m) : -(m * m) ≤ a * b ∧ a * b ≤ m * m := by
  have abs_a : |a| ≤ m := abs_le.2 ⟨ha.1, ha.2.le⟩
  have abs_b : |b| ≤ m := abs_le.2 ⟨hb.1, hb.2.le⟩
  rw [← abs_le, abs_mul]
  exact mul_le_mul abs_a abs_b (abs_nonneg b) ((abs_nonneg a).trans abs_a)

/-! ## A number in AX or in DX:AX -/

section
variable {p : Nat} {i : Int}

theorem toNat_ofInt_word (h : p < 2 ^ 16) : (BitVec.ofInt 16 p).toNat = p := by
  rw [BitVec.ofInt_natCast, BitVec.toNat_ofNat, Nat.mod_eq_of_lt h]

theorem toInt_ofInt_word (h : -2 ^ 15 ≤ i ∧ i < 2 ^ 15) : (BitVec.ofInt 16 i).toInt = i := by
  rw [BitVec.toInt_ofInt, Int.bmod_eq_of_le] <;> omega

theorem toNat_halves (h : p < 2 ^ 32) :
    (BitVec.ofInt 16 (p / 2 ^ 16)).toNat * 2 ^ 16 + (BitVec.ofInt 16 p).toNat = p := by
  rw [BitVec.toNat_ofInt, BitVec.toNat_ofInt]
  omega

theorem toInt_halves (h : -2 ^ 31 ≤ i ∧ i < 2 ^ 31) :
    (BitVec.ofInt 16 (i / 2 ^ 16)).toInt * 2 ^ 16 + (BitVec.ofInt 16 i).toNat = i := by
  rw [toInt_ofInt_word (by omega), BitVec.toNat_ofInt]
  omega

/-- The product does not fit AL exactly when AH is not 0. -/
theorem high_ne_zero_iff (v : Word) : highByte v ≠ 0 ↔ 2 ^ 8 ≤ v.toNat := by
  have zero : (0 : Byte).toNat = 0 := rfl
  rw [ne_eq, ← BitVec.toNat_inj, highByte_toNat, zero]
  omega

/-- The product does not fit AX exactly when DX is not 0. -/
theorem ofInt_high_ne_zero_iff (h : p < 2 ^ 32) : BitVec.ofInt 16 (p / 2 ^ 16) ≠ 0 ↔ 2 ^ 16 ≤ p := by
  have zero : (0 : Word).toNat = 0 := rfl
  rw [ne_eq, ← BitVec.toNat_inj, BitVec.toNat_ofInt, zero]
  omega

theorem lowByte_clip (i : Int) : lowByte (clip .byte i) = lowByte (BitVec.ofInt 16 i) := by
  have clipped := clip_toNat .byte i
  apply BitVec.eq_of_toNat_eq
  rw [lowByte_toNat, lowByte_toNat, BitVec.toNat_ofInt]
  simp only [bitsOf] at clipped
  omega

/-- AL holds AX exactly when AX is AL sign-extended. -/
theorem sext16_eq_iff (b : Byte) (v : Word) : sext16 b = v ↔ b.toInt = v.toInt := by
  rw [← BitVec.toInt_inj, sext16, BitVec.toInt_signExtend_of_le (by decide)]

end

/-! ## The two instructions -/

/-- An unsigned product fits twice the width. -/
theorem acc_mul_operand_lt (s : State) (w : Width) (rm : RM) :
    (s.acc w).toNat * (s.operand w rm).toNat < 2 ^ bitsOf w * 2 ^ bitsOf w :=
  Nat.mul_lt_mul'' (reg_toNat_lt s w .ax) (operand_toNat_lt s w rm)

/-- Settles O36: the bounds on the factors bound the product, and CF says what does not fit its low half. -/
theorem products : Obligations.Products := by
  intro s w rm hr
  refine ⟨⟨_, execMulRm_of hr, productFlags_setProduct_frame .., ?mulByte, ?mulWord, rfl⟩,
    ⟨_, execImulRm_of hr, productFlags_setProduct_frame .., ?imulByte, ?imulWord, rfl⟩⟩
  case mulByte =>
    rintro rfl
    have ax := toNat_ofInt_word (acc_mul_operand_lt s .byte rm)
    refine ⟨rfl, ax.trans (congrArg (· * _) (acc_byte_toNat s)), decide_eq_decide.2 ?_⟩
    exact (ax ▸ high_ne_zero_iff _).symm
  case mulWord =>
    rintro rfl
    have fits := acc_mul_operand_lt s .word rm
    exact ⟨toNat_halves fits, decide_eq_decide.2 (ofInt_high_ne_zero_iff fits).symm⟩
  case imulByte =>
    rintro rfl
    have bounds := mul_bounds (signedOf_bounds .byte (s.acc .byte)) (signedOf_bounds .byte (s.operand .byte rm))
    have ax := toInt_ofInt_word (i := signedOf .byte (s.acc .byte) * signedOf .byte (s.operand .byte rm))
      (by simp only [bitsOf] at bounds; omega)
    refine ⟨rfl, ax.trans (congrArg (· * _) (signedOf_acc_byte s)), decide_eq_decide.2 (not_congr ?_)⟩
    rw [signedOf_byte, lowByte_clip]
    exact (ax ▸ sext16_eq_iff ..).symm
  case imulWord =>
    rintro rfl
    have bounds := mul_bounds (signedOf_bounds .word (s.acc .word)) (signedOf_bounds .word (s.operand .word rm))
    refine ⟨toInt_halves (by simp only [bitsOf] at bounds; omega), decide_eq_decide.2 (not_congr ?_)⟩
    rw [clip_word]
    exact eq_comm

end Sys2Proof.Machine
end

section
/-! DIV and IDIV (spec/41_arithmetic.md R268, R269; O38, O39): quotient and remainder where the quotient fits, else the
divide error. -/

namespace Sys2Proof.Machine

section
variable {s : State} {w : Width} {rm : RM}

/-! ## The two outcomes -/

theorem execDivRm_of (hr : canReadRM w rm s = true) : execDivRm w rm s =
    if (s.operand w rm).toNat = 0 ∨ 2 ^ bitsOf w ≤ s.dividend w / (s.operand w rm).toNat then divideError s
    else .next (State.undef allStatus (s.setQuotient w (s.dividend w / (s.operand w rm).toNat : Nat)
      (s.dividend w % (s.operand w rm).toNat : Nat))) := by
  rw [execDivRm, readRM_of hr, andThen_next]

theorem execIdivRm_of (hr : canReadRM w rm s = true) : execIdivRm w rm s =
    if signedOf w (s.operand w rm) = 0 ∨ quotientMax w < (s.signedDividend w).tdiv (signedOf w (s.operand w rm)) ∨
        (s.signedDividend w).tdiv (signedOf w (s.operand w rm)) < quotientMin w then divideError s
    else .next (State.undef allStatus (s.setQuotient w ((s.signedDividend w).tdiv (signedOf w (s.operand w rm)))
      ((s.signedDividend w).tmod (signedOf w (s.operand w rm))))) := by
  rw [execIdivRm, readRM_of hr, andThen_next]

/-- A division changes AX, DX, the status flags and the draws, and nothing else. -/
theorem undef_setQuotient_eq (s : State) (w : Width) (q r : Int) : ∃ (f : Flags) (n : Nat),
    State.undef allStatus (s.setQuotient w q r) = { s with
      regs := (s.setQuotient w q r).regs
      flags := { f with TF := s.flags.TF, IF := s.flags.IF, DF := s.flags.DF }
      draws := n } := by
  cases w <;> exact ⟨(State.undef allStatus (s.setQuotient _ q r)).flags, _, rfl⟩

/-- The divide error saves the address of the next instruction (spec/60_exceptions.md R507; log 18). -/
theorem divideError_of (hw : s.mem.wf = true) (hi : canInterrupt 0 s = true) :
    ∃ t, divideError s = .next t ∧ Interrupted 0 s.ip s t := by
  obtain ⟨t, ht, taken, -⟩ := interruptSequence_of s.ip hi hw
  exact ⟨t, ht, taken⟩

/-! ## Where the quotient fits -/

/-- `n = q * d + r` with `r < d` says what the quotient and the remainder are. -/
theorem div_completes {q r : Nat} (hr : canReadRM w rm s = true) (hq : q < 2 ^ bitsOf w)
    (hn : s.dividend w = q * (s.operand w rm).toNat + r) (hlt : r < (s.operand w rm).toNat) :
    ∃ (f : Flags) (n : Nat), execDivRm w rm s = .next { s with
      regs := (s.setQuotient w q r).regs
      flags := { f with TF := s.flags.TF, IF := s.flags.IF, DF := s.flags.DF }
      draws := n } := by
  have pos : 0 < (s.operand w rm).toNat := Nat.zero_lt_of_lt hlt
  obtain ⟨quot, rem⟩ : s.dividend w / (s.operand w rm).toNat = q ∧ s.dividend w % (s.operand w rm).toNat = r :=
    (Nat.div_mod_unique pos).2 ⟨by rw [hn, Nat.mul_comm]; exact Nat.add_comm .., hlt⟩
  obtain ⟨f, n, h⟩ := undef_setQuotient_eq s w q r
  refine ⟨f, n, ?_⟩
  rw [execDivRm_of hr, quot, rem, if_neg (not_or.2 ⟨pos.ne', hq.not_ge⟩), h]

theorem idiv_completes {q r : Int} (hr : canReadRM w rm s = true) (hd : signedOf w (s.operand w rm) ≠ 0)
    (hmin : quotientMin w ≤ q) (hmax : q ≤ quotientMax w)
    (quot : q = (s.signedDividend w).tdiv (signedOf w (s.operand w rm)))
    (rem : r = (s.signedDividend w).tmod (signedOf w (s.operand w rm))) :
    ∃ (f : Flags) (n : Nat), execIdivRm w rm s = .next { s with
      regs := (s.setQuotient w q r).regs
      flags := { f with TF := s.flags.TF, IF := s.flags.IF, DF := s.flags.DF }
      draws := n } := by
  obtain ⟨f, n, h⟩ := undef_setQuotient_eq s w q r
  refine ⟨f, n, ?_⟩
  rw [execIdivRm_of hr, ← quot, ← rem, if_neg (not_or.2 ⟨hd, not_or.2 ⟨hmax.not_gt, hmin.not_gt⟩⟩), h]

/-! ## Where quotient and remainder go -/

theorem setQuotient_byte_regs (s : State) {q r : Byte} {i j : Int} (hq : BitVec.ofInt 8 i = q)
    (hr : BitVec.ofInt 8 j = r) : (s.setQuotient .byte i j).regs = { s.regs with ax := wordOf r q } := by
  rw [← hq, ← hr]
  rfl

theorem setQuotient_word_regs (s : State) {q r : Word} {i j : Int} (hq : BitVec.ofInt 16 i = q)
    (hr : BitVec.ofInt 16 j = r) : (s.setQuotient .word i j).regs = { s.regs with ax := q, dx := r } := by
  rw [← hq, ← hr]
  rfl

theorem ofInt_toNat {n : Nat} (v : BitVec n) : BitVec.ofInt n v.toNat = v := by
  rw [BitVec.ofInt_natCast, BitVec.ofNat_toNat, BitVec.setWidth_eq]

theorem toInt_le_quotientMax (w : Width) (q : BitVec (bitsOf w)) : q.toInt ≤ quotientMax w :=
  Int.le_sub_one_of_lt BitVec.toInt_lt

end

/-- Settles O38: the premises name the quotient and the remainder that the division computes. -/
theorem quotients : Obligations.Quotients := by
  intro s rm
  refine ⟨fun hr => ⟨fun q r _ hn hlt => ?divByte, fun q r hd hmin hq hm => ?idivByte⟩,
    fun hr => ⟨fun q r _ hn hlt => ?divWord, fun q r hd hmin hq hm => ?idivWord⟩⟩
  case divByte =>
    rw [← setQuotient_byte_regs s (ofInt_toNat q) (ofInt_toNat r)]
    exact div_completes hr q.isLt hn hlt
  case idivByte =>
    rw [← setQuotient_byte_regs s BitVec.ofInt_toInt BitVec.ofInt_toInt]
    exact idiv_completes hr hd hmin (toInt_le_quotientMax .byte q) hq hm
  case divWord =>
    rw [← setQuotient_word_regs s (ofInt_toNat q) (ofInt_toNat r)]
    exact div_completes hr q.isLt hn hlt
  case idivWord =>
    rw [← setQuotient_word_regs s BitVec.ofInt_toInt BitVec.ofInt_toInt]
    exact idiv_completes hr hd hmin (toInt_le_quotientMax .word q) hq hm

/-! ## Where it does not -/

section
variable {s : State} {w : Width} {rm : RM}

theorem div_takesDivideError (hw : s.mem.wf = true) (hi : canInterrupt 0 s = true) (hr : canReadRM w rm s = true)
    (h : s.operand w rm = 0 ∨ 2 ^ bitsOf w ≤ s.dividend w / (s.operand w rm).toNat) :
    ∃ t, execDivRm w rm s = .next t ∧ Interrupted 0 s.ip s t := by
  have out_of_range : (s.operand w rm).toNat = 0 ∨ _ := h.imp_left (congrArg BitVec.toNat)
  rw [execDivRm_of hr, if_pos out_of_range]
  exact divideError_of hw hi

theorem idiv_takesDivideError (hw : s.mem.wf = true) (hi : canInterrupt 0 s = true) (hr : canReadRM w rm s = true)
    (h : signedOf w (s.operand w rm) = 0 ∨ quotientMax w < (s.signedDividend w).tdiv (signedOf w (s.operand w rm)) ∨
      (s.signedDividend w).tdiv (signedOf w (s.operand w rm)) < quotientMin w) :
    ∃ t, execIdivRm w rm s = .next t ∧ Interrupted 0 s.ip s t := by
  rw [execIdivRm_of hr, if_pos h]
  exact divideError_of hw hi

end

/-- Settles O39: at both widths the bounds in the premise are those of the quotient's range. -/
theorem divideErrorTaken : Obligations.DivideErrorTaken := fun _ _ hw hi =>
  ⟨fun hr => ⟨div_takesDivideError hw hi hr, idiv_takesDivideError hw hi hr⟩,
    fun hr => ⟨div_takesDivideError hw hi hr, idiv_takesDivideError hw hi hr⟩⟩

end Sys2Proof.Machine
end

section
/-! AND, OR and XOR (spec/42_logic.md R300 to R302, R306 to R311; O33), and the flags of the shifts and rotates
(spec/42_logic.md R299; O42). -/

namespace Sys2Proof.Machine

/-! ## AND, OR, XOR -/

theorem aluOr_computes : BinOp.Computes aluOr (fun _ _ a b => a ||| b) (AfterLogic (· ||| ·)) :=
  ⟨fun _ _ _ _ => rfl, fun _ _ _ _ => ⟨_, rfl⟩, fun _ _ _ _ => ⟨rfl, rfl⟩⟩

theorem aluXor_computes : BinOp.Computes aluXor (fun _ _ a b => a ^^^ b) (AfterLogic (· ^^^ ·)) :=
  ⟨fun _ _ _ _ => rfl, fun _ _ _ _ => ⟨_, rfl⟩, fun _ _ _ _ => ⟨rfl, rfl⟩⟩

/-- Settles O33: the three operations share the forms of R240 and the flags of `LogicFlags`. -/
theorem logicForms : Obligations.LogicForms :=
  ⟨aluAnd_computes.writesResult, aluOr_computes.writesResult, aluXor_computes.writesResult⟩

/-! ## Shifts and rotates: completion and flags -/

/-- OF is the instruction's own for a count of 1, and any value for more. -/
theorem setOverflow_eq (op : Shifter) (w : Width) (n : Nat) (x r : Word) (c : Bool) (s : State) :
    ∃ o d, op.setOverflow w n x r c s = { s with flags := { s.flags with OF := o }, draws := d } ∧
      (n = 1 → o = op.overflow w x r c) := by
  unfold Shifter.setOverflow
  split
  · exact ⟨_, _, rfl, fun _ => rfl⟩
  · next more => exact ⟨_, _, rfl, fun once => absurd once more⟩

/-- OF is set first; SF, ZF, AF and PF are then set by a shift and kept by a rotate. -/
theorem afterShift_setFlags (op : Shifter) (w : Width) (n : Nat) (x r : Word) (c : Bool) (s : State) :
    AfterShift op w n x r c s (op.setFlags w n x r c s) := by
  refine ⟨(setFlags_onlyFlags ..).1, fun hn => if_pos hn, fun hn => ?_⟩
  obtain ⟨o, d, overflow, once⟩ := setOverflow_eq op w n x r c { s with flags := { s.flags with CF := c } }
  rw [Shifter.setFlags, if_neg hn, overflow, Shifter.setResult]
  cases shift : op.isShift with
  | true => exact ⟨rfl, rfl, rfl, rfl, once, fun _ => ⟨rfl, rfl, rfl⟩, nofun⟩
  | false => exact ⟨rfl, rfl, rfl, rfl, once, nofun, fun _ => ⟨rfl, rfl, rfl, rfl⟩⟩

/-- The operand is read, its flags are set, and it is written back, also with a count of 0. -/
theorem shiftRm_shiftsOperand {mk : Count → Width → RM → Instr} {op : Shifter}
    (hexec : ∀ v w rm s, exec (mk v w rm) s = shiftRm op v w rm s := by intros; rfl) : ShiftsOperand mk op := by
  intro s v w rm hw hr hc
  obtain ⟨t, ht, writes⟩ := (setFlags_onlyFlags op w (s.shiftCount v) (s.operand w rm) ..).writes
    (op.run w (s.shiftCount v) (s.operand w rm) s.flags.CF).1 hw hc
  refine ⟨_, t, afterShift_setFlags .., ?_, writes⟩
  rw [hexec, shiftRm, readRM_of hr, andThen_next]
  exact ht

/-- Settles O42: the seven instructions are one operation over their `Shifter`. -/
theorem shiftAndRotateForms : Obligations.ShiftAndRotateForms :=
  ⟨shiftRm_shiftsOperand, shiftRm_shiftsOperand, shiftRm_shiftsOperand, shiftRm_shiftsOperand, shiftRm_shiftsOperand,
    shiftRm_shiftsOperand, shiftRm_shiftsOperand⟩

end Sys2Proof.Machine
end

section
/-! Turning the bits of a number (what spec/42_logic.md R295 to R298 do; O43): one bit at a time, any count is a turn by
the count modulo the number of bits. -/

namespace Sys2Proof.Machine

/-! ## One bit, and k bits to the right -/

/-- The lowest bit of `v`, a number of `m` bits, goes to the top. -/
def turnRightOnce (m v : Nat) : Nat := v / 2 + v % 2 * 2 ^ (m - 1)

/-- The top bit of `v`, a number of `m` bits, goes to the bottom. -/
def turnLeftOnce (m v : Nat) : Nat := 2 * (v % 2 ^ (m - 1)) + v / 2 ^ (m - 1)

/-- The `k` lowest bits of `v`, a number of `m` bits, stand above the others. -/
def turnedRight (m k v : Nat) : Nat := v / 2 ^ k + v % 2 ^ k * 2 ^ (m - k)

section
variable {m k v : Nat}

theorem turnedRight_zero (m v : Nat) : turnedRight m 0 v = v := by simp [turnedRight, Nat.mod_one]

theorem turnedRight_self (hv : v < 2 ^ m) : turnedRight m m v = v := by
  simp [turnedRight, Nat.div_eq_of_lt hv, Nat.mod_eq_of_lt hv]

theorem turnedRight_lt (hk : k ≤ m) (hv : v < 2 ^ m) : turnedRight m k v < 2 ^ m := by
  have split : 2 ^ m = 2 ^ k * 2 ^ (m - k) := by rw [← pow_add, Nat.add_sub_cancel' hk]
  have high : v / 2 ^ k < 2 ^ (m - k) := Nat.div_lt_of_lt_mul (split ▸ hv)
  have low : v % 2 ^ k + 1 ≤ 2 ^ k := Nat.mod_lt _ (by positivity)
  calc turnedRight m k v < (v % 2 ^ k + 1) * 2 ^ (m - k) := by rw [turnedRight, add_one_mul]; omega
    _ ≤ 2 ^ m := split ▸ Nat.mul_le_mul_right _ low

/-- One more turn to the right. -/
theorem turnRightOnce_turnedRight (hk : k < m) (v : Nat) :
    turnRightOnce m (turnedRight m k v) = turnedRight m (k + 1) v := by
  obtain ⟨j, rfl⟩ := Nat.exists_eq_add_of_lt hk
  have next : v % 2 ^ (k + 1) = v % 2 ^ k + 2 ^ k * (v / 2 ^ k % 2) := Nat.mod_mul ..
  have even : v % 2 ^ k * 2 ^ (j + 1) = 2 * (v % 2 ^ k * 2 ^ j) := by ring
  have above : k + j + 1 - k = j + 1 := by omega
  have above_next : k + j + 1 - (k + 1) = j := by omega
  rw [turnRightOnce, turnedRight, turnedRight, next, above, above_next, Nat.add_sub_cancel, even,
    Nat.add_mul_div_left _ _ two_pos, Nat.add_mul_mod_self_left, Nat.div_div_eq_div_mul, ← pow_succ]
  ring

theorem turnLeftOnce_turnRightOnce (hm : 0 < m) (hv : v < 2 ^ m) : turnLeftOnce m (turnRightOnce m v) = v := by
  obtain ⟨j, rfl⟩ := Nat.exists_eq_add_of_lt hm
  have half : v / 2 < 2 ^ j := by rw [zero_add, pow_succ] at hv; omega
  rw [turnLeftOnce, turnRightOnce]
  simp only [zero_add, Nat.add_sub_cancel, Nat.add_mul_mod_self_right, Nat.mod_eq_of_lt half,
    Nat.add_mul_div_right _ _ (Nat.two_pow_pos j), Nat.div_eq_of_lt half]
  omega

theorem turnRightOnce_iterate (hk : k ≤ m) (v : Nat) : (turnRightOnce m)^[k] v = turnedRight m k v := by
  induction k with
  | zero => exact (turnedRight_zero m v).symm
  | succ k ih => rw [Function.iterate_succ_apply', ih (by omega), turnRightOnce_turnedRight hk]

/-- Turning left undoes turns to the right, of which `m` make a whole one. -/
theorem turnLeftOnce_iterate (hk : k ≤ m) (hv : v < 2 ^ m) : (turnLeftOnce m)^[k] v = turnedRight m (m - k) v := by
  induction k with
  | zero => exact (turnedRight_self hv).symm
  | succ k ih =>
    have before : m - k = m - (k + 1) + 1 := by omega
    rw [Function.iterate_succ_apply', ih (by omega), before, ← turnRightOnce_turnedRight (by omega),
      turnLeftOnce_turnRightOnce (by omega) (turnedRight_lt (by omega) hv)]

end

/-! ## Any count -/

/-- The bits of `v`, a number of `m` bits, turned left by any count, as `Obligations.ShiftAndRotateResults` says. -/
def turned (m k v : Nat) : Nat := (v * 2 ^ (k % m) + v / 2 ^ (m - k % m)) % 2 ^ m

section
variable {m v : Nat} (hm : 0 < m) (hv : v < 2 ^ m) (n : Nat)
include hm hv

theorem turned_eq_turnedRight : turned m n v = turnedRight m (m - n % m) v := by
  have hk : n % m < m := Nat.mod_lt n hm
  have split : 2 ^ m = 2 ^ (m - n % m) * 2 ^ (n % m) := by rw [← pow_add, Nat.sub_add_cancel hk.le]
  have kept : v * 2 ^ (n % m) % 2 ^ m = v % 2 ^ (m - n % m) * 2 ^ (n % m) := by rw [split, Nat.mul_mod_mul_right]
  have small := turnedRight_lt (Nat.sub_le m (n % m)) hv
  rw [turnedRight, Nat.sub_sub_self hk.le] at *
  rw [turned, ← Nat.mod_add_mod, kept, Nat.add_comm, Nat.mod_eq_of_lt small]

theorem turned_eq_iterate_left : turned m n v = (turnLeftOnce m)^[n] v := by
  have period : Function.IsPeriodicPt (turnLeftOnce m) m v := by
    rw [Function.IsPeriodicPt, Function.IsFixedPt, turnLeftOnce_iterate le_rfl hv, Nat.sub_self, turnedRight_zero]
  rw [← period.iterate_mod_apply, turnLeftOnce_iterate (Nat.mod_lt n hm).le hv, turned_eq_turnedRight hm hv]

theorem turned_eq_iterate_right : turned m (m - n % m) v = (turnRightOnce m)^[n] v := by
  have period : Function.IsPeriodicPt (turnRightOnce m) m v := by
    rw [Function.IsPeriodicPt, Function.IsFixedPt, turnRightOnce_iterate le_rfl, turnedRight_self hv]
  have hk : n % m < m := Nat.mod_lt n hm
  rw [← period.iterate_mod_apply, turnRightOnce_iterate hk.le, turned_eq_turnedRight hm hv]
  rcases Nat.eq_zero_or_pos (n % m) with whole | part
  · rw [whole, Nat.sub_zero, Nat.mod_self, Nat.sub_zero, turnedRight_self hv, turnedRight_zero]
  · rw [Nat.mod_eq_of_lt (Nat.sub_lt hm part), Nat.sub_sub_self hk.le]

end

end Sys2Proof.Machine
end

section
/-! What shifts and rotates compute (spec/42_logic.md R292 to R299; O43): each step is an operation on a number, and a
run is that operation repeated. -/

namespace Sys2Proof.Machine

/-! ## One step and a run -/

theorem bitsOf_pos (w : Width) : 0 < bitsOf w := by cases w <;> decide

section
variable {w : Width} {x : Word}

theorem leftIn_toNat (w : Width) (x : Word) (c : Bool) :
    (leftIn w x c).toNat = (2 * x.toNat + c.toNat) % 2 ^ bitsOf w := by
  exact_mod_cast clip_toNat w (2 * x.toNat + c.toNat)

/-- The bit that comes in is the bottom one. -/
theorem bottom_leftIn (w : Width) (x : Word) (c : Bool) : c = decide ((leftIn w x c).toNat % 2 = 1) := by
  have hc := c.toNat_le
  rw [Bool.eq_iff_iff, decide_eq_true_iff, ← Bool.toNat_eq_one, leftIn_toNat]
  cases w <;> simp only [bitsOf] <;> omega

theorem rightIn_toNat (hx : x.toNat < 2 ^ bitsOf w) (c : Bool) :
    (rightIn w x c).toNat = x.toNat / 2 + c.toNat * 2 ^ (bitsOf w - 1) := by
  have clipped : ((rightIn w x c).toNat : Int) = _ := clip_toNat w _
  have hc := c.toNat_le
  cases w <;> simp only [bitsOf] at * <;> omega

/-- The bit that comes in is the top one. -/
theorem top_rightIn (hx : x.toNat < 2 ^ bitsOf w) (c : Bool) :
    c = decide (2 ^ (bitsOf w - 1) ≤ (rightIn w x c).toNat) := by
  have hc := c.toNat_le
  rw [Bool.eq_iff_iff, decide_eq_true_iff, ← Bool.toNat_eq_one, rightIn_toNat hx]
  cases w <;> simp only [bitsOf] at * <;> omega

/-- The top bit as a number. -/
theorem msb_toNat (hx : x.toNat < 2 ^ bitsOf w) : (msb w x).toNat = x.toNat / 2 ^ (bitsOf w - 1) := by
  rw [msb, BitVec.getLsbD, Nat.toNat_testBit]
  cases w <;> simp only [bitsOf] at * <;> omega

theorem getLsbD_zero_eq_decide (x : Word) : x.getLsbD 0 = decide (x.toNat % 2 = 1) := by
  rw [BitVec.getLsbD, Nat.testBit_zero]

/-- The bottom bit as a number. -/
theorem getLsbD_zero_toNat (x : Word) : (x.getLsbD 0).toNat = x.toNat % 2 := by
  rw [BitVec.getLsbD, Nat.toNat_testBit, pow_zero, Nat.div_one]

/-- The bit below the top one. -/
theorem getLsbD_second_eq_decide (w : Width) (x : Word) :
    x.getLsbD (bitsOf w - 2) = decide (2 ^ (bitsOf w - 2) ≤ x.toNat % 2 ^ (bitsOf w - 1)) := by
  rw [BitVec.getLsbD, Nat.testBit_eq_decide_div_mod_eq, decide_eq_decide]
  cases w <;> simp only [bitsOf] <;> omega

end

section
variable {op : Shifter} {w : Width} {x : Word}

/-- Every step answers a value of the operand's width, since it clips its result. -/
def Shifter.Narrow (op : Shifter) : Prop := ∀ w p, (op.step w p).1.toNat < 2 ^ bitsOf w

theorem Shifter.run_succ (op : Shifter) (w : Width) (n : Nat) (x : Word) (c : Bool) :
    op.run w (n + 1) x c = op.step w (op.run w n x c) := by
  induction n generalizing x c with
  | zero => rfl
  | succ n ih => exact ih ..

theorem Shifter.Narrow.run_lt (h : op.Narrow) (hx : x.toNat < 2 ^ bitsOf w) (n : Nat) (c : Bool) :
    (op.run w n x c).1.toNat < 2 ^ bitsOf w := by
  cases n with
  | zero => exact hx
  | succ n =>
    rw [op.run_succ]
    exact h ..

/-- If a step acts on `value` of operand and CF as `g`, then a run is `g` repeated. -/
theorem Shifter.Narrow.value_run {α : Type} {value : Word × Bool → α} {g : α → α} (h : op.Narrow)
    (step : ∀ p : Word × Bool, p.1.toNat < 2 ^ bitsOf w → value (op.step w p) = g (value p))
    (hx : x.toNat < 2 ^ bitsOf w) (n : Nat) (c : Bool) : value (op.run w n x c) = g^[n] (value (x, c)) := by
  induction n with
  | zero => rfl
  | succ n ih => rw [op.run_succ, step _ (h.run_lt hx n c), ih, Function.iterate_succ_apply']

theorem narrow_shiftLeft : shiftLeft.Narrow := fun _ _ => clip_toNat_lt ..

theorem narrow_shiftRight : shiftRight.Narrow := fun _ _ => clip_toNat_lt ..

theorem narrow_shiftArithRight : shiftArithRight.Narrow := fun _ _ => clip_toNat_lt ..

theorem narrow_rotateLeft : rotateLeft.Narrow := fun _ _ => clip_toNat_lt ..

theorem narrow_rotateRight : rotateRight.Narrow := fun _ _ => clip_toNat_lt ..

theorem narrow_rotateCarryLeft : rotateCarryLeft.Narrow := fun _ _ => clip_toNat_lt ..

theorem narrow_rotateCarryRight : rotateCarryRight.Narrow := fun _ _ => clip_toNat_lt ..

end

/-! ## Shifts multiply and divide by 2^count -/

section
variable {w : Width} {x : Word} (hx : x.toNat < 2 ^ bitsOf w) (n : Nat) (c : Bool)
include hx

theorem shiftLeft_run_toNat : (shiftLeft.run w n x c).1.toNat = x.toNat * 2 ^ n % 2 ^ bitsOf w := by
  induction n with
  | zero => rw [pow_zero, mul_one, Nat.mod_eq_of_lt hx]; rfl
  | succ n ih =>
    rw [Shifter.run_succ, pow_succ, ← mul_assoc, mul_comm _ 2, ← Nat.mul_mod_mod, ← ih]
    exact leftIn_toNat ..

theorem shiftRight_run_toNat : (shiftRight.run w n x c).1.toNat = x.toNat / 2 ^ n := by
  induction n with
  | zero => exact (Nat.div_one _).symm
  | succ n ih =>
    rw [Shifter.run_succ, pow_succ, ← Nat.div_div_eq_div_mul, ← ih]
    exact (rightIn_toNat (narrow_shiftRight.run_lt hx n c) false).trans (by simp)

/-- Keeping the sign halves the signed value, rounding down (R294). -/
theorem signedOf_rightIn_msb : signedOf w (rightIn w x (msb w x)) = signedOf w x / 2 := by
  have half := rightIn_toNat hx (msb w x)
  have narrow : (rightIn w x (msb w x)).toNat < 2 ^ bitsOf w := clip_toNat_lt ..
  rw [msb_toNat hx] at half
  rw [signedOf_eq hx, signedOf_eq narrow]
  cases w <;> simp only [bitsOf] at * <;> omega

theorem shiftArithRight_run_signedOf : signedOf w (shiftArithRight.run w n x c).1 = signedOf w x / 2 ^ n := by
  induction n with
  | zero => exact (Int.ediv_one _).symm
  | succ n ih =>
    rw [Shifter.run_succ, pow_succ, ← Int.ediv_ediv_of_nonneg (by positivity), ← ih]
    exact signedOf_rightIn_msb (narrow_shiftArithRight.run_lt hx n c)

end

/-! ## The last bit shifted out -/

section
variable {w : Width} {x : Word} (hx : x.toNat < 2 ^ bitsOf w) (n : Nat) (c : Bool)
include hx

theorem shiftLeft_run_carry :
    (shiftLeft.run w (n + 1) x c).2 = decide (x.toNat * 2 ^ (n + 1) / 2 ^ bitsOf w % 2 = 1) := by
  have before := shiftLeft_run_toNat hx n c
  rw [Shifter.run_succ, pow_succ, ← mul_assoc]
  refine (msb_eq_decide (narrow_shiftLeft.run_lt hx n c)).trans (decide_eq_decide.2 ?_)
  cases w <;> simp only [bitsOf] at * <;> omega

theorem shiftRight_run_carry : (shiftRight.run w (n + 1) x c).2 = decide (x.toNat / 2 ^ n % 2 = 1) := by
  rw [Shifter.run_succ, ← shiftRight_run_toNat hx n c]
  exact getLsbD_zero_eq_decide _

/-- A value and its signed value have one parity. -/
theorem signedOf_mod_two : signedOf w x % 2 = x.toNat % 2 := by
  rw [signedOf_eq hx]
  cases w <;> simp only [bitsOf] at * <;> omega

theorem shiftArithRight_run_carry :
    (shiftArithRight.run w (n + 1) x c).2 = decide (signedOf w x / 2 ^ n % 2 = 1) := by
  rw [Shifter.run_succ, ← shiftArithRight_run_signedOf hx n c,
    signedOf_mod_two (narrow_shiftArithRight.run_lt hx n c)]
  exact (getLsbD_zero_eq_decide _).trans (decide_eq_decide.2 (by omega))

end

/-! ## Rotates turn -/

/-- The operand with CF above it: what RCL and RCR turn (R297, R298). -/
def withCarry (w : Width) (p : Word × Bool) : Nat := p.2.toNat * 2 ^ bitsOf w + p.1.toNat

section
variable {w : Width} {p : Word × Bool} (hp : p.1.toNat < 2 ^ bitsOf w)
include hp

theorem rotateLeft_step : (rotateLeft.step w p).1.toNat = turnLeftOnce (bitsOf w) p.1.toNat := by
  refine (leftIn_toNat ..).trans ?_
  rw [msb_toNat hp, turnLeftOnce]
  cases w <;> simp only [bitsOf] at * <;> omega

theorem rotateRight_step : (rotateRight.step w p).1.toNat = turnRightOnce (bitsOf w) p.1.toNat := by
  refine (rightIn_toNat hp _).trans ?_
  rw [getLsbD_zero_toNat, turnRightOnce]

theorem withCarry_lt : withCarry w p < 2 ^ (bitsOf w + 1) := by
  have hc := p.2.toNat_le
  rw [withCarry]
  cases w <;> simp only [bitsOf] at * <;> omega

theorem rotateCarryLeft_step :
    withCarry w (rotateCarryLeft.step w p) = turnLeftOnce (bitsOf w + 1) (withCarry w p) := by
  have hc := p.2.toNat_le
  have carry := msb_toNat hp
  have result := leftIn_toNat w p.1 p.2
  have out : (2 * p.1.toNat + p.2.toNat) / 2 ^ bitsOf w = p.1.toNat / 2 ^ (bitsOf w - 1) := by
    cases w <;> simp only [bitsOf] <;> omega
  simp only [withCarry, turnLeftOnce, rotateCarryLeft]
  cases w <;> simp only [bitsOf] at * <;> omega

theorem rotateCarryRight_step :
    withCarry w (rotateCarryRight.step w p) = turnRightOnce (bitsOf w + 1) (withCarry w p) := by
  have hc := p.2.toNat_le
  have carry := getLsbD_zero_toNat p.1
  have result := rightIn_toNat hp p.2
  simp only [withCarry, turnRightOnce, rotateCarryRight]
  cases w <;> simp only [bitsOf] at * <;> omega

end

section
variable {w : Width} {x : Word} (hx : x.toNat < 2 ^ bitsOf w) (n : Nat) (c : Bool)
include hx

theorem rotateLeft_run : (rotateLeft.run w n x c).1.toNat = turned (bitsOf w) n x.toNat := by
  rw [turned_eq_iterate_left (bitsOf_pos w) hx]
  exact narrow_rotateLeft.value_run (value := (·.1.toNat)) (fun _ => rotateLeft_step) hx n c

theorem rotateRight_run : (rotateRight.run w n x c).1.toNat = turned (bitsOf w) (bitsOf w - n % bitsOf w) x.toNat := by
  rw [turned_eq_iterate_right (bitsOf_pos w) hx]
  exact narrow_rotateRight.value_run (value := (·.1.toNat)) (fun _ => rotateRight_step) hx n c

theorem rotateCarryLeft_run :
    withCarry w (rotateCarryLeft.run w n x c) = turned (bitsOf w + 1) n (withCarry w (x, c)) := by
  rw [turned_eq_iterate_left (Nat.succ_pos _) (withCarry_lt hx)]
  exact narrow_rotateCarryLeft.value_run (fun _ => rotateCarryLeft_step) hx n c

theorem rotateCarryRight_run : withCarry w (rotateCarryRight.run w n x c) =
    turned (bitsOf w + 1) (bitsOf w + 1 - n % (bitsOf w + 1)) (withCarry w (x, c)) := by
  rw [turned_eq_iterate_right (Nat.succ_pos _) (withCarry_lt hx)]
  exact narrow_rotateCarryRight.value_run (fun _ => rotateCarryRight_step) hx n c

end

/-- ROL brings in at the bottom the bit that it leaves in CF (R295). -/
theorem rotateLeft_run_carry (w : Width) (n : Nat) (x : Word) (c : Bool) :
    (rotateLeft.run w (n + 1) x c).2 = decide ((rotateLeft.run w (n + 1) x c).1.toNat % 2 = 1) := by
  rw [Shifter.run_succ]
  exact bottom_leftIn ..

/-- ROR brings in at the top the bit that it leaves in CF (R296). -/
theorem rotateRight_run_carry {w : Width} {x : Word} (hx : x.toNat < 2 ^ bitsOf w) (n : Nat) (c : Bool) :
    (rotateRight.run w (n + 1) x c).2 = decide (2 ^ (bitsOf w - 1) ≤ (rotateRight.run w (n + 1) x c).1.toNat) := by
  rw [Shifter.run_succ]
  exact top_rightIn (narrow_rotateRight.run_lt hx n c) _

/-! ## OF after a count of 1 -/

section
variable {w : Width} {y : Word} (hy : y.toNat < 2 ^ bitsOf w) (x : Word) (d : Bool)
include hy

theorem overflowLeft_eq : overflowLeft w x y d = (decide (2 ^ (bitsOf w - 1) ≤ y.toNat) != d) := by
  rw [overflowLeft, msb_eq_decide hy]

theorem overflowRight_eq : overflowRight w x y d =
    (decide (2 ^ (bitsOf w - 1) ≤ y.toNat) != decide (2 ^ (bitsOf w - 2) ≤ y.toNat % 2 ^ (bitsOf w - 1))) := by
  rw [← getLsbD_second_eq_decide, ← msb_eq_decide hy]
  rfl

end

/-- Settles O43: results and carries by induction on the count, the rotates through the number that they turn. -/
theorem shiftAndRotateResults : Obligations.ShiftAndRotateResults := by
  intro w n x c hx size turn top carried
  refine ⟨shiftLeft_run_toNat hx n c, shiftRight_run_toNat hx n c, shiftArithRight_run_signedOf hx n c,
    rotateLeft_run hx n c, rotateRight_run hx n c, rotateCarryLeft_run hx n c, rotateCarryRight_run hx n c,
    fun hn => ?carries, fun y d hy => ?overflows⟩
  case carries =>
    obtain ⟨k, rfl⟩ := Nat.exists_eq_succ_of_ne_zero hn
    exact ⟨shiftLeft_run_carry hx k c, shiftRight_run_carry hx k c, shiftArithRight_run_carry hx k c,
      rotateLeft_run_carry w k x c, rotateRight_run_carry hx k c⟩
  case overflows =>
    exact ⟨overflowLeft_eq hy x d, msb_eq_decide hx, rfl, overflowLeft_eq hy x d, overflowLeft_eq hy x d,
      overflowRight_eq hy x d, overflowRight_eq hy x d⟩

end Sys2Proof.Machine
end

section
/-! Strings and prefixes (spec/43_string.md; O44, O45, O46). Accesses to memory do not look at what the prefixes
latched, so an iteration of a repeated primitive is the primitive unrepeated. -/

namespace Sys2Proof.Machine

/-! ## The prefixes latch (log 8) -/

/-- Settles O46: the four prefixes differ in what they latch, and each counts its own byte. -/
theorem prefixesLatch : Obligations.PrefixesLatch := fun _ _ => ⟨rfl, rfl, rfl, rfl⟩

/-! ## The primitives unrepeated (spec/43_string.md R320, R323 to R327) -/

section
variable {bs : Burst} {s t : State} {w : Width} {tests : Bool} {prim : State → Out State}

theorem repeatStep_of_none (h : s.cur.rep = none) : repeatStep tests prim s = prim s := by rw [repeatStep, h]

/-- The element step depends on no memory, so it is the same after a store. -/
theorem Stores.advanceSi (h : Stores bs s t) (w : Width) : Stores bs (s.advanceSi w) (t.advanceSi w) :=
  ⟨by rw [h.1]; rfl, h.2⟩

theorem Stores.advanceDi (h : Stores bs s t) (w : Width) : Stores bs (s.advanceDi w) (t.advanceDi w) :=
  ⟨by rw [h.1]; rfl, h.2⟩

theorem moveString_stores (hw : s.mem.wf = true) (hr : canRead w (s.segOr .ds) s.regs.si s = true)
    (hc : canWrite w s.segs.es s.regs.di s = true) :
    ∃ t, moveString w s = .next t ∧
      Stores (cells w s.segs.es s.regs.di (s.load w (s.segOr .ds) s.regs.si)) ((s.advanceSi w).advanceDi w) t := by
  obtain ⟨t, ht, stores⟩ := writeMem_stores (s.load w (s.segOr .ds) s.regs.si) hw hc
  refine ⟨(t.advanceSi w).advanceDi w, ?_, (stores.advanceSi w).advanceDi w⟩
  rw [moveString, readSi, readMem_of hr, andThen_next, writeDi, ht, andThen_next]

theorem storeString_stores (hw : s.mem.wf = true) (hc : canWrite w s.segs.es s.regs.di s = true) :
    ∃ t, storeString w s = .next t ∧ Stores (cells w s.segs.es s.regs.di (s.acc w)) (s.advanceDi w) t := by
  obtain ⟨t, ht, stores⟩ := writeMem_stores (s.acc w) hw hc
  refine ⟨t.advanceDi w, ?_, stores.advanceDi w⟩
  rw [storeString, writeDi, ht, andThen_next]

theorem compareString_of (hsi : canRead w (s.segOr .ds) s.regs.si s = true)
    (hdi : canRead w s.segs.es s.regs.di s = true) :
    compareString w s = .next { (s.advanceSi w).advanceDi w with
      flags := subFlags w (s.load w (s.segOr .ds) s.regs.si) (s.load w s.segs.es s.regs.di) false s.flags } := by
  rw [compareString, readSi, readMem_of hsi, andThen_next, readDi, readMem_of hdi, andThen_next]
  rfl

theorem scanString_of (hdi : canRead w s.segs.es s.regs.di s = true) :
    scanString w s = .next { s.advanceDi w with
      flags := subFlags w (s.acc w) (s.load w s.segs.es s.regs.di) false s.flags } := by
  rw [scanString, readDi, readMem_of hdi, andThen_next]
  rfl

/-- SI is advanced after AL or AX is loaded, or before: they are different registers. -/
theorem setAcc_advanceSi (s : State) (w : Width) (v : Word) :
    (s.setReg w .ax v).advanceSi w = (s.advanceSi w).setReg w .ax v := by cases w <;> rfl

theorem loadString_of (hsi : canRead w (s.segOr .ds) s.regs.si s = true) :
    loadString w s = .next ((s.advanceSi w).setReg w .ax (s.load w (s.segOr .ds) s.regs.si)) := by
  rw [loadString, readSi, readMem_of hsi, andThen_next, setAcc_advanceSi]

end

/-- Settles O44: unrepeated, each instruction is its primitive, and `step` is `State.delta`. -/
theorem stringPrimitives : Obligations.StringPrimitives := by
  intro s w step hrep hstep
  obtain rfl : step = s.delta w := hstep
  have unrepeated (tests : Bool) (prim : State → Out State) : repeatStep tests prim s = prim s := repeatStep_of_none hrep
  refine ⟨fun hw hsi hdi => ?movs, fun hsi hdi => ?cmps, fun hdi => ?scas, fun hsi => ?lods, fun hw hdi => ?stos⟩
  case movs =>
    obtain ⟨t, ht, stores⟩ := moveString_stores hw hsi hdi
    exact ⟨t, (unrepeated ..).trans ht, stores⟩
  case cmps => exact (unrepeated ..).trans (compareString_of hsi hdi)
  case scas => exact (unrepeated ..).trans (scanString_of hdi)
  case lods => exact (unrepeated ..).trans (loadString_of hsi)
  case stos =>
    obtain ⟨t, ht, stores⟩ := storeString_stores hw hdi
    exact ⟨t, (unrepeated ..).trans ht, stores⟩

/-! ## Accesses do not look at what the prefixes latched -/

/-- The state with other latches of prefixes. -/
def State.withCur (s : State) (c : Current) : State := { s with cur := c }

/-- A value read, with the state after it, with other latches of prefixes. -/
def pairCur (c : Current) (p : Word × State) : Word × State := (p.1, p.2.withCur c)

section
variable (s : State) (c : Current)

theorem putOthers_withCur (l : Burst) : State.putOthers l (s.withCur c) = (State.putOthers l s).withCur c := by
  induction l generalizing s with
  | nil => rfl
  | cons b l ih =>
    rw [State.putOthers, State.putOthers, ← ih, apply_ite (State.withCur · c)]
    rfl

theorem busCycle_withCur : (s.withCur c).busCycle = s.busCycle.withCur c := by
  cases lock : s.lock with
  | true => rw [busCycle_held lock, busCycle_held (s := s.withCur c) lock]
  | false =>
    cases due : s.due with
    | nil => simp only [State.busCycle, State.withCur, lock, due]
    | cons b bs =>
      simp only [State.busCycle, State.withCur, lock, due]
      exact putOthers_withCur { s with due := bs, lock := false } c b

theorem highCycle_withCur (a : PAddr) : (s.withCur c).highCycle a = (s.highCycle a).withCur c := by
  unfold State.highCycle
  split
  · rfl
  · exact busCycle_withCur s c

theorem memRead_withCur (a : PAddr) : memRead a (s.withCur c) = memRead a s := rfl

theorem memWrite_withCur (a : PAddr) (v : Byte) :
    memWrite a v (s.withCur c) = mapNext (·.withCur c) (memWrite a v s) := by
  unfold memWrite
  rw [apply_ite (mapNext _), apply_ite (mapNext _)]
  rfl

theorem readPair_withCur (lo hi : PAddr) : readPair lo hi (s.withCur c) = mapNext (pairCur c) (readPair lo hi s) := by
  simp only [readPair, busCycle_withCur, highCycle_withCur, memRead_withCur]
  cases memRead lo s.busCycle with
  | next l =>
    simp only [andThen_next]
    cases memRead hi (s.busCycle.highCycle lo) <;> rfl
  | fault r => rfl
  | refused r => rfl

theorem readMem_withCur (w : Width) (seg off : Word) :
    readMem w seg off (s.withCur c) = mapNext (pairCur c) (readMem w seg off s) := by
  cases w with
  | byte =>
    simp only [readMem, busCycle_withCur, memRead_withCur]
    cases memRead (phys seg off) s.busCycle <;> rfl
  | word => exact readPair_withCur ..

theorem writeMem_withCur (w : Width) (seg off v : Word) :
    writeMem w seg off v (s.withCur c) = mapNext (·.withCur c) (writeMem w seg off v s) := by
  cases w with
  | byte =>
    simp only [writeMem, busCycle_withCur]
    exact memWrite_withCur ..
  | word =>
    simp only [writeMem, busCycle_withCur]
    refine andThen_held (memWrite_withCur ..) fun t _ => ?_
    simp only [highCycle_withCur]
    exact memWrite_withCur ..

end

/-! ## The primitives as bodies of the repeat loop (spec/43_string.md R328) -/

/-- What the repeat loop asks of its body: it looks at no latch of the prefixes but the segment override, and it leaves
the loop's counter alone. -/
structure LoopBody (prim : State → Out State) : Prop where
  withCur : ∀ (s : State) (c : Current), c.seg = s.cur.seg → prim (s.withCur c) = mapNext (·.withCur c) (prim s)
  counter : ∀ {s t : State}, prim s = .next t → t.regs.cx = s.regs.cx

theorem OnlyMemory.cx {s t : State} (h : OnlyMemory s t) : t.regs.cx = s.regs.cx := by rw [h]

/-- The SI operand's segment depends on the override alone (spec/45_processor_control.md R412). -/
theorem segOr_withCur {s : State} {c : Current} (h : c.seg = s.cur.seg) (sr : SegReg) :
    (s.withCur c).segOr sr = s.segOr sr := by
  show s.segs.get (c.seg.getD sr) = _
  rw [h, State.segOr]

theorem readSi_withCur {s : State} {c : Current} (w : Width) (h : c.seg = s.cur.seg) :
    readSi w (s.withCur c) = mapNext (pairCur c) (readSi w s) := by
  unfold readSi
  rw [segOr_withCur h]
  exact readMem_withCur ..

section
variable (w : Width)

theorem loopBody_moveString : LoopBody (moveString w) where
  withCur s c h := andThen_held (readSi_withCur w h) fun p _ =>
    andThen_held (writeMem_withCur p.2 c w ..) fun _ _ => rfl
  counter h := by
    obtain ⟨p, hp, h⟩ := andThen_eq_next.1 h
    obtain ⟨u, hu, h⟩ := andThen_eq_next.1 h
    injection h with h
    exact h ▸ ((readMem_next hp).2.trans (writeMem_next hu).2.1).cx

theorem loopBody_compareString : LoopBody (compareString w) where
  withCur s c h := andThen_held (readSi_withCur w h) fun p _ =>
    andThen_held (readMem_withCur p.2 c w ..) fun _ _ => rfl
  counter h := by
    obtain ⟨p, hp, h⟩ := andThen_eq_next.1 h
    obtain ⟨q, hq, h⟩ := andThen_eq_next.1 h
    injection h with h
    exact h ▸ ((readMem_next hp).2.trans (readMem_next hq).2).cx

theorem loopBody_scanString : LoopBody (scanString w) where
  withCur s c _ := andThen_held (readMem_withCur s c w ..) fun _ _ => rfl
  counter h := by
    obtain ⟨p, hp, h⟩ := andThen_eq_next.1 h
    injection h with h
    exact h ▸ (readMem_next hp).2.cx

theorem loopBody_loadString : LoopBody (loadString w) where
  withCur s c h := andThen_held (readSi_withCur w h) fun p _ => by cases w <;> rfl
  counter h := by
    obtain ⟨p, hp, h⟩ := andThen_eq_next.1 h
    injection h with h
    refine h ▸ Eq.trans ?_ (readMem_next hp).2.cx
    cases w <;> rfl

theorem loopBody_storeString : LoopBody (storeString w) where
  withCur s c _ := andThen_held (writeMem_withCur s c w ..) fun _ _ => rfl
  counter h := by
    obtain ⟨u, hu, h⟩ := andThen_eq_next.1 h
    injection h with h
    exact h ▸ (writeMem_next hu).2.1.cx

end

/-! ## One step of the loop -/

section
variable {s t u : State} {z tests : Bool} {prim : State → Out State}

theorem repeatStep_of_zero (hr : s.cur.rep = some z) (hc : s.regs.cx = 0) :
    repeatStep tests prim s = .next { s with inRepeat := false } := by
  simp only [repeatStep, hr, hc, if_true]

theorem repeatStep_of_next (hr : s.cur.rep = some z) (hc : s.regs.cx ≠ 0) (ht : prim s = .next t) :
    repeatStep tests prim s = .next (endIteration (tests && t.flags.ZF != z) t) := by
  simp only [repeatStep, hr, hc, if_false, ht, andThen_next]

theorem sub_one_beq_zero (x : Word) : (x - 1 == 0) = (x == 1) := by
  rw [Bool.eq_iff_iff, beq_iff_eq, beq_iff_eq, sub_eq_zero]

/-- How an iteration ends, said as one update of the state. -/
theorem endIteration_eq (stop : Bool) (t : State) :
    endIteration stop t = { t with
      regs := { t.regs with cx := t.regs.cx - 1 }
      inRepeat := !(stop || t.regs.cx == 1)
      ip := if stop || t.regs.cx == 1 then t.ip else t.cur.ip0 } := by
  rw [← sub_one_beq_zero]
  show (if (stop || t.regs.cx - 1 == 0) = true then _ else _) = _
  cases stop || t.regs.cx - 1 == 0 <;> rfl

/-- One iteration is the primitive unrepeated, and then the end of the iteration. -/
theorem LoopBody.iteration (h : LoopBody prim) (hr : s.cur.rep = some z) (hc : s.regs.cx ≠ 0)
    (hu : repeatStep tests prim (s.withCur { s.cur with rep := none }) = .next u) :
    repeatStep tests prim s = .next { u with
      cur := s.cur
      regs := { u.regs with cx := s.regs.cx - 1 }
      inRepeat := !((tests && u.flags.ZF != z) || s.regs.cx == 1)
      ip := if (tests && u.flags.ZF != z) || s.regs.cx == 1 then u.ip else s.cur.ip0 } := by
  rw [repeatStep_of_none rfl] at hu
  have body : prim s = .next (u.withCur s.cur) := by
    have restored := h.withCur (s.withCur { s.cur with rep := none }) s.cur rfl
    rw [hu] at restored
    exact restored
  have counter : u.regs.cx = s.regs.cx := h.counter (s := s.withCur { s.cur with rep := none }) hu
  rw [repeatStep_of_next hr hc body, endIteration_eq, ← counter]
  rfl

end

/-- Settles O45: each string instruction is a body of the loop, and CMPS and SCAS are those that test ZF. -/
theorem repeatLoop : Obligations.RepeatLoop := by
  intro s i z hi hr
  refine ⟨fun hc => ?ended, fun u hc hu => ?iteration⟩
  case ended =>
    cases i
    case movs | cmps | scas | lods | stos => exact repeatStep_of_zero hr hc
    all_goals cases hi
  case iteration =>
    cases i
    case movs w => exact (loopBody_moveString w).iteration (tests := false) hr hc hu
    case cmps w => exact (loopBody_compareString w).iteration (tests := true) hr hc hu
    case scas w => exact (loopBody_scanString w).iteration (tests := true) hr hc hu
    case lods w => exact (loopBody_loadString w).iteration (tests := false) hr hc hu
    case stos w => exact (loopBody_storeString w).iteration (tests := false) hr hc hu
    all_goals cases hi

end Sys2Proof.Machine
end

section
/-! Control transfer (spec/44_control_transfer.md; O48 to O52, O54). A call is a push and a jump, a return a pop and a
jump; the words that the interrupt sequence pushes lie in three separate slots of the stack, so IRET pops them again. -/

namespace Sys2Proof.Machine

/-! ## Branches (spec/44_control_transfer.md R349 to R366, R372 to R374) -/

theorem branch_eq (c : Bool) (inc : Byte) (s : State) :
    branch c inc s = .next (if c then { s with ip := s.ip + inc.signExtend 16, queue := [] } else s) := rfl

/-- CX is 0 after the count exactly when it was 1 before. -/
theorem loopWhile_eq (c : Bool) (inc : Byte) (s : State) :
    loopWhile c inc s = .next (if s.regs.cx ≠ 1 ∧ c = true
      then { s with regs := { s.regs with cx := s.regs.cx - 1 }, ip := s.ip + inc.signExtend 16, queue := [] }
      else { s with regs := { s.regs with cx := s.regs.cx - 1 } }) := by
  have taken : (s.regs.cx - 1 != 0 && c) = true ↔ s.regs.cx ≠ 1 ∧ c = true := by
    rw [bne, sub_one_beq_zero, Bool.and_eq_true, ← bne, bne_iff_ne]
  exact congrArg Host.Outcome.next (if_congr taken rfl rfl)

/-- Settles O50: each jump is a branch on its condition. -/
theorem conditionalJumps : Obligations.ConditionalJumps := by
  intro s inc f go
  refine ⟨rfl, rfl, rfl, rfl, rfl, rfl, rfl, rfl, rfl, rfl, rfl, rfl, rfl, rfl, rfl, rfl, rfl, ?_⟩
  have branches (c : Bool) : branch c inc s = go c := branch_eq c inc s
  exact ⟨branches _, branches _, branches _, branches _, branches _, branches _, branches _, branches _, branches _,
    branches _, branches _, branches _, branches _, branches _, branches _, branches _, branches _⟩

/-! ## Jumps (spec/44_control_transfer.md R367 to R371) -/

theorem execJmpRm_of {rm : RM} {s : State} (h : canReadRM .word rm s = true) :
    execJmpRm rm s = .next (s.jump (s.operand .word rm)) := by
  rw [execJmpRm, readRM_of h, andThen_next]

theorem execJmpMem_of {rm : RM} {s : State} (h : canReadPointer rm s = true) :
    execJmpMem rm s = .next (s.jumpFar (s.pointer rm).2 (s.pointer rm).1) := by
  rw [execJmpMem, readPointer_of h, andThen_next]

/-- Settles O51: a loop is a branch after the count, and the indirect jumps read their target undisturbed. -/
theorem jumpAndLoopForms : Obligations.JumpAndLoopForms := by
  intro s rm inc newIp newCs short t loops
  have counts (c : Bool) : loopWhile c short s = loops c := loopWhile_eq c short s
  exact ⟨rfl, rfl, rfl, counts true, counts _, counts _, rfl, branch_eq true short s, execJmpRm_of, rfl, execJmpMem_of⟩

/-! ## Calls (spec/44_control_transfer.md R341 to R344) -/

section
variable {bs : List (PAddr × Byte)} {s t u : State} {v w : Word}

theorem Stores.jump (h : Stores bs s t) (target : Word) : Stores bs (s.jump target) (t.jump target) :=
  ⟨by rw [h.1]; rfl, h.2⟩

theorem Stores.jumpFar (h : Stores bs s t) (g target : Word) : Stores bs (s.jumpFar g target) (t.jumpFar g target) :=
  ⟨by rw [h.1]; rfl, h.2⟩

/-- A push lowers SP, so the second of two pushes stores below the first. -/
theorem Pushes.trans (h : Pushes v s t) (k : Pushes w t u) : PushesTwo v w s u := by
  have ss : t.segs.ss = s.segs.ss := by rw [h.1]
  have sp : t.regs.sp - 2 = s.regs.sp - 4 := by
    rw [h.1]
    show s.regs.sp - 2 - 2 = _
    bv_omega
  have below : Stores (cells .word s.segs.ss (s.regs.sp - 4) w)
      { t with regs := { t.regs with sp := s.regs.sp - 4 } } u := by
    rw [← ss, ← sp]
    exact k
  have above : Stores (cells .word s.segs.ss (s.regs.sp - 2) v) { s with regs := { s.regs with sp := s.regs.sp - 4 } }
      { t with regs := { t.regs with sp := s.regs.sp - 4 } } := ⟨by rw [h.1], h.2⟩
  exact above.trans below

/-- After a push, the slot below it is the next. -/
theorem Pushes.canPush_below (h : Pushes v s t) (hp : canPush 2 s = true) : canPush 0 t = true := by
  rw [← hp]
  refine canPush_of_eq ?_ ?_ ?_ ?_ ?_ ?_ <;> rw [h.1]
  exact BitVec.sub_zero _

/-- What every call within the segment is, once its target is known. -/
theorem pushIp_jump_of (target : Word) (hw : s.mem.wf = true) (hp : canPush 0 s = true) :
    ∃ t, (andThen (push16 s.ip s) fun u => .next (u.jump target) : Out State) = .next t ∧
      Pushes s.ip { s with ip := target, queue := [] } t := by
  obtain ⟨u, hu, pushes⟩ := push16_pushes s.ip hw hp
  exact ⟨u.jump target, by rw [hu, andThen_next], Stores.jump pushes target⟩

/-- What every call to another segment is, once its target is known. -/
theorem callTo_of (g target : Word) (hw : s.mem.wf = true) (h0 : canPush 0 s = true) (h2 : canPush 2 s = true) :
    ∃ t, callTo g target s = .next t ∧
      PushesTwo s.segs.cs s.ip { s with ip := target, segs := { s.segs with cs := g }, queue := [] } t := by
  obtain ⟨t, ht, first, wf⟩ := push16_of s.segs.cs h0 hw
  obtain ⟨u, hu, second⟩ := push16_pushes t.ip wf (first.canPush_below h2)
  have ip : t.ip = s.ip := by rw [first.1]
  rw [ip] at hu second
  refine ⟨u.jumpFar g target, ?_, Stores.jumpFar (first.trans second) g target⟩
  rw [callTo, ht, andThen_next, hu, andThen_next]

end

/-- Settles O48: an indirect call reads its target and is then the direct call to it. -/
theorem callForms : Obligations.CallForms := by
  intro s rm inc newIp newCs hw h0
  refine ⟨pushIp_jump_of _ hw h0, fun hr => ?rm, fun h2 => ⟨callTo_of _ _ hw h0 h2, fun hr => ?mem⟩⟩
  case rm =>
    show ∃ t, execCallRm rm s = .next t ∧ _
    rw [execCallRm, readRM_of hr, andThen_next]
    exact pushIp_jump_of _ hw h0
  case mem =>
    show ∃ t, execCallMem rm s = .next t ∧ _
    rw [execCallMem, readPointer_of hr, andThen_next]
    exact callTo_of _ _ hw h0 h2

/-! ## Returns (spec/44_control_transfer.md R345 to R348) -/

theorem popFar_of {s : State} (h0 : canPop 0 s = true) (h2 : canPop 2 s = true) :
    popFar s = .next ((s.setReg .word .sp (s.regs.sp + 4)).jumpFar
      (s.load .word s.segs.ss (s.regs.sp + 2)) (s.load .word s.segs.ss s.regs.sp)) := by
  have slot : s.regs.sp + 2 + 2 = s.regs.sp + 4 := by bv_omega
  have second : canPop 0 (s.setReg .word .sp (s.regs.sp + 2)) = true :=
    h2 ▸ canPop_of_eq rfl rfl rfl rfl (BitVec.add_zero _)
  rw [popFar, pop16_of h0, andThen_next, pop16_of second, andThen_next, ← slot]
  rfl

/-- Settles O49: the immediate forms add to the SP that the pops leave. -/
theorem returnForms : Obligations.ReturnForms := by
  intro s n h0 ip' cs'
  refine ⟨?near, ?nearImm, fun h2 => ⟨popFar_of h0 h2, ?farImm⟩⟩
  case near =>
    show execRetNear s = _
    rw [execRetNear, pop16_of h0, andThen_next]
    rfl
  case nearImm =>
    show execRetNearImm n s = _
    rw [execRetNearImm, pop16_of h0, andThen_next]
    rfl
  case farImm =>
    show execRetFarImm n s = _
    rw [execRetFarImm, popFar_of h0 h2, andThen_next]
    rfl

/-! ## Software interrupts (spec/44_control_transfer.md R375 to R377) -/

/-- An interrupt taken by an instruction saves `next_ip`. -/
theorem interrupt_taken {n : Byte} {s : State} (hw : s.mem.wf = true) (h : canInterrupt n s = true) :
    ∃ t, interruptSequence n s.ip s = .next t ∧ Interrupted n s.ip s t := by
  obtain ⟨t, ht, taken, -⟩ := interruptSequence_of s.ip h hw
  exact ⟨t, ht, taken⟩

/-- Settles O52: nothing in the sequence looks at IF. -/
theorem softwareInterrupts : Obligations.SoftwareInterrupts := by
  intro s n hw
  refine ⟨rfl, rfl, rfl, interrupt_taken hw, interrupt_taken hw, fun overflow h => ?taken, fun overflow => ?passed⟩
  case taken =>
    show ∃ t, execInto s = .next t ∧ _
    rw [execInto, if_pos overflow]
    exact interrupt_taken hw h
  case passed =>
    show execInto s = _
    rw [execInto, if_neg (Bool.eq_false_iff.1 overflow)]

/-! ## Words on the stack -/

/-- Different offsets in a segment are different bytes of memory. -/
theorem phys_injective (seg : Word) : Function.Injective (phys seg) := by
  intro a b h
  have h := congrArg BitVec.toNat h
  simp only [phys, BitVec.toNat_ofNat] at h
  exact BitVec.eq_of_toNat_eq (by omega)

/-- These stores leave the word `v` at `seg:off`. -/
def LeavesWord (bs : List (PAddr × Byte)) (seg off v : Word) : Prop :=
  storedAt bs (phys seg off) = some (lowByte v) ∧ storedAt bs (phys seg (off + 1)) = some (highByte v)

section
variable {bs : List (PAddr × Byte)} {seg off off' v v' : Word} {s t : State} {n m : Word}

theorem LeavesWord.load (k : LeavesWord bs seg off v) (h : Stores bs s t) : t.load .word seg off = v := by
  rw [State.load, h.2, h.2, k.1, k.2]
  exact wordOf_halves v

theorem storedAt_low (seg off v : Word) : storedAt (cells .word seg off v) (phys seg off) = some (lowByte v) := by
  simp only [cells, storedAt, if_neg (phys_succ_ne seg off).symm, if_true, Option.none_or]

theorem storedAt_high (seg off v : Word) :
    storedAt (cells .word seg off v) (phys seg (off + 1)) = some (highByte v) := by
  simp only [cells, storedAt, if_true, Option.none_or, Option.some_or]

theorem storedAt_other (v : Word) (low : off' ≠ off) (high : off' + 1 ≠ off) :
    storedAt (cells .word seg off' v) (phys seg off) = none := by
  simp only [cells, storedAt, (phys_injective seg).eq_iff, if_neg low, if_neg high, Option.none_or]

theorem leavesWord_last (bs : List (PAddr × Byte)) (seg off v : Word) :
    LeavesWord (bs ++ cells .word seg off v) seg off v := by
  rw [LeavesWord, storedAt_append, storedAt_append, storedAt_low, storedAt_high]
  exact ⟨rfl, rfl⟩

/-- A word stored elsewhere in the segment, also across its end, leaves a word as it is. -/
theorem LeavesWord.append (k : LeavesWord bs seg off v) (same : off' ≠ off) (below : off' + 1 ≠ off)
    (above : off' ≠ off + 1) : LeavesWord (bs ++ cells .word seg off' v') seg off v := by
  have succ : off' + 1 ≠ off + 1 := fun h => same (add_right_cancel h)
  rw [LeavesWord, storedAt_append, storedAt_append, storedAt_other v' same below, storedAt_other v' above succ]
  exact k

/-- What can be pushed can be popped again. -/
theorem canPop_of_canPush (h : canPush n s = true) (hm : t.unmapped = s.unmapped) (hg : t.segs.ss = s.segs.ss)
    (hl : t.lock = s.lock) (hd : t.due = s.due) (hs : t.regs.sp + m = s.regs.sp - n - 2) : canPop m t = true := by
  obtain ⟨alone, writable⟩ := canWrite_iff.1 h
  rw [admitsWrite_word, Bool.and_eq_true] at writable
  have readable (a : PAddr) (ha : canWriteByte a s = true) : canReadByte a t = true := by
    rw [canReadByte, hm]
    exact canReadByte_of_canWriteByte ha
  rw [canPop, canRead_iff, alone_of_eq hl hd, hg, hs, admitsRead_word, readable _ writable.1, readable _ writable.2]
  exact ⟨alone, rfl⟩

end

/-! ## INT n and then IRET (spec/44_control_transfer.md R375, R378) -/

section
variable {n : Byte} {saved : Word} {s t : State}

theorem Interrupted.sp (h : Interrupted n saved s t) : t.regs.sp = s.regs.sp - 6 := by rw [h.1]

theorem Interrupted.ss (h : Interrupted n saved s t) : t.segs.ss = s.segs.ss := by rw [h.1]

/-- The three words that the interrupt sequence pushed, as the return pops them. -/
theorem Interrupted.loads (h : Interrupted n saved s t) :
    t.load .word s.segs.ss (s.regs.sp - 6) = saved ∧ t.load .word s.segs.ss (s.regs.sp - 4) = s.segs.cs ∧
      t.load .word s.segs.ss (s.regs.sp - 2) = s.flags.toWord := by
  refine ⟨(leavesWord_last ..).load h, ?cs, ?flags⟩
  case cs =>
    exact ((leavesWord_last ..).append (by bv_omega) (by bv_omega) (by bv_omega)).load h
  case flags =>
    exact (((leavesWord_last [] ..).append (by bv_omega) (by bv_omega) (by bv_omega)).append (by bv_omega)
      (by bv_omega) (by bv_omega)).load h

theorem Interrupted.canPop_slot (h : Interrupted n saved s t) {k m : Word} (hp : canPush k s = true)
    (hs : s.regs.sp - 6 + m = s.regs.sp - k - 2) : canPop m t = true := by
  refine canPop_of_canPush hp ?_ h.ss ?_ ?_ (h.sp.symm ▸ hs) <;> rw [h.1]

/-- The return undoes the interrupt sequence but for memory, the queue, and the end of a halt or a repeat. -/
theorem interruptReturn_of_interrupted (hi : canInterrupt n s = true) (h : Interrupted n saved s t) :
    interruptReturn t =
      .next { s with ip := saved, mem := t.mem, halted := false, inRepeat := false, queue := [] } := by
  simp only [canInterrupt, Bool.and_eq_true] at hi
  obtain ⟨⟨⟨-, h0⟩, h2⟩, h4⟩ := hi
  obtain ⟨ip, cs, flags⟩ := h.loads
  have second : s.regs.sp - 6 + 2 = s.regs.sp - 4 := by bv_omega
  have third : s.regs.sp - 6 + 4 = s.regs.sp - 2 := by bv_omega
  have last : s.regs.sp - 6 + 6 = s.regs.sp := by bv_omega
  have pop0 : canPop 0 t = true := h.canPop_slot h4 (by bv_omega)
  have pop2 : canPop 2 t = true := h.canPop_slot h2 (by bv_omega)
  have pop4 : canPop 4 t = true := h.canPop_slot h0 (by bv_omega)
  rw [interruptReturn_of pop0 pop2 pop4, h.ss, h.sp, second, third, last, ip, cs, flags, ofWord_toWord, h.1]

end

/-- Settles O54: IRET is the return from an interrupt, and INT n saves `next_ip`. -/
theorem interruptReturn_restores : Obligations.InterruptReturn := by
  refine ⟨fun s h0 h2 h4 => interruptReturn_of h0 h2 h4, fun s n hw hi => ?_⟩
  obtain ⟨t, ht, taken⟩ := interrupt_taken hw hi
  exact ⟨t, _, ht, interruptReturn_of_interrupted hi taken, rfl⟩

end Sys2Proof.Machine
end

section
/-! Processor control (spec/45_processor_control.md R401 to R410; O59, O60) and the step of a halted CPU (R408,
spec/60_exceptions.md R518; O10): it is a recognition point outside the shadow, where NMI comes before INTR. -/

namespace Sys2Proof.Machine

/-! ## Flags, WAIT and ESC -/

theorem execSti_of_enabled {s : State} (h : s.flags.IF = true) : execSti s = .next s := by
  have flags : { s.flags with IF := true } = s.flags := by rw [← h]
  rw [execSti, flags, h, Bool.not_true, Bool.or_false]

theorem execSti_of_disabled {s : State} (h : s.flags.IF = false) :
    execSti s = .next { s with flags := { s.flags with IF := true }, inhibit := true } := by
  rw [execSti, h, Bool.not_false, Bool.or_true]

/-- Settles O59: STI depends on the IF it finds, the other six are their definitions. -/
theorem flagInstructions : Obligations.FlagInstructions := fun _ =>
  ⟨rfl, rfl, rfl, rfl, rfl, rfl, rfl, rfl, rfl, rfl, rfl, rfl, rfl, execSti_of_enabled, execSti_of_disabled⟩

theorem execWait_eq (s : State) : execWait s = .next (if s.test then s else { s with ip := s.cur.ip0 }) := rfl

/-- An undisturbed read of the operand leaves nothing behind (spec/45_processor_control.md R410). -/
theorem execEsc_of {rm : RM} {s : State} (x y : BitVec 3) (h : canReadRM .word rm s = true) :
    execEsc x y rm s = .next s := by
  unfold canReadRM at h
  unfold execEsc
  cases hp : s.place rm with
  | reg c => rfl
  | mem seg off =>
    simp only [hp] at h ⊢
    rw [readMem_of h, andThen_next]

/-- Settles O60. -/
theorem haltWaitEscape : Obligations.HaltWaitEscape := fun s x y _ =>
  ⟨rfl, fun active => (execWait_eq s).trans (by rw [if_pos active]),
    fun inactive => (execWait_eq s).trans (by rw [inactive, if_neg Bool.false_ne_true]), execEsc_of x y⟩

/-! ## The halted CPU -/

section
variable {s : State}

/-- A step of a halted CPU is a recognition point, and then what other masters have left to write. -/
theorem step_halted (hr : s.resetNow = false) (hh : s.halted = true) :
    step s = andThen (idle (!s.inputs.isEmpty) s.sample) fun t => .next t.settle := by
  have halted : s.sample.halted = true := (sample_halted s).trans hh
  simp only [step, stepWith, act, hr, halted, Bool.false_eq_true, if_false, if_true]

/-- Stuck: nothing is due that IF lets in, and nothing will come (spec/93_implementation_defined.md U16; log 10). -/
theorem idle_stuck (hnmi : s.nmiPending = false) (hif : s.flags.IF = false) : idle false s = .fault .haltedForEver := by
  simp [idle, hnmi, hif]

/-- While something may come, a halted CPU outside the shadow takes what is due, or goes on idling. -/
theorem idle_of_live {more : Bool} (hi : s.inhibit = false)
    (live : more = true ∨ s.flags.IF = true ∨ s.nmiPending = true) :
    idle more s = andThen (takeExternal s.ip s) fun r => .next r.1 := by
  have awake : (!more && !s.flags.IF && !s.nmiPending) = false := by
    rcases live with h | h | h <;> simp [h]
  simp only [idle, awake, recognise, hi, Bool.false_eq_true, if_false]

theorem takeExternal_of_nmi (saved : Word) (h : s.nmiPending = true) : takeExternal saved s =
    andThen (interruptSequence 2 saved { s with nmiPending := false }) fun t => .next (t, true) := by
  rw [takeExternal, if_pos h]

theorem takeExternal_of_intr {n : Byte} (saved : Word) (hnmi : s.nmiPending = false) (hif : s.flags.IF = true)
    (hintr : s.intr = some n) :
    takeExternal saved s = andThen (interruptSequence n saved s) fun t => .next (t, true) := by
  simp only [takeExternal, hnmi, hif, hintr, Bool.false_eq_true, if_false]

theorem takeExternal_of_none (saved : Word) (hnmi : s.nmiPending = false) (h : s.flags.IF = false ∨ s.intr = none) :
    takeExternal saved s = .next (s, false) := by
  rcases h with h | h
  · simp only [takeExternal, hnmi, h, Bool.false_eq_true, if_false]
  · cases hif : s.flags.IF <;> simp only [takeExternal, hnmi, hif, h, Bool.false_eq_true, if_false]

theorem sample_of_nil (h : s.inputs = []) : s.sample = s := by rw [State.sample, h]

/-- A step of a halted CPU outside the shadow that something may wake. -/
theorem step_halted_live (hr : s.resetNow = false) (hh : s.halted = true) (hi : s.inhibit = false)
    (live : s.inputs ≠ [] ∨ s.flags.IF = true ∨ s.sample.nmiPending = true) :
    step s = andThen (takeExternal s.ip s.sample) fun r => .next r.1.settle := by
  have live' : (!s.inputs.isEmpty) = true ∨ s.sample.flags.IF = true ∨ s.sample.nmiPending = true :=
    live.imp (fun h => by simpa using h) (Or.imp_left fun h => by rwa [sample_flags])
  rw [step_halted hr hh, idle_of_live ((sample_inhibit s).trans hi) live', andThen_assoc, sample_ip]
  rfl

end

/-- Settles O10: one recognition point, case by case in the order of R508. -/
theorem haltedCpu : Obligations.HaltedCpu := by
  intro s hr hh hi
  refine ⟨fun nmi => ?nmi, fun n nmi enabled intr => ?intr, fun nmi enabled intr => ?quiet,
    fun nmi masked more => ?masked, fun nmi masked silent => ?stuck⟩
  case nmi =>
    rw [step_halted_live hr hh hi (.inr (.inr nmi)), takeExternal_of_nmi s.ip nmi, andThen_assoc]
    rfl
  case intr =>
    rw [step_halted_live hr hh hi (.inr (.inl enabled)),
      takeExternal_of_intr s.ip nmi ((congrArg Flags.IF (sample_flags s)).trans enabled) intr, andThen_assoc]
    rfl
  case quiet =>
    rw [step_halted_live hr hh hi (.inr (.inl enabled)), takeExternal_of_none s.ip nmi (.inr intr), andThen_next]
  case masked =>
    rw [step_halted_live hr hh hi (.inl more),
      takeExternal_of_none s.ip nmi (.inl ((congrArg Flags.IF (sample_flags s)).trans masked)), andThen_next]
  case stuck =>
    rw [step_halted hr hh, sample_of_nil silent, silent]
    exact congrArg (andThen · _) (idle_stuck nmi masked)

end Sys2Proof.Machine
end

section
/-! What LOCK and a segment override do not do (spec/20_memory.md R63, R77, spec/45_processor_control.md R411, R412;
O47). A run under other latches of prefixes is followed operation by operation: LOCK is looked at only where the writes of
other masters are due, the override only by operands in memory. -/

namespace Sys2Proof.Machine

/-! ## Runs side by side -/

/-- What LOCK and a segment override latch in the other run, from what they latch in this one. -/
structure Latching where
  lock : Bool → Bool
  seg : Option SegReg → Option SegReg

/-- The state in the other run. -/
def State.relatch (s : State) (x : Latching) : State :=
  { s with lock := x.lock s.lock, cur := { s.cur with seg := x.seg s.cur.seg } }

/-- Other masters do not tell the runs apart: LOCK is the same, or no write of theirs is due. -/
def Latching.Quiet (x : Latching) (s : State) : Prop := x.lock = id ∨ s.due = []

/-- The override does not tell where the operand is: it is the same, or the operand is a register. -/
def Latching.Locates (x : Latching) (rm : RM) : Prop := x.seg = id ∨ ∃ c, rm = .reg c

/-- The instructions whose operands no override moves (spec/45_processor_control.md R412). -/
def ignoresOverride : Instr → Prop
  | .pushReg _ | .pushSreg _ | .popReg _ | .popSreg _ | .pushf | .popf | .callNear _ | .callFar _ _ | .retNear
  | .retNearImm _ | .retFar | .retFarImm _ | .int _ | .int3 | .into | .iret | .scas _ | .stos _ | .lea _ _
  | .inPort _ _ | .inDx _ | .outPort _ _ | .outDx _ | .jmpNear _ | .jmpShort _ | .jmpFar _ _ | .loop _ | .loopz _
  | .loopnz _ | .jcxz _ | .je _ | .jl _ | .jle _ | .jb _ | .jbe _ | .jp _ | .jo _ | .js _ | .jne _ | .jnl _ | .jnle _
  | .jnb _ | .jnbe _ | .jnp _ | .jno _ | .jns _ => True
  | .callRm rm | .jmpRm rm | .pushRm rm | .popRm rm => ∃ c, rm = .reg c
  | _ => False

/-- Where `o` answers, `o'` answers the same through `m`, and `q` holds of the answer. -/
structure Follows {α : Type} (m : α → α) (q : α → Prop) (o o' : Out α) : Prop where
  answer : ∀ a, o = .next a → o' = .next (m a) ∧ q a

/-- An operation in the two runs. -/
abbrev Latching.Alike (x : Latching) : Out State → Out State → Prop := Follows (·.relatch x) x.Quiet

/-- An operation that answers a value with the state after it, in the two runs. -/
abbrev Latching.AlikeRead (x : Latching) : Out (Word × State) → Out (Word × State) → Prop :=
  Follows (fun p => (p.1, p.2.relatch x)) fun p => x.Quiet p.2

/-- An operation that answers a pointer with the state after it, in the two runs. -/
abbrev Latching.AlikePointer (x : Latching) : Out (Word × Word × State) → Out (Word × Word × State) → Prop :=
  Follows (fun p => (p.1, p.2.1, p.2.2.relatch x)) fun p => x.Quiet p.2.2

section
variable {α β : Type} {m : α → α} {q : α → Prop} {o o' : Out α} {a : α}

theorem follows_next (h : q a) : Follows m q (.next a) (.next (m a)) :=
  ⟨fun _ e => Host.Outcome.next.inj e ▸ ⟨rfl, h⟩⟩

theorem follows_refused (r : Refusal) : Follows m q (.refused r) o' := ⟨fun _ e => nomatch e⟩

/-- An operation that does not look at what differs. -/
theorem follows_same (o : Out α) : Follows id (fun _ => True) o o := ⟨fun _ e => ⟨e, trivial⟩⟩

theorem Follows.andThen {n : β → β} {r : β → Prop} {f f' : α → Out β} (h : Follows m q o o')
    (k : ∀ a, q a → Follows n r (f a) (f' (m a))) : Follows n r (Machine.andThen o f) (Machine.andThen o' f') := by
  refine ⟨fun b e => ?_⟩
  obtain ⟨a, ha, hb⟩ := andThen_eq_next.1 e
  obtain ⟨ha', hq⟩ := h.answer a ha
  rw [ha']
  exact (k a hq).answer b hb

end

section
variable {x : Latching} {s : State}

/-! ## Registers and operands -/

theorem relatch_undriven : (s.relatch x).undriven = s.undriven := rfl
theorem relatch_ioIn : (s.relatch x).ioIn = s.ioIn := rfl

theorem setReg_relatch (s : State) (x : Latching) (w : Width) (c : RegCode) (v : Word) :
    (s.relatch x).setReg w c v = (s.setReg w c v).relatch x := by cases w <;> rfl

theorem segOr_relatch (h : x.seg = id) (sr : SegReg) : (s.relatch x).segOr sr = s.segOr sr := by
  unfold State.segOr State.relatch
  rw [h, id]

/-- Where an override would move operands, it is the same in both runs. -/
theorem seg_eq_id (h : x.seg = id ∨ False) : x.seg = id := h.resolve_right id

theorem locates_of {rm : RM} (h : x.seg = id ∨ False) : x.Locates rm := .inl (seg_eq_id h)

theorem place_relatch {rm : RM} (h : x.Locates rm) : (s.relatch x).place rm = s.place rm := by
  rcases h with h | ⟨c, rfl⟩
  · cases rm <;> simp only [State.place, segOr_relatch h] <;> rfl
  · rfl

theorem quiet_of_due {t : State} (q : x.Quiet s) (h : t.due = s.due) : x.Quiet t := q.imp_right h.trans

variable (q : x.Quiet s)
include q

theorem alike_setReg (w : Width) (c : RegCode) (v : Word) :
    x.Alike (.next (s.setReg w c v)) (.next ((s.relatch x).setReg w c v)) := by
  rw [setReg_relatch]
  exact follows_next (quiet_of_due q (setReg_due ..))

/-! ## Memory -/

theorem busCycle_relatch : (s.relatch x).busCycle = s.busCycle.relatch x ∧ x.Quiet s.busCycle := by
  rcases q with q | q
  · have other : s.relatch x = s.withCur { s.cur with seg := x.seg s.cur.seg } := by
      unfold State.relatch State.withCur
      rw [q, id]
    refine ⟨?_, .inl q⟩
    rw [other, busCycle_withCur]
    unfold State.relatch State.withCur
    rw [q, id, busCycle_cur]
  · have alone (t : State) (h : t.due = []) : t.busCycle = t := busCycle_of_alone (by rw [State.alone, h]; simp)
    rw [alone _ q, alone (s.relatch x) q]
    exact ⟨rfl, .inr q⟩

theorem highCycle_relatch (a : PAddr) :
    (s.relatch x).highCycle a = (s.highCycle a).relatch x ∧ x.Quiet (s.highCycle a) := by
  unfold State.highCycle
  split
  · exact ⟨rfl, q⟩
  · exact busCycle_relatch q

theorem alike_readPair (lo hi : PAddr) : x.AlikeRead (readPair lo hi s) (readPair lo hi (s.relatch x)) := by
  obtain ⟨first, q⟩ := busCycle_relatch q
  obtain ⟨second, q⟩ := highCycle_relatch q lo
  simp only [readPair, first, second]
  exact (follows_same (memRead lo s.busCycle)).andThen fun _ _ =>
    (follows_same (memRead hi (s.busCycle.highCycle lo))).andThen fun _ _ => follows_next q

theorem alike_readMem (w : Width) (seg off : Word) :
    x.AlikeRead (readMem w seg off s) (readMem w seg off (s.relatch x)) := by
  cases w with
  | byte =>
    obtain ⟨first, q⟩ := busCycle_relatch q
    simp only [readMem, first]
    exact (follows_same (memRead (phys seg off) s.busCycle)).andThen fun _ _ => follows_next q
  | word => exact alike_readPair q ..

theorem alike_memWrite (a : PAddr) (v : Byte) : x.Alike (memWrite a v s) (memWrite a v (s.relatch x)) := by
  refine ⟨fun t h => ?_⟩
  obtain ⟨admitted, rfl⟩ := memWrite_eq_next.1 h
  exact ⟨memWrite_eq_next.2 ⟨admitted, rfl⟩, q⟩

theorem alike_writeMem (w : Width) (seg off v : Word) :
    x.Alike (writeMem w seg off v s) (writeMem w seg off v (s.relatch x)) := by
  obtain ⟨first, q⟩ := busCycle_relatch q
  cases w with
  | byte =>
    simp only [writeMem, first]
    exact alike_memWrite q ..
  | word =>
    simp only [writeMem, first]
    refine (alike_memWrite q ..).andThen fun t q => ?_
    obtain ⟨second, q⟩ := highCycle_relatch q (phys seg off)
    simp only [second]
    exact alike_memWrite q ..

/-- A read through a segment that an override may replace. -/
theorem alike_overridable (h : x.seg = id) (w : Width) (sr : SegReg) (off : Word) :
    x.AlikeRead (readMem w (s.segOr sr) off s) (readMem w ((s.relatch x).segOr sr) off (s.relatch x)) := by
  rw [segOr_relatch h]
  exact alike_readMem q ..

/-! ## r/m operands, the stack, ports -/

variable {w : Width} {rm : RM} {v : Word}

theorem alike_readRM (h : x.Locates rm) : x.AlikeRead (readRM w rm s) (readRM w rm (s.relatch x)) := by
  unfold readRM
  rw [place_relatch h]
  cases s.place rm with
  | reg c => exact follows_next q
  | mem seg off => exact alike_readMem q ..

theorem alike_writeRM (h : x.Locates rm) : x.Alike (writeRM w rm v s) (writeRM w rm v (s.relatch x)) := by
  unfold writeRM
  rw [place_relatch h]
  cases s.place rm with
  | reg c => exact alike_setReg q ..
  | mem seg off => exact alike_writeMem q ..

theorem alike_readPointer (h : x.seg = id) : x.AlikePointer (readPointer rm s) (readPointer rm (s.relatch x)) := by
  unfold readPointer eaOrRefuse
  rw [place_relatch (.inl h)]
  cases s.place rm with
  | reg c => exact follows_refused _
  | mem seg off => exact (alike_readMem q ..).andThen fun _ q => (alike_readMem q ..).andThen fun _ q => follows_next q

theorem alike_push16 : x.Alike (push16 v s) (push16 v (s.relatch x)) :=
  alike_writeMem (s := s.setReg .word .sp (s.regs.sp - 2)) q .word s.segs.ss (s.regs.sp - 2) v

theorem alike_pop16 : x.AlikeRead (pop16 s) (pop16 (s.relatch x)) :=
  (alike_readMem q ..).andThen fun _ q => follows_next q

theorem follows_ioReadByte (p : Word) :
    Follows (fun r => (r.1, r.2.relatch x)) (fun r => x.Quiet r.2) (ioReadByte p s) (ioReadByte p (s.relatch x)) := by
  unfold ioReadByte
  rw [relatch_undriven, relatch_ioIn]
  split
  · exact follows_refused _
  · cases takePort p s.ioIn <;> exact follows_next q

theorem alike_ioRead (p : Word) : x.AlikeRead (ioRead w p s) (ioRead w p (s.relatch x)) := by
  cases w with
  | byte => exact (follows_ioReadByte q p).andThen fun _ q => follows_next q
  | word =>
    exact (follows_ioReadByte q p).andThen fun _ q => (follows_ioReadByte q _).andThen fun _ q => follows_next q

theorem alike_ioWriteByte (p : Word) (b : Byte) : x.Alike (ioWriteByte p b s) (ioWriteByte p b (s.relatch x)) := by
  unfold ioWriteByte
  rw [relatch_undriven]
  split
  · exact follows_refused _
  · exact follows_next q

theorem alike_ioWrite (p : Word) : x.Alike (ioWrite w p v s) (ioWrite w p v (s.relatch x)) := by
  cases w with
  | byte => exact alike_ioWriteByte q ..
  | word => exact (alike_ioWriteByte q ..).andThen fun _ q => alike_ioWriteByte q ..

/-! ## Control transfer and interrupts -/

theorem alike_callTo (g : Word) : x.Alike (callTo g v s) (callTo g v (s.relatch x)) :=
  (alike_push16 q).andThen fun _ q => (alike_push16 q).andThen fun _ q => follows_next q

theorem alike_popFar : x.Alike (popFar s) (popFar (s.relatch x)) :=
  (alike_pop16 q).andThen fun _ q => (alike_pop16 q).andThen fun _ q => follows_next q

theorem alike_readVector (n : Byte) : x.AlikePointer (readVector n s) (readVector n (s.relatch x)) :=
  (alike_readPair q ..).andThen fun _ q => (alike_readPair q ..).andThen fun _ q => follows_next q

theorem alike_interruptSequence (n : Byte) (saved : Word) :
    x.Alike (interruptSequence n saved s) (interruptSequence n saved (s.relatch x)) :=
  (alike_readVector q n).andThen fun _ q => (alike_push16 q).andThen fun t q =>
    (alike_push16 (s := { t with flags := { t.flags with IF := false, TF := false } }) q).andThen fun _ q =>
      (alike_push16 q).andThen fun _ q => follows_next q

theorem alike_interruptReturn : x.Alike (interruptReturn s) (interruptReturn (s.relatch x)) :=
  (alike_pop16 q).andThen fun _ q => (alike_pop16 q).andThen fun _ q => (alike_pop16 q).andThen fun _ q =>
    follows_next q

theorem alike_branch (c : Bool) (inc : Byte) : x.Alike (branch c inc s) (branch c inc (s.relatch x)) := by
  cases c <;> exact follows_next q

/-! ## Operations on operands (spec/41_arithmetic.md R240) -/

/-- A two-operand computation that looks at no latch of the prefixes. -/
def BinOp.Unlatched (op : BinOp) : Prop := ∀ (w : Width) (a b : Word) {s : State} {x : Latching}, x.Quiet s →
  x.AlikeRead (.next (op w a b s)) (.next (op w a b (s.relatch x)))

/-- A one-operand computation that looks at no latch of the prefixes. -/
def UnOp.Unlatched (op : UnOp) : Prop := ∀ (w : Width) (a : Word) {s : State} {x : Latching}, x.Quiet s →
  x.AlikeRead (.next (op w a s)) (.next (op w a (s.relatch x)))

variable {d : Dir} {r : RegCode} {imm : Word} {bin : BinOp} {un : UnOp} {o o' : Out (Word × State)}

omit q in
/-- A value put into a register. -/
theorem alike_load (h : x.AlikeRead o o') :
    x.Alike (andThen o fun p => .next (p.2.setReg w r p.1)) (andThen o' fun p => .next (p.2.setReg w r p.1)) :=
  h.andThen fun _ q => alike_setReg q ..

omit q in
/-- A value put into an r/m operand. -/
theorem alike_store (h : x.AlikeRead o o') (hx : x.Locates rm) :
    x.Alike (andThen o fun p => writeRM w rm p.1 p.2) (andThen o' fun p => writeRM w rm p.1 p.2) :=
  h.andThen fun _ q => alike_writeRM q hx

omit q in
/-- A value discarded. -/
theorem alike_discard (h : x.AlikeRead o o') :
    x.Alike (andThen o fun p => .next p.2) (andThen o' fun p => .next p.2) :=
  h.andThen fun _ q => follows_next q

theorem alike_binRmReg (ho : bin.Unlatched) (h : x.Locates rm) :
    x.Alike (binRmReg bin d w rm r s) (binRmReg bin d w rm r (s.relatch x)) := by
  refine (alike_readRM q h).andThen fun m q => ?_
  cases d with
  | toReg => exact alike_load (ho w (s.reg w r) m.1 q)
  | toRm => exact alike_store (ho w m.1 (s.reg w r) q) h

theorem alike_flagsRmReg (ho : bin.Unlatched) (h : x.Locates rm) :
    x.Alike (flagsRmReg bin d w rm r s) (flagsRmReg bin d w rm r (s.relatch x)) := by
  refine (alike_readRM q h).andThen fun m q => ?_
  cases d with
  | toReg => exact alike_discard (ho w (s.reg w r) m.1 q)
  | toRm => exact alike_discard (ho w m.1 (s.reg w r) q)

theorem alike_binRmImm (ho : bin.Unlatched) (h : x.Locates rm) :
    x.Alike (binRmImm bin w rm imm s) (binRmImm bin w rm imm (s.relatch x)) :=
  (alike_readRM q h).andThen fun m q => alike_store (ho w m.1 imm q) h

theorem alike_flagsRmImm (ho : bin.Unlatched) (h : x.Locates rm) :
    x.Alike (flagsRmImm bin w rm imm s) (flagsRmImm bin w rm imm (s.relatch x)) :=
  (alike_readRM q h).andThen fun m q => alike_discard (ho w m.1 imm q)

theorem alike_binAccImm (ho : bin.Unlatched) : x.Alike (binAccImm bin w imm s) (binAccImm bin w imm (s.relatch x)) :=
  alike_load (ho w (s.acc w) imm q)

theorem alike_flagsAccImm (ho : bin.Unlatched) :
    x.Alike (flagsAccImm bin w imm s) (flagsAccImm bin w imm (s.relatch x)) :=
  alike_discard (ho w (s.acc w) imm q)

theorem alike_unRm (ho : un.Unlatched) (h : x.Locates rm) : x.Alike (unRm un w rm s) (unRm un w rm (s.relatch x)) :=
  (alike_readRM q h).andThen fun m q => alike_store (ho w m.1 q) h

theorem alike_unReg (ho : un.Unlatched) : x.Alike (unReg un r s) (unReg un r (s.relatch x)) :=
  alike_load (ho .word (s.reg .word r) q)

theorem alike_setFlags (op : Shifter) (n : Nat) (before after : Word) (c : Bool) :
    x.AlikeRead (.next (after, op.setFlags w n before after c s))
      (.next (after, op.setFlags w n before after c (s.relatch x))) := by
  have same : op.setFlags w n before after c (s.relatch x) = (op.setFlags w n before after c s).relatch x := by
    unfold Shifter.setFlags Shifter.setResult Shifter.setOverflow
    split_ifs <;> rfl
  rw [same]
  exact follows_next (quiet_of_due q (setFlags_due ..))

theorem alike_shiftRm {op : Shifter} {c : Count} (h : x.Locates rm) :
    x.Alike (shiftRm op c w rm s) (shiftRm op c w rm (s.relatch x)) :=
  (alike_readRM q h).andThen fun m q => alike_store (alike_setFlags q op (s.shiftCount c) m.1 _ _) h

theorem alike_product (n : Int) (wide : Bool) : x.Alike (.next (productFlags wide (s.setProduct w n)))
    (.next (productFlags wide ((s.relatch x).setProduct w n))) := by
  cases w <;> exact follows_next q

theorem alike_quotient (n m : Int) : x.Alike (.next (State.undef allStatus (s.setQuotient w n m)))
    (.next (State.undef allStatus ((s.relatch x).setQuotient w n m))) := by
  cases w <;> exact follows_next q

theorem alike_mulRm (h : x.Locates rm) : x.Alike (execMulRm w rm s) (execMulRm w rm (s.relatch x)) :=
  (alike_readRM q h).andThen fun _ q => alike_product q ..

theorem alike_imulRm (h : x.Locates rm) : x.Alike (execImulRm w rm s) (execImulRm w rm (s.relatch x)) :=
  (alike_readRM q h).andThen fun _ q => alike_product q ..

/-- Where the operand says so, interrupt 0 is taken in both runs; else both go on. -/
theorem alike_orDivideError {P : Prop} [Decidable P] {g g' : Out State} (h : x.Alike g g') :
    x.Alike (if P then divideError s else g) (if P then divideError (s.relatch x) else g') := by
  split
  · exact alike_interruptSequence q ..
  · exact h

theorem alike_divRm (h : x.Locates rm) : x.Alike (execDivRm w rm s) (execDivRm w rm (s.relatch x)) :=
  (alike_readRM q h).andThen fun _ q => alike_orDivideError q (alike_quotient q ..)

theorem alike_idivRm (h : x.Locates rm) : x.Alike (execIdivRm w rm s) (execIdivRm w rm (s.relatch x)) :=
  (alike_readRM q h).andThen fun _ q => alike_orDivideError q (alike_quotient q ..)

/-! ## Strings (spec/43_string.md) -/

theorem alike_moveString (h : x.seg = id) : x.Alike (moveString w s) (moveString w (s.relatch x)) :=
  (alike_overridable q h ..).andThen fun _ q => (alike_writeMem q ..).andThen fun _ q => follows_next q

theorem alike_compareString (h : x.seg = id) : x.Alike (compareString w s) (compareString w (s.relatch x)) :=
  (alike_overridable q h ..).andThen fun _ q => (alike_readMem q ..).andThen fun _ q => follows_next q

theorem alike_scanString : x.Alike (scanString w s) (scanString w (s.relatch x)) :=
  (alike_readMem q ..).andThen fun _ q => follows_next q

theorem alike_loadString (h : x.seg = id) : x.Alike (loadString w s) (loadString w (s.relatch x)) :=
  (alike_overridable q h ..).andThen fun _ q => by cases w <;> exact follows_next q

theorem alike_storeString : x.Alike (storeString w s) (storeString w (s.relatch x)) :=
  (alike_writeMem q ..).andThen fun _ q => follows_next q

theorem alike_endIteration (stop : Bool) :
    x.Alike (.next (endIteration stop s)) (.next (endIteration stop (s.relatch x))) := by
  rw [endIteration_eq, endIteration_eq]
  exact follows_next q

/-- The loop looks at the repeat latch and at IP of the first byte, which are the same in both runs. -/
theorem alike_repeatStep {tests : Bool} {prim : State → Out State} (h : x.Alike (prim s) (prim (s.relatch x))) :
    x.Alike (repeatStep tests prim s) (repeatStep tests prim (s.relatch x)) := by
  cases hr : s.cur.rep with
  | none => rwa [repeatStep_of_none hr, repeatStep_of_none (s := s.relatch x) hr]
  | some z =>
    by_cases hc : s.regs.cx = 0
    · rw [repeatStep_of_zero hr hc, repeatStep_of_zero (s := s.relatch x) hr hc]
      exact follows_next q
    · have hc' : (s.relatch x).regs.cx ≠ 0 := hc
      have hr' : (s.relatch x).cur.rep = some z := hr
      simp only [repeatStep, hr, hr', hc, hc', if_false]
      exact h.andThen fun _ q => alike_endIteration q _

/-! ## Instructions -/

theorem alike_movRmReg (h : x.Locates rm) :
    x.Alike (execMovRmReg d w rm r s) (execMovRmReg d w rm r (s.relatch x)) := by
  cases d with
  | toReg => exact alike_load (alike_readRM q h)
  | toRm => exact alike_writeRM q h

theorem alike_movMemAcc (h : x.seg = id) : x.Alike (execMovMemAcc w v s) (execMovMemAcc w v (s.relatch x)) := by
  unfold execMovMemAcc
  rw [segOr_relatch h]
  exact alike_writeMem q ..

theorem alike_movSregRm {sr : SegReg} (h : x.Locates rm) :
    x.Alike (execMovSregRm sr rm s) (execMovSregRm sr rm (s.relatch x)) := by
  unfold execMovSregRm
  split
  · exact follows_refused _
  · exact (alike_readRM q h).andThen fun _ q => follows_next q

theorem alike_popSreg {sr : SegReg} : x.Alike (execPopSreg sr s) (execPopSreg sr (s.relatch x)) := by
  unfold execPopSreg
  split
  · exact follows_refused _
  · exact (alike_pop16 q).andThen fun _ q => follows_next q

theorem alike_pushRm (h : x.Locates rm) : x.Alike (execPushRm rm s) (execPushRm rm (s.relatch x)) := by
  unfold execPushRm
  split
  · exact alike_push16 q
  · exact (alike_readRM q h).andThen fun _ q => alike_push16 q

theorem alike_pushReg : x.Alike (execPushReg r s) (execPushReg r (s.relatch x)) := by
  unfold execPushReg
  split <;> exact alike_push16 q

theorem alike_xchgRmReg (h : x.Locates rm) : x.Alike (execXchgRmReg w rm r s) (execXchgRmReg w rm r (s.relatch x)) :=
  (alike_readRM q h).andThen fun _ q => (alike_writeRM q h).andThen fun _ q => alike_setReg q ..

/-- LEA takes the offset only: the segment does not matter. -/
theorem alike_lea : x.Alike (execLea r rm s) (execLea r rm (s.relatch x)) := by
  cases rm with
  | reg c => exact follows_refused _
  | direct | base | disp8 | disp16 => exact follows_next q

theorem alike_callRm (h : x.Locates rm) : x.Alike (execCallRm rm s) (execCallRm rm (s.relatch x)) :=
  (alike_readRM q h).andThen fun _ q => (alike_push16 q).andThen fun _ q => follows_next q

theorem alike_into : x.Alike (execInto s) (execInto (s.relatch x)) := by
  show x.Alike (if s.flags.OF = true then _ else _) (if s.flags.OF = true then _ else _)
  split
  · exact alike_interruptSequence q ..
  · exact follows_next q

theorem alike_wait : x.Alike (execWait s) (execWait (s.relatch x)) := by
  show x.Alike (.next (if s.test = true then _ else _)) (.next (if s.test = true then _ else _))
  split <;> exact follows_next q

theorem alike_esc (a b : BitVec 3) (h : x.Locates rm) : x.Alike (execEsc a b rm s) (execEsc a b rm (s.relatch x)) := by
  unfold execEsc
  rw [place_relatch h]
  cases s.place rm with
  | reg c => exact follows_next q
  | mem seg off => exact alike_discard (alike_readMem q ..)

theorem alike_segment {sr : SegReg} (h : x.seg = id) :
    x.Alike (execSegment sr s) (execSegment sr (s.relatch x)) := by
  refine ⟨fun t e => ?_⟩
  injection e with e
  subst e
  refine ⟨?_, q⟩
  simp only [execSegment, State.relatch, h, id]

/-- Every instruction but LOCK itself does the same in both runs. -/
theorem alike_exec (i : Instr) (hi : i ≠ .lock) (h : x.seg = id ∨ ignoresOverride i) :
    x.Alike (exec i s) (exec i (s.relatch x)) := by
  cases i
  case movRmReg => exact alike_movRmReg q (locates_of h)
  case movRmImm | movRmSreg => exact alike_writeRM q (locates_of h)
  case movRegImm => exact alike_setReg q ..
  case movAccMem | xlat => exact alike_load (alike_overridable q (seg_eq_id h) ..)
  case movMemAcc => exact alike_movMemAcc q (seg_eq_id h)
  case movSregRm => exact alike_movSregRm q (locates_of h)
  case pushRm => exact alike_pushRm q h
  case pushReg => exact alike_pushReg q
  case pushSreg | pushf => exact alike_push16 q
  case popRm => exact alike_store (alike_pop16 q) h
  case popReg => exact alike_load (alike_pop16 q)
  case popSreg => exact alike_popSreg q
  case popf | retNear | retNearImm => exact (alike_pop16 q).andThen fun _ q => follows_next q
  case xchgRmReg => exact alike_xchgRmReg q (locates_of h)
  case inPort | inDx => exact alike_load (alike_ioRead q _)
  case outPort | outDx => exact alike_ioWrite q _
  case lea => exact alike_lea q
  case lds | les | jmpMem => exact (alike_readPointer q (seg_eq_id h)).andThen fun _ q => follows_next q
  case addRmReg | adcRmReg | subRmReg | sbbRmReg | andRmReg | orRmReg | xorRmReg =>
    exact alike_binRmReg q (fun _ _ _ _ _ q => follows_next q) (locates_of h)
  case addRmImm | adcRmImm | subRmImm | sbbRmImm | andRmImm | orRmImm | xorRmImm =>
    exact alike_binRmImm q (fun _ _ _ _ _ q => follows_next q) (locates_of h)
  case addAccImm | adcAccImm | subAccImm | sbbAccImm | andAccImm | orAccImm | xorAccImm =>
    exact alike_binAccImm q fun _ _ _ _ _ q => follows_next q
  case cmpRmReg => exact alike_flagsRmReg q (fun _ _ _ _ _ q => follows_next q) (locates_of h)
  case testRmReg =>
    exact alike_flagsRmReg (d := .toRm) (bin := aluAnd) q (fun _ _ _ _ _ q => follows_next q) (locates_of h)
  case cmpRmImm | testRmImm => exact alike_flagsRmImm q (fun _ _ _ _ _ q => follows_next q) (locates_of h)
  case cmpAccImm | testAccImm => exact alike_flagsAccImm q fun _ _ _ _ _ q => follows_next q
  case incRm | decRm | negRm | notRm => exact alike_unRm q (fun _ _ _ _ q => follows_next q) (locates_of h)
  case incReg | decReg => exact alike_unReg q fun _ _ _ _ q => follows_next q
  case shl | shr | sar | rol | ror | rcl | rcr => exact alike_shiftRm q (locates_of h)
  case mulRm => exact alike_mulRm q (locates_of h)
  case imulRm => exact alike_imulRm q (locates_of h)
  case divRm => exact alike_divRm q (locates_of h)
  case idivRm => exact alike_idivRm q (locates_of h)
  case movs => exact alike_repeatStep q (alike_moveString q (seg_eq_id h))
  case cmps => exact alike_repeatStep q (alike_compareString q (seg_eq_id h))
  case scas => exact alike_repeatStep q (alike_scanString q)
  case lods => exact alike_repeatStep q (alike_loadString q (seg_eq_id h))
  case stos => exact alike_repeatStep q (alike_storeString q)
  case callNear => exact (alike_push16 q).andThen fun _ q => follows_next q
  case callRm => exact alike_callRm q h
  case callFar => exact alike_callTo q _
  case callMem => exact (alike_readPointer q (seg_eq_id h)).andThen fun _ q => alike_callTo q _
  case retFar => exact alike_popFar q
  case retFarImm => exact (alike_popFar q).andThen fun _ q => follows_next q
  case je | jl | jle | jb | jbe | jp | jo | js | jne | jnl | jnle | jnb | jnbe | jnp | jno | jns | jcxz | jmpShort =>
    exact alike_branch q ..
  case loop | loopz | loopnz => exact alike_branch (s := s.setReg .word .cx (s.regs.cx - 1)) q ..
  case jmpRm => exact (alike_readRM q h).andThen fun _ q => follows_next q
  case int | int3 => exact alike_interruptSequence q ..
  case into => exact alike_into q
  case iret => exact alike_interruptReturn q
  case wait => exact alike_wait q
  case esc a b _ => exact alike_esc q a b (locates_of h)
  case segment => exact alike_segment q (seg_eq_id h)
  case lock => exact absurd rfl hi
  all_goals exact follows_next q

end

/-- Settles O47: LOCK differs where nothing is due, or the override differs where no operand depends on it. -/
theorem prefixesWithoutEffect : Obligations.PrefixesWithoutEffect := by
  intro s t i h
  refine ⟨fun b hi due => ?lock, fun o listed => ?override⟩
  case lock => exact ((alike_exec (x := ⟨fun _ => b, id⟩) (.inr due) i hi (.inl rfl)).answer t h).1
  case override =>
    have idle : ignoresOverride i := by
      cases i
      case callRm rm | jmpRm rm | pushRm rm | popRm rm =>
        cases rm with
        | reg c => exact ⟨c, rfl⟩
        | direct | base | disp8 | disp16 => cases listed
      all_goals exact listed
    have hi : i ≠ .lock := by
      rintro rfl
      exact listed
    exact ((alike_exec (x := ⟨id, fun _ => o⟩) (.inl rfl) i hi (.inr idle)).answer t h).1

end Sys2Proof.Machine
end

section
/-! Exceptions and the lines that bring them (spec/60_exceptions.md; O11, O53, O55): the lines change at the beginning of
a step, an NMI is taken once, the three words that the interrupt sequence pushes are all that it leaves in memory, and
single step comes on top of what else a recognition point takes. -/

namespace Sys2Proof.Machine

/-! ## The lines (spec/60_exceptions.md R503, R504, spec/45_processor_control.md R409; logs 6, 17) -/

/-- INTR, TEST and the schedule that drives the lines are in `t` as in `s`. -/
structure SameLines (s t : State) : Prop where
  intr : t.intr = s.intr
  test : t.test = s.test
  inputs : t.inputs = s.inputs

theorem SameLines.refl (s : State) : SameLines s s := ⟨rfl, rfl, rfl⟩

theorem SameLines.trans {s t u : State} (h : SameLines s t) (k : SameLines t u) : SameLines s u :=
  ⟨k.intr.trans h.intr, k.test.trans h.test, k.inputs.trans h.inputs⟩

theorem Tame.lines {s t : State} (h : Tame s t) : SameLines s t := ⟨h.intr, h.test, h.inputs⟩

theorem sample_of_cons {s : State} {l : Lines} {ls : List Lines} (h : s.inputs = l :: ls) :
    s.sample = State.putOthers l.writes
      { s with inputs := ls, intr := l.intr, test := l.test, nmiPending := s.nmiPending || l.nmi, due := l.bursts } := by
  rw [State.sample, h]

theorem resetNow_of_cons {s : State} {l : Lines} {ls : List Lines} (h : s.inputs = l :: ls) : s.resetNow = l.reset := by
  rw [State.resetNow, h]

theorem resetNow_of_nil {s : State} (h : s.inputs = []) : s.resetNow = false := by
  rw [State.resetNow, h]

/-- No instruction takes an NMI or touches the lines. -/
theorem exec_keeps_lines {i : Instr} {s t : State} (h : exec i s = .next t) :
    t.nmiPending = s.nmiPending ∧ SameLines s t := by
  by_cases hl : kindOf i = .latch
  · rw [exec_latch hl h]
    exact ⟨rfl, rfl, rfl, rfl⟩
  by_cases hs : kindOf i = .string
  · obtain ⟨u, k, rfl | ⟨stop, rfl⟩⟩ := exec_string hs h
    · exact ⟨k.nmi, k.toTame.lines⟩
    · have iteration : SameLines u (endIteration stop u) := ⟨by simp, by simp, by simp⟩
      exact ⟨(endIteration_nmiPending u stop).trans k.nmi, k.toTame.lines.trans iteration⟩
  · have k := exec_tame hl hs h
    exact ⟨k.nmi, k.lines⟩

/-- Whatever is taken, no NMI is pending afterwards: it comes first (R508). -/
theorem takeExternal_takes_nmi {saved : Word} {s : State} {r : State × Bool} (h : takeExternal saved s = .next r) :
    r.1.nmiPending = false ∧ SameLines s r.1 := by
  rcases takeExternal_next h with ⟨-, -, nmi⟩ | ⟨n, none_pending, -, -, -, intr⟩ | ⟨none_pending, -, rfl⟩
  · have k := tame_interruptSequence nmi
    exact ⟨k.nmi, k.intr, k.test, k.inputs⟩
  · have k := tame_interruptSequence intr
    exact ⟨k.nmi.trans none_pending, k.lines⟩
  · exact ⟨none_pending, .refl _⟩

/-- A pending NMI outlasts a recognition point only in the shadow (R504). -/
theorem recognise_lines {tf0 : Bool} {saved : Word} {s t : State} (h : recognise tf0 saved s = .next t) :
    t.nmiPending = (s.nmiPending && s.inhibit) ∧ SameLines s t := by
  rcases recognise_next h with ⟨shadow, rfl⟩ | ⟨no_shadow, r, hext, rest⟩
  · rw [shadow, Bool.and_true]
    exact ⟨rfl, rfl, rfl, rfl⟩
  · obtain ⟨taken, lines⟩ := takeExternal_takes_nmi hext
    rw [no_shadow, Bool.and_false]
    rcases rest with ⟨-, rfl⟩ | ⟨-, single⟩
    · exact ⟨taken, lines⟩
    · have k := tame_interruptSequence single
      exact ⟨k.nmi.trans taken, lines.trans k.lines⟩

/-- Settles O11: only the beginning of a step reads the schedule, and only a recognition point takes an NMI. -/
theorem inputsOfAStep : Obligations.InputsOfAStep := by
  refine ⟨fun s l ls scheduled => ?scheduled, fun s silent => ⟨resetNow_of_nil silent, sample_of_nil silent⟩,
    fun i s t h => ?instruction, fun tf0 saved s t h => ?recognition⟩
  case scheduled =>
    rw [sample_of_cons scheduled]
    exact ⟨resetNow_of_cons scheduled, putOthers_nmiPending .., putOthers_intr .., putOthers_test ..,
      putOthers_inputs .., putOthers_due .., fun wf => And.left (putOthers_stores l.writes wf)⟩
  case instruction =>
    obtain ⟨nmi, lines⟩ := exec_keeps_lines h
    exact ⟨nmi, lines.intr, lines.test, lines.inputs⟩
  case recognition =>
    obtain ⟨nmi, lines⟩ := recognise_lines h
    exact ⟨nmi, lines.intr, lines.test, lines.inputs⟩

/-! ## The interrupt sequence (spec/60_exceptions.md R506) -/

section
variable {n : Byte} {saved : Word} {s t : State} {a : PAddr}

theorem storedAt_word_of_ne {seg off : Word} (v : Word) (low : a ≠ phys seg off) (high : a ≠ phys seg (off + 1)) :
    storedAt (cells .word seg off v) a = none := by
  simp only [cells, storedAt, if_neg low.symm, if_neg high.symm, Option.none_or]

/-- The two bytes of a word on the stack lie `k + 1` and `k` bytes below `sp`. -/
theorem storedAt_slot_of_ne {seg sp : Word} {k : Nat} (v : Word) (low : a ≠ phys seg (sp - BitVec.ofNat 16 (k + 1)))
    (high : a ≠ phys seg (sp - BitVec.ofNat 16 k)) :
    storedAt (cells .word seg (sp - BitVec.ofNat 16 (k + 1)) v) a = none := by
  have above : sp - BitVec.ofNat 16 (k + 1) + 1 = sp - BitVec.ofNat 16 k := by
    rw [BitVec.ofNat_add, sub_add_eq_sub_sub]
    exact sub_add_cancel _ _
  exact storedAt_word_of_ne v low (above ▸ high)

/-- A byte that is none of the six below SS:SP is as before. -/
theorem Interrupted.byteAt_of_ne (h : Interrupted n saved s t)
    (outside : ∀ k : Nat, 1 ≤ k → k ≤ 6 → a ≠ phys s.segs.ss (s.regs.sp - BitVec.ofNat 16 k)) :
    t.byteAt a = s.byteAt a := by
  have slot (k : Nat) (v : Word) (above : 1 ≤ k) (below : k ≤ 5) :
      storedAt (cells .word s.segs.ss (s.regs.sp - BitVec.ofNat 16 (k + 1)) v) a = none :=
    storedAt_slot_of_ne v (outside (k + 1) (by omega) (by omega)) (outside k above (by omega))
  have flags : storedAt (cells .word s.segs.ss (s.regs.sp - 2) s.flags.toWord) a = none :=
    slot 1 _ (by decide) (by decide)
  have cs : storedAt (cells .word s.segs.ss (s.regs.sp - 4) s.segs.cs) a = none := slot 3 _ (by decide) (by decide)
  have ip : storedAt (cells .word s.segs.ss (s.regs.sp - 6) saved) a = none := slot 5 _ (by decide) (by decide)
  rw [h.2 a, storedAt_append, storedAt_append, flags, cs, ip]
  rfl

end

/-- Settles O53: the three words lie in separate slots, and the queue that the marks would be in is empty. -/
theorem interruptSequenceLeaves : Obligations.InterruptSequenceLeaves := by
  intro s n saved wf admitted
  obtain ⟨t, ht, taken, -⟩ := interruptSequence_of saved admitted wf
  obtain ⟨ip, cs, flags⟩ := taken.loads
  exact ⟨t, ht, flags, cs, ip, fun _ outside => taken.byteAt_of_ne outside, taken.1⟩

/-! ## The recognition point (spec/60_exceptions.md R507 to R509) -/

section
variable {saved : Word} {s : State}

theorem andThen_pure {α : Type} (o : Out α) : andThen o .next = o := by cases o <;> rfl

/-- In the shadow nothing is recognised, and the shadow is over (R509). -/
theorem recognise_of_shadow (tf0 : Bool) (saved : Word) (hi : s.inhibit = true) :
    recognise tf0 saved s = .next { s with inhibit := false } := if_pos hi

theorem recognise_of_no_shadow (tf0 : Bool) (saved : Word) (hi : s.inhibit = false) : recognise tf0 saved s =
    andThen (takeExternal saved s) fun r =>
      if tf0 then interruptSequence 1 (if r.2 then r.1.ip else saved) r.1 else .next r.1 :=
  if_neg (Bool.eq_false_iff.1 hi)

/-- Where an external interrupt is taken, single step is taken at the first instruction of its handler. -/
theorem recognise_of_taken {o : Out State} (hi : s.inhibit = false)
    (taken : takeExternal saved s = andThen o fun t => .next (t, true)) :
    recognise false saved s = o ∧ recognise true saved s = andThen o fun t => interruptSequence 1 t.ip t := by
  rw [recognise_of_no_shadow _ _ hi, recognise_of_no_shadow _ _ hi, taken, andThen_assoc, andThen_assoc]
  exact ⟨andThen_pure o, rfl⟩

/-- Where none is, single step is all there is. -/
theorem recognise_of_none (hi : s.inhibit = false) (none_taken : takeExternal saved s = .next (s, false)) :
    recognise false saved s = .next s ∧ recognise true saved s = interruptSequence 1 saved s := by
  rw [recognise_of_no_shadow _ _ hi, recognise_of_no_shadow _ _ hi, none_taken]
  exact ⟨rfl, rfl⟩

/-- Between two iterations the instruction is resumed at the last of its prefixes (spec/43_string.md R329). -/
theorem savedIp_of_inRepeat (h : s.inRepeat = true) :
    s.savedIp = s.cur.ip0 + BitVec.ofNat 16 (s.cur.nPrefix - 1) := if_pos h

theorem savedIp_of_not_inRepeat (h : s.inRepeat = false) : s.savedIp = s.ip := if_neg (Bool.eq_false_iff.1 h)

end

/-- Settles O55: what the external part takes, case by case, and single step after it. -/
theorem recognitionOrder : Obligations.RecognitionOrder := fun _ saved =>
  ⟨fun tf0 => recognise_of_shadow tf0 saved,
    fun hi nmi => recognise_of_taken hi (takeExternal_of_nmi saved nmi),
    fun _ hi nmi enabled intr => recognise_of_taken hi (takeExternal_of_intr saved nmi enabled intr),
    fun hi nmi quiet => recognise_of_none hi (takeExternal_of_none saved nmi quiet),
    fun inRepeat _ => savedIp_of_inRepeat inRepeat, savedIp_of_not_inRepeat⟩

end Sys2Proof.Machine
end

section
/-! RESET and the operands that have no meaning (spec/70_reset_and_hazards.md R540, spec/93_implementation_defined.md U4
to U9; O15, O30). After the reset sequence other masters' writes land as they would have without it, since where they
land is a matter of the memory map alone. A refusal of an operand is the refusal of the instruction: nothing runs
before it. -/

namespace Sys2Proof.Machine

/-! ## RESET (spec/70_reset_and_hazards.md R540, spec/20_memory.md R76; log 17) -/

section
variable {s t : State}

/-- What other masters' writes make of memory depends on memory and its map alone. -/
theorem putOthers_mem_congr (l : Burst) (mem : t.mem = s.mem) (unmapped : t.unmapped = s.unmapped)
    (rom : t.rom = s.rom) : (State.putOthers l t).mem = (State.putOthers l s).mem := by
  induction l generalizing s t with
  | nil => exact mem
  | cons c l ih =>
    rw [State.putOthers, State.putOthers, unmapped, rom]
    split
    · exact ih mem unmapped rom
    · have write : (t.put c.1 c.2).mem = (s.put c.1 c.2).mem := congrArg (·.write c.1.toNat c.2) mem
      exact ih write unmapped rom

theorem resetSequence_segs (s : State) :
    s.resetSequence.segs = { es := 0x0000, cs := 0xFFFF, ss := 0x0000, ds := 0x0000 } := rfl

theorem resetSequence_ip (s : State) : s.resetSequence.ip = 0x0000 := rfl

theorem settle_resetSequence_mem (s : State) : s.resetSequence.settle.mem = s.settle.mem :=
  putOthers_mem_congr (s := { s with due := [] }) (t := { s.resetSequence with due := [] }) s.due.flatten rfl rfl rfl

theorem settle_queue_of_empty (h : s.queue = []) : s.settle.queue = [] := by
  rw [State.settle, putOthers_queue]
  exact congrArg (markStored _) h

/-- Where no other master writes, the beginning and the end of a step leave memory alone. -/
theorem sample_settle_mem_of_silent {l : Lines} {ls : List Lines} (scheduled : s.inputs = l :: ls)
    (writes : l.writes = []) (bursts : l.bursts = []) : s.sample.settle.mem = s.mem := by
  rw [sample_of_cons scheduled, writes, bursts, State.putOthers, settle_of_due rfl]

/-- A step with RESET is the reset sequence, whatever the CPU was doing. -/
theorem step_reset (hr : s.resetNow = true) : step s = .next s.sample.resetSequence.settle := by
  rw [step, stepWith, act, hr, if_pos rfl, andThen_next]

end

/-- Settles O15: writes that land after the reset sequence reach memory alone, and the queue holds nothing to mark. -/
theorem resetLineAtAnyTime : Obligations.ResetLineAtAnyTime := by
  intro s reset
  have memory := settle_resetSequence_mem s.sample
  have address : phys s.sample.resetSequence.settle.segs.cs s.sample.resetSequence.settle.ip = 0xFFFF0 := by
    rw [settle_segs, settle_ip, resetSequence_segs, resetSequence_ip]
    rfl
  exact ⟨_, step_reset reset, settle_flags _, settle_segs _, settle_ip _, settle_inhibit _, settle_halted _,
    settle_nmiPending _, settle_inRepeat _, settle_lock _, settle_queue_of_empty rfl, address, memory,
    fun _ _ scheduled writes bursts => memory.trans (sample_settle_mem_of_silent scheduled writes bursts)⟩

/-! ## Operands without a meaning (spec/93_implementation_defined.md U4 to U9; logs 5, 14) -/

/-- There is no pointer in a register (U6, U7). -/
theorem readPointer_reg (c : RegCode) (s : State) : readPointer (.reg c) s = .refused .registerOperand := rfl

section
variable {p : Word} {s : State}

theorem ioReadByte_of_undriven (h : inSpans s.undriven p.toNat = true) :
    ioReadByte p s = .refused (.undrivenPort p.toNat) := if_pos h

theorem ioWriteByte_of_undriven (v : Byte) (h : inSpans s.undriven p.toNat = true) :
    ioWriteByte p v s = .refused (.undrivenPort p.toNat) := if_pos h

/-- Of either width: the byte at the port itself is read first (spec/92_eei_decisions.md D40). -/
theorem ioRead_of_undriven (w : Width) (h : inSpans s.undriven p.toNat = true) :
    ioRead w p s = .refused (.undrivenPort p.toNat) := by
  cases w <;> rw [ioRead, ioReadByte_of_undriven h, andThen_refused]

theorem ioWrite_of_undriven (w : Width) (v : Word) (h : inSpans s.undriven p.toNat = true) :
    ioWrite w p v s = .refused (.undrivenPort p.toNat) := by
  cases w with
  | byte => exact ioWriteByte_of_undriven _ h
  | word => rw [ioWrite, ioWriteByte_of_undriven _ h, andThen_refused]

/-- IN from an undriven port, of either form. -/
theorem in_of_undriven (w : Width) (h : inSpans s.undriven p.toNat = true) :
    (andThen (ioRead w p s) fun q => .next (q.2.setReg w .ax q.1) : Out State) = .refused (.undrivenPort p.toNat) := by
  rw [ioRead_of_undriven w h, andThen_refused]

end

theorem execLea_reg (r c : RegCode) (s : State) : execLea r (.reg c) s = .refused .registerOperand := rfl

theorem execLds_reg (r c : RegCode) (s : State) : execLds r (.reg c) s = .refused .registerOperand := by
  rw [execLds, readPointer_reg, andThen_refused]

theorem execLes_reg (r c : RegCode) (s : State) : execLes r (.reg c) s = .refused .registerOperand := by
  rw [execLes, readPointer_reg, andThen_refused]

theorem execCallMem_reg (c : RegCode) (s : State) : execCallMem (.reg c) s = .refused .registerOperand := by
  rw [execCallMem, readPointer_reg, andThen_refused]

theorem execJmpMem_reg (c : RegCode) (s : State) : execJmpMem (.reg c) s = .refused .registerOperand := by
  rw [execJmpMem, readPointer_reg, andThen_refused]

theorem execMovSregRm_cs (rm : RM) (s : State) : execMovSregRm .cs rm s = .refused .csDestination := if_pos rfl

theorem execPopSreg_cs (s : State) : execPopSreg .cs s = .refused .csDestination := if_pos rfl

/-- Settles O30: LDS, LES, CALL and JMP read a pointer, IN and OUT access the port, before anything else. -/
theorem refusedOperands : Obligations.RefusedOperands := fun s r c rm w _ =>
  ⟨execLea_reg r c s, execLds_reg r c s, execLes_reg r c s, execCallMem_reg c s, execJmpMem_reg c s,
    execMovSregRm_cs rm s, execPopSreg_cs s,
    fun undriven => ⟨in_of_undriven w undriven, ioWrite_of_undriven w _ undriven⟩,
    fun undriven => ⟨in_of_undriven w undriven, ioWrite_of_undriven w _ undriven⟩⟩

end Sys2Proof.Machine
end
